-- ==== Sys2Proof/Word.lean ====
section
/-! DEFINITION. The bit widths the spec gives its values. -/

namespace Sys2Proof

/-- A byte of the command link (R174). -/
abbrev Byte := BitVec 8

/-- A storage lane of the line store (R1). -/
abbrev Half := BitVec 16

/-- A 32-bit value: an accumulator lane (R2), a line number, an integrated number, a counter. -/
abbrev Word := BitVec 32

/-- A sample of the line port (R69). -/
abbrev Sample := BitVec 12

end Sys2Proof
end

