-- ==== Sys2Proof/Syntax.lean ====
section
/-! DEFINITION. The commands: one constructor per row of spec/opcode_table.json, in the table's order.
The acceptance of a request (PING to DEFECTS) takes the request at the head of the inbound queue, which holds its
kind, tag and payload (R182); only what the pins bring at that moment is an operand. -/

namespace Sys2Proof

inductive Instr where
  /-- COLD_RESET (R199): RESET_N goes low, or power is applied. -/
  | coldReset
  /-- RESET_RELEASE (R199): RESET_N returns high; the levels of BSEL1 and BSEL0 are sampled. -/
  | resetRelease (bsel1 bsel0 : Bool)
  /-- STARTUP_HOLD_EXPIRE (R21). -/
  | startupHoldExpire
  /-- REFRESH_TICK (R9). -/
  | refreshTick
  /-- REFRESH_START (R9). -/
  | refreshStart
  /-- REFRESH_COMPLETE (R8). -/
  | refreshComplete
  /-- BANK_OPEN_COMPLETE (R5) of one bank. -/
  | bankOpenComplete (bank : Fin 4)
  /-- ACCESS_COMPLETE (R3) on one bank. -/
  | accessComplete (bank : Fin 4)
  /-- BANK_CLOSE_COMPLETE (R5) of one bank. -/
  | bankCloseComplete (bank : Fin 4)
  /-- FRAME_RECEIVED (R180): the bytes that arrived on RXD up to the end of a frame (log 11). -/
  | frameReceived (bytes : List Byte)
  /-- INTER_BYTE_TIMEOUT (R179). -/
  | interByteTimeout
  /-- FRAME_SENT (R185). -/
  | frameSent
  /-- SVC_FALL (R188). -/
  | svcFall
  /-- TRIG_ACTIVE_EDGE (R73). -/
  | trigActiveEdge
  /-- ACTIVATION (R74), with the line's first sample (R70). -/
  | activation (first : Sample)
  /-- LINE_END (R76): the first sampling edge at which LVAL is inactive. -/
  | lineEnd
  /-- LONG (R78): sample P + 1 of a filling line. -/
  | long
  /-- ENGINE_TAKE_ITEM (R86). -/
  | engineTakeItem
  /-- MODE_CHANGE_COMPLETE (R196). -/
  | modeChangeComplete
  /-- PING (R189) accepted. -/
  | ping
  /-- STATUS (R190) accepted. -/
  | status
  /-- LEVEL (R188) accepted; svcRisen says that pin SVC has risen since it last fell (log 13). -/
  | level (svcRisen : Bool)
  /-- RESTART (R202) accepted. -/
  | restart
  /-- MODE (R195) accepted. -/
  | mode
  /-- GEOMETRY (R23) accepted. -/
  | geometry
  /-- DEFINE (R34) accepted. -/
  | define
  /-- REMOVE (R36) accepted. -/
  | remove
  /-- REGIONS (R37) accepted. -/
  | regions
  /-- CLEAR (R38) accepted. -/
  | clear
  /-- SELECT (R161) accepted. -/
  | select
  /-- WINDOW (R162) accepted. -/
  | window
  /-- READ (R166) accepted. -/
  | read
  /-- WRITE (R169) accepted. -/
  | write
  /-- SET (R50) accepted. -/
  | set
  /-- GET (R51) accepted. -/
  | get
  /-- PUSH (R52) accepted. -/
  | push
  /-- POP (R53) accepted. -/
  | pop
  /-- START (R56) accepted. -/
  | start
  /-- STOP (R65) accepted. -/
  | stop
  /-- HOLD (R154) accepted. -/
  | hold
  /-- RELEASE (R155) accepted. -/
  | release
  /-- HISTORY_INFO (R157) accepted. -/
  | historyInfo
  /-- DEFECTS (R145) accepted. -/
  | defects
  /-- SAMPLE (R76): a sampling edge of LCLK, with the level of LVAL and the sample at LD11-LD0 (log 14). -/
  | sample (lvalHigh : Bool) (data : Sample)
  /-- HEADER_RECEIVED (R178): the bytes that arrived on RXD up to the fifth header byte (log 11). -/
  | headerReceived (bytes : List Byte)
  /-- TRACKER_COMMIT (R141). -/
  | trackerCommit
deriving DecidableEq, Repr

end Sys2Proof
end

