-- ==== Sys2Proof/Decode.lean ====
section
/-! DEFINITION. The commands that a word spells. spec/opcode_table.json gives no row a bit pattern (the reader's
counts: n_rows_with_fixed 0), so no word spells a command. -/

namespace Sys2Proof

/-- The command that a word of the table's bits spells: none, since the table gives no row any bits. -/
def decodeTableWord (_nbits _w : Nat) : Option Instr := none

end Sys2Proof
end

