-- ==== Sys2Proof/Config.lean ====
section
/-! DEFINITION. What the spec leaves open: free values (constants with no body), and the limits it fixes. -/

namespace Sys2Proof.Config

/-- DESIGN CHOICE (log 4). The content of the lane at an address that nothing has written since the given
cold reset: undefined by R1, so free. -/
opaque coldLane : Nat → Nat → Half

/-- DESIGN CHOICE (log 6). The n-th choice among the claims one claimant has ready for one bank: R96 says the
order is not fixed. -/
opaque claimChoice : Nat → Nat

/-- DESIGN CHOICE (log 20). The part revision less one; R189 gives the revision the range 1 to 255 and no value. -/
opaque revisionIndex : Fin 255

/-- DESIGN CHOICE (log 21). Whether a deferred POP reply counts the stack as acceptance left it (true) or as it
stands when the reply is queued (false); R53 does not say. -/
opaque popCountAtAcceptance : Bool

/-- The part revision (R189, R200). -/
def partRevision : Byte := BitVec.ofNat 8 (revisionIndex.val + 1)

/-- Store rows of the line store (R1). -/
abbrev storeRows : Nat := 8192

/-- Storage lanes of a store row (R1). -/
abbrev rowLanes : Nat := 512

/-- Bank rows of a bank (R1); the range of the refresh row pointer (R8). -/
abbrev bankRows : Nat := 2048

/-- The debt at which a tick puts an urgent refresh in force (R10). -/
abbrev urgentDebt : Nat := 6

/-- The refresh debt is a count from 0 to 8 (R9, R12). -/
abbrev maxDebt : Nat := 8

/-- ENGINE grants after which a waiting ACCESS claim is due (R14, R15). -/
abbrev maxPassOver : Nat := 8

/-- Refreshes of the start-up sequence (R21). -/
abbrev startupRefreshes : Nat := 8

/-- Refreshes of the self-refresh exit burst (R20). -/
abbrev burstRefreshes : Nat := 64

/-- Requests the inbound queue holds (R181). -/
abbrev inboundPlaces : Nat := 4

/-- Entries of the reply queue (R184). -/
abbrev replyEntries : Nat := 8

/-- Places of the notice queue (R187). -/
abbrev noticePlaces : Nat := 32

/-- Records the open defect table holds (R142). -/
abbrev defectPlaces : Nat := 64

/-- Run records the run list holds (R115). -/
abbrev runPlaces : Nat := 128

/-- Records the context stack holds (R52). -/
abbrev stackPlaces : Nat := 4

/-- Positions of the history index (R150). -/
abbrev indexPositions : Nat := 1024

end Sys2Proof.Config
end

