-- ==== Sys2Proof/Machine/State.lean ====
section
/-! DEFINITION. The state of the part, block by block, as plain data; the reset state; the reasons a step stops. -/

namespace Sys2Proof.Machine

/-- Four like things, numbered 0 to 3: the banks (R1), the line slots (R75). -/
structure Four (α : Type) where
  a0 : α
  a1 : α
  a2 : α
  a3 : α
deriving DecidableEq, Repr

/-- Sparse data by number, in one canonical form (Table.wf): numbers strictly rising. A number not listed is unused. -/
abbrev Table (α : Type) := List (Nat × α)

/-- The line store's contents by lane address 512 r + l, in canonical form. A lane not listed has not been written
since the cold reset, and no listed entry equals that: its content is the free value Config.coldLane (logs 4, 5). -/
abbrev Memory := Table Half

/-- Link level, and write level of a region (R188, R30). -/
inductive Level where
  | operator
  | service
deriving DecidableEq, Repr

-- The bank controller (chapter 1)

/-- The condition of a WRITE (R3, R168). -/
inductive WriteCond where
  | always
  | ifGreater
  | ifLess
deriving DecidableEq, Repr

/-- The operation of a claim on its storage lanes (R3). An addend of ADD names the lane pair 2k, 2k+1 by k (R2). -/
inductive StoreOp where
  | read (lanes : List Nat)
  | write (cond : WriteCond) (values : List (Nat × Half))
  | add (addends : List (Nat × Word))
deriving DecidableEq, Repr

/-- Who makes a claim (R3): the integration engine, band tester and history writer as ENGINE, the access unit as ACCESS. -/
inductive Claimant where
  | engine
  | access
deriving DecidableEq, Repr

/-- The work a claim serves, which says who receives its result. Row numbers count the rows of a plane or entry. -/
inductive ClaimUse where
  /-- Engine: READ of GAIN row t (R89). -/
  | gain (row : Nat)
  /-- Engine: WRITE ALWAYS or ADD into an ACCUM row (R93). -/
  | accumulate
  /-- Engine: READ of an ACCUM row that completes a record, with the line's corrected values for it (R94). -/
  | complete (row : Nat) (corrected : List Nat)
  /-- Band tester: READ of a LOWER row (R110). -/
  | lower (row : Nat)
  /-- Band tester: READ of an UPPER row (R110). -/
  | upper (row : Nat)
  /-- Band tester: a teach write (R118). -/
  | teach
  /-- History writer: WRITE ALWAYS of a row of the line (R151). -/
  | history
  /-- Access unit: a segment of a READ (R166). -/
  | hostRead
  /-- Access unit: a segment of a WRITE (R169). -/
  | hostWrite
  /-- Access unit: a row of a CLEAR (R39). -/
  | clearRow
  /-- The work was discarded after the grant: the access completes and its result goes nowhere (R16). -/
  | discarded (claimant : Claimant)
deriving DecidableEq, Repr

/-- A claim: one store row, an operation and its lanes, for one claimant's work (R3). -/
structure Claim where
  row : Nat
  op : StoreOp
  use : ClaimUse
deriving DecidableEq, Repr

/-- The state of a bank; a bank row is named by its number in the bank (R5). -/
inductive BankState where
  | idle
  | opening (row : Nat)
  | opened (row : Nat)
  | closing
deriving DecidableEq, Repr

/-- A bank and its arbiter (R4, R5, R13). -/
structure Bank where
  st : BankState
  /-- The granted access that has not completed. -/
  granted : Option Claim
  /-- The waiting ENGINE claim. -/
  engineClaim : Option Claim
  /-- The waiting ACCESS claim. -/
  accessClaim : Option Claim
  passOver : Nat
deriving DecidableEq, Repr

/-- The state of the array (R7). -/
inductive ArrayState where
  | starting
  | ready
  | refreshing
  | selfRefresh
deriving DecidableEq, Repr

/-- The timed work of the bank controller itself (R8, R11, R20, R21). -/
inductive RefreshWork where
  | none
  /-- The 200 µs hold of the start-up sequence. -/
  | startupHold
  /-- A start-up refresh, with the number of refreshes left, itself among them. -/
  | startup (left : Nat)
  /-- A refresh under R9 or R11. -/
  | debt
  /-- A refresh of the exit burst, with the number left, itself among them. -/
  | burst (left : Nat)
deriving DecidableEq, Repr

/-- The bank controller (R1 to R22). -/
structure Store where
  mem : Memory
  /-- The model's own: how many cold resets there have been (log 4). -/
  coldEpoch : Nat
  banks : Four Bank
  /-- Claims of the integration engine ready and not yet a bank's waiting claim (R4). -/
  engineReady : List Claim
  /-- The same of the band tester. -/
  testerReady : List Claim
  /-- The same of the history writer. -/
  historyReady : List Claim
  /-- The access unit's next claim, not yet presented because its previous claim has not completed (R4). -/
  accessReady : Option Claim
  /-- The model's own: how many free choices among ready claims have been made (log 6). -/
  draws : Nat
  array : ArrayState
  work : RefreshWork
  debt : Nat
  urgent : Bool
  pointer : Nat
  ticking : Bool
  /-- Self-refresh entry has been ordered and not yet made (R19). -/
  entryOrdered : Bool
deriving DecidableEq, Repr

-- The region manager (chapter 2)

inductive Binning where
  | none
  | pair
deriving DecidableEq, Repr

inductive Edge where
  | rising
  | falling
deriving DecidableEq, Repr

inductive PinLevel where
  | high
  | low
deriving DecidableEq, Repr

/-- The geometry record (R23); Q and s derive from it (R24). -/
structure Geometry where
  pixels : Nat
  binning : Binning
  sampleEdge : Edge
  lvalLevel : PinLevel
  trigEdge : Edge
deriving DecidableEq, Repr

inductive RegionKind where
  | profile
  | accum
  | history
  | scratch
deriving DecidableEq, Repr

/-- A region record (R26). -/
structure Region where
  kind : RegionKind
  first : Nat
  rows : Nat
  writeLevel : Level
  loaded : Bool
deriving DecidableEq, Repr

-- The run controller (chapter 3)

inductive TestMode where
  | inspect
  | teach
deriving DecidableEq, Repr

/-- A context record (R44). A region field is none or an index; an excluded range is a first and a last lane. -/
structure Context where
  test : TestMode
  depth : Nat
  stride : Nat
  w0 : Nat
  w1 : Nat
  profile : Option Nat
  entry : Nat
  accum : Option Nat
  history : Option Nat
  excluded : List (Nat × Nat)
  minRun : Nat
  gapBridge : Nat
  gapLines : Nat
  maxSpan : Nat
  marginAbove : Nat
  marginBelow : Nat
deriving DecidableEq, Repr

/-- The default context (R45). -/
def Context.default : Context where
  test := .inspect
  depth := 1
  stride := 1
  w0 := 128
  w1 := 128
  profile := none
  entry := 0
  accum := none
  history := none
  excluded := []
  minRun := 1
  gapBridge := 0
  gapLines := 0
  maxSpan := 65535
  marginAbove := 0
  marginBelow := 0

/-- A field that level filtering retained, in the order of R47. -/
inductive Retained where
  | w0
  | w1
  | profileRegion
  | accumRegion
  | historyRegion
  | excluded
deriving DecidableEq, Repr

inductive RunState where
  | stopped
  | armed
  | running
  | draining
deriving DecidableEq, Repr

inductive Trigger where
  | now
  | atTrig
deriving DecidableEq, Repr

/-- The kind and tag of a request, which its reserved reply entry waits for (R184). -/
structure Ticket where
  kind : Byte
  tag : Byte
deriving DecidableEq, Repr

/-- The pending context with its deferred request (R58). -/
structure PendingContext where
  context : Context
  ticket : Ticket
  /-- The retained-fields list settled at acceptance (R47). -/
  retained : List Retained
  /-- The request was a POP, which left this many records on the stack; none for a SET. -/
  popLeft : Option Nat
deriving DecidableEq, Repr

/-- The run controller (R54). -/
structure Run where
  st : RunState
  active : Context
  next : Option PendingContext
  stack : List Context
  limit : Word
  trigger : Trigger
  phase : Word
deriving DecidableEq, Repr

-- The line port (chapter 4)

/-- The reasons of a loss (R75). -/
structure Reasons where
  overrun : Bool
  short : Bool
  long : Bool
deriving DecidableEq, Repr

/-- An item of the line queue (R75). -/
inductive QueueItem where
  | line (number : Word) (slot : Fin 4)
  | loss (first : Word) (count : Nat) (reasons : Reasons)
deriving DecidableEq, Repr

/-- The state of the port; IN_LINE is filling or discarding (R71). -/
inductive PortState where
  | off
  | waitTrig
  | ready
  | filling (number : Word) (slot : Fin 4)
  | discarding
deriving DecidableEq, Repr

/-- The line port (R71, R74, R75). A slot is free (none) or held, with the samples stored so far. -/
structure Port where
  st : PortState
  counter : Word
  slots : Four (Option (List Sample))
  queue : List QueueItem
  /-- The level of LVAL at the most recent sampling edge since power-up, true for high; none before one (R70). -/
  lval : Option Bool
deriving DecidableEq, Repr

-- The integration engine (chapter 5)

/-- A LINE item in hand: the parameters taken with it (R101), the accesses not yet completed, and whether the add of
R93 has begun. -/
structure LineWork where
  number : Word
  slot : Fin 4
  context : Context
  outstanding : Nat
  added : Bool
deriving DecidableEq, Repr

/-- The engine state (R85). -/
inductive EngineState where
  | idle
  | between
  | line (work : LineWork)
  | loss (first : Word) (count : Nat) (reasons : Reasons)
deriving DecidableEq, Repr

/-- A record of the accumulator ring (R91). -/
structure RingRecord where
  number : Word
  start : Word
  added : Nat
  entry : Nat
deriving DecidableEq, Repr

/-- Values of consecutive lanes that arrive row by row: each piece with its first lane, in lane order. -/
abbrev Pieces := List (Nat × List Half)

/-- The mean-line buffer (R95). -/
structure MeanLine where
  number : Word
  pieces : Pieces
deriving DecidableEq, Repr

/-- The integration engine (R85). -/
structure Engine where
  st : EngineState
  nextLine : Word
  stride : Nat
  counter : Word
  ring : List RingRecord
  mean : Option MeanLine
deriving DecidableEq, Repr

-- The band tester (chapter 6)

inductive Polarity where
  | above
  | below
deriving DecidableEq, Repr

/-- A run record (R113). -/
structure LaneRun where
  first : Nat
  last : Nat
  polarity : Polarity
  peakDev : Nat
  peakLane : Nat
  count : Nat
deriving DecidableEq, Repr

/-- The band tester's state, with the bounds read so far or the accesses left (R108). -/
inductive TesterState where
  | idle
  | testing (lower upper : Pieces) (left : Nat)
  | tracking
  | teaching (left : Nat)
deriving DecidableEq, Repr

/-- The band tester (R108). -/
structure Tester where
  st : TesterState
  runs : List LaneRun
  overflow : Nat
  teachCount : Word
deriving DecidableEq, Repr

-- The defect tracker (chapter 7)

/-- The flags of a defect record (R126). -/
structure DefectFlags where
  continuation : Bool
  split : Bool
  merged : Bool
  contextChange : Bool
  runEnd : Bool
  runStopped : Bool
  overflowLine : Bool
deriving DecidableEq, Repr

/-- A defect record (R126). -/
structure Defect where
  id : Nat
  seq : Word
  polarity : Polarity
  first : Option Word
  last : Option Word
  laneMin : Nat
  laneMax : Nat
  tailMin : Nat
  tailMax : Nat
  peakDev : Nat
  peakLane : Option Nat
  peakLine : Option Word
  area : Nat
  merged : Nat
  idle : Nat
  empty : Bool
  flags : DefectFlags
deriving DecidableEq, Repr

/-- The tracker's state; WORKING holds the integrated number and the run list handed over (R125). -/
inductive TrackerState where
  | idle
  | working (number : Word) (runs : List LaneRun)
deriving DecidableEq, Repr

/-- The defect tracker (R125). -/
structure Tracker where
  st : TrackerState
  table : List Defect
  nextId : Nat
  created : Word
  reported : Word
deriving DecidableEq, Repr

-- The history writer (chapter 8)

/-- A line's test result (R116, R119). -/
structure TestResult where
  runs : Nat
  overflow : Bool
  teach : Bool
deriving DecidableEq, Repr

/-- A position of the history index that is not EMPTY (R150). -/
inductive IndexPosition where
  | writing (number : Word) (region : Nat)
  | stored (number : Word) (region : Nat) (result : TestResult)
deriving DecidableEq, Repr

/-- The line the history writer has in hand: its entry, its number, the region and the region's entry count. -/
structure StoreLine where
  entry : Nat
  number : Word
  region : Nat
  entries : Nat
deriving DecidableEq, Repr

/-- The history writer's state (R149). -/
inductive WriterState where
  | idle
  | storing (line : StoreLine) (left : Nat)
  | filing (line : StoreLine)
deriving DecidableEq, Repr

/-- The history writer (R149). A position the index does not list is EMPTY. -/
structure History where
  st : WriterState
  writePos : Nat
  written : Word
  hold : Bool
  unstored : Nat
  result : Option TestResult
  index : Table IndexPosition
deriving DecidableEq, Repr

-- The access unit (chapters 2 and 9)

inductive Plane where
  | gain
  | lower
  | upper
  | single
deriving DecidableEq, Repr

/-- A window: first and last entry, first and last lane (R162). -/
structure Window where
  firstEntry : Nat
  lastEntry : Nat
  firstLane : Nat
  lastLane : Nat
deriving DecidableEq, Repr

/-- A position: an entry and a lane (R160). -/
structure Cursor where
  entry : Nat
  lane : Nat
deriving DecidableEq, Repr

/-- The selection with its window and cursor (R160). -/
structure Selection where
  region : Nat
  plane : Plane
  window : Window
  cursor : Cursor
deriving DecidableEq, Repr

/-- A READ or WRITE in execution: its reply entry, the claims not yet presented, and what the reply will say of the
walk (R163, R166, R169). -/
structure Transfer where
  ticket : Ticket
  claims : List Claim
  cursor : Cursor
  wrapped : Bool
deriving DecidableEq, Repr

/-- The access unit's state (R160). READING holds the values read so far as the storage lanes gave them and whether
lanes are wide; WRITING the written count so far. -/
inductive AccessState where
  | idle
  | reading (transfer : Transfer) (wide : Bool) (values : List Half)
  | writing (transfer : Transfer) (written : Nat)
deriving DecidableEq, Repr

/-- The CLEAR in flight (R39). -/
structure ClearWork where
  region : Nat
  firstEntry : Nat
  lastEntry : Nat
  fill0 : Half
  fill1 : Half
  fill2 : Half
  nextRow : Nat
  endRow : Nat
  ticket : Ticket
deriving DecidableEq, Repr

/-- The access unit (R160). -/
structure Access where
  selection : Option Selection
  st : AccessState
  clear : Option ClearWork
deriving DecidableEq, Repr

-- The command link (chapters 10 and 12)

/-- The bit rate the straps choose (R174). -/
inductive BitRate where
  | m1
  | m3
  | m6
  | m12
deriving DecidableEq, Repr

/-- The receiver's state with the bytes of the frame so far (R177). -/
inductive Receiver where
  | hunt
  | header (bytes : List Byte)
  | payload (kind tag : Byte) (length : Nat) (bytes : List Byte)
  | check (kind tag : Byte) (payload bytes : List Byte)
deriving DecidableEq, Repr

/-- A request in the inbound queue (R180); its length is its payload's. -/
structure Request where
  kind : Byte
  tag : Byte
  payload : List Byte
deriving DecidableEq, Repr

inductive ExecutorState where
  | idle
  | waitEntry
  | held
  | executing
deriving DecidableEq, Repr

/-- A message the part sends: what its frame carries besides lengths and checks (R175, R176). -/
structure Msg where
  kind : Byte
  tag : Byte
  payload : List Byte
deriving DecidableEq, Repr

/-- What a DEFECT notice carries (R138). -/
structure DefectReport where
  id : Nat
  polarity : Polarity
  first : Word
  last : Word
  laneMin : Nat
  laneMax : Nat
  peakDev : Nat
  peakLane : Nat
  peakLine : Word
  area : Nat
  merged : Nat
  flags : DefectFlags
deriving DecidableEq, Repr

/-- The status codes of section 12.2. -/
inductive Status where
  | ok
  | unknownKind
  | badLength
  | badField
  | badCheck
  | truncated
  | tooLong
  | full
  | busy
  | state
  | level
  | starting
  | noGeometry
  | fixed
  | region
  | overlap
  | size
  | bound
  | notLoaded
  | empty
  | stackFull
  | noSelection
  | transition
deriving DecidableEq, Repr

/-- The notices (R204). -/
inductive Notice where
  | ready (revision : Byte)
  | defect (report : DefectReport)
  | lineLost (first : Word) (count : Nat) (reasons : Reasons) (firstCut : Word) (cut : Nat)
  | runOverflow (number : Word) (dropped : Nat)
  | trackFull (number : Word) (untracked : Nat)
  | runEnd (lines integrated defects : Word)
  | noticesLost (drops : Nat)
  | levelDrop
deriving DecidableEq, Repr

/-- The transmitter, with the frame on TXD. Flushed says that a RESTART has taken the frame's place out of its queue
while the frame is sent to its end (R191, log 23). -/
inductive Transmitter where
  | idle
  | sendingReply (frame : Msg) (flushed : Bool)
  | sendingNotice (frame : Msg) (flushed : Bool)
deriving DecidableEq, Repr

/-- The command link (R174 to R192). The reply queue's eight entries are the reserved ones, each for a request, and
the queued ones in sending order; the rest are free (R184). -/
structure Link where
  rate : BitRate
  receiver : Receiver
  inbound : List Request
  holdOut : Bool
  executor : ExecutorState
  reserved : List Ticket
  replies : List Msg
  transmitter : Transmitter
  notices : List Notice
  drops : Nat
  level : Level
deriving DecidableEq, Repr

-- The mode controller (chapter 11)

/-- The steady modes a change goes between (R195). -/
inductive Steady where
  | quiet
  | active
  | retain
deriving DecidableEq, Repr

/-- The part mode (R193). -/
inductive Mode where
  | starting
  | steady (mode : Steady)
  | changing (source target : Steady)
deriving DecidableEq, Repr

/-- The mode controller: the mode and the reply entry of the change in flight (R193, R196). -/
structure ModeCtl where
  mode : Mode
  ticket : Option Ticket
deriving DecidableEq, Repr

/-- The model's own (log 31): what a STOP goes back to when it discards the LINE item in hand (R67). It is the table that the
previous finished item left, noted when the item in hand was taken, and the RUN_OVERFLOW notice that the item has queued, by
number and count. -/
structure ItemBefore where
  table : List Defect
  warned : Option (Word × Nat)
deriving DecidableEq, Repr

/-- The whole part, and the queue of commands waiting (log 1). -/
structure State where
  /-- RESET_N is low (R199). -/
  held : Bool
  /-- The level of pin SVC, true for high (log 13). -/
  svc : Bool
  store : Store
  geometry : Option Geometry
  regions : Table Region
  run : Run
  port : Port
  engine : Engine
  tester : Tester
  tracker : Tracker
  history : History
  access : Access
  link : Link
  modeCtl : ModeCtl
  before : ItemBefore
  pending : List Instr
deriving DecidableEq, Repr

/-- Why the machine stops. -/
inductive Fault where
  /-- Raised by ACCESS_COMPLETE when the claim names a store row above 8191 or a lane above 511, which R1 says do not
  exist. Safe: the part has no access there, and no claim it makes names one (log 25). -/
  | noSuchLane
deriving DecidableEq, Repr

/-- Why a command has no meaning. -/
inductive Refusal where
  /-- Raised by an arm of exec whose command has no meaning yet. Safe: nothing follows from a refusal. -/
  | notModelled (mnemonic : String)
deriving DecidableEq, Repr

-- Cold values, block by block

def Bank.cold : Bank where
  st := .idle
  granted := none
  engineClaim := none
  accessClaim := none
  passOver := 0

/-- R22; the contents are undefined, so nothing is listed. -/
def Store.cold (epoch draws : Nat) : Store where
  mem := []
  coldEpoch := epoch
  banks := ⟨Bank.cold, Bank.cold, Bank.cold, Bank.cold⟩
  engineReady := []
  testerReady := []
  historyReady := []
  accessReady := none
  draws := draws
  array := .starting
  work := .none
  debt := 0
  urgent := false
  pointer := 0
  ticking := false
  entryOrdered := false

/-- R68. -/
def Run.cold : Run where
  st := .stopped
  active := Context.default
  next := none
  stack := []
  limit := 0
  trigger := .now
  phase := 0

/-- R84. -/
def Port.cold : Port where
  st := .off
  counter := 0
  slots := ⟨none, none, none, none⟩
  queue := []
  lval := none

/-- R107. -/
def Engine.cold : Engine where
  st := .idle
  nextLine := 0
  stride := 0
  counter := 0
  ring := []
  mean := none

/-- R124. -/
def Tester.cold : Tester where
  st := .idle
  runs := []
  overflow := 0
  teachCount := 0

/-- R148. -/
def Tracker.cold : Tracker where
  st := .idle
  table := []
  nextId := 1
  created := 0
  reported := 0

/-- R159. -/
def History.cold : History where
  st := .idle
  writePos := 0
  written := 0
  hold := false
  unstored := 0
  result := none
  index := []

/-- R173. -/
def Access.cold : Access where
  selection := none
  st := .idle
  clear := none

/-- R192; the rate stands until the straps are sampled. DESIGN CHOICE (log 3) in State.reset: 1 Mbit/s. -/
def Link.cold (rate : BitRate) : Link where
  rate := rate
  receiver := .hunt
  inbound := []
  holdOut := false
  executor := .idle
  reserved := []
  replies := []
  transmitter := .idle
  notices := []
  drops := 0
  level := .operator

/-- R203. -/
def ModeCtl.cold : ModeCtl where
  mode := .starting
  ticket := none

/-- DESIGN CHOICE (log 31): nothing reads it until an item is taken. -/
def ItemBefore.cold : ItemBefore where
  table := []
  warned := none

/-- Every block at its cold values with RESET_N low (R199). What no reset reaches is given: the pin SVC, the bit rate
until the straps are sampled, the model's own counts and queue. -/
def State.cold (svc : Bool) (rate : BitRate) (epoch draws : Nat) (pending : List Instr) : State where
  held := true
  svc := svc
  store := Store.cold epoch draws
  geometry := none
  regions := []
  run := Run.cold
  port := Port.cold
  engine := Engine.cold
  tester := Tester.cold
  tracker := Tracker.cold
  history := History.cold
  access := Access.cold
  link := Link.cold rate
  modeCtl := ModeCtl.cold
  before := ItemBefore.cold
  pending := pending

/-- The machine right after reset: power is applied, RESET_N still low (R199, log 3). -/
def State.reset : State := State.cold false .m1 0 0 []

end Sys2Proof.Machine
end

