-- ==== Sys2Proof/Machine/Flags.lean ====
section
/-! DEFINITION. The codes and flag bytes of the messages (chapter 12), and the little-endian layout of numbers (R207). -/

namespace Sys2Proof.Machine

/-- The two bytes of a 16-bit field, low byte first (R207). -/
def le16 (n : Nat) : List Byte := [BitVec.ofNat 8 n, BitVec.ofNat 8 (n / 256)]

/-- The four bytes of a 32-bit field, low byte first (R207). -/
def le32 (n : Nat) : List Byte := le16 n ++ le16 (n / 65536)

/-- A one-byte field. -/
def byte (n : Nat) : Byte := BitVec.ofNat 8 n

/-- The weight of a flag bit. -/
def bit (b : Bool) (weight : Nat) : Nat := if b then weight else 0

/-- A flag byte from its bits, bit 0 first. -/
def flagByte (bits : List Bool) : Byte := byte (bits.foldr (fun b n => bit b 1 + 2 * n) 0)

/-- The codes of section 12.2. -/
def Status.code : Status → Byte
  | .ok => 0x00
  | .unknownKind => 0x01
  | .badLength => 0x02
  | .badField => 0x03
  | .badCheck => 0x04
  | .truncated => 0x05
  | .tooLong => 0x06
  | .full => 0x07
  | .busy => 0x08
  | .state => 0x09
  | .level => 0x0A
  | .starting => 0x0B
  | .noGeometry => 0x0C
  | .fixed => 0x0D
  | .region => 0x0E
  | .overlap => 0x0F
  | .size => 0x10
  | .bound => 0x11
  | .notLoaded => 0x12
  | .empty => 0x13
  | .stackFull => 0x14
  | .noSelection => 0x15
  | .transition => 0x16

/-- Link level and write level (R207). -/
def Level.code : Level → Byte
  | .operator => 0x00
  | .service => 0x01

/-- Region kind (R207). -/
def RegionKind.code : RegionKind → Byte
  | .profile => 0x00
  | .accum => 0x01
  | .history => 0x02
  | .scratch => 0x03

/-- Plane (R207). -/
def Plane.code : Plane → Byte
  | .gain => 0x00
  | .lower => 0x01
  | .upper => 0x02
  | .single => 0x03

/-- Binning (R207). -/
def Binning.code : Binning → Byte
  | .none => 0x00
  | .pair => 0x01

/-- Sample edge and TRIG edge (R207). -/
def Edge.code : Edge → Byte
  | .rising => 0x00
  | .falling => 0x01

/-- LVAL level (R207). -/
def PinLevel.code : PinLevel → Byte
  | .high => 0x00
  | .low => 0x01

/-- Test mode (R207). -/
def TestMode.code : TestMode → Byte
  | .inspect => 0x00
  | .teach => 0x01

/-- Trigger (R207). -/
def Trigger.code : Trigger → Byte
  | .now => 0x00
  | .atTrig => 0x01

/-- Run state (R207). -/
def RunState.code : RunState → Byte
  | .stopped => 0x00
  | .armed => 0x01
  | .running => 0x02
  | .draining => 0x03

/-- Polarity (R207). -/
def Polarity.code : Polarity → Byte
  | .above => 0x00
  | .below => 0x01

/-- A steady mode (R207). -/
def Steady.code : Steady → Byte
  | .quiet => 0x01
  | .active => 0x02
  | .retain => 0x03

/-- Part mode (R207). -/
def Mode.code : Mode → Byte
  | .starting => 0x00
  | .steady m => m.code
  | .changing _ _ => 0x04

/-- The source mode of a change; 0 when not CHANGING (STATUS reply, offset 2). -/
def Mode.sourceCode : Mode → Byte
  | .changing source _ => source.code
  | .starting | .steady _ => 0x00

/-- The target mode of a change; 0 when not CHANGING (STATUS reply, offset 3). -/
def Mode.targetCode : Mode → Byte
  | .changing _ target => target.code
  | .starting | .steady _ => 0x00

/-- A region index in a context record, FFh for none (R207). -/
def regionCode : Option Nat → Byte
  | none => 0xFF
  | some i => byte i

/-- The reasons byte of LINE_LOST: bit 0 OVERRUN, bit 1 SHORT, bit 2 LONG. -/
def Reasons.code (r : Reasons) : Byte := flagByte [r.overrun, r.short, r.long]

/-- The flag byte of a defect record: bits 0 to 6 in the order of section 12.4. -/
def DefectFlags.code (f : DefectFlags) : Byte :=
  flagByte [f.continuation, f.split, f.merged, f.contextChange, f.runEnd, f.runStopped, f.overflowLine]

/-- The retained-fields list as one byte, bit 0 W0 to bit 5 EXCLUDED (section 12.4). -/
def retainedCode (fields : List Retained) : Byte :=
  flagByte [fields.contains .w0, fields.contains .w1, fields.contains .profileRegion, fields.contains .accumRegion,
    fields.contains .historyRegion, fields.contains .excluded]

/-- The flags of a history index position: bit 0 RUN_OVERFLOW, bit 1 TEACH (section 12.4). -/
def TestResult.code (r : TestResult) : Byte := flagByte [r.overflow, r.teach]

/-- The kind byte of a notice (R204). -/
def Notice.kind : Notice → Byte
  | .ready _ => 0x40
  | .defect _ => 0x41
  | .lineLost _ _ _ _ _ => 0x42
  | .runOverflow _ _ => 0x43
  | .trackFull _ _ => 0x44
  | .runEnd _ _ _ => 0x45
  | .noticesLost _ => 0x46
  | .levelDrop => 0x47

/-- The DEFECT payload, 29 bytes (section 12.4). -/
def DefectReport.bytes (d : DefectReport) : List Byte :=
  le16 d.id ++ [d.polarity.code] ++ le32 d.first.toNat ++ le32 d.last.toNat ++ le16 d.laneMin ++ le16 d.laneMax
    ++ le16 d.peakDev ++ le16 d.peakLane ++ le32 d.peakLine.toNat ++ le32 d.area ++ [byte d.merged, d.flags.code]

/-- The payload of a notice (section 12.4). -/
def Notice.payload : Notice → List Byte
  | .ready revision => [revision]
  | .defect d => d.bytes
  | .lineLost first count reasons firstCut cut =>
      le32 first.toNat ++ le32 count ++ [reasons.code] ++ le32 firstCut.toNat ++ le32 cut
  | .runOverflow number dropped => le32 number.toNat ++ le16 dropped
  | .trackFull number untracked => le32 number.toNat ++ [byte untracked]
  | .runEnd lines integrated defects => le32 lines.toNat ++ le32 integrated.toNat ++ le32 defects.toNat
  | .noticesLost drops => le16 drops
  | .levelDrop => []

/-- A notice as a message: its kind, a tag of 0, its payload (R176). -/
def Notice.msg (n : Notice) : Msg := ⟨n.kind, 0, n.payload⟩

/-- The context record, 35 bytes, unused range slots 0 (section 12.4, R207). -/
def Context.bytes (c : Context) : List Byte :=
  [c.test.code, byte c.depth, byte c.stride, byte c.w0, byte c.w1, regionCode c.profile, byte c.entry,
    regionCode c.accum, regionCode c.history, byte c.minRun, byte c.gapBridge, byte c.gapLines]
    ++ le16 c.maxSpan ++ le16 c.marginAbove ++ le16 c.marginBelow ++ [byte c.excluded.length]
    ++ c.excluded.flatMap (fun r => le16 r.1 ++ le16 r.2)
    ++ List.replicate (16 - 4 * c.excluded.length) 0

/-- A window as 8 bytes (section 12.4). -/
def Window.bytes (w : Window) : List Byte :=
  le16 w.firstEntry ++ le16 w.lastEntry ++ le16 w.firstLane ++ le16 w.lastLane

/-- A cursor as 4 bytes (section 12.4). -/
def Cursor.bytes (c : Cursor) : List Byte := le16 c.entry ++ le16 c.lane

/-- A history index position, 8 bytes; a field the state does not give is 0 (section 12.4). -/
def indexBytes : Option IndexPosition → List Byte
  | none => [0x00, 0x00, 0x00, 0x00] ++ le32 0
  | some (.writing number region) => [0x01, byte region, 0x00, 0x00] ++ le32 number.toNat
  | some (.stored number region result) => [0x02, byte region, byte result.runs, result.code] ++ le32 number.toNat

/-- An integrated number, 0 when unset (section 12.4). -/
def lineBytes (n : Option Word) : List Byte := le32 (n.getD 0).toNat

/-- A defect table record, 39 bytes (section 12.4). DEDUCED (log 22): an unset peak lane is sent as 0. -/
def Defect.bytes (d : Defect) : List Byte :=
  le16 d.id ++ le32 d.seq.toNat ++ [d.polarity.code] ++ lineBytes d.first ++ lineBytes d.last
    ++ le16 d.laneMin ++ le16 d.laneMax ++ le16 d.tailMin ++ le16 d.tailMax ++ le16 d.peakDev
    ++ le16 (d.peakLane.getD 0) ++ lineBytes d.peakLine ++ le32 d.area ++ [byte d.merged, byte d.idle]
    ++ [flagByte [d.empty, d.first.isNone, d.last.isNone, d.peakLine.isNone], d.flags.code]

end Sys2Proof.Machine
end

