-- ==== Sys2Proof/Machine/Ops.lean ====
section
/-! DEFINITION. The shared operations: sparse tables, four-place records, the line store's memory, the queues of the
command link, and how a command's effect becomes a step. -/

namespace Sys2Proof.Machine

-- Sparse tables

/-- The canonical form: numbers strictly rising. -/
abbrev Table.wf {α : Type} (t : Table α) : Prop := List.Pairwise (fun a b : Nat × α => a.1 < b.1) t

/-- What a table holds at a number; none where the number is not listed. -/
def Table.find {α : Type} : Table α → Nat → Option α
  | [], _ => none
  | (k, v) :: rest, n => if k = n then some v else Table.find rest n

/-- The table with one number's value replaced or added in its place. -/
def Table.put {α : Type} : Table α → Nat → α → Table α
  | [], n, x => [(n, x)]
  | (k, v) :: rest, n, x =>
    if n < k then (n, x) :: (k, v) :: rest
    else if n = k then (n, x) :: rest
    else (k, v) :: Table.put rest n x

/-- The table without one number. -/
def Table.drop {α : Type} : Table α → Nat → Table α
  | [], _ => []
  | (k, v) :: rest, n => if k = n then rest else (k, v) :: Table.drop rest n

-- Four like things

def Four.get {α : Type} (f : Four α) (i : Fin 4) : α :=
  match i with
  | 0 => f.a0
  | 1 => f.a1
  | 2 => f.a2
  | 3 => f.a3

def Four.set {α : Type} (f : Four α) (i : Fin 4) (x : α) : Four α :=
  match i with
  | 0 => { f with a0 := x }
  | 1 => { f with a1 := x }
  | 2 => { f with a2 := x }
  | 3 => { f with a3 := x }

/-- A property of all four. -/
def Four.all {α : Type} (p : α → Bool) (f : Four α) : Bool := p f.a0 && p f.a1 && p f.a2 && p f.a3

def Four.map {α : Type} (g : α → α) (f : Four α) : Four α := ⟨g f.a0, g f.a1, g f.a2, g f.a3⟩

-- The line store's memory

/-- The canonical form of the memory. -/
abbrev Memory.wf (m : Memory) : Prop := Table.wf m

/-- The address of a lane of a store row (R1). -/
def laneAddr (row lane : Nat) : Nat := Config.rowLanes * row + lane

/-- What a lane holds: the value last written, or undefined since the cold reset, a free value (R1, log 4). -/
def Memory.lane (epoch : Nat) (m : Memory) (addr : Nat) : Half := (Table.find m addr).getD (Config.coldLane epoch addr)

/-- Whether a supplied value is written over a held one: strictly greater or strictly less (R17). -/
def WriteCond.holds : WriteCond → Half → Half → Bool
  | .always, _, _ => true
  | .ifGreater, old, new => decide (old.toNat < new.toNat)
  | .ifLess, old, new => decide (new.toNat < old.toNat)

/-- One lane of a write: the memory after it and whether the lane was written (R17). -/
def Memory.writeLane (epoch : Nat) (cond : WriteCond) (m : Memory) (addr : Nat) (v : Half) : Memory × Bool :=
  if cond.holds (Memory.lane epoch m addr) v then (Table.put m addr v, true) else (m, false)

/-- A write of a row's named lanes, with the result per lane (R3, R17). -/
def Memory.writeLanes (epoch row : Nat) (cond : WriteCond) : Memory → List (Nat × Half) → Memory × List Bool
  | m, [] => (m, [])
  | m, (lane, v) :: rest =>
    let first := Memory.writeLane epoch cond m (laneAddr row lane) v
    let others := Memory.writeLanes epoch row cond first.1 rest
    (others.1, first.2 :: others.2)

/-- The 32-bit value of lane pair k of a row: low half in lane 2k, high half in lane 2k + 1 (R2). -/
def Memory.wide (epoch : Nat) (m : Memory) (row k : Nat) : Word :=
  Memory.lane epoch m (laneAddr row (2 * k + 1)) ++ Memory.lane epoch m (laneAddr row (2 * k))

/-- The lane pair k of a row with a 32-bit value in it (R2). -/
def Memory.putWide (m : Memory) (row k : Nat) (v : Word) : Memory :=
  Table.put (Table.put m (laneAddr row (2 * k)) (v.setWidth 16)) (laneAddr row (2 * k + 1)) ((v >>> 16).setWidth 16)

/-- ADD on a row's named lane pairs (R3, R18). -/
def Memory.addLanes (epoch row : Nat) : Memory → List (Nat × Word) → Memory
  | m, [] => m
  | m, (k, addend) :: rest =>
    Memory.addLanes epoch row (Memory.putWide m row k (Memory.wide epoch m row k + addend)) rest

/-- What an access gives its claimant (R3). -/
structure AccessResult where
  values : List Half
  written : List Bool
deriving DecidableEq, Repr

/-- One access, carried out whole (R3, R17, R18). -/
def Memory.perform (epoch : Nat) (m : Memory) (row : Nat) : StoreOp → Memory × AccessResult
  | .read lanes => (m, ⟨lanes.map (fun l => Memory.lane epoch m (laneAddr row l)), []⟩)
  | .write cond values =>
    let r := Memory.writeLanes epoch row cond m values
    (r.1, ⟨[], r.2⟩)
  | .add addends => (Memory.addLanes epoch row m addends, ⟨[], []⟩)

/-- The lanes an operation names. -/
def StoreOp.lanes : StoreOp → List Nat
  | .read lanes => lanes
  | .write _ values => values.map (·.1)
  | .add addends => addends.flatMap (fun p => [2 * p.1, 2 * p.1 + 1])

/-- The store row and every lane a claim names exist (R1). -/
def Claim.inStore (c : Claim) : Bool := decide (c.row < Config.storeRows) && c.op.lanes.all (fun l => decide (l < Config.rowLanes))

/-- The bank of a store row (R1). -/
def bankOf (row : Nat) : Fin 4 := ⟨row % 4, Nat.mod_lt row (by decide)⟩

/-- The bank row of a store row (R1). -/
def bankRowOf (row : Nat) : Nat := row / 4

-- The reply queue and the transmitter

/-- The reply queue has a free entry (R184). -/
def Link.hasFreeEntry (l : Link) : Bool := decide (l.replies.length + l.reserved.length < Config.replyEntries)

/-- The kind of the reply to a request kind (R175). -/
def replyKind (kind : Byte) : Byte := kind + 0x80

/-- The kind of a receiver rejection: 80h added when the received kind is below 80h (R176). -/
def rejectionKind (kind : Byte) : Byte := if kind.toNat < 0x80 then kind + 0x80 else kind

/-- Fills the entry reserved for a request with its reply (R184). -/
def Link.reply (t : Ticket) (payload : List Byte) (l : Link) : Link :=
  { l with reserved := l.reserved.erase t, replies := l.replies ++ [⟨replyKind t.kind, t.tag, payload⟩] }

/-- A receiver rejection: placed in a free entry, or not sent when there is none (R179). -/
def Link.reject (kind tag : Byte) (status : Status) (l : Link) : Link :=
  if l.hasFreeEntry then { l with replies := l.replies ++ [⟨rejectionKind kind, tag, [status.code]⟩] } else l

/-- The notice queue as an offered notice leaves it (R187). -/
def Link.offer (n : Notice) (l : Link) : Link :=
  let free := Config.noticePlaces - l.notices.length
  if l.drops = 0 then
    if 1 ≤ free then { l with notices := l.notices ++ [n] } else { l with drops := 1 }
  else if 2 ≤ free then { l with notices := l.notices ++ [.noticesLost l.drops, n], drops := 0 }
  else { l with drops := min 65535 (l.drops + 1) }

/-- Several notices offered one after another. -/
def Link.offerAll (l : Link) (ns : List Notice) : Link := ns.foldl (fun l n => l.offer n) l

/-- An offered notice would find its places in the queue (R187). -/
def Link.hasRoom (l : Link) : Bool :=
  decide ((if l.drops = 0 then 1 else 2) ≤ Config.noticePlaces - l.notices.length)

/-- A queued notice is taken back, the newest that is like it (R67). A frame in transmission is sent to its end, and its
place at the head of the queue stays (R185). -/
def Link.takeBack (n : Notice) (l : Link) : Link :=
  let sending :=
    match l.transmitter with
    | .sendingNotice _ false => 1
    | .idle | .sendingReply _ _ | .sendingNotice _ true => 0
  { l with notices := l.notices.take sending ++ ((l.notices.drop sending).reverse.erase n).reverse }

/-- An idle transmitter starts the oldest queued reply, or else the head notice (R185). -/
def Link.startSending (l : Link) : Link :=
  match l.transmitter with
  | .idle =>
    match l.replies, l.notices with
    | r :: _, _ => { l with transmitter := .sendingReply r false }
    | [], n :: _ => { l with transmitter := .sendingNotice n.msg false }
    | [], [] => l
  | .sendingReply _ _ | .sendingNotice _ _ => l

-- The inbound queue and the executor

/-- HOLD when a request joins and the queue then holds this many (R181). -/
def holdOnJoin (count : Nat) (out : Bool) : Bool := if 3 ≤ count then true else out

/-- HOLD when a request leaves and the queue then holds this many (R181). -/
def holdOnLeave (count : Nat) (out : Bool) : Bool := if count ≤ 1 then false else out

/-- A request joins the inbound queue (R181). -/
def Link.join (r : Request) (l : Link) : Link :=
  { l with inbound := l.inbound ++ [r], holdOut := holdOnJoin (l.inbound.length + 1) l.holdOut }

/-- The requests that are not held during a mode change: PING, STATUS, LEVEL, REGIONS (R186). -/
def exemptKind (kind : Byte) : Bool := kind == 0x01 || kind == 0x02 || kind == 0x03 || kind == 0x09

/-- A mode change is in flight (R186). -/
def Mode.isChanging : Mode → Bool
  | .changing _ _ => true
  | .starting | .steady _ => false

/-- The executor considers the head of the inbound queue (R182, R186). DESIGN CHOICE (log 12): with a request it may
accept it stands at IDLE until the command that accepts it. -/
def Link.consider (mode : Mode) (l : Link) : Link :=
  match l.executor with
  | .executing => l
  | .idle | .waitEntry | .held =>
    match l.inbound with
    | [] => { l with executor := .idle }
    | r :: _ =>
      if mode.isChanging && !exemptKind r.kind then { l with executor := .held }
      else if l.hasFreeEntry then { l with executor := .idle }
      else { l with executor := .waitEntry }

/-- The request the executor may accept now, if it is of the given kind, and the requests behind it (R182, R186). -/
def Link.acceptable (mode : Mode) (kind : Byte) (l : Link) : Option (Request × List Request) :=
  match l.inbound with
  | [] => none
  | r :: rest =>
    if r.kind = kind ∧ l.executor ≠ .executing ∧ ¬(mode.isChanging = true ∧ exemptKind kind = false) ∧ l.hasFreeEntry = true
    then some (r, rest) else none

def Request.ticket (r : Request) : Ticket := ⟨r.kind, r.tag⟩

/-- Acceptance: an entry is reserved and the request leaves the queue (R182). -/
def Link.take (r : Request) (rest : List Request) (l : Link) : Link :=
  { l with inbound := rest, holdOut := holdOnLeave rest.length l.holdOut, reserved := l.reserved ++ [r.ticket] }

-- State-level operations

/-- The port, engine, band tester, tracker and history writer are powered in ACTIVE alone (R193). -/
def State.powered (s : State) : Bool := decide (s.modeCtl.mode = .steady .active)

def State.reply (t : Ticket) (payload : List Byte) (s : State) : State := { s with link := s.link.reply t payload }

def State.offer (n : Notice) (s : State) : State := { s with link := s.link.offer n }

/-- What follows every event at once on the link: the executor considers the head request (R182) and an idle
transmitter starts a frame (R185). -/
def State.settleLink (s : State) : State := { s with link := (s.link.consider s.modeCtl.mode).startSending }

/-- A command's effect as a step. While RESET_N is low the part is held in reset and takes nothing (R199). -/
def awake (s : State) (effect : State → State) : Host.Outcome State Fault Refusal :=
  .next (if s.held then s else (effect s).settleLink)

/-- The first status whose condition holds. -/
def firstFailure : List (Bool × Status) → Option Status
  | [] => none
  | (bad, status) :: rest => if bad then some status else firstFailure rest

end Sys2Proof.Machine
end

