-- ==== Sys2Proof/Machine/Arbiter.lean ====
section
/-! DEFINITION. Claims, grant decisions and refresh: what the bank controller does at once (R4 to R20). -/

namespace Sys2Proof.Machine

/-- Grants are permitted while the array is READY and no urgent refresh is in force (R6). -/
def Store.permitted (st : Store) : Bool := decide (st.array = .ready) && !st.urgent

/-- All four banks are IDLE (R8). -/
def Store.allIdle (st : Store) : Bool := st.banks.all (fun b => decide (b.st = .idle))

/-- No claim waits on any bank, or is ready to (R9). -/
def Store.noClaimWaits (st : Store) : Bool :=
  st.banks.all (fun b => b.engineClaim.isNone && b.accessClaim.isNone)
    && st.engineReady.isEmpty && st.testerReady.isEmpty && st.historyReady.isEmpty && st.accessReady.isNone

/-- The claimant that a claim names (R3). -/
def ClaimUse.claimant : ClaimUse → Claimant
  | .gain _ | .accumulate | .complete _ _ | .lower _ | .upper _ | .teach | .history => .engine
  | .hostRead | .hostWrite | .clearRow => .access
  | .discarded claimant => claimant

/-- The access unit's claim waits on the bank, or was granted there and has not completed (R4). -/
def Bank.hasAccess (b : Bank) : Bool :=
  b.accessClaim.isSome || b.granted.any (fun c => decide (c.use.claimant = .access))

/-- A claim of the access unit is in the store: the previous one has not completed (R4). -/
def Store.accessUnderWay (st : Store) : Bool := !st.banks.all (fun b => !b.hasAccess)

/-- A grant decision that is permitted: the waiting claim it grants and the pass-over count (R13, R14, R15). -/
def Bank.grant (b : Bank) : Bank :=
  match b.engineClaim, b.accessClaim with
  | none, none => b
  | some e, none => { b with granted := some e, engineClaim := none }
  | none, some a => { b with granted := some a, accessClaim := none, passOver := 0 }
  | some e, some a =>
    if b.passOver < Config.maxPassOver then { b with granted := some e, engineClaim := none, passOver := b.passOver + 1 }
    else { b with granted := some a, accessClaim := none, passOver := 0 }

/-- One of a claimant's ready claims for a bank, the claims left and the draws made. The order among several is free
(R96, log 6). -/
def pickReady (bank : Fin 4) (ready : List Claim) (draws : Nat) : Option (Claim × List Claim × Nat) :=
  match ready.filter (fun c => bankOf c.row = bank) with
  | [] => none
  | [c] => some (c, ready.erase c, draws)
  | c :: d :: rest =>
    let here := c :: d :: rest
    let pick := here.getD (Config.claimChoice draws % here.length) c
    some (pick, ready.erase pick, draws + 1)

/-- A bank with no waiting ENGINE claim takes one: the integration engine's first, then the band tester's, then the
history writer's (R4). -/
def Store.present (bank : Fin 4) (st : Store) : Store :=
  let b := st.banks.get bank
  if b.engineClaim.isSome then st
  else
    match pickReady bank st.engineReady st.draws with
    | some (c, rest, draws) =>
      { st with engineReady := rest, draws := draws, banks := st.banks.set bank { b with engineClaim := some c } }
    | none =>
      match pickReady bank st.testerReady st.draws with
      | some (c, rest, draws) =>
        { st with testerReady := rest, draws := draws, banks := st.banks.set bank { b with engineClaim := some c } }
      | none =>
        match pickReady bank st.historyReady st.draws with
        | some (c, rest, draws) =>
          { st with historyReady := rest, draws := draws, banks := st.banks.set bank { b with engineClaim := some c } }
        | none => st

/-- The grant decision of an IDLE bank: a granted claim opens its row (R5, R6). -/
def Store.decideIdle (bank : Fin 4) (st : Store) : Store :=
  let b := st.banks.get bank
  if b.st = .idle ∧ st.permitted = true then
    let g := ({ b with granted := none }).grant
    match g.granted with
    | some c => { st with banks := st.banks.set bank { g with st := .opening (bankRowOf c.row) } }
    | none => st
  else st

/-- The grant decision at the completion of an access, with the row that is open: the row stays open for a claim on
it, and otherwise the bank closes (R6). -/
def Store.decideDone (bank : Fin 4) (row : Nat) (st : Store) : Store :=
  let b := { st.banks.get bank with granted := none }
  let g := if st.permitted then b.grant else b
  match g.granted with
  | some c =>
    { st with banks := st.banks.set bank { g with st := if bankRowOf c.row = row then .opened row else .closing } }
  | none => { st with banks := st.banks.set bank { g with st := .closing } }

/-- Ready claims arrive at a bank, and an IDLE bank decides (R4, R6). The choice of the waiting ENGINE claim is made
again after a grant. -/
def Store.settleBank (bank : Fin 4) (st : Store) : Store := ((st.present bank).decideIdle bank).present bank

def Store.settleBanks (st : Store) : Store :=
  (((st.settleBank 0).settleBank 1).settleBank 2).settleBank 3

/-- Back-to-back refresh begins once an urgent refresh is in force and all banks are IDLE (R11). DEDUCED (log 27): an
ordered self-refresh entry goes before one that has not begun (R19). -/
def Store.startUrgent (st : Store) : Store :=
  if st.urgent = true ∧ st.array = .ready ∧ st.allIdle = true ∧ st.entryOrdered = false then
    { st with array := .refreshing, work := .debt }
  else st

/-- An ordered self-refresh entry is made once the array is READY and all banks are IDLE (R19). -/
def Store.enterSelfRefresh (st : Store) : Store :=
  if st.entryOrdered = true ∧ st.array = .ready ∧ st.allIdle = true then
    { st with array := .selfRefresh, work := .none, debt := 0, urgent := false, entryOrdered := false }
  else st

/-- What the bank controller does at once when a bank comes to IDLE or the array to READY: self-refresh entry, an
urgent run, or grant decisions (R6, R11, R19). -/
def Store.settle (st : Store) : Store := st.enterSelfRefresh.startUrgent.settleBanks

/-- The access unit's next claim arrives at its bank, once the previous one has completed (R4). -/
def Store.admitAccess (st : Store) : Store :=
  match st.accessReady with
  | none => st
  | some c =>
    if st.accessUnderWay then st
    else
      let bank := bankOf c.row
      { st with accessReady := none, banks := st.banks.set bank { st.banks.get bank with accessClaim := some c } }

/-- The access unit has a next claim: it is presented at once, or on the completion of the previous claim, which a CLEAR
that RESTART aborted can have left in the store (R4, R16). -/
def Store.presentAccess (c : Claim) (st : Store) : Store := ({ st with accessReady := some c }).admitAccess

/-- A granted access of a claimant goes on, and its result is discarded with the work it served (R16). -/
def Bank.discardGranted (claimant : Claimant) (b : Bank) : Option Claim :=
  b.granted.map fun c => if c.use.claimant = claimant then { c with use := .discarded claimant } else c

/-- The withdrawal of a bank's waiting ENGINE claim (R16). -/
def Bank.withdrawEngine (b : Bank) : Bank := { b with engineClaim := none, granted := b.discardGranted .engine }

/-- STOP and RESTART withdraw every ENGINE claim of the work they discard (R16). -/
def Store.withdrawEngine (st : Store) : Store :=
  { st with banks := st.banks.map Bank.withdrawEngine, engineReady := [], testerReady := [], historyReady := [] }

/-- The withdrawal of a bank's waiting ACCESS claim, which sets its pass-over count to 0 (R13, R16). -/
def Bank.withdrawAccess (b : Bank) : Bank :=
  { b with
    passOver := if b.accessClaim.isSome then 0 else b.passOver
    accessClaim := none
    granted := b.discardGranted .access }

/-- RESTART withdraws any waiting ACCESS claim (R16, R42). -/
def Store.withdrawAccess (st : Store) : Store := { st with banks := st.banks.map Bank.withdrawAccess, accessReady := none }

/-- A tick: the debt goes up by one, except in self-refresh and in the exit burst, and at 6 an urgent refresh is in
force (R9, R10). DEDUCED (log 9): the debt stays in its range 0 to 8. -/
def Store.tick (st : Store) : Store :=
  match st.array, st.work with
  | .selfRefresh, _ => st
  | _, .burst _ => st
  | _, _ =>
    { st with
      debt := min Config.maxDebt (st.debt + 1)
      urgent := st.urgent || decide (st.debt + 1 = Config.urgentDebt) }

/-- The refresh row pointer after a refresh (R8). -/
def nextPointer (p : Nat) : Nat := if p + 1 < Config.bankRows then p + 1 else 0

/-- Self-refresh entry is ordered (R19). -/
def Store.orderEntry (st : Store) : Store := ({ st with entryOrdered := true }).enterSelfRefresh

/-- Self-refresh exit: the burst of 64 refreshes begins (R20). -/
def Store.exitSelfRefresh (st : Store) : Store :=
  { st with array := .refreshing, work := .burst Config.burstRefreshes }

end Sys2Proof.Machine
end

