-- ==== Sys2Proof/Machine/BandTest.lean ====
section
/-! DEFINITION. Classification of lanes, extraction of lane runs and teach values (R109 to R118). -/

namespace Sys2Proof.Machine

/-- Values placed by their first lane, in lane order. -/
def Pieces.insert : Pieces → Nat → List Half → Pieces
  | [], lane, vs => [(lane, vs)]
  | (l, ws) :: rest, lane, vs =>
    if lane < l then (lane, vs) :: (l, ws) :: rest else (l, ws) :: Pieces.insert rest lane vs

/-- The values of all pieces in lane order. -/
def Pieces.values (p : Pieces) : List Half := p.flatMap (·.2)

/-- A lane is excluded when it lies within any excluded range (R109). -/
def excludedLane (ranges : List (Nat × Nat)) (lane : Nat) : Bool :=
  ranges.any (fun r => decide (r.1 ≤ lane ∧ lane ≤ r.2))

/-- The class of a lane, with its deviation (R111). -/
inductive LaneClass where
  | excluded
  | above (deviation : Nat)
  | below (deviation : Nat)
  | inBand
deriving DecidableEq, Repr

/-- R111: the first condition that holds gives the class. -/
def classify (isExcluded : Bool) (m lower upper : Nat) : LaneClass :=
  if isExcluded then .excluded
  else if upper < m then .above (m - upper)
  else if m < lower then .below (lower - m)
  else .inBand

/-- The position of the scan; a run in hand carries its record, whose last lane is its last out-of-band lane (R112). -/
inductive ScanPosition where
  | noRun
  | inRun (run : LaneRun)
  | inGap (run : LaneRun) (gap : Nat)
deriving DecidableEq, Repr

/-- The scan: its position, the run list and the overflow count so far. -/
structure Scan where
  position : ScanPosition
  runs : List LaneRun
  overflow : Nat
deriving DecidableEq, Repr

/-- A run closes: dropped below the minimum extent, kept in the list of 128, or counted as overflow (R114, R115). -/
def Scan.keep (minRun : Nat) (run : LaneRun) (s : Scan) : Scan :=
  if run.last - run.first + 1 < minRun then s
  else if s.runs.length < Config.runPlaces then { s with runs := s.runs ++ [run] }
  else { s with overflow := s.overflow + 1 }

/-- A run opened at a lane (R113). -/
def LaneRun.openAt (polarity : Polarity) (lane deviation : Nat) : LaneRun :=
  ⟨lane, lane, polarity, deviation, lane, 1⟩

/-- A run extended at a lane; only a strictly greater deviation takes the peak (R113). -/
def LaneRun.extend (lane deviation : Nat) (run : LaneRun) : LaneRun :=
  { run with
    last := lane
    count := run.count + 1
    peakDev := if run.peakDev < deviation then deviation else run.peakDev
    peakLane := if run.peakDev < deviation then lane else run.peakLane }

/-- The run in hand, if there is one. -/
def ScanPosition.run : ScanPosition → Option LaneRun
  | .noRun => none
  | .inRun r => some r
  | .inGap r _ => some r

/-- The run in hand closes (R112). -/
def Scan.close (minRun : Nat) (s : Scan) : Scan :=
  match s.position.run with
  | none => s
  | some r => { s.keep minRun r with position := .noRun }

/-- An out-of-band lane (R112). -/
def Scan.outOfBand (minRun : Nat) (polarity : Polarity) (lane deviation : Nat) (s : Scan) : Scan :=
  match s.position.run with
  | none => { s with position := .inRun (.openAt polarity lane deviation) }
  | some r =>
    if r.polarity = polarity then { s with position := .inRun (r.extend lane deviation) }
    else { s.close minRun with position := .inRun (.openAt polarity lane deviation) }

/-- An IN_BAND lane: a gap begins, lengthens, or ends the run (R112). -/
def Scan.bandLane (minRun bridge : Nat) (s : Scan) : Scan :=
  match s.position with
  | .noRun => s
  | .inRun r => if 1 ≤ bridge then { s with position := .inGap r 1 } else s.close minRun
  | .inGap r k => if k + 1 ≤ bridge then { s with position := .inGap r (k + 1) } else s.close minRun

/-- One lane of the scan (R112). -/
def Scan.lane (minRun bridge lane : Nat) (s : Scan) : LaneClass → Scan
  | .excluded => s.close minRun
  | .above d => s.outOfBand minRun .above lane d
  | .below d => s.outOfBand minRun .below lane d
  | .inBand => s.bandLane minRun bridge

/-- The scan over the classes of the lanes from a lane on (R112). -/
def Scan.lanes (minRun bridge : Nat) : Nat → List LaneClass → Scan → Scan
  | _, [], s => s.close minRun
  | lane, c :: rest, s => Scan.lanes minRun bridge (lane + 1) rest (s.lane minRun bridge lane c)

/-- The classes of a line's lanes from a lane on: means, LOWER and UPPER values in lane order (R111). -/
def classifyLine (ranges : List (Nat × Nat)) : Nat → List Half → List Half → List Half → List LaneClass
  | lane, m :: ms, lo :: los, up :: ups =>
    classify (excludedLane ranges lane) m.toNat lo.toNat up.toNat :: classifyLine ranges (lane + 1) ms los ups
  | _, _, _, _ => []

/-- The run list and overflow count of a line under a context (R112 to R115). -/
def extractRuns (c : Context) (means lower upper : List Half) : Scan :=
  Scan.lanes c.minRun c.gapBridge 0 (classifyLine c.excluded 0 means lower upper) ⟨.noRun, [], 0⟩

/-- The upper teach value (R117). -/
def upperTeach (margin : Nat) (m : Half) : Half := BitVec.ofNat 16 (min 65535 (m.toNat + margin))

/-- The lower teach value (R117). -/
def lowerTeach (margin : Nat) (m : Half) : Half := BitVec.ofNat 16 (m.toNat - margin)

end Sys2Proof.Machine
end

