-- ==== Sys2Proof/Machine/Regions.lean ====
section
/-! DEFINITION. Geometry, placement of lanes in the store, region checks and binding (R24 to R33). -/

namespace Sys2Proof.Machine

/-- The lane count Q (R24). -/
def Geometry.lanes (g : Geometry) : Nat :=
  match g.binning with
  | .none => g.pixels
  | .pair => g.pixels / 2

/-- The slot size s = ceil(Q / 512) (R24). -/
def slotSize (lanes : Nat) : Nat := (lanes + 511) / 512

/-- Q under the fixed geometry; 0 while it is unfixed, when nothing reads it (R43, log 30). -/
def State.lanes (s : State) : Nat :=
  match s.geometry with
  | none => 0
  | some g => g.lanes

def State.slot (s : State) : Nat := slotSize s.lanes

/-- Store rows per entry of a kind (R27). -/
def RegionKind.rowsPerEntry (slot : Nat) : RegionKind → Nat
  | .profile => 3 * slot
  | .accum => 2 * slot
  | .history => slot
  | .scratch => slot

/-- The limit on a kind's entry count (R27). -/
def RegionKind.entryLimitOk (entries : Nat) : RegionKind → Bool
  | .profile => decide (1 ≤ entries ∧ entries ≤ 32)
  | .accum => decide (1 ≤ entries ∧ entries ≤ 16)
  | .history => decide (1 ≤ entries ∧ entries ≤ 1024)
  | .scratch => decide (1 ≤ entries)

def Region.rowsPerEntry (slot : Nat) (r : Region) : Nat := r.kind.rowsPerEntry slot

/-- The entry count E (R26). -/
def Region.entries (slot : Nat) (r : Region) : Nat := r.rows / r.rowsPerEntry slot

/-- Storage lanes that hold lanes of a line in row t of a 16-bit plane (R28). -/
def planeRowLanes (lanes t : Nat) : Nat := min 512 (lanes - 512 * t)

/-- Wide lanes in row t of an ACCUM entry (R29). -/
def wideRowLanes (lanes t : Nat) : Nat := min 256 (lanes - 256 * t)

/-- Used ACCUM rows of an entry: ceil(Q / 256) (R93). -/
def wideRows (lanes : Nat) : Nat := (lanes + 255) / 256

/-- The place of a plane among the planes of its entry (R27). -/
def Plane.offset : Plane → Nat
  | .gain => 0
  | .lower => 1
  | .upper => 2
  | .single => 0

/-- The first store row of a plane in an entry (R27). -/
def Region.planeRow (slot : Nat) (r : Region) (plane : Plane) (entry : Nat) : Nat :=
  r.first + entry * r.rowsPerEntry slot + plane.offset * slot

/-- What the table holds at an index (R33). -/
def State.region (s : State) (index : Nat) : Option Region := Table.find s.regions index

/-- A field of a context names a defined region of a kind (R33). -/
def State.regionOfKind (s : State) (kind : RegionKind) (index : Option Nat) : Option Region :=
  match index with
  | none => none
  | some i =>
    match s.region i with
    | none => none
    | some r => if r.kind = kind then some r else none

/-- The first store row of a region the run uses. R32 keeps it defined; a region that is not reads as row 0 (log 30). -/
def State.firstRow (s : State) (kind : RegionKind) (index : Option Nat) : Nat :=
  match s.regionOfKind kind index with
  | some r => r.first
  | none => 0

/-- The entry count of a region the run uses; 0 where it is not defined (log 30). -/
def State.entriesOf (s : State) (kind : RegionKind) (index : Option Nat) : Nat :=
  match s.regionOfKind kind index with
  | some r => r.entries s.slot
  | none => 0

/-- The first store row of a plane of the profile entry a context names (R27, R89, R110). -/
def State.profileRow (s : State) (c : Context) (plane : Plane) : Nat :=
  s.firstRow .profile c.profile + c.entry * (3 * s.slot) + plane.offset * s.slot

/-- A context names an index in one of its three region fields (R32). -/
def Context.names (c : Context) (index : Nat) : Bool :=
  decide (c.profile = some index) || decide (c.accum = some index) || decide (c.history = some index)

/-- A region is bound while the run is not STOPPED and the active or pending context names it (R32). -/
def State.bound (s : State) (index : Nat) : Bool :=
  decide (s.run.st ≠ .stopped) && (s.run.active.names index ||
    match s.run.next with
    | none => false
    | some p => p.context.names index)

/-- A region is the target of the CLEAR in flight (R37). -/
def State.clearTarget (s : State) (index : Nat) : Bool :=
  match s.access.clear with
  | none => false
  | some w => decide (w.region = index)

/-- A context names the target of the CLEAR in flight (R32). -/
def State.namesClearTarget (s : State) (c : Context) : Bool :=
  match s.access.clear with
  | none => false
  | some w => c.names w.region

/-- Two ranges of store rows meet (R34). -/
def rowsMeet (first rows first' rows' : Nat) : Bool := decide (first < first' + rows' ∧ first' < first + rows)

/-- The ring capacity ceil(D / S) of a context (R55). -/
def Context.ringCapacity (c : Context) : Nat := (c.depth + c.stride - 1) / c.stride

end Sys2Proof.Machine
end

