-- ==== Sys2Proof/Machine/Tracking.lean ====
section
/-! DEFINITION. The defect tracker's six steps on one line, and close-all (R126 to R143). -/

namespace Sys2Proof.Machine

/-- Wrapped order of integrated numbers: a is earlier than b (R127). -/
def earlier (a b : Word) : Bool := decide (1 ≤ (b - a).toNat ∧ (b - a).toNat ≤ 2 ^ 31 - 1)

/-- a ≤ b in integrated order (R127). -/
def notLater (a b : Word) : Bool := decide (a = b) || earlier a b

/-- A saturating 32-bit area (R126). -/
def satArea (n : Nat) : Nat := min (2 ^ 32 - 1) n

/-- Step 1: a run matches a record of its polarity whose tail, widened by the gap bridge, it overlaps (R131). -/
def runMatches (bridge : Nat) (r : LaneRun) (d : Defect) : Bool :=
  decide (r.polarity = d.polarity ∧ r.first ≤ d.tailMax + bridge ∧ d.tailMin ≤ r.last + bridge)

/-- A group of linked runs and records, each by its position (R132). -/
structure Group where
  records : List Nat
  runs : List Nat
deriving DecidableEq, Repr

/-- The positions of the records a run matches. -/
def matchedBy (bridge : Nat) (table : List Defect) (r : LaneRun) : List Nat :=
  (table.zipIdx.filter (fun p => runMatches bridge r p.1)).map (·.2)

/-- A run with its matches joins the groups it links, or forms one (R132). -/
def joinGroups (groups : List Group) (run : Nat) (matched : List Nat) : List Group :=
  let linked := groups.filter (fun g => matched.any g.records.contains)
  let others := groups.filter (fun g => !matched.any g.records.contains)
  others ++ [⟨matched ++ linked.flatMap (·.records), linked.flatMap (·.runs) ++ [run]⟩]

/-- Step 2: the groups that hold a record (R132). -/
def groupsOf (bridge : Nat) (table : List Defect) (runs : List LaneRun) : List Group :=
  runs.zipIdx.foldl
    (fun groups p =>
      match matchedBy bridge table p.1 with
      | [] => groups
      | m :: ms => joinGroups groups p.2 (m :: ms))
    []

/-- The survivor after it has absorbed one record (R133). -/
def Defect.absorb (s a : Defect) : Defect :=
  { s with
    laneMin := min s.laneMin a.laneMin
    laneMax := max s.laneMax a.laneMax
    area := if a.empty then s.area else satArea (s.area + a.area)
    peakDev := if !a.empty && decide (s.peakDev < a.peakDev) then a.peakDev else s.peakDev
    peakLane := if !a.empty && decide (s.peakDev < a.peakDev) then a.peakLane else s.peakLane
    peakLine := if !a.empty && decide (s.peakDev < a.peakDev) then a.peakLine else s.peakLine
    first :=
      match s.first, a.first with
      | none, f => if a.empty then none else f
      | some f, some g => if !a.empty && earlier g f then some g else some f
      | some f, none => some f
    merged := min 255 (s.merged + 1)
    flags := { s.flags with merged := true, overflowLine := s.flags.overflowLine || a.flags.overflowLine } }

/-- One run taken into a record extended on line i: extents, area and peak (R134). -/
def Defect.takeRun (i : Word) (d : Defect) (r : LaneRun) : Defect :=
  { d with
    laneMin := min d.laneMin r.first
    laneMax := max d.laneMax r.last
    area := satArea (d.area + r.count)
    peakDev := if d.peakDev < r.peakDev then r.peakDev else d.peakDev
    peakLane := if d.peakDev < r.peakDev then some r.peakLane else d.peakLane
    peakLine := if d.peakDev < r.peakDev then some i else d.peakLine }

/-- A record extended on line i by the runs of its group, in lane order (R134). -/
def Defect.extendBy (i : Word) (runs : List LaneRun) (d : Defect) : Defect :=
  match runs with
  | [] => d
  | r :: rest =>
    let e := (r :: rest).foldl (Defect.takeRun i) d
    { e with
      tailMin := rest.foldl (fun m q => min m q.first) r.first
      tailMax := rest.foldl (fun m q => max m q.last) r.last
      last := some i
      idle := 0
      empty := false
      first := some (d.first.getD i) }

/-- A row of the line's result: the record, whether it was in the table at the start of the line, whether it was
extended on the line, and whether it closes on it. -/
structure LineRow where
  record : Defect
  old : Bool
  extended : Bool
  closed : Bool
deriving DecidableEq, Repr

/-- Step 2 for the record at one position: the survivor of its group extended, an absorbed record gone, or a record of
no group as it was (R132 to R134). -/
def stepTwoRow (i : Word) (table : List Defect) (runs : List LaneRun) (groups : List Group) (d : Defect) (at' : Nat) :
    List LineRow :=
  match groups.find? (fun g => g.records.contains at') with
  | none => [⟨d, true, false, false⟩]
  | some g =>
    match table.zipIdx.filter (fun p => g.records.contains p.2) with
    | [] => []
    | survivor :: absorbed =>
      if survivor.2 = at' then
        let mine := (runs.zipIdx.filter (fun p => g.runs.contains p.2)).map (·.1)
        [⟨(absorbed.foldl (fun s a => s.absorb a.1) d).extendBy i mine, true, true, false⟩]
      else []

/-- The line's result while it is worked out (R141). -/
structure LineResult where
  rows : List LineRow
  nextId : Nat
  created : Word
  untracked : Nat
deriving DecidableEq, Repr

/-- The id after an id, from 65535 to 1 (R129). -/
def idAfter (n : Nat) : Nat := if n < 65535 then n + 1 else 1

/-- The first id from a start that no record holds (R129); the fuel is the number of records. -/
def freeId (heldIds : List Nat) : Nat → Nat → Nat
  | 0, n => n
  | fuel + 1, n => if heldIds.contains n then freeId heldIds fuel (idAfter n) else n

/-- A new record takes an id, the creation counter and the last position, if the table holds fewer than 64;
otherwise it counts as untracked (R129, R135, R136). -/
def LineResult.create (extended : Bool) (make : Nat → Word → Defect) (l : LineResult) : LineResult :=
  if l.rows.length < Config.defectPlaces then
    let id := freeId (l.rows.map (·.record.id)) l.rows.length l.nextId
    { l with
      rows := l.rows ++ [⟨make id l.created, false, extended, false⟩]
      nextId := idAfter id
      created := l.created + 1 }
  else { l with untracked := l.untracked + 1 }

def DefectFlags.clear : DefectFlags := ⟨false, false, false, false, false, false, false⟩

/-- A record of given extents that has not been extended (R128). -/
def Defect.fresh (polarity : Polarity) (laneMin laneMax tailMin tailMax : Nat) (flags : DefectFlags) (id : Nat) (seq : Word) :
    Defect where
  id := id
  seq := seq
  polarity := polarity
  first := none
  last := none
  laneMin := laneMin
  laneMax := laneMax
  tailMin := tailMin
  tailMax := tailMax
  peakDev := 0
  peakLane := none
  peakLine := none
  area := 0
  merged := 0
  idle := 0
  empty := true
  flags := flags

/-- Step 3: a run that matches no record opens one, at once extended by the run (R135). -/
def LineResult.openRun (i : Word) (l : LineResult) (r : LaneRun) : LineResult :=
  l.create true (fun id seq =>
    (Defect.fresh r.polarity r.first r.last r.first r.last DefectFlags.clear id seq).extendBy i [r])

/-- The continuation of a record closed by a span split (R136). -/
def LineResult.continue (l : LineResult) (d : Defect) : LineResult :=
  l.create false (Defect.fresh d.polarity d.laneMin d.laneMax d.tailMin d.tailMax { DefectFlags.clear with continuation := true })

/-- The span of a record on line i, counted modulo 2^32 (R136). -/
def Defect.span (i : Word) (d : Defect) : Nat :=
  match d.first with
  | none => 0
  | some f => (i - f + 1).toNat

/-- A record extended on line i reaches the max span (R136). -/
def LineRow.splits (i : Word) (maxSpan : Nat) (r : LineRow) : Bool := r.extended && decide (maxSpan ≤ r.record.span i)

/-- Step 4 for one row: closed with SPLIT (R136). -/
def LineRow.split (i : Word) (maxSpan : Nat) (r : LineRow) : LineRow :=
  if r.splits i maxSpan then
    { r with closed := true, record := { r.record with flags := { r.record.flags with split := true } } }
  else r

/-- Step 5 for one row: idle goes up, and beyond the gap lines the record closes (R137). -/
def LineRow.age (gapLines : Nat) (r : LineRow) : LineRow :=
  if r.old && !r.extended then
    { r with record := { r.record with idle := r.record.idle + 1 }, closed := r.closed || decide (gapLines < r.record.idle + 1) }
  else r

/-- OVERFLOW_LINE for every record that takes part in a line with overflow (R140). -/
def LineRow.markOverflow (overflow : Nat) (r : LineRow) : LineRow :=
  if 0 < overflow then { r with record := { r.record with flags := { r.record.flags with overflowLine := true } } } else r

/-- Steps 1 and 2 (R131 to R134). -/
def stepTwo (bridge : Nat) (i : Word) (table : List Defect) (runs : List LaneRun) : List LineRow :=
  table.zipIdx.flatMap (fun p => stepTwoRow i table runs (groupsOf bridge table runs) p.1 p.2)

/-- Step 3 over the runs that match no record, in lane order (R135). -/
def stepThree (bridge : Nat) (i : Word) (table : List Defect) (runs : List LaneRun) (l : LineResult) : LineResult :=
  (runs.filter (fun r => (matchedBy bridge table r).isEmpty)).foldl (LineResult.openRun i) l

/-- Step 4 (R136). -/
def stepFour (i : Word) (maxSpan : Nat) (l : LineResult) : LineResult :=
  (l.rows.filter (fun r => r.splits i maxSpan)).foldl (fun l r => l.continue r.record)
    { l with rows := l.rows.map (LineRow.split i maxSpan) }

/-- Step 5, with the overflow flag of R140 (R137). -/
def stepFive (gapLines overflow : Nat) (l : LineResult) : LineResult :=
  { l with rows := (l.rows.map (LineRow.age gapLines)).map (LineRow.markOverflow overflow) }

/-- Steps 1 to 5 on one line under a context, against the table at its start (R130 to R141). -/
def trackLine (c : Context) (i : Word) (runs : List LaneRun) (overflow : Nat) (t : Tracker) : LineResult :=
  stepFive c.gapLines overflow
    (stepFour i c.maxSpan
      (stepThree c.gapBridge i t.table runs
        ⟨stepTwo c.gapBridge i t.table runs, t.nextId, t.created, 0⟩))

/-- What the DEFECT notice of a non-empty record carries (R138). -/
def Defect.report (d : Defect) : DefectReport where
  id := d.id
  polarity := d.polarity
  first := d.first.getD 0
  last := d.last.getD 0
  laneMin := d.laneMin
  laneMax := d.laneMax
  peakDev := d.peakDev
  peakLane := d.peakLane.getD 0
  peakLine := d.peakLine.getD 0
  area := d.area
  merged := d.merged
  flags := d.flags

/-- The DEFECT notices of closed records: one for each that is not empty, in creation order (R138). -/
def defectNotices (closed : List Defect) : List Notice :=
  (closed.filter (fun d => !d.empty)).map (fun d => .defect d.report)

/-- The TRACK_FULL notice of a line, if any (R139). -/
def trackFullNotices (i : Word) (untracked : Nat) : List Notice :=
  if 0 < untracked then [.trackFull i untracked] else []

/-- The records that close on the line, in creation order (R138). -/
def LineResult.closed (l : LineResult) : List Defect := (l.rows.filter (·.closed)).map (·.record)

/-- The table after the line (R141). -/
def LineResult.table (l : LineResult) : List Defect := (l.rows.filter (fun r => !r.closed)).map (·.record)

/-- The tracker after a line's result is committed (R138, R141). -/
def Tracker.commit (l : LineResult) (t : Tracker) : Tracker :=
  { t with
    st := .idle
    table := l.table
    nextId := l.nextId
    created := l.created
    reported := t.reported + BitVec.ofNat 32 (defectNotices l.closed).length }

/-- The three close-all flags (R143). -/
inductive CloseFlag where
  | contextChange
  | runEnd
  | runStopped
deriving DecidableEq, Repr

def CloseFlag.mark : CloseFlag → Defect → Defect
  | .contextChange, d => { d with flags := { d.flags with contextChange := true } }
  | .runEnd, d => { d with flags := { d.flags with runEnd := true } }
  | .runStopped, d => { d with flags := { d.flags with runStopped := true } }

/-- The notices of a close-all: every non-empty record, in creation order, with the flag (R143). -/
def Tracker.closeNotices (f : CloseFlag) (t : Tracker) : List Notice := defectNotices (t.table.map f.mark)

/-- The tracker after a close-all: the table empty, the report count raised (R143). -/
def Tracker.closeAll (f : CloseFlag) (t : Tracker) : Tracker :=
  { t with table := [], reported := t.reported + BitVec.ofNat 32 (t.closeNotices f).length }

/-- Close-all, with its notices offered (R143). -/
def State.closeAll (f : CloseFlag) (s : State) : State :=
  { s with tracker := s.tracker.closeAll f, link := s.link.offerAll (s.tracker.closeNotices f) }

end Sys2Proof.Machine
end

