-- ==== Sys2Proof/Machine/Runs.lean ====
section
/-! DEFINITION. Install of a pending context, run end, and the end of an item (R59 to R64, R86). -/

namespace Sys2Proof.Machine

/-- The fields of a SET or POP reply after the status: as the run stands when it is queued (R50, R53, R61). -/
def State.setFields (s : State) (retained : List Retained) (popLeft : Option Nat) : List Byte :=
  [retainedCode retained] ++ le32 s.run.phase.toNat ++ le32 s.engine.counter.toNat ++ [s.run.st.code]
    ++ match popLeft with
      | none => []
      | some n => [byte n]

/-- The stack count of a deferred POP reply. DESIGN CHOICE (log 21): R53 does not say whether it is the count that the
POP left or the count when the reply is queued, so a constant with no value decides where they differ. -/
def popCount (accepted now : Nat) : Nat :=
  if accepted = now then now else if Config.popCountAtAcceptance then accepted else now

/-- The deferred reply of a pending SET or POP (R58, R61, R66). -/
def State.replyPending (p : PendingContext) (s : State) : State :=
  s.reply p.ticket (Status.ok.code :: s.setFields p.retained (p.popLeft.map (fun n => popCount n s.run.stack.length)))

/-- The install of the pending context, in the order of R61. -/
def State.install (s : State) : State :=
  match s.run.next with
  | none => s
  | some p =>
    let s := { s with run := { s.run with active := p.context, next := none } }
    let s := s.closeAll .contextChange
    let s := { s with
      run := { s.run with phase := s.engine.nextLine, st := .running }
      engine := { s.engine with stride := 0 } }
    s.replyPending p

/-- The install takes place when the engine is between items and the ring is empty (R60). -/
def State.tryInstall (s : State) : State :=
  if s.engine.st = .between ∧ s.engine.ring = [] then s.install else s

/-- The end of a run, in the order of R64. -/
def State.endRun (s : State) : State :=
  let s := s.install
  let s := s.closeAll .runEnd
  let s := s.offer (.runEnd s.run.limit s.engine.counter s.tracker.reported)
  { s with
    run := { s.run with st := .stopped, phase := 0 }
    port := { s.port with st := .off }
    engine := { s.engine with st := .idle } }

/-- What follows a finished item: the next line number advances by its count, and then the run ends or the engine is
between items and may install (R86). -/
def State.finishItem (count : Nat) (holdsLast : Bool) (s : State) : State :=
  let s := { s with engine := { s.engine with
    nextLine := s.engine.nextLine + BitVec.ofNat 32 count, mean := none, st := .between } }
  if s.run.limit ≠ 0 ∧ holdsLast = true then s.endRun else s.tryInstall

/-- The stride position after a line number has been dealt with (R87). -/
def nextStride (stride position : Nat) : Nat := if position + 1 < stride then position + 1 else 0

/-- A LINE item is finished: its slot is freed and the stride position advances (R81, R87). -/
def State.finishLine (w : LineWork) (s : State) : State :=
  let s := { s with
    port := { s.port with slots := s.port.slots.set w.slot none }
    engine := { s.engine with stride := nextStride w.context.stride s.engine.stride } }
  s.finishItem 1 (decide (w.number + 1 = s.run.limit))

/-- A LINE item is finished when its last access has completed and the band tester and the history writer have finished
with any integrated line it completed (R86, R95). -/
def State.checkLine (s : State) : State :=
  match s.engine.st with
  | .line w => if w.outstanding = 0 ∧ s.tester.st = .idle ∧ s.history.st = .idle then s.finishLine w else s
  | .idle | .between | .loss _ _ _ => s

end Sys2Proof.Machine
end

