-- ==== Sys2Proof/Machine/Delivery.lean ====
section
/-! DEFINITION. Delivery of an integrated line to the history writer and the band tester, their claims and results, and
TRACKER_COMMIT (R95, R108 to R119, R141, R149 to R152). -/

namespace Sys2Proof.Machine

/-- The context under which the item in hand is processed (R101, R109). -/
def State.lineContext (s : State) : Context :=
  match s.engine.st with
  | .line w => w.context
  | .idle | .between | .loss _ _ _ => s.run.active

/-- The values of the lanes in row t of a 16-bit plane, each with its storage lane (R28). -/
def planeChunk (values : List Half) (t : Nat) : List (Nat × Half) :=
  ((values.drop (512 * t)).take 512).zipIdx.map (fun p => (p.2, p.1))

/-- The storage lanes of the lanes in row t of a 16-bit plane (R28). -/
def planeLanes (lanes t : Nat) : List Nat := List.range (planeRowLanes lanes t)

-- The history writer

/-- The history writer records the line: index, write position, h, and back to IDLE (R152). -/
def History.record (line : StoreLine) (r : TestResult) (h : History) : History :=
  { h with
    index := Table.put h.index line.entry (.stored line.number line.region r)
    writePos := (line.entry + 1) % line.entries
    written := h.written + 1
    result := none
    st := .idle }

/-- A test result reaches the history writer: held, recorded, or dropped (R151, R152). -/
def History.giveResult (r : TestResult) (h : History) : History :=
  match h.st with
  | .idle => h
  | .storing _ _ => { h with result := some r }
  | .filing line => h.record line r

/-- A write access of the line completes (R152). -/
def History.rowWritten (h : History) : History :=
  match h.st with
  | .storing line left =>
    if 1 < left then { h with st := .storing line (left - 1) }
    else
      match h.result with
      | some r => h.record line r
      | none => { h with st := .filing line }
  | .idle | .filing _ => h

/-- The delivered line at the history writer: not stored, counted as unstored under a hold, or stored (R151). -/
def State.storeLine (number : Word) (means : List Half) (s : State) : State :=
  match s.lineContext.history with
  | none => s
  | some index =>
    if s.history.hold then
      { s with history := { s.history with unstored := min (2 ^ 32 - 1) (s.history.unstored + 1) } }
    else
      let entries := s.entriesOf .history (some index)
      let entry := s.history.writePos % entries
      let first := s.firstRow .history (some index) + entry * s.slot
      { s with
        history := { s.history with
          st := .storing ⟨entry, number, index, entries⟩ s.slot
          result := none
          index := Table.put s.history.index entry (.writing number index) }
        store := { s.store with
          historyReady := s.store.historyReady ++
            (List.range s.slot).map (fun t => ⟨first + t, .write .always (planeChunk means t), .history⟩) } }

-- The band tester

/-- The test result of an INSPECT line (R116). -/
def Tester.result (t : Tester) : TestResult := ⟨t.runs.length, decide (0 < t.overflow), false⟩

/-- The band tester's 2s READ claims for the bounds (R110). -/
def State.boundClaims (s : State) : List Claim :=
  let c := s.lineContext
  (List.range s.slot).map (fun t => ⟨s.profileRow c .lower + t, .read (planeLanes s.lanes t), .lower t⟩)
    ++ (List.range s.slot).map (fun t => ⟨s.profileRow c .upper + t, .read (planeLanes s.lanes t), .upper t⟩)

/-- The lanes of row t that are not excluded, each with its teach value (R117, R118). -/
def teachChunk (ranges : List (Nat × Nat)) (teach : Half → Half) (means : List Half) (t : Nat) : List (Nat × Half) :=
  ((planeChunk means t).filter (fun p => !excludedLane ranges (512 * t + p.1))).map (fun p => (p.1, teach p.2))

/-- The band tester's teach claims; a row whose lanes are all excluded gets none (R118). -/
def State.teachClaims (means : List Half) (s : State) : List Claim :=
  let c := s.lineContext
  let rows := List.range s.slot
  (rows.map (fun t => Claim.mk (s.profileRow c .upper + t)
      (.write .ifGreater (teachChunk c.excluded (upperTeach c.marginAbove) means t)) .teach)
    ++ rows.map (fun t => Claim.mk (s.profileRow c .lower + t)
      (.write .ifLess (teachChunk c.excluded (lowerTeach c.marginBelow) means t)) .teach)).filter
    (fun k => !k.op.lanes.isEmpty)

/-- A taught line is done: counted, its result handed on, the band tester IDLE (R119). -/
def State.teachDone (s : State) : State :=
  { s with
    tester := { s.tester with st := .idle, teachCount := s.tester.teachCount + 1 }
    history := s.history.giveResult ⟨0, false, true⟩ }

/-- The delivered line at the band tester (R108, R110, R118, R119). -/
def State.testLine (means : List Half) (s : State) : State :=
  match s.lineContext.test with
  | .inspect =>
    { s with
      tester := { s.tester with st := .testing [] [] s.boundClaims.length, runs := [], overflow := 0 }
      store := { s.store with testerReady := s.store.testerReady ++ s.boundClaims } }
  | .teach =>
    match s.teachClaims means with
    | [] => s.teachDone
    | c :: cs =>
      { s with
        tester := { s.tester with st := .teaching (c :: cs).length }
        store := { s.store with testerReady := s.store.testerReady ++ c :: cs } }

/-- Delivery (R95). DESIGN CHOICE (log 19): within the step the history writer takes the line first. -/
def State.deliver (line : MeanLine) (s : State) : State :=
  (s.storeLine line.number line.pieces.values).testLine line.pieces.values

/-- The values of the line in the mean-line buffer (R95). -/
def State.means (s : State) : List Half :=
  match s.engine.mean with
  | none => []
  | some m => m.pieces.values

/-- The integrated number of the line in the mean-line buffer (R95). -/
def State.meanNumber (s : State) : Word :=
  match s.engine.mean with
  | none => 0
  | some m => m.number

/-- Both planes are read: lanes are classified, runs extracted, and the run list goes to the tracker (R112, R116). -/
def State.extract (lower upper : Pieces) (s : State) : State :=
  let scan := extractRuns s.lineContext s.means lower.values upper.values
  { s with
    tester := { s.tester with st := .tracking, runs := scan.runs, overflow := scan.overflow }
    tracker := { s.tracker with st := .working s.meanNumber scan.runs } }

/-- The bounds as the completed READ of a row leaves them (R110). -/
def State.boundsRead (lower upper : Pieces) (left : Nat) (s : State) : State :=
  if 1 < left then { s with tester := { s.tester with st := .testing lower upper (left - 1) } }
  else s.extract lower upper

/-- A READ of a LOWER row completes (R110). -/
def State.lowerRead (row : Nat) (values : List Half) (s : State) : State :=
  match s.tester.st with
  | .testing lower upper left => s.boundsRead (lower.insert (512 * row) values) upper left
  | .idle | .tracking | .teaching _ => s

/-- A READ of an UPPER row completes (R110). -/
def State.upperRead (row : Nat) (values : List Half) (s : State) : State :=
  match s.tester.st with
  | .testing lower upper left => s.boundsRead lower (upper.insert (512 * row) values) left
  | .idle | .tracking | .teaching _ => s

/-- A teach write completes; its per-lane results are not used (R118, R119). -/
def State.teachWritten (s : State) : State :=
  match s.tester.st with
  | .teaching left =>
    if 1 < left then { s with tester := { s.tester with st := .teaching (left - 1) } } else s.teachDone
  | .idle | .tracking | .testing _ _ _ => s

-- The tracker's commit

/-- The band tester's RUN_OVERFLOW notice of a line (R116). -/
def overflowNotices (number : Word) (overflow : Nat) : List Notice :=
  if 0 < overflow then [.runOverflow number overflow] else []

/-- The tracker has finished with the line: the result is committed, the DEFECT notices, TRACK_FULL and RUN_OVERFLOW are
offered in that order, the test result goes to the history writer and the band tester is IDLE (R116, R138 to R141). A
RUN_OVERFLOW notice that found room is noted, for a STOP that discards the item (R67, log 31). -/
def State.commitLine (number : Word) (runs : List LaneRun) (s : State) : State :=
  let l := trackLine s.lineContext number runs s.tester.overflow s.tracker
  let link := s.link.offerAll (defectNotices l.closed ++ trackFullNotices number l.untracked)
  { s with
    tracker := s.tracker.commit l
    link := link.offerAll (overflowNotices number s.tester.overflow)
    before := { s.before with
      warned := if 0 < s.tester.overflow ∧ link.hasRoom = true then some (number, s.tester.overflow) else none }
    tester := { s.tester with st := .idle, runs := [], overflow := 0 }
    history := s.history.giveResult s.tester.result }

/-- TRACKER_COMMIT (R141): the work on the line is committed, and the item may be finished (R86). -/
def execTrackerCommit (s : State) : Host.Outcome State Fault Refusal :=
  awake s fun s =>
    match s.tracker.st with
    | .idle => s
    | .working number runs => (s.commitLine number runs).checkLine

end Sys2Proof.Machine
end

