-- ==== Sys2Proof/Machine/Engine.lean ====
section
/-! DEFINITION. The integration engine: starts, correction, accumulation, completion, lost lines, and ENGINE_TAKE_ITEM
(R85 to R102). -/

namespace Sys2Proof.Machine

/-- A line number is a start line when the engine reaches it (R87). The pending context is noted when the item is
taken (R59, R86); an item is dealt with from there under the same run state. -/
def Engine.startsAt (run : Run) (n : Word) (e : Engine) : Bool :=
  decide (e.stride = 0) && run.next.isNone
    && (decide (run.limit = 0) || decide (n.toNat + run.active.depth - 1 < run.limit.toNat))

-- Correction

/-- Lane values of PAIR binning (R88). -/
def pairLanes (w0 w1 : Nat) : List Sample → List Nat
  | a :: b :: rest => min 65535 ((a.toNat * w0 + b.toNat * w1) / 128) :: pairLanes w0 w1 rest
  | _ => []

/-- The lane values b of a line (R88). -/
def binLanes (binning : Binning) (w0 w1 : Nat) (samples : List Sample) : List Nat :=
  match binning with
  | .none => samples.map (·.toNat)
  | .pair => pairLanes w0 w1 samples

/-- The corrected value of a lane value under a gain (R89). -/
def correctedValue (b : Nat) (gain : Half) : Nat := min 65535 (b * gain.toNat / 4096)

/-- The binning of the fixed geometry; NONE while it is unfixed, when nothing reads it (log 30). -/
def State.binning (s : State) : Binning :=
  match s.geometry with
  | none => .none
  | some g => g.binning

/-- The samples of the line in hand (R88). -/
def State.slotSamples (w : LineWork) (s : State) : List Sample := (s.port.slots.get w.slot).getD []

/-- The corrected values of the lanes of GAIN row t, under the gains its READ returned (R89). -/
def State.correctedRow (w : LineWork) (t : Nat) (gains : List Half) (s : State) : List Nat :=
  ((binLanes s.binning w.context.w0 w.context.w1 (s.slotSamples w)).drop (512 * t)).zipWith correctedValue gains

-- Taking a LINE item

/-- The lowest-numbered ACCUM entry that no ring record holds (R91). R92 bounds the ring, so one below the entry
count is free. -/
def freeEntry (ring : List RingRecord) : Nat :=
  ((List.range (ring.length + 1)).find? (fun k => ring.all (fun r => decide (r.entry ≠ k)))).getD 0

/-- A record is started at a start line (R91). -/
def Engine.startRecord (n : Word) (e : Engine) : Engine :=
  { e with ring := e.ring ++ [⟨e.counter, n, 0, freeEntry e.ring⟩], counter := e.counter + 1 }

/-- The engine's s READ claims for the GAIN plane (R89). -/
def State.gainClaims (s : State) : List Claim :=
  (List.range s.slot).map (fun t =>
    ⟨s.profileRow s.run.active .gain + t, .read (planeLanes s.lanes t), .gain t⟩)

/-- What the previous finished item left (R67, log 31). -/
def State.noteBefore (s : State) : ItemBefore :=
  ⟨s.tracker.table, none⟩

/-- A LINE item is taken: finished at once when it needs no corrected values (R90), and otherwise corrected in full,
with a record started for a start line (R86, R89, R91). -/
def State.takeLine (n : Word) (slot : Fin 4) (s : State) : State :=
  let starts := s.engine.startsAt s.run n
  if starts = false ∧ s.engine.ring = [] then s.finishLine ⟨n, slot, s.run.active, 0, false⟩
  else
    let e := if starts then s.engine.startRecord n else s.engine
    { s with
      engine := { e with st := .line ⟨n, slot, s.run.active, s.slot, false⟩ }
      store := { s.store with engineReady := s.store.engineReady ++ s.gainClaims }
      before := s.noteBefore }

-- The add of a LINE item

/-- The record completes with the line in hand (R94). -/
def RingRecord.completes (depth : Nat) (r : RingRecord) : Bool := decide (depth ≤ r.added)

/-- The store operation on the wide lanes of an ACCUM row, by the record's new count (R93, R94). -/
def addOp (depth added : Nat) (chunk : List Nat) : StoreOp :=
  if depth ≤ added then .read (List.range (2 * chunk.length))
  else if added = 1 then
    .write .always (chunk.zipIdx.flatMap (fun p => [(2 * p.2, BitVec.ofNat 16 p.1), (2 * p.2 + 1, 0)]))
  else .add (chunk.zipIdx.map (fun p => (p.2, BitVec.ofNat 32 p.1)))

/-- The claim of one record on ACCUM row u of its entry; none for D = 1 or a row with no lanes (R93, R94). -/
def addClaim (base slot depth u : Nat) (chunk : List Nat) (r : RingRecord) : List Claim :=
  if depth = 1 ∨ chunk = [] then []
  else
    [⟨base + r.entry * (2 * slot) + u, addOp depth r.added chunk,
      if r.completes depth then .complete u chunk else .accumulate⟩]

/-- The engine's claims on the ACCUM rows whose lanes lie in GAIN row t (R28, R29, R89, R93). -/
def State.addClaims (w : LineWork) (ring : List RingRecord) (t : Nat) (cs : List Nat) (s : State) : List Claim :=
  let base := s.firstRow .accum w.context.accum
  ring.flatMap (fun r =>
    addClaim base s.slot w.context.depth (2 * t) (cs.take 256) r
      ++ addClaim base s.slot w.context.depth (2 * t + 1) (cs.drop 256) r)

/-- The lines added of every record go up with the line's first add (R93). DESIGN CHOICE (log 17): at the completion
of its first GAIN read. -/
def bumpRing (added : Bool) (ring : List RingRecord) : List RingRecord :=
  if added then ring else ring.map (fun r => { r with added := r.added + 1 })

/-- The mean-line buffer with one more piece of the completing record's line (R94, R95). -/
def Engine.putMean (depth lane : Nat) (values : List Nat) (e : Engine) : Engine :=
  match e.ring.find? (RingRecord.completes depth) with
  | none => e
  | some r =>
    let sofar := (e.mean.map (·.pieces)).getD []
    { e with mean := some ⟨r.number, Pieces.insert sofar lane (values.map (BitVec.ofNat 16))⟩ }

/-- Once all Q lanes are formed the record leaves the ring, and once no access of the item is left the line is delivered
(R94, R95). DEDUCED (log 18) from R85: an item is first corrected and accumulated, and then its line is delivered. -/
def State.checkMean (depth : Nat) (s : State) : State :=
  match s.engine.mean with
  | none => s
  | some m =>
    if m.pieces.values.length = s.lanes then
      let formed := { s with engine := { s.engine with ring := s.engine.ring.filter (fun r => !r.completes depth) } }
      match s.engine.st with
      | .line w => if w.outstanding = 0 then formed.deliver m else formed
      | .idle | .between | .loss _ _ _ => formed
    else s

/-- The READ of GAIN row t completes: its lanes are corrected, and the claims on their ACCUM rows become ready. With
D = 1 the means are the corrected values (R89, R93, R94). -/
def State.gainRead (t : Nat) (gains : List Half) (s : State) : State :=
  match s.engine.st with
  | .line w =>
    let cs := s.correctedRow w t gains
    let ring := bumpRing w.added s.engine.ring
    let claims := s.addClaims w ring t cs
    let e := { s.engine with
      st := .line { w with outstanding := w.outstanding - 1 + claims.length, added := true }, ring := ring }
    ({ s with
      engine := if w.context.depth = 1 then e.putMean 1 (512 * t) cs else e
      store := { s.store with engineReady := s.store.engineReady ++ claims } }).checkMean w.context.depth
  | .idle | .between | .loss _ _ _ => s

/-- A WRITE ALWAYS or ADD of the item completes (R93); a line that is formed already may be delivered (R85, R95). -/
def State.accumulated (s : State) : State :=
  match s.engine.st with
  | .line w =>
    ({ s with engine := { s.engine with
      st := .line { w with outstanding := w.outstanding - 1 } } }).checkMean w.context.depth
  | .idle | .between | .loss _ _ _ => s

/-- The 32-bit values of a row read as storage lanes (R2). -/
def wideValues : List Half → List Word
  | lo :: hi :: rest => (hi ++ lo) :: wideValues rest
  | _ => []

/-- The mean of a lane (R94). -/
def meanValue (depth : Nat) (sum : Word) (c : Nat) : Nat := (sum.toNat + c) / depth

/-- The READ of an ACCUM row of the completing record completes (R94). -/
def State.completeRead (u : Nat) (cs : List Nat) (values : List Half) (s : State) : State :=
  match s.engine.st with
  | .line w =>
    let e := { s.engine with st := .line { w with outstanding := w.outstanding - 1 } }
    let means := (wideValues values).zipWith (meanValue w.context.depth) cs
    ({ s with engine := e.putMean w.context.depth (256 * u) means }).checkMean w.context.depth
  | .idle | .between | .loss _ _ _ => s

-- Taking a LOSS item

/-- The engine deals with the line numbers of a LOSS item, one after another: the ring is cut, a start line uses up an
integrated number, the stride position advances (R97, R98). With it, how many numbers were used up. -/
def Engine.loseNumbers (run : Run) : Nat → Word → Engine → Engine × Nat
  | 0, _, e => (e, 0)
  | count + 1, n, e =>
    let starts := e.startsAt run n
    let rest := Engine.loseNumbers run count (n + 1)
      { e with
        ring := []
        counter := if starts then e.counter + 1 else e.counter
        stride := nextStride run.active.stride e.stride }
    (rest.1, rest.2 + if starts then 1 else 0)

/-- The lowest integrated number cut, or the integrated counter when none is cut (R99). -/
def Engine.firstCut (e : Engine) : Word :=
  match e.ring with
  | r :: _ => r.number
  | [] => e.counter

/-- A LOSS item is taken and dealt with, its LINE_LOST notice is offered, and it is finished (R97, R99). DESIGN CHOICE
(log 16): within one step. -/
def State.takeLoss (first : Word) (count : Nat) (reasons : Reasons) (s : State) : State :=
  let r := s.engine.loseNumbers s.run count first
  (({ s with engine := r.1 }).offer
    (.lineLost first count reasons s.engine.firstCut (s.engine.ring.length + r.2))).finishItem count
      (decide ((s.run.limit - 1 - first).toNat < count))

def State.takeItem (item : QueueItem) (s : State) : State :=
  match item with
  | .line n slot => s.takeLine n slot
  | .loss first count reasons => s.takeLoss first count reasons

/-- New claims arrive at the banks (R4, R6). -/
def State.settleBanks (s : State) : State := { s with store := s.store.settleBanks }

/-- ENGINE_TAKE_ITEM (R86). -/
def execEngineTakeItem (s : State) : Host.Outcome State Fault Refusal :=
  awake s fun s =>
    if s.powered = true ∧ s.engine.st = .between then
      match s.port.queue with
      | [] => s
      | item :: rest => (({ s with port := { s.port with queue := rest } }).takeItem item).settleBanks
    else s

end Sys2Proof.Machine
end

