-- ==== Sys2Proof/Machine/Frames.lean ====
section
/-! DEFINITION. Frames, the receiver and the transmitter, and the commands FRAME_RECEIVED, HEADER_RECEIVED,
INTER_BYTE_TIMEOUT and FRAME_SENT (R174 to R180, R185). -/

namespace Sys2Proof.Machine

/-- The function applied n times. -/
def times {α : Type} (f : α → α) : Nat → α → α
  | 0, x => x
  | n + 1, x => times f n (f x)

/-- One bit of the header check: polynomial 07h, most significant bit first (R175). -/
def crc8Bit (c : Byte) : Byte := if c.msb then (c <<< 1) ^^^ 0x07 else c <<< 1

/-- The header check: CRC-8, initial value 00h (R175). -/
def crc8 (bytes : List Byte) : Byte := bytes.foldl (fun c b => times crc8Bit 8 (c ^^^ b)) 0x00

/-- One bit of the payload check: polynomial 1021h, most significant bit first (R175). -/
def crc16Bit (c : Half) : Half := if c.msb then (c <<< 1) ^^^ 0x1021 else c <<< 1

/-- The payload check: CRC-16, initial value FFFFh (R175). -/
def crc16 (bytes : List Byte) : Half :=
  bytes.foldl (fun c b => times crc16Bit 8 (c ^^^ (b ++ (0 : Byte)))) 0xFFFF

/-- The four header bytes that the header check covers (R175). -/
def headerBytes (kind tag : Byte) (length : Nat) : List Byte := [kind, tag] ++ le16 length

/-- A message as the frame sent on TXD (R175). -/
def Msg.bytes (m : Msg) : List Byte :=
  let header := headerBytes m.kind m.tag m.payload.length
  [0xD3] ++ header ++ [crc8 header] ++ m.payload ++ le16 (crc16 m.payload).toNat

/-- A number from two bytes, low byte first (R207). -/
def u16of (lo hi : Byte) : Nat := lo.toNat + 256 * hi.toNat

/-- The kinds assigned to requests, 01h to 18h (R204). -/
def assignedKind (kind : Byte) : Bool := decide (0x01 ≤ kind.toNat ∧ kind.toNat ≤ 0x18)

/-- Five bytes scanned again after a failed header check: the first D3h among them starts a new frame (R178). -/
def rescan : List Byte → Receiver
  | [] => .hunt
  | b :: rest => if b = 0xD3 then .header rest else rescan rest

/-- The fifth header byte has arrived and the header is checked (R177, R178, R179). -/
def Link.headerDone (bytes : List Byte) (l : Link) : Link :=
  match bytes with
  | [kind, tag, lo, hi, check] =>
    if crc8 [kind, tag, lo, hi] = check then
      let length := u16of lo hi
      if 1024 < length then { l with receiver := .hunt }.reject kind tag .tooLong
      else if length = 0 then { l with receiver := .check kind tag [] [] }
      else { l with receiver := .payload kind tag length [] }
    else { l with receiver := rescan bytes }
  | _ => { l with receiver := .header bytes }

/-- The payload check has been received: the frame's fate (R180). -/
def Link.frameDone (kind tag : Byte) (payload : List Byte) (check : Nat) (l : Link) : Link :=
  let l := { l with receiver := .hunt }
  if (crc16 payload).toNat ≠ check then l.reject kind tag .badCheck
  else if !assignedKind kind then l.reject kind tag .unknownKind
  else if Config.inboundPlaces ≤ l.inbound.length then l.reject kind tag .full
  else l.join ⟨kind, tag, payload⟩

/-- One byte received on RXD (R177). -/
def Link.receiveByte (l : Link) (b : Byte) : Link :=
  match l.receiver with
  | .hunt => if b = 0xD3 then { l with receiver := .header [] } else l
  | .header bytes => l.headerDone (bytes ++ [b])
  | .payload kind tag length bytes =>
    if bytes.length + 1 < length then { l with receiver := .payload kind tag length (bytes ++ [b]) }
    else { l with receiver := .check kind tag (bytes ++ [b]) [] }
  | .check kind tag payload bytes =>
    match bytes with
    | [] => { l with receiver := .check kind tag payload [b] }
    | c :: _ => l.frameDone kind tag payload (u16of c b)

/-- Bytes received on RXD, in order. -/
def Link.receive (bytes : List Byte) (l : Link) : Link := bytes.foldl Link.receiveByte l

/-- The inter-byte timer expires: with the header checked the frame is answered TRUNCATED (R179). In HUNT the timer
does not run (R177). -/
def Link.timeout (l : Link) : Link :=
  match l.receiver with
  | .hunt => l
  | .header _ => { l with receiver := .hunt }
  | .payload kind tag _ _ => { l with receiver := .hunt }.reject kind tag .truncated
  | .check kind tag _ _ => { l with receiver := .hunt }.reject kind tag .truncated

/-- The last byte of the frame in transmission has been sent: its place is freed, unless a RESTART has flushed it
(R185, R191). -/
def Link.sent (l : Link) : Link :=
  match l.transmitter with
  | .idle => l
  | .sendingReply _ flushed =>
    { l with transmitter := .idle, replies := if flushed then l.replies else l.replies.drop 1 }
  | .sendingNotice _ flushed =>
    { l with transmitter := .idle, notices := if flushed then l.notices else l.notices.drop 1 }

/-- FRAME_RECEIVED (R180). -/
def execFrameReceived (bytes : List Byte) (s : State) : Host.Outcome State Fault Refusal :=
  awake s fun s => { s with link := s.link.receive bytes }

/-- HEADER_RECEIVED (R178, R179). -/
def execHeaderReceived (bytes : List Byte) (s : State) : Host.Outcome State Fault Refusal :=
  awake s fun s => { s with link := s.link.receive bytes }

/-- INTER_BYTE_TIMEOUT (R179). -/
def execInterByteTimeout (s : State) : Host.Outcome State Fault Refusal :=
  awake s fun s => { s with link := s.link.timeout }

/-- FRAME_SENT (R185): the transmitter then chooses again, and the executor considers the entry that became free. -/
def execFrameSent (s : State) : Host.Outcome State Fault Refusal :=
  awake s fun s => { s with link := s.link.sent }

/-- SVC_FALL (R188): at SERVICE the level becomes OPERATOR and LEVEL_DROP is offered. The pin falls whether or not
RESET_N is low (log 13). -/
def execSvcFall (s : State) : Host.Outcome State Fault Refusal :=
  if s.held then .next { s with svc := false }
  else awake { s with svc := false } fun s =>
    match s.link.level with
    | .operator => s
    | .service => { s with link := { s.link with level := .operator }.offer .levelDrop }

end Sys2Proof.Machine
end

