-- ==== Sys2Proof/Machine/Operands.lean ====
section
/-! DEFINITION. The operands of a request as its payload carries them: lengths, fields, codes and ranges (R206, R207,
section 12.4), and the acceptance of a request by the executor (R182, R205). -/

namespace Sys2Proof.Machine

/-- A one-byte field at an offset. -/
def u8At (p : List Byte) (i : Nat) : Nat := (p.getD i 0).toNat

/-- A two-byte field at an offset (R207). -/
def u16At (p : List Byte) (i : Nat) : Nat := u16of (p.getD i 0) (p.getD (i + 1) 0)

/-- A four-byte field at an offset (R207). -/
def u32At (p : List Byte) (i : Nat) : Nat := u16At p i + 65536 * u16At p (i + 2)

/-- The payload length is right for a request kind: the length column of R204, and for WRITE three plus twice the value
count in bytes 1 and 2 (R206). -/
def lengthOk (kind : Byte) (p : List Byte) : Bool :=
  match kind.toNat with
  | 0x01 => decide (p.length ≤ 64)
  | 0x02 => decide (p.length = 0)
  | 0x03 => decide (p.length = 1)
  | 0x04 => decide (p.length = 0)
  | 0x05 => decide (p.length = 1)
  | 0x06 => decide (p.length = 6)
  | 0x07 => decide (p.length = 7)
  | 0x08 => decide (p.length = 1)
  | 0x09 => decide (p.length = 0)
  | 0x0A => decide (p.length = 11)
  | 0x0B => decide (p.length = 2)
  | 0x0C => decide (p.length = 8)
  | 0x0D => decide (p.length = 2)
  | 0x0E => decide (3 ≤ p.length) && decide (p.length = 3 + 2 * u16At p 1)
  | 0x0F => decide (p.length = 35)
  | 0x10 => decide (p.length = 0)
  | 0x11 => decide (p.length = 0)
  | 0x12 => decide (p.length = 0)
  | 0x13 => decide (p.length = 5)
  | 0x14 => decide (p.length = 0)
  | 0x15 => decide (p.length = 0)
  | 0x16 => decide (p.length = 0)
  | 0x17 => decide (p.length = 2)
  | 0x18 => decide (p.length = 1)
  | _ => false

/-- The service-level requests: GEOMETRY, DEFINE, REMOVE (R188). -/
def serviceKind (kind : Byte) : Bool := kind == 0x06 || kind == 0x07 || kind == 0x08

-- Codes (R207)

def levelOf : Nat → Option Level
  | 0 => some .operator
  | 1 => some .service
  | _ => none

def kindOf : Nat → Option RegionKind
  | 0 => some .profile
  | 1 => some .accum
  | 2 => some .history
  | 3 => some .scratch
  | _ => none

def planeOf : Nat → Option Plane
  | 0 => some .gain
  | 1 => some .lower
  | 2 => some .upper
  | 3 => some .single
  | _ => none

def binningOf : Nat → Option Binning
  | 0 => some .none
  | 1 => some .pair
  | _ => none

def edgeOf : Nat → Option Edge
  | 0 => some .rising
  | 1 => some .falling
  | _ => none

def pinLevelOf : Nat → Option PinLevel
  | 0 => some .high
  | 1 => some .low
  | _ => none

def testModeOf : Nat → Option TestMode
  | 0 => some .inspect
  | 1 => some .teach
  | _ => none

def triggerOf : Nat → Option Trigger
  | 0 => some .now
  | 1 => some .atTrig
  | _ => none

def condOf : Nat → Option WriteCond
  | 0 => some .always
  | 1 => some .ifGreater
  | 2 => some .ifLess
  | _ => none

/-- A mode target (R195). -/
def targetOf : Nat → Option Steady
  | 1 => some .quiet
  | 2 => some .active
  | 3 => some .retain
  | _ => none

/-- A region field of a context record: an index, FFh for none, or a field out of range (R207). -/
def regionFieldOf (n : Nat) : Option (Option Nat) :=
  if n ≤ 15 then some (some n) else if n = 255 then some none else none

/-- The pixels per line are 256 k for k from 1 to 16 (R23). -/
def pixelsOk (n : Nat) : Bool := decide (256 ≤ n ∧ n ≤ 4096 ∧ n % 256 = 0)

/-- The geometry of a GEOMETRY payload; none when a field is outside its list (R23). -/
def geometryOf (p : List Byte) : Option Geometry :=
  match binningOf (u8At p 2), edgeOf (u8At p 3), pinLevelOf (u8At p 4), edgeOf (u8At p 5) with
  | some b, some e, some l, some t => if pixelsOk (u16At p 0) then some ⟨u16At p 0, b, e, l, t⟩ else none
  | _, _, _, _ => none

/-- The excluded lane ranges of a context payload: as many slots as the count says (R207). -/
def excludedOf (p : List Byte) (count : Nat) : List (Nat × Nat) :=
  (List.range count).map (fun i => (u16At p (19 + 4 * i), u16At p (21 + 4 * i)))

/-- The ranges of R46 that are not code lists. -/
def contextRangesOk (p : List Byte) : Bool :=
  decide (u8At p 1 ∈ [1, 2, 4, 8, 16]) && decide (1 ≤ u8At p 2 ∧ u8At p 2 ≤ 16) && decide (u8At p 6 ≤ 31)
    && decide (1 ≤ u8At p 9 ∧ u8At p 9 ≤ 64) && decide (u8At p 10 ≤ 15) && decide (u8At p 11 ≤ 7)
    && decide (16 ≤ u16At p 12) && decide (u16At p 14 ≤ 4095) && decide (u16At p 16 ≤ 4095)
    && decide (u8At p 18 ≤ 4) && (excludedOf p (u8At p 18)).all (fun r => decide (r.1 ≤ 4095 ∧ r.2 ≤ 4095))

/-- The context record of a SET payload; none when a field is outside its range (R46, section 12.4). -/
def contextOf (p : List Byte) : Option Context :=
  match testModeOf (u8At p 0), regionFieldOf (u8At p 5), regionFieldOf (u8At p 7), regionFieldOf (u8At p 8) with
  | some test, some profile, some accum, some history =>
    if contextRangesOk p then
      some { test := test, depth := u8At p 1, stride := u8At p 2, w0 := u8At p 3, w1 := u8At p 4, profile := profile,
             entry := u8At p 6, accum := accum, history := history, excluded := excludedOf p (u8At p 18),
             minRun := u8At p 9, gapBridge := u8At p 10, gapLines := u8At p 11, maxSpan := u16At p 12,
             marginAbove := u16At p 14, marginBelow := u16At p 16 }
    else none
  | _, _, _, _ => none

/-- The values of a WRITE payload in walk order (section 12.4). -/
def writeValues (p : List Byte) : List Half :=
  (List.range (u16At p 1)).map (fun i => BitVec.ofNat 16 (u16At p (3 + 2 * i)))

-- Acceptance

/-- Steps 3 to 5 of the check order: length, STARTING, link level (R205). -/
def State.commonFailure (s : State) (r : Request) : Option Status :=
  firstFailure
    [(!lengthOk r.kind r.payload, .badLength),
     (decide (s.modeCtl.mode = .starting), .starting),
     (serviceKind r.kind && decide (s.link.level = .operator), .level)]

/-- The reply payload of a refusal: the status alone, but the LEVEL reply carries the link level and the MODE reply the
mode whatever the status (R205, section 12.4). -/
def State.refusalBytes (s : State) (kind : Byte) (status : Status) : List Byte :=
  if kind = 0x03 then [status.code, s.link.level.code]
  else if kind = 0x05 then [status.code, s.modeCtl.mode.code]
  else [status.code]

/-- A refusal: its reply, and no other effect (R205). -/
def State.refuse (r : Request) (status : Status) (s : State) : State :=
  s.reply r.ticket (s.refusalBytes r.kind status)

/-- An OK reply with its fields. -/
def State.replyOk (r : Request) (fields : List Byte) (s : State) : State := s.reply r.ticket (Status.ok.code :: fields)

/-- A refusal where a check fails, and otherwise the effect (R205). -/
def State.checked (r : Request) (checks : List (Bool × Status)) (effect : State → State) (s : State) : State :=
  match firstFailure checks with
  | some status => s.refuse r status
  | none => effect s

/-- The executor accepts the head request if it is of this kind and may be accepted; otherwise nothing happens (log 2).
Steps 3 to 5 are made here, and the body makes its own (R182, R205). -/
def accept (kind : Byte) (body : Request → State → State) (s : State) : Host.Outcome State Fault Refusal :=
  awake s fun s =>
    match s.link.acceptable s.modeCtl.mode kind with
    | none => s
    | some (r, rest) =>
      let s := { s with link := s.link.take r rest }
      match s.commonFailure r with
      | some status => s.refuse r status
      | none => body r s

/-- The mode is RETAIN. -/
def State.inRetain (s : State) : Bool := decide (s.modeCtl.mode = .steady .retain)

end Sys2Proof.Machine
end

