-- ==== Sys2Proof/Machine/Banks.lean ====
section
/-! DEFINITION. The commands of the banks and of refresh: opens, accesses, closes, ticks and refreshes (R3 to R21), and
the access unit's part in a completed access (R39, R40, R166, R169). -/

namespace Sys2Proof.Machine

-- CLEAR

/-- The fill value of a CLEAR for the plane at a place of the entry (R38). -/
def ClearWork.fill (w : ClearWork) : Nat → Half
  | 0 => w.fill0
  | 1 => w.fill1
  | _ => w.fill2

/-- The ACCESS claim of a CLEAR for its next store row: WRITE ALWAYS of the plane's fill into the lanes 0 to Q - 1 of
the row (R39). -/
def State.clearClaim (w : ClearWork) (s : State) : Claim :=
  match s.region w.region with
  | none => ⟨w.nextRow, .write .always [], .clearRow⟩
  | some r =>
    let place := (w.nextRow - r.first) % r.rowsPerEntry s.slot
    ⟨w.nextRow,
      .write .always ((planeLanes s.lanes (place % s.slot)).map (fun l => (l, w.fill (place / s.slot)))), .clearRow⟩

/-- The access unit presents a claim (R4). -/
def State.presentAccess (c : Claim) (s : State) : State := { s with store := s.store.presentAccess c }

/-- A CLEAR covers every entry of a region (R31). -/
def ClearWork.covers (w : ClearWork) (entries : Nat) : Bool := decide (w.firstEntry = 0 ∧ w.lastEntry + 1 = entries)

/-- A region as the completion of a CLEAR leaves it (R31, R40). -/
def Region.cleared (slot : Nat) (w : ClearWork) (r : Region) : Region :=
  if r.kind = .profile ∧ w.covers (r.entries slot) = true then { r with loaded := true } else r

/-- The CLEAR completes (R40). -/
def State.clearDone (w : ClearWork) (s : State) : State :=
  let s := { s with access := { s.access with clear := none } }
  match s.region w.region with
  | none => s.reply w.ticket (Status.ok.code :: le16 0 ++ [0])
  | some r =>
    let done := r.cleared s.slot w
    ({ s with regions := Table.put s.regions w.region done }).reply w.ticket
      (Status.ok.code :: le16 ((w.lastEntry + 1 - w.firstEntry) * r.rowsPerEntry s.slot) ++ [flagByte [done.loaded]])

/-- The access of a CLEAR's row completes: the claim for the next row is presented, or the CLEAR is complete (R39). -/
def State.rowCleared (s : State) : State :=
  match s.access.clear with
  | none => s
  | some w =>
    if w.nextRow < w.endRow then
      let next := { w with nextRow := w.nextRow + 1 }
      ({ s with access := { s.access with clear := some next } }).presentAccess (s.clearClaim next)
    else s.clearDone w

-- READ and WRITE

/-- A selection with its cursor at a position. -/
def Selection.moveTo (c : Cursor) (k : Selection) : Selection := { k with cursor := c }

/-- The access unit's state at the end of a READ or WRITE: the cursor after the walk, IDLE; the executor goes on once
the reply is queued (R166, R169, R182). -/
def State.transferDone (t : Transfer) (payload : List Byte) (s : State) : State :=
  ({ s with
    access := { s.access with
      st := .idle, selection := s.access.selection.map (Selection.moveTo t.cursor) }
    link := { s.link with executor := .idle } }).reply t.ticket payload

/-- The READ reply after the status: count, WRAPPED, cursor, values (R166, section 12.4). A 32-bit value goes as its low
half and then its high half. -/
def readBytes (t : Transfer) (wide : Bool) (values : List Half) : List Byte :=
  le16 (if wide then values.length / 2 else values.length) ++ [flagByte [t.wrapped]] ++ t.cursor.bytes
    ++ values.flatMap (fun v => le16 v.toNat)

/-- The access of a segment of a READ completes (R166). -/
def State.segmentRead (values : List Half) (s : State) : State :=
  match s.access.st with
  | .reading t wide sofar =>
    match t.claims with
    | [] => s.transferDone t (Status.ok.code :: readBytes t wide (sofar ++ values))
    | c :: rest =>
      ({ s with access := { s.access with st := .reading { t with claims := rest } wide (sofar ++ values) } }).presentAccess c
  | .idle | .writing _ _ => s

/-- The access of a segment of a WRITE completes (R169). -/
def State.segmentWritten (written : List Bool) (s : State) : State :=
  match s.access.st with
  | .writing t sofar =>
    let count := sofar + written.count true
    match t.claims with
    | [] => s.transferDone t (Status.ok.code :: le16 count ++ [flagByte [t.wrapped]] ++ t.cursor.bytes)
    | c :: rest =>
      ({ s with access := { s.access with st := .writing { t with claims := rest } count } }).presentAccess c
  | .idle | .reading _ _ _ => s

-- Completed accesses

/-- The result of a completed access goes to its claimant (R3). -/
def State.giveResult (use : ClaimUse) (r : AccessResult) (s : State) : State :=
  match use with
  | .gain t => (s.gainRead t r.values).checkLine
  | .accumulate => s.accumulated.checkLine
  | .complete u cs => (s.completeRead u cs r.values).checkLine
  | .lower t => (s.lowerRead t r.values).checkLine
  | .upper t => (s.upperRead t r.values).checkLine
  | .teach => s.teachWritten.checkLine
  | .history => ({ s with history := s.history.rowWritten }).checkLine
  | .hostRead => s.segmentRead r.values
  | .hostWrite => s.segmentWritten r.written
  | .clearRow => s.rowCleared
  | .discarded _ => s

/-- The access is performed and is no longer the bank's granted access (R3). -/
def State.performed (bank : Fin 4) (c : Claim) (s : State) : State :=
  { s with store := { s.store with
    mem := (s.store.mem.perform s.store.coldEpoch c.row c.op).1
    banks := s.store.banks.set bank { s.store.banks.get bank with granted := none } } }

/-- The bank's grant decision at the completion of an access, with the claims ready by then, and the decisions of IDLE
banks at which a claim has arrived (R4, R6). -/
def State.decideAfter (bank : Fin 4) (row : Nat) (s : State) : State :=
  { s with store := ((s.store.admitAccess.present bank).decideDone bank row).settleBanks }

/-- ACCESS_COMPLETE on a bank (R3, R6). -/
def execAccessComplete (bank : Fin 4) (s : State) : Host.Outcome State Fault Refusal :=
  let b := s.store.banks.get bank
  match b.st, b.granted with
  | .opened row, some c =>
    if c.inStore then
      awake s fun s =>
        ((s.performed bank c).giveResult c.use (s.store.mem.perform s.store.coldEpoch c.row c.op).2).decideAfter bank row
    else .fault .noSuchLane
  | _, _ => awake s id

/-- BANK_OPEN_COMPLETE on a bank (R5). -/
def execBankOpenComplete (bank : Fin 4) (s : State) : Host.Outcome State Fault Refusal :=
  awake s fun s =>
    let b := s.store.banks.get bank
    match b.st with
    | .opening row => { s with store := { s.store with banks := s.store.banks.set bank { b with st := .opened row } } }
    | .idle | .opened _ | .closing => s

/-- BANK_CLOSE_COMPLETE on a bank (R5). At IDLE, what was held up by the open bank follows: self-refresh entry, the
urgent run, or the bank's grant decision (R6, R11, R19; DEDUCED, log 7). -/
def execBankCloseComplete (bank : Fin 4) (s : State) : Host.Outcome State Fault Refusal :=
  awake s fun s =>
    let b := s.store.banks.get bank
    match b.st, b.granted with
    | .closing, some c =>
      { s with store := { s.store with banks := s.store.banks.set bank { b with st := .opening (bankRowOf c.row) } } }
    | .closing, none => { s with store := ({ s.store with banks := s.store.banks.set bank { b with st := .idle } }).settle }
    | _, _ => s

-- Refresh

/-- REFRESH_TICK (R9): with the tick timer running, the debt rises, and urgency may follow (R10, R11). -/
def execRefreshTick (s : State) : Host.Outcome State Fault Refusal :=
  awake s fun s => if s.store.ticking then { s with store := s.store.tick.startUrgent } else s

/-- A refresh starts: under urgency as R11 gives, otherwise under the four conditions of R9, and not while self-refresh
entry is ordered (R19). -/
def Store.startRefresh (st : Store) : Store :=
  if st.urgent then st.startUrgent
  else if st.array = .ready ∧ st.allIdle = true ∧ st.noClaimWaits = true ∧ 1 ≤ st.debt ∧ st.entryOrdered = false then
    { st with array := .refreshing, work := .debt }
  else st

/-- REFRESH_START (R9). -/
def execRefreshStart (s : State) : Host.Outcome State Fault Refusal :=
  awake s fun s => { s with store := s.store.startRefresh }

/-- The array comes to READY at the end of its refresh work (R7). -/
def Store.toReady (st : Store) : Store := ({ st with array := .ready, work := .none }).settle

/-- A refresh under R9 or R11 completes: the debt falls, urgency ends at 0, and while it is in force the next refresh
starts at once (R8, R10, R11). DESIGN CHOICE (log 27): urgency that a tick puts in force during a refresh goes on from it
to a debt of 0 even where self-refresh entry was ordered before the tick; the entry follows. -/
def Store.debtRefreshed (st : Store) : Store :=
  let urgent := st.urgent && decide (st.debt - 1 ≠ 0)
  let st := { st with debt := st.debt - 1, urgent := urgent }
  if urgent then st else st.toReady

/-- The cold start completes: the tick timer starts, the mode is QUIET, and READY is offered (R9, R21, R200). -/
def State.coldStartDone (s : State) : State :=
  ({ s with
    store := ({ s.store with ticking := true }).toReady
    modeCtl := { s.modeCtl with mode := .steady .quiet } }).offer (.ready Config.partRevision)

/-- The refresh in progress completes (R8, R20, R21). -/
def State.refreshed (s : State) : State :=
  let st := { s.store with pointer := nextPointer s.store.pointer }
  match s.store.work with
  | .none | .startupHold => s
  | .debt => { s with store := st.debtRefreshed }
  | .startup left =>
    if 1 < left then { s with store := { st with work := .startup (left - 1) } }
    else ({ s with store := st }).coldStartDone
  | .burst left =>
    { s with store := if 1 < left then { st with work := .burst (left - 1) } else st.toReady }

/-- REFRESH_COMPLETE (R8). -/
def execRefreshComplete (s : State) : Host.Outcome State Fault Refusal := awake s State.refreshed

end Sys2Proof.Machine
end

