-- ==== Sys2Proof/Machine/AccessRequests.lean ====
section
/-! DEFINITION. The requests of the access unit: SELECT, WINDOW, READ, WRITE (R160 to R171). -/

namespace Sys2Proof.Machine

/-- A plane belongs to a region kind (R161). -/
def planeFits (kind : RegionKind) (plane : Plane) : Bool := decide ((kind = .profile) ↔ (plane ≠ .single))

/-- The lane width in bits (R161). -/
def RegionKind.laneBits : RegionKind → Nat
  | .accum => 32
  | .profile | .history | .scratch => 16

/-- The selection of a whole plane, with the cursor at its start (R161). -/
def wholePlane (index : Nat) (plane : Plane) (entries lanes : Nat) : Selection where
  region := index
  plane := plane
  window := ⟨0, entries - 1, 0, lanes - 1⟩
  cursor := ⟨0, 0⟩

/-- The SELECT reply after the status (R161, section 12.4). -/
def selectBytes (k : Selection) (kind : RegionKind) (entries lanes : Nat) : List Byte :=
  [byte k.region, kind.code, k.plane.code] ++ le16 entries ++ le16 lanes ++ [byte kind.laneBits] ++ k.window.bytes
    ++ k.cursor.bytes

/-- SELECT's own checks and effect (R161). -/
def State.selectRequest (r : Request) (s : State) : State :=
  let index := u8At r.payload 0
  match s.inRetain, planeOf (u8At r.payload 1) with
  | true, _ => s.refuse r .state
  | false, none => s.refuse r .badField
  | false, some plane =>
    if 15 < index then s.refuse r .badField
    else
      match s.region index with
      | none => s.refuse r .region
      | some target =>
        s.checked r [(!planeFits target.kind plane, .region)] fun s =>
          let k := wholePlane index plane (target.entries s.slot) s.lanes
          ({ s with access := { s.access with selection := some k } }).replyOk r
            (selectBytes k target.kind (target.entries s.slot) s.lanes)

/-- SELECT (R161). -/
def execSelect (s : State) : Host.Outcome State Fault Refusal := accept 0x0B State.selectRequest s

/-- The window of a WINDOW payload (section 12.4). -/
def windowOf (p : List Byte) : Window := ⟨u16At p 0, u16At p 2, u16At p 4, u16At p 6⟩

/-- The fields of a WINDOW lie in their ranges and order (R162). -/
def Window.fieldsOk (w : Window) : Bool :=
  decide (w.firstEntry ≤ 8191 ∧ w.lastEntry ≤ 8191 ∧ w.firstLane ≤ 4095 ∧ w.lastLane ≤ 4095
    ∧ w.firstEntry ≤ w.lastEntry ∧ w.firstLane ≤ w.lastLane)

/-- The cursor at the window start (R162). -/
def Window.start (w : Window) : Cursor := ⟨w.firstEntry, w.firstLane⟩

/-- The selected region (R160). R172 keeps it defined. -/
def State.selected (s : State) : Option (Selection × Region) :=
  match s.access.selection with
  | none => none
  | some k => (s.region k.region).map (fun r => (k, r))

/-- WINDOW's own checks and effect (R162). -/
def State.windowRequest (r : Request) (s : State) : State :=
  let w := windowOf r.payload
  s.checked r [(s.inRetain, .state), (!w.fieldsOk, .badField)] fun s =>
    match s.selected with
    | none => s.refuse r .noSelection
    | some (k, target) =>
      s.checked r [(decide (target.entries s.slot ≤ w.lastEntry ∨ s.lanes ≤ w.lastLane), .badField)] fun s =>
        ({ s with access := { s.access with selection := some { k with window := w, cursor := w.start } } }).replyOk r
          (w.bytes ++ w.start.bytes)

/-- WINDOW (R162). -/
def execWindow (s : State) : Host.Outcome State Fault Refusal := accept 0x0C State.windowRequest s

-- The cursor walk

/-- The position after a position, and whether that is a wrap (R163). -/
def Window.advance (w : Window) (c : Cursor) : Cursor × Bool :=
  if c.lane + 1 ≤ w.lastLane then (⟨c.entry, c.lane + 1⟩, false)
  else if c.entry + 1 ≤ w.lastEntry then (⟨c.entry + 1, w.firstLane⟩, false)
  else (⟨w.firstEntry, w.firstLane⟩, true)

/-- A walk: the visited positions, the cursor after it, and whether it wrapped (R163). -/
structure Walk where
  visits : List Cursor
  cursor : Cursor
  wrapped : Bool
deriving DecidableEq, Repr

/-- The walk of a count from a position (R163). -/
def Window.walk (w : Window) : Nat → Cursor → Walk
  | 0, c => ⟨[], c, false⟩
  | count + 1, c =>
    let next := w.advance c
    let rest := w.walk count next.1
    ⟨c :: rest.visits, rest.cursor, next.2 || rest.wrapped⟩

/-- Lanes per store row of a plane: 512, or 256 wide lanes (R164). -/
def RegionKind.laneUnit : RegionKind → Nat
  | .accum => 256
  | .profile | .history | .scratch => 512

/-- A visit continues the segment of the visit before it (R164). -/
def joinsSegment (unit : Nat) (a b : Cursor) : Bool :=
  decide (b.entry = a.entry ∧ b.lane = a.lane + 1 ∧ b.lane / unit = a.lane / unit)

/-- A walk, each visit with its value, cut into segments (R164). -/
def segments {α : Type} (unit : Nat) : List (Cursor × α) → List (List (Cursor × α))
  | [] => []
  | v :: rest =>
    match segments unit rest with
    | (u :: us) :: others => if joinsSegment unit v.1 u.1 then (v :: u :: us) :: others else [v] :: (u :: us) :: others
    | others => [v] :: others

/-- The store row of a position of a plane (R28, R29, R164). -/
def Region.rowOf (slot : Nat) (r : Region) (plane : Plane) (c : Cursor) : Nat :=
  r.planeRow slot plane c.entry + c.lane / r.kind.laneUnit

/-- The storage lanes of a position (R28, R29, R164). -/
def RegionKind.lanesOf (kind : RegionKind) (c : Cursor) : List Nat :=
  match kind with
  | .accum => [2 * (c.lane % 256), 2 * (c.lane % 256) + 1]
  | .profile | .history | .scratch => [c.lane % 512]

/-- The ACCESS claim of a READ segment (R164, R166). -/
def readClaim (slot : Nat) (target : Region) (plane : Plane) (segment : List (Cursor × Unit)) : Claim where
  row := target.rowOf slot plane (segment.headD (⟨0, 0⟩, ())).1
  op := .read (segment.flatMap (fun v => target.kind.lanesOf v.1))
  use := .hostRead

/-- The ACCESS claim of a WRITE segment (R164, R169). -/
def writeClaim (slot : Nat) (target : Region) (plane : Plane) (cond : WriteCond) (segment : List (Cursor × Half)) :
    Claim where
  row := target.rowOf slot plane (segment.headD (⟨0, 0⟩, 0)).1
  op := .write cond (segment.map (fun v => (v.1.lane % 512, v.2)))
  use := .hostWrite

/-- The claims of a READ of a count (R166). -/
def readClaims (slot : Nat) (target : Region) (plane : Plane) (visits : List Cursor) : List Claim :=
  (segments target.kind.laneUnit (visits.map (fun c => (c, ())))).map (readClaim slot target plane)

/-- The claims of a WRITE of values (R169). -/
def writeClaims (slot : Nat) (target : Region) (plane : Plane) (cond : WriteCond) (visits : List Cursor)
    (values : List Half) : List Claim :=
  (segments target.kind.laneUnit (visits.zip values)).map (writeClaim slot target plane cond)

/-- The first claim of a transfer is presented, and the executor carries the request out (R166, R169, R171). -/
def State.startTransfer (claims : List Claim) (st : List Claim → AccessState) (s : State) : State :=
  match claims with
  | [] => s
  | c :: rest =>
    (({ s with
      access := { s.access with st := st rest }
      link := { s.link with executor := .executing } }).presentAccess c).settleBanks

/-- READ's own checks and effect (R165, R166). -/
def State.readRequest (r : Request) (s : State) : State :=
  let count := u16At r.payload 0
  s.checked r
    [(s.inRetain, .state), (s.access.clear.isSome, .busy), (decide (count = 0 ∨ 512 < count), .badField)] fun s =>
    match s.selected with
    | none => s.refuse r .noSelection
    | some (k, target) =>
      s.checked r [(decide (target.kind = .accum ∧ 256 < count), .badField)] fun s =>
        let walk := k.window.walk count k.cursor
        s.startTransfer (readClaims s.slot target k.plane walk.visits) fun rest =>
          .reading ⟨r.ticket, rest, walk.cursor, walk.wrapped⟩ (decide (target.kind = .accum)) []

/-- READ (R165, R166). -/
def execRead (s : State) : Host.Outcome State Fault Refusal := accept 0x0D State.readRequest s

/-- WRITE's checks of step 8 on the selected region, in the order of R168. -/
def State.writeChecks (k : Selection) (target : Region) (s : State) : List (Bool × Status) :=
  [(decide (target.kind = .accum), .region),
   (decide (target.kind = .history) && s.bound k.region, .bound),
   (decide (target.writeLevel = .service ∧ s.link.level = .operator), .level)]

/-- WRITE's own checks and effect (R168, R169). -/
def State.writeRequest (r : Request) (s : State) : State :=
  let values := writeValues r.payload
  s.checked r
    [(s.inRetain, .state), (s.access.clear.isSome, .busy), (decide (values.length = 0), .badField)] fun s =>
    match condOf (u8At r.payload 0) with
    | none => s.refuse r .badField
    | some cond =>
      match s.selected with
      | none => s.refuse r .noSelection
      | some (k, target) =>
        s.checked r (s.writeChecks k target) fun s =>
          let walk := k.window.walk values.length k.cursor
          s.startTransfer (writeClaims s.slot target k.plane cond walk.visits values) fun rest =>
            .writing ⟨r.ticket, rest, walk.cursor, walk.wrapped⟩ 0

/-- WRITE (R168, R169). -/
def execWrite (s : State) : Host.Outcome State Fault Refusal := accept 0x0E State.writeRequest s

end Sys2Proof.Machine
end

