-- ==== Sys2Proof/Machine/HistoryRequests.lean ====
section
/-! DEFINITION. The requests of the history writer and the defect tracker: HOLD, RELEASE, HISTORY_INFO, DEFECTS (R145,
R154 to R157). -/

namespace Sys2Proof.Machine

/-- The write-in-progress flag with the index position of the line in hand, 0 when there is none (R154). -/
def History.inHand (h : History) : List Byte :=
  match h.st with
  | .idle => flagByte [false] :: le16 0
  | .storing line _ | .filing line => flagByte [true] :: le16 line.entry

/-- HOLD (R154). -/
def execHold (s : State) : Host.Outcome State Fault Refusal :=
  accept 0x15 (fun r s =>
    ({ s with history := { s.history with hold := true } }).replyOk r (le32 s.history.unstored ++ s.history.inHand)) s

/-- RELEASE (R155). -/
def execRelease (s : State) : Host.Outcome State Fault Refusal :=
  accept 0x16 (fun r s =>
    ({ s with history := { s.history with hold := false, unstored := 0 } }).replyOk r (le32 s.history.unstored)) s

/-- The positions a HISTORY_INFO returns from a start position: up to 64, up to position 1023 (R157). -/
def positionsFrom (start : Nat) : List Nat := (List.range (min 64 (Config.indexPositions - start))).map (start + ·)

/-- The HISTORY_INFO reply after the status (R157, section 12.4). -/
def State.historyFields (start : Nat) (s : State) : List Byte :=
  le32 s.history.written.toNat ++ le16 s.history.writePos ++ [flagByte [s.history.hold]] ++ le32 s.history.unstored
    ++ [regionCode s.run.active.history] ++ le16 (s.entriesOf .history s.run.active.history) ++ le16 start
    ++ [byte (positionsFrom start).length]
    ++ (positionsFrom start).flatMap (fun k => indexBytes (Table.find s.history.index k))

/-- HISTORY_INFO (R157). -/
def execHistoryInfo (s : State) : Host.Outcome State Fault Refusal :=
  accept 0x17 (fun r s =>
    s.checked r [(decide (1023 < u16At r.payload 0), .badField)] fun s =>
      s.replyOk r (s.historyFields (u16At r.payload 0))) s

/-- The DEFECTS reply after the status (R145, section 12.4). -/
def State.defectsFields (start : Nat) (s : State) : List Byte :=
  let page := (s.tracker.table.drop start).take 24
  [byte s.tracker.table.length, byte start, byte page.length] ++ page.flatMap Defect.bytes

/-- DEFECTS (R145). -/
def execDefects (s : State) : Host.Outcome State Fault Refusal :=
  accept 0x18 (fun r s =>
    s.checked r [(decide (63 < u8At r.payload 0), .badField)] fun s =>
      s.replyOk r (s.defectsFields (u8At r.payload 0))) s

end Sys2Proof.Machine
end

