-- ==== Sys2Proof/Machine/LinkRequests.lean ====
section
/-! DEFINITION. The requests of the link and the mode controller: PING, STATUS, LEVEL, RESTART, MODE, and
MODE_CHANGE_COMPLETE (R188 to R203). -/

namespace Sys2Proof.Machine

/-- PING (R189): the part revision and the payload. -/
def execPing (s : State) : Host.Outcome State Fault Refusal :=
  accept 0x01 (fun r s => s.replyOk r (Config.partRevision :: r.payload)) s

-- STATUS

/-- The LINE items in a line queue (R81). -/
def lineItems (q : List QueueItem) : Nat :=
  (q.filter fun i => match i with | .line _ _ => true | .loss _ _ _ => false).length

/-- The LOSS items in a line queue (R81). -/
def lossItems (q : List QueueItem) : Nat :=
  (q.filter fun i => match i with | .line _ _ => false | .loss _ _ _ => true).length

/-- The STATUS reply after the status byte, 30 bytes (R190, section 12.4). -/
def State.statusFields (s : State) : List Byte :=
  [s.modeCtl.mode.code, s.modeCtl.mode.sourceCode, s.modeCtl.mode.targetCode, s.run.st.code, s.link.level.code,
    flagByte [s.geometry.isSome, s.history.hold, s.run.next.isSome, s.access.clear.isSome], byte s.store.debt]
    ++ le32 s.port.counter.toNat ++ le32 s.engine.counter.toNat
    ++ [byte s.engine.ring.length, byte (lineItems s.port.queue), byte (lossItems s.port.queue),
      byte s.tracker.table.length, byte s.link.notices.length]
    ++ le16 s.link.drops ++ le32 s.history.unstored ++ le32 s.tester.teachCount.toNat

/-- STATUS (R190). -/
def execStatus (s : State) : Host.Outcome State Fault Refusal :=
  accept 0x02 (fun r s => s.replyOk r s.statusFields) s

-- LEVEL

/-- The link level set, with the LEVEL reply: the level after the request (R188). -/
def State.setLevel (r : Request) (l : Level) (s : State) : State :=
  ({ s with link := { s.link with level := l } }).replyOk r [l.code]

/-- LEVEL's own checks and effect (R188). -/
def State.levelRequest (r : Request) (s : State) : State :=
  match levelOf (u8At r.payload 0) with
  | none => s.refuse r .badField
  | some .operator => s.setLevel r .operator
  | some .service =>
    match s.link.level, s.svc with
    | .service, _ => s.replyOk r [s.link.level.code]
    | .operator, true => s.setLevel r .service
    | .operator, false => s.refuse r .level

/-- LEVEL (R188), with what the pin SVC has done since it last fell (log 13). -/
def execLevel (svcRisen : Bool) (s : State) : Host.Outcome State Fault Refusal :=
  accept 0x03 (fun r s => ({ s with svc := s.svc || svcRisen }).levelRequest r) s

-- RESTART

/-- The region table after a CLEAR is aborted: a PROFILE target loses its loaded flag (R31, R42). -/
def State.abortedRegions (s : State) : Table Region :=
  match s.access.clear with
  | none => s.regions
  | some w =>
    match s.region w.region with
    | none => s.regions
    | some r => if r.kind = .profile then Table.put s.regions w.region { r with loaded := false } else s.regions

/-- The frame in transmission is sent to its end, and its queue no longer holds it (R191, log 23). -/
def Transmitter.flush : Transmitter → Transmitter
  | .idle => .idle
  | .sendingReply frame _ => .sendingReply frame true
  | .sendingNotice frame _ => .sendingNotice frame true

/-- The link at RESTART, its own reply entry kept (R191, R192). -/
def Link.restarted (t : Ticket) (l : Link) : Link :=
  { l with
    inbound := []
    holdOut := false
    executor := .idle
    reserved := [t]
    replies := []
    transmitter := l.transmitter.flush
    notices := []
    drops := 0
    level := .operator }

/-- Every block at its RESTART values (R22, R43, R68, R84, R107, R124, R148, R159, R173, R192, R202). The level of LVAL
is a record of the pin, which RESTART does not touch (R70). -/
def State.restarted (t : Ticket) (s : State) : State :=
  { s with
    store := s.store.withdrawEngine.withdrawAccess
    regions := s.abortedRegions
    run := Run.cold
    port := { Port.cold with lval := s.port.lval }
    engine := Engine.cold
    tester := Tester.cold
    tracker := Tracker.cold
    history := History.cold
    access := Access.cold
    link := s.link.restarted t }

/-- RESTART (R201, R202). -/
def execRestart (s : State) : Host.Outcome State Fault Refusal :=
  accept 0x04 (fun r s =>
    s.checked r [(s.inRetain, .state)] fun s =>
      (s.restarted r.ticket).replyOk r
        [s.modeCtl.mode.code, flagByte [decide (s.run.st ≠ .stopped), s.access.clear.isSome]]) s

-- MODE

/-- The checks of step 8 on a change between two steady modes (R195). -/
def State.changeFailure (source target : Steady) (s : State) : Option Status :=
  firstFailure
    [(decide ((source = .active ∧ target = .retain) ∨ (source = .retain ∧ target = .active)), .transition),
     (decide (source = .active ∧ target = .quiet ∧ s.run.st ≠ .stopped), .state),
     (decide (source = .quiet ∧ target = .retain) && s.access.clear.isSome, .busy)]

/-- The store work of a change (R195, R198). -/
def Store.startChange (source target : Steady) (st : Store) : Store :=
  match source, target with
  | .quiet, .retain => st.orderEntry
  | .retain, .quiet => st.exitSelfRefresh
  | _, _ => st

/-- A change starts, its reply deferred (R196). -/
def State.startChange (source target : Steady) (t : Ticket) (s : State) : State :=
  { s with
    modeCtl := ⟨.changing source target, some t⟩
    store := s.store.startChange source target }

/-- MODE's own checks and effect (R195). -/
def State.modeRequest (r : Request) (s : State) : State :=
  match targetOf (u8At r.payload 0), s.modeCtl.mode with
  | none, _ => s.refuse r .badField
  | some target, .steady source =>
    if target = source then s.replyOk r [s.modeCtl.mode.code]
    else
      match s.changeFailure source target with
      | some status => s.refuse r status
      | none => s.startChange source target r.ticket
  | some _, .starting | some _, .changing _ _ => s

/-- MODE (R195, R196). -/
def execMode (s : State) : Host.Outcome State Fault Refusal := accept 0x05 State.modeRequest s

/-- The store work of a change is done (R195, R198): the change completes after it (DEDUCED, log 10). -/
def Store.changeDone (source target : Steady) (st : Store) : Bool :=
  match source, target with
  | .quiet, .retain => decide (st.array = .selfRefresh)
  | .retain, .quiet =>
    match st.array, st.work with
    | .selfRefresh, _ => false
    | _, .burst _ => false
    | _, _ => true
  | _, _ => true

/-- The port as the completion of a change leaves it: powered up in ACTIVE, with no sampling edge taken yet (R70, R197). -/
def Port.powerUp (target : Steady) (p : Port) : Port :=
  match target with
  | .active => { p with lval := none }
  | .quiet | .retain => p

/-- The deferred MODE reply (R196). -/
def State.replyMode (s : State) : State :=
  match s.modeCtl.ticket with
  | none => s
  | some t => s.reply t [Status.ok.code, s.modeCtl.mode.code]

/-- The change completes (R196). -/
def State.changed (target : Steady) (s : State) : State :=
  let s := ({ s with
    modeCtl := { s.modeCtl with mode := .steady target }
    port := s.port.powerUp target }).replyMode
  { s with modeCtl := { s.modeCtl with ticket := none } }

/-- MODE_CHANGE_COMPLETE (R196). -/
def execModeChangeComplete (s : State) : Host.Outcome State Fault Refusal :=
  awake s fun s =>
    match s.modeCtl.mode with
    | .changing source target => if s.store.changeDone source target then s.changed target else s
    | .starting | .steady _ => s

end Sys2Proof.Machine
end

