-- ==== Sys2Proof/Machine/Port.lean ====
section
/-! DEFINITION. The line port: ACTIVATION, SAMPLE, LINE_END, LONG and TRIG_ACTIVE_EDGE (R69 to R82). -/

namespace Sys2Proof.Machine

/-- LVAL is active at a level (R69). -/
def Geometry.isActive (g : Geometry) (high : Bool) : Bool :=
  match g.lvalLevel with
  | .high => high
  | .low => !high

/-- LVAL was active at the sampling edge before; it counts as active when there was none since power-up (R70). -/
def Port.wasActive (g : Geometry) (p : Port) : Bool :=
  match p.lval with
  | none => true
  | some high => g.isActive high

/-- The level of LVAL when active, or when inactive. -/
def Geometry.level (g : Geometry) (active : Bool) : Bool :=
  match g.lvalLevel with
  | .high => active
  | .low => !active

/-- The lowest-numbered free slot (R75). -/
def lowestFree (slots : Four (Option (List Sample))) : Option (Fin 4) :=
  if slots.a0 = none then some 0
  else if slots.a1 = none then some 1
  else if slots.a2 = none then some 2
  else if slots.a3 = none then some 3
  else none

-- Losses

def Reasons.ofOverrun : Reasons := ⟨true, false, false⟩
def Reasons.ofShort : Reasons := ⟨false, true, false⟩
def Reasons.ofLong : Reasons := ⟨false, false, true⟩

/-- The reasons set with others joined to it (R79). -/
def Reasons.join (a b : Reasons) : Reasons := ⟨a.overrun || b.overrun, a.short || b.short, a.long || b.long⟩

/-- A loss of line n placed in the queue: merged into a newest LOSS item whose last number is n - 1, or appended (R79). -/
def placeLoss (n : Word) (reason : Reasons) : List QueueItem → List QueueItem
  | [] => [.loss n 1 reason]
  | [.loss first count reasons] =>
    if first + BitVec.ofNat 32 count = n then [.loss first (count + 1) (reasons.join reason)]
    else [.loss first count reasons, .loss n 1 reason]
  | item :: rest => item :: placeLoss n reason rest

-- Line events

/-- Line n is number N - 1 of a limited run (R82). -/
def lastLine (limit n : Word) : Bool := decide (limit ≠ 0 ∧ n + 1 = limit)

/-- The port after the end of a numbered line (R76, R77, R82). -/
def afterLine (limit n : Word) : PortState := if lastLine limit n then .off else .ready

/-- The port with a line lost: its slot freed, the loss placed (R77, R78, R79). -/
def Port.lose (n : Word) (slot : Fin 4) (reason : Reasons) (p : Port) : Port :=
  { p with slots := p.slots.set slot none, queue := placeLoss n reason p.queue }

/-- An activation in READY numbers a line, while the counter is below the limit (R74). The line fills the lowest free
slot with its first sample, or is lost with OVERRUN and becomes a discarding line, the last one of the run disposed of
at once (R75, R82). -/
def Port.activate (limit : Word) (first : Sample) (p : Port) : Port :=
  if p.st = .ready ∧ (limit = 0 ∨ p.counter.toNat < limit.toNat) then
    let n := p.counter
    let p := { p with counter := n + 1 }
    match lowestFree p.slots with
    | some slot => { p with st := .filling n slot, slots := p.slots.set slot (some [first]) }
    | none =>
      { p with
        st := if lastLine limit n then .off else .discarding
        queue := placeLoss n .ofOverrun p.queue }
  else p

/-- Sample P + 1 of a filling line: lost with LONG, discarding from there, or OFF after the last line (R78, R82). -/
def Port.longLine (limit : Word) (pixels : Nat) (p : Port) : Port :=
  match p.st with
  | .filling n slot =>
    if ((p.slots.get slot).getD []).length = pixels then
      { p.lose n slot .ofLong with st := if lastLine limit n then .off else .discarding }
    else p
  | .off | .waitTrig | .ready | .discarding => p

/-- A further sample of the line in progress: stored by a filling line up to P, and beyond that the line is lost with
LONG (R76, R78). -/
def Port.takeSample (limit : Word) (pixels : Nat) (x : Sample) (p : Port) : Port :=
  match p.st with
  | .filling _ slot =>
    let stored := (p.slots.get slot).getD []
    if stored.length < pixels then { p with slots := p.slots.set slot (some (stored ++ [x])) }
    else p.longLine limit pixels
  | .off | .waitTrig | .ready | .discarding => p

/-- The end of a line: with exactly P samples a LINE item, with fewer lost with SHORT; a discarding line only ends
(R76, R77, R78). -/
def Port.endLine (limit : Word) (pixels : Nat) (p : Port) : Port :=
  match p.st with
  | .filling n slot =>
    if ((p.slots.get slot).getD []).length = pixels then
      { p with st := afterLine limit n, queue := p.queue ++ [.line n slot] }
    else { p.lose n slot .ofShort with st := afterLine limit n }
  | .discarding => { p with st := .ready }
  | .off | .waitTrig | .ready => p

/-- A sampling edge, by the level before it and the level at it (R70). -/
def Port.edge (limit : Word) (g : Geometry) (high : Bool) (x : Sample) (p : Port) : Port :=
  let moved :=
    match p.wasActive g, g.isActive high with
    | false, true => p.activate limit x
    | true, true => p.takeSample limit g.pixels x
    | true, false => p.endLine limit g.pixels
    | false, false => p
  { moved with lval := some high }

/-- An effect at a sampling edge: the port samples only in ACTIVE, under a fixed geometry (R69; DEDUCED for an unfixed
one from R25, log 15). -/
def State.atEdge (effect : Geometry → Port → Port) (s : State) : State :=
  match s.geometry with
  | none => s
  | some g => if s.powered then { s with port := effect g s.port } else s

/-- ACTIVATION (R74): a sampling edge with LVAL active after one with it inactive; it carries the first sample. -/
def execActivation (first : Sample) (s : State) : Host.Outcome State Fault Refusal :=
  awake s (State.atEdge fun g p => if p.wasActive g then p else p.edge s.run.limit g (g.level true) first)

/-- SAMPLE (R76): any sampling edge, with the level of LVAL and the sample at it (DESIGN CHOICE, log 14). -/
def execSample (lvalHigh : Bool) (data : Sample) (s : State) : Host.Outcome State Fault Refusal :=
  awake s (State.atEdge fun g p => p.edge s.run.limit g lvalHigh data)

/-- LINE_END (R76, R77): a sampling edge with LVAL inactive after one with it active; it carries no sample. -/
def execLineEnd (s : State) : Host.Outcome State Fault Refusal :=
  awake s (State.atEdge fun g p => if p.wasActive g then p.edge s.run.limit g (g.level false) 0 else p)

/-- The port is filling a line that has all its P samples (R78). -/
def Port.isFull (pixels : Nat) (p : Port) : Bool :=
  match p.st with
  | .filling _ slot => decide (((p.slots.get slot).getD []).length = pixels)
  | .off | .waitTrig | .ready | .discarding => false

/-- LONG (R78): sample P + 1 of a filling line. -/
def execLong (s : State) : Host.Outcome State Fault Refusal :=
  awake s (State.atEdge fun g p =>
    if p.wasActive g && p.isFull g.pixels then { p.longLine s.run.limit g.pixels with lval := some (g.level true) } else p)

/-- The TRIG active edge: from WAIT_TRIG to READY, the run becomes RUNNING and the engine is between items (R57, R73,
R100). -/
def State.triggered (s : State) : State :=
  if s.powered = true ∧ s.port.st = .waitTrig then
    { s with
      port := { s.port with st := .ready }
      run := { s.run with st := .running }
      engine := { s.engine with st := .between } }
  else s

/-- TRIG_ACTIVE_EDGE (R73). -/
def execTrigActiveEdge (s : State) : Host.Outcome State Fault Refusal := awake s State.triggered

end Sys2Proof.Machine
end

