-- ==== Sys2Proof/Machine/RegionRequests.lean ====
section
/-! DEFINITION. The requests of the region manager: GEOMETRY, DEFINE, REMOVE, REGIONS, CLEAR (R23 to R42). -/

namespace Sys2Proof.Machine

/-- GEOMETRY's own checks and effect (R23). -/
def State.geometryRequest (r : Request) (s : State) : State :=
  match geometryOf r.payload with
  | none => s.refuse r .badField
  | some g =>
    s.checked r [(s.geometry.isSome, .fixed)] fun s =>
      ({ s with geometry := some g }).replyOk r (le16 g.lanes ++ [byte (slotSize g.lanes)])

/-- GEOMETRY (R23). -/
def execGeometry (s : State) : Host.Outcome State Fault Refusal := accept 0x06 State.geometryRequest s

/-- The region record of a DEFINE payload, its loaded flag clear; none when a code is outside its list (R34, R35). -/
def definedOf (p : List Byte) : Option Region :=
  match kindOf (u8At p 1), levelOf (u8At p 6) with
  | some kind, some level => some ⟨kind, u16At p 2, u16At p 4, level, false⟩
  | _, _ => none

/-- Any store row of a new region belongs to a defined region (R34). -/
def State.overlaps (n : Region) (s : State) : Bool := s.regions.any (fun p => rowsMeet n.first n.rows p.2.first p.2.rows)

/-- The row count is not whole entries, or their number is outside the kind's limit (R34). -/
def Region.badEntries (slot : Nat) (n : Region) : Bool :=
  decide (n.rows % n.rowsPerEntry slot ≠ 0) || !n.kind.entryLimitOk (n.entries slot)

/-- DEFINE's own checks and effect, in the order of R34 (R35). -/
def State.defineRequest (r : Request) (s : State) : State :=
  let index := u8At r.payload 0
  match s.inRetain, definedOf r.payload with
  | true, _ => s.refuse r .state
  | false, none => s.refuse r .badField
  | false, some n =>
    s.checked r
      [(decide (15 < index ∨ n.rows = 0), .badField),
       (s.geometry.isNone, .noGeometry),
       ((s.region index).isSome, .region),
       (decide (8191 < n.first ∨ 8191 < n.first + n.rows - 1), .size),
       (n.badEntries s.slot, .size),
       (s.overlaps n, .overlap)]
      fun s =>
        ({ s with regions := Table.put s.regions index n }).replyOk r
          ([byte (n.rowsPerEntry s.slot)] ++ le16 (n.entries s.slot))

/-- DEFINE (R34). -/
def execDefine (s : State) : Host.Outcome State Fault Refusal := accept 0x07 State.defineRequest s

/-- A region is the access unit's selection (R36). -/
def State.isSelected (index : Nat) (s : State) : Bool :=
  match s.access.selection with
  | none => false
  | some k => decide (k.region = index)

/-- REMOVE's own checks and effect, in the order of R36 (R172). -/
def State.removeRequest (r : Request) (s : State) : State :=
  let index := u8At r.payload 0
  s.checked r
    [(s.inRetain, .state),
     (decide (15 < index), .badField),
     ((s.region index).isNone, .region),
     (s.bound index, .bound),
     (s.clearTarget index, .busy)]
    fun s =>
      ({ s with
        regions := Table.drop s.regions index
        access := { s.access with selection := if s.isSelected index then none else s.access.selection } }).replyOk r
        [flagByte [s.isSelected index]]

/-- REMOVE (R36). -/
def execRemove (s : State) : Host.Outcome State Fault Refusal := accept 0x08 State.removeRequest s

/-- The geometry as REGIONS reports it, 10 bytes; all 0 while it is unfixed (R37, section 12.4). -/
def geometryBytes : Option Geometry → List Byte
  | none => List.replicate 10 0
  | some g => [flagByte [true]] ++ le16 g.pixels ++ [g.binning.code, g.sampleEdge.code, g.lvalLevel.code, g.trigEdge.code]
      ++ le16 g.lanes ++ [byte (slotSize g.lanes)]

/-- The region record as REGIONS reports it, 11 bytes (R37, section 12.4). -/
def State.regionBytes (s : State) (index : Nat) (r : Region) : List Byte :=
  [byte index, r.kind.code] ++ le16 r.first ++ le16 r.rows ++ [r.writeLevel.code, byte (r.rowsPerEntry s.slot)]
    ++ le16 (r.entries s.slot) ++ [flagByte [r.loaded, s.bound index, s.clearTarget index]]

/-- REGIONS (R37). -/
def execRegions (s : State) : Host.Outcome State Fault Refusal :=
  accept 0x09 (fun r s =>
    s.replyOk r (geometryBytes s.geometry ++ [byte s.regions.length]
      ++ s.regions.flatMap (fun p => s.regionBytes p.1 p.2))) s

/-- The CLEAR in flight record of an accepted CLEAR (R39). -/
def State.clearWork (r : Request) (target : Region) (s : State) : ClearWork :=
  let rows := target.rowsPerEntry s.slot
  { region := u8At r.payload 0
    firstEntry := u16At r.payload 1
    lastEntry := u16At r.payload 3
    fill0 := BitVec.ofNat 16 (u16At r.payload 5)
    fill1 := BitVec.ofNat 16 (u16At r.payload 7)
    fill2 := BitVec.ofNat 16 (u16At r.payload 9)
    nextRow := target.first + u16At r.payload 1 * rows
    endRow := target.first + (u16At r.payload 3 + 1) * rows - 1
    ticket := r.ticket }

/-- An accepted CLEAR: its record, and the claim for its first row (R39). -/
def State.startClear (w : ClearWork) (s : State) : State :=
  (({ s with access := { s.access with clear := some w } }).presentAccess (s.clearClaim w)).settleBanks

/-- CLEAR's checks 1 to 3 (R38). -/
def State.clearFields (r : Request) (s : State) : List (Bool × Status) :=
  [(s.inRetain, .state),
   (s.access.clear.isSome, .busy),
   (decide (15 < u8At r.payload 0 ∨ 8191 < u16At r.payload 1 ∨ 8191 < u16At r.payload 3
      ∨ u16At r.payload 3 < u16At r.payload 1), .badField)]

/-- CLEAR's own checks and effect, in the order of R38. -/
def State.clearRequest (r : Request) (s : State) : State :=
  s.checked r (s.clearFields r) fun s =>
    match s.region (u8At r.payload 0) with
    | none => s.refuse r .region
    | some target =>
      s.checked r
        [(decide (target.kind = .accum), .region),
         (decide (target.entries s.slot ≤ u16At r.payload 3), .badField),
         (s.bound (u8At r.payload 0), .bound),
         (decide (target.writeLevel = .service ∧ s.link.level = .operator), .level)]
        fun s => s.startClear (s.clearWork r target)

/-- CLEAR (R38, R39). -/
def execClear (s : State) : Host.Outcome State Fault Refusal := accept 0x0A State.clearRequest s

end Sys2Proof.Machine
end

