-- ==== Sys2Proof/Machine/Reset.lean ====
section
/-! DEFINITION. COLD_RESET, RESET_RELEASE and STARTUP_HOLD_EXPIRE (R21, R199). -/

namespace Sys2Proof.Machine

/-- The bit rate of the straps BSEL1 and BSEL0 (R174). -/
def strapRate (bsel1 bsel0 : Bool) : BitRate :=
  match bsel1, bsel0 with
  | false, false => .m1
  | false, true => .m3
  | true, false => .m6
  | true, true => .m12

/-- COLD_RESET (R199): every block takes its cold values, and the part is held until RESET_N returns high. The store's
contents are undefined from here, so a new set of free values stands in them (log 4). -/
def execColdReset (s : State) : Host.Outcome State Fault Refusal :=
  .next (State.cold s.svc s.link.rate (s.store.coldEpoch + 1) s.store.draws s.pending)

/-- RESET_RELEASE (R199): the straps are sampled, the mode is STARTING, and the start-up sequence begins with its hold
(R21). -/
def execResetRelease (bsel1 bsel0 : Bool) (s : State) : Host.Outcome State Fault Refusal :=
  if s.held then
    .next { s with
      held := false
      link := { s.link with rate := strapRate bsel1 bsel0 }
      modeCtl := { s.modeCtl with mode := .starting }
      store := { s.store with array := .starting, work := .startupHold } }
  else .next s

/-- The 200 µs hold of the start-up sequence is over: the banks close, which finds them IDLE, and the first of 8
refreshes begins (R21). -/
def Store.holdOver (st : Store) : Store :=
  if st.array = .starting ∧ st.work = .startupHold then { st with work := .startup Config.startupRefreshes } else st

/-- STARTUP_HOLD_EXPIRE (R21). -/
def execStartupHoldExpire (s : State) : Host.Outcome State Fault Refusal :=
  awake s fun s => { s with store := s.store.holdOver }

end Sys2Proof.Machine
end

