-- ==== Sys2Proof/Machine/RunRequests.lean ====
section
/-! DEFINITION. The requests of the run controller: SET, GET, PUSH, POP, START, STOP (R44 to R67). -/

namespace Sys2Proof.Machine

-- Checking a context record

/-- A service-only field under level filtering: the value to use, and the field's name when it was retained (R47). -/
def retain {α : Type} [DecidableEq α] (name : Retained) (given active : α) : List Retained :=
  if given = active then [] else [name]

/-- A record filtered at a link level against the active context, with the retained-fields list (R47). -/
def filterContext (level : Level) (active c : Context) : Context × List Retained :=
  match level with
  | .service => (c, [])
  | .operator =>
    ({ c with
        w0 := active.w0, w1 := active.w1, profile := active.profile, accum := active.accum, history := active.history,
        excluded := active.excluded },
      retain .w0 c.w0 active.w0 ++ retain .w1 c.w1 active.w1 ++ retain .profileRegion c.profile active.profile
        ++ retain .accumRegion c.accum active.accum ++ retain .historyRegion c.history active.history
        ++ retain .excluded c.excluded active.excluded)

/-- A region field names an unused index or a region of another kind; none passes (R48). -/
def State.badRegion (s : State) (kind : RegionKind) (field : Option Nat) : Bool :=
  field.isSome && (s.regionOfKind kind field).isNone

/-- Load check 2 fails for an excluded lane range (R48). -/
def State.badRange (s : State) (range : Nat × Nat) : Bool :=
  s.geometry.isNone || decide (range.2 < range.1 ∨ s.lanes ≤ range.2)

/-- The load checks (R48). -/
def State.loadChecks (c : Context) (s : State) : List (Bool × Status) :=
  [(decide (c.depth < c.stride), .badField),
   (c.excluded.any s.badRange, .badField),
   (s.badRegion .profile c.profile, .region),
   (s.badRegion .accum c.accum, .region),
   (s.badRegion .history c.history, .region)]

/-- The profile region's loaded flag is clear (R49, R55). -/
def State.notLoaded (c : Context) (s : State) : Bool :=
  match s.regionOfKind .profile c.profile with
  | none => true
  | some r => !r.loaded

/-- The run checks (R49). -/
def State.runChecks (c : Context) (s : State) : List (Bool × Status) :=
  [(c.profile.isNone, .region),
   (c.accum.isNone, .region),
   (decide (s.entriesOf .profile c.profile ≤ c.entry), .badField),
   (decide (s.entriesOf .accum c.accum < c.ringCapacity), .size),
   (s.notLoaded c, .notLoaded),
   (s.namesClearTarget c, .busy)]

/-- The load checks, and the run checks while the run is not STOPPED (R48, R49). -/
def State.contextChecks (c : Context) (s : State) : List (Bool × Status) :=
  s.loadChecks c ++ (if s.run.st = .stopped then [] else s.runChecks c)

-- SET and POP

/-- The path of a record that has passed its checks: installed at once in STOPPED and ARMED, or pending in RUNNING with
the install following at once when the engine is between items with an empty ring (R50, R53, R58, R60). -/
def State.useContext (r : Request) (c : Context) (retained : List Retained) (popLeft : Option Nat) (s : State) : State :=
  match s.run.st with
  | .stopped | .armed =>
    let s := { s with run := { s.run with active := c } }
    s.replyOk r (s.setFields retained popLeft)
  | .running | .draining =>
    ({ s with run := { s.run with st := .draining, next := some ⟨c, r.ticket, retained, popLeft⟩ } }).tryInstall

/-- SET's own checks and effect (R50). -/
def State.setRequest (r : Request) (s : State) : State :=
  s.checked r [(decide (s.run.st = .draining), .busy)] fun s =>
    match contextOf r.payload with
    | none => s.refuse r .badField
    | some given =>
      let f := filterContext s.link.level s.run.active given
      s.checked r (s.contextChecks f.1) fun s => s.useContext r f.1 f.2 none

/-- SET (R50). -/
def execSet (s : State) : Host.Outcome State Fault Refusal := accept 0x0F State.setRequest s

/-- POP's own checks and effect (R53). -/
def State.popRequest (r : Request) (s : State) : State :=
  s.checked r [(decide (s.run.st = .draining), .busy)] fun s =>
    match s.run.stack with
    | [] => s.refuse r .empty
    | top :: rest =>
      let f := filterContext s.link.level s.run.active top
      s.checked r (s.contextChecks f.1) fun s =>
        ({ s with run := { s.run with stack := rest } }).useContext r f.1 f.2 (some rest.length)

/-- POP (R53). -/
def execPop (s : State) : Host.Outcome State Fault Refusal := accept 0x12 State.popRequest s

-- GET and PUSH

/-- The GET reply after the status (R51, section 12.4). -/
def State.getFields (s : State) : List Byte :=
  s.run.active.bytes
    ++ (match s.run.next with
      | none => flagByte [false] :: List.replicate 35 0
      | some p => flagByte [true] :: p.context.bytes)
    ++ [s.run.st.code, byte s.run.stack.length] ++ le32 s.run.phase.toNat ++ le32 s.run.limit.toNat ++ [s.run.trigger.code]

/-- GET (R51). -/
def execGet (s : State) : Host.Outcome State Fault Refusal :=
  accept 0x10 (fun r s => s.replyOk r s.getFields) s

/-- PUSH's own check and effect (R52). -/
def State.pushRequest (r : Request) (s : State) : State :=
  s.checked r [(decide (Config.stackPlaces ≤ s.run.stack.length), .stackFull)] fun s =>
    ({ s with run := { s.run with stack := s.run.active :: s.run.stack } }).replyOk r [byte (s.run.stack.length + 1)]

/-- PUSH (R52). -/
def execPush (s : State) : Host.Outcome State Fault Refusal := accept 0x11 State.pushRequest s

-- START

/-- START's checks of step 8, on the active context (R55). -/
def State.startChecks (s : State) : List (Bool × Status) :=
  let c := s.run.active
  [(s.geometry.isNone, .noGeometry),
   ((s.regionOfKind .profile c.profile).isNone, .region),
   ((s.regionOfKind .accum c.accum).isNone, .region),
   (s.badRegion .history c.history, .region),
   (decide (s.entriesOf .profile c.profile ≤ c.entry), .badField),
   (decide (s.entriesOf .accum c.accum < c.ringCapacity), .size),
   (s.notLoaded c, .notLoaded),
   (s.namesClearTarget c, .busy)]

/-- The run state, port state and engine state that a trigger calls for (R56, R72, R100). -/
def Trigger.runState : Trigger → RunState
  | .now => .running
  | .atTrig => .armed

def Trigger.portState : Trigger → PortState
  | .now => .ready
  | .atTrig => .waitTrig

def Trigger.engineState : Trigger → EngineState
  | .now => .between
  | .atTrig => .idle

/-- Every block at the beginning of a run (R56, R84, R107, R124, R148, R159). The level of LVAL and the hold flag stay
(R70, R156). -/
def State.beginRun (trigger : Trigger) (limit : Word) (s : State) : State :=
  { s with
    run := { s.run with st := trigger.runState, limit := limit, trigger := trigger, phase := 0 }
    port := { Port.cold with lval := s.port.lval, st := trigger.portState }
    engine := { Engine.cold with st := trigger.engineState }
    tester := Tester.cold
    tracker := Tracker.cold
    history := { History.cold with hold := s.history.hold } }

/-- START's own checks and effect (R55, R56). -/
def State.startRequest (r : Request) (s : State) : State :=
  s.checked r
    [(!s.powered, .state), (decide (s.run.st ≠ .stopped), .state)] fun s =>
    match triggerOf (u8At r.payload 0) with
    | none => s.refuse r .badField
    | some trigger =>
      s.checked r s.startChecks fun s =>
        (s.beginRun trigger (BitVec.ofNat 32 (u32At r.payload 1))).replyOk r
          ([byte s.run.active.ringCapacity] ++ le16 s.lanes)

/-- START (R55, R56). -/
def execStart (s : State) : Host.Outcome State Fault Refusal := accept 0x13 State.startRequest s

-- STOP

/-- What STOP discards, or found to discard: accumulators, LINE items and LOSS items, the item in hand among them (R65,
R67). -/
structure Discards where
  accumulators : Nat
  lines : Nat
  losses : Nat
deriving DecidableEq, Repr

def State.discards (s : State) : Discards where
  accumulators := s.engine.ring.length
  lines := lineItems s.port.queue + (match s.engine.st with | .line _ => 1 | .idle | .between | .loss _ _ _ => 0)
  losses := lossItems s.port.queue + (match s.engine.st with | .loss _ _ _ => 1 | .idle | .between | .line _ => 0)

/-- The history writer abandons the line in hand: its index position becomes EMPTY (R158). -/
def History.abandon (h : History) : History :=
  match h.st with
  | .idle => h
  | .storing line _ | .filing line => { h with st := .idle, result := none, index := Table.drop h.index line.entry }

/-- A discarded LINE item leaves the table as the previous finished item left it, and no RUN_OVERFLOW notice of its line
(R67), though the line has been committed. DESIGN CHOICE (log 31): the teach line count of a line already taught stays, as
R119, R122 and R124 say. -/
def State.takeBackItem (s : State) : State :=
  match s.engine.st with
  | .idle | .between | .loss _ _ _ => s
  | .line _ =>
    { s with
      tracker := { s.tracker with table := s.before.table }
      link :=
        match s.before.warned with
        | none => s.link
        | some (number, dropped) => s.link.takeBack (.runOverflow number dropped) }

/-- The line queue, the ring, the item in hand and its partial work are discarded, and the port goes OFF (R65, R67, R83,
R103, R122, R144). -/
def State.abandonRun (s : State) : State :=
  let s := s.takeBackItem
  { s with
    store := s.store.withdrawEngine
    port := { Port.cold with counter := s.port.counter, lval := s.port.lval }
    engine := { s.engine with st := .idle, ring := [], mean := none }
    tester := { s.tester with st := .idle, runs := [], overflow := 0 }
    tracker := { s.tracker with st := .idle }
    history := s.history.abandon }

/-- The run is STOPPED with phase line 0, a pending context installed and its reply queued (R65, R66). -/
def State.stopRun (s : State) : State :=
  match s.run.next with
  | none => { s with run := { s.run with st := .stopped, phase := 0 } }
  | some p =>
    ({ s with run := { s.run with active := p.context, next := none, st := .stopped, phase := 0 } }).replyPending p

/-- The STOP reply after the status (R65, section 12.4). -/
def State.stopFields (d : Discards) (reported : Nat) (s : State) : List Byte :=
  [byte d.accumulators, byte d.lines, byte d.losses, byte reported] ++ le32 s.port.counter.toNat
    ++ le32 s.engine.counter.toNat

/-- STOP's effect (R65, R66, R67). -/
def State.stopRequest (r : Request) (s : State) : State :=
  if s.run.st = .stopped then s.replyOk r (s.stopFields ⟨0, 0, 0⟩ 0)
  else
    (s.abandonRun.stopRun.closeAll .runStopped).replyOk r
      (s.stopFields s.discards (s.takeBackItem.tracker.closeNotices .runStopped).length)

/-- STOP (R65). -/
def execStop (s : State) : Host.Outcome State Fault Refusal := accept 0x14 State.stopRequest s

end Sys2Proof.Machine
end

