-- ==== Sys2Proof/Machine/Dispatch.lean ====
section
/-! DEFINITION. Which meaning each command has. -/

namespace Sys2Proof.Machine

def exec (i : Instr) (s : State) : Host.Outcome State Fault Refusal :=
  match i with
  | .coldReset => Sys2Proof.Machine.execColdReset s
  | .resetRelease bsel1 bsel0 => Sys2Proof.Machine.execResetRelease bsel1 bsel0 s
  | .startupHoldExpire => Sys2Proof.Machine.execStartupHoldExpire s
  | .refreshTick => Sys2Proof.Machine.execRefreshTick s
  | .refreshStart => Sys2Proof.Machine.execRefreshStart s
  | .refreshComplete => Sys2Proof.Machine.execRefreshComplete s
  | .bankOpenComplete bank => Sys2Proof.Machine.execBankOpenComplete bank s
  | .accessComplete bank => Sys2Proof.Machine.execAccessComplete bank s
  | .bankCloseComplete bank => Sys2Proof.Machine.execBankCloseComplete bank s
  | .frameReceived bytes => Sys2Proof.Machine.execFrameReceived bytes s
  | .interByteTimeout => Sys2Proof.Machine.execInterByteTimeout s
  | .frameSent => Sys2Proof.Machine.execFrameSent s
  | .svcFall => Sys2Proof.Machine.execSvcFall s
  | .trigActiveEdge => Sys2Proof.Machine.execTrigActiveEdge s
  | .activation first => Sys2Proof.Machine.execActivation first s
  | .lineEnd => Sys2Proof.Machine.execLineEnd s
  | .long => Sys2Proof.Machine.execLong s
  | .engineTakeItem => Sys2Proof.Machine.execEngineTakeItem s
  | .modeChangeComplete => Sys2Proof.Machine.execModeChangeComplete s
  | .ping => Sys2Proof.Machine.execPing s
  | .status => Sys2Proof.Machine.execStatus s
  | .level svcRisen => Sys2Proof.Machine.execLevel svcRisen s
  | .restart => Sys2Proof.Machine.execRestart s
  | .mode => Sys2Proof.Machine.execMode s
  | .geometry => Sys2Proof.Machine.execGeometry s
  | .define => Sys2Proof.Machine.execDefine s
  | .remove => Sys2Proof.Machine.execRemove s
  | .regions => Sys2Proof.Machine.execRegions s
  | .clear => Sys2Proof.Machine.execClear s
  | .select => Sys2Proof.Machine.execSelect s
  | .window => Sys2Proof.Machine.execWindow s
  | .read => Sys2Proof.Machine.execRead s
  | .write => Sys2Proof.Machine.execWrite s
  | .set => Sys2Proof.Machine.execSet s
  | .get => Sys2Proof.Machine.execGet s
  | .push => Sys2Proof.Machine.execPush s
  | .pop => Sys2Proof.Machine.execPop s
  | .start => Sys2Proof.Machine.execStart s
  | .stop => Sys2Proof.Machine.execStop s
  | .hold => Sys2Proof.Machine.execHold s
  | .release => Sys2Proof.Machine.execRelease s
  | .historyInfo => Sys2Proof.Machine.execHistoryInfo s
  | .defects => Sys2Proof.Machine.execDefects s
  | .sample lvalHigh data => Sys2Proof.Machine.execSample lvalHigh data s
  | .headerReceived bytes => Sys2Proof.Machine.execHeaderReceived bytes s
  | .trackerCommit => Sys2Proof.Machine.execTrackerCommit s

end Sys2Proof.Machine
end

