-- ==== Sys2Proof/Safety.lean ====
section
/-! DEFINITION. The words that statements are made in: when a request is accepted, what an event leaves unchanged on
the link, the reset values, and the invariants of a safe run. -/

namespace Sys2Proof.Machine

-- The link after a command

/-- The link as an event leaves it that neither takes a request nor queues a message: the executor and the transmitter
may have gone on (R182, R185). -/
def Link.Settled (l l' : Link) : Prop := l' = { l with executor := l'.executor, transmitter := l'.transmitter }

/-- The link after an accepted request that is answered at once: the request has left the inbound queue, its reply is
the newest of the reply queue, the other requests' reserved entries stay (R182, R184). -/
def Link.Answered (l l' : Link) (r : Request) (rest : List Request) (payload : List Byte) : Prop :=
  l'.reserved.Perm l.reserved ∧
    l' = { l with
      inbound := rest
      holdOut := if rest.length ≤ 1 then false else l.holdOut
      reserved := l'.reserved
      replies := l.replies ++ [⟨r.kind + 0x80, r.tag, payload⟩]
      executor := l'.executor
      transmitter := l'.transmitter }

/-- The link after an accepted request whose reply is deferred: its entry stays reserved (R183, R184). -/
def Link.Deferred (l l' : Link) (r : Request) (rest : List Request) : Prop :=
  l' = { l with
    inbound := rest
    holdOut := if rest.length ≤ 1 then false else l.holdOut
    reserved := l.reserved ++ [⟨r.kind, r.tag⟩]
    executor := l'.executor
    transmitter := l'.transmitter }

/-- The link with a reply queued into the entry reserved for its request (R184). -/
def Link.Filled (l : Link) (t : Ticket) (payload : List Byte) : Link :=
  { l with reserved := l.reserved.erase t, replies := l.replies ++ [⟨t.kind + 0x80, t.tag, payload⟩] }

/-- The link without the newest queued notice that is like this one; a frame in transmission is sent to its end, and its
place at the head of the queue stays (R185). -/
def Link.Unqueued (l : Link) (n : Notice) : Link :=
  { l with notices := match l.transmitter, l.notices with
    | .sendingNotice _ false, head :: rest => head :: (rest.reverse.erase n).reverse
    | _, queued => (queued.reverse.erase n).reverse }

-- The banks

/-- No claim of the integration engine, the band tester or the history writer is ready for a bank (R4). -/
abbrev Store.NoneReady (st : Store) (i : Fin 4) : Prop :=
  ∀ k ∈ st.engineReady ++ st.testerReady ++ st.historyReady, k.row % 4 ≠ i.val

-- The end of an item

/-- What the deferred reply of a pending SET or POP carries (R50, R53, R61, R66). The stack count of a POP, where the stack
has changed since, is the model's free choice (log 21). -/
def PendingContext.answer (p : PendingContext) (phase counter : Word) (runState : Byte) (stacked : Nat) : List Byte :=
  [0x00, retainedCode p.retained] ++ le32 phase.toNat ++ le32 counter.toNat ++ [runState]
    ++ match p.popLeft with
      | none => []
      | some left => [BitVec.ofNat 8 (popCount left stacked)]

/-- The tracker after a close-all that produced these notices: the table empty, the report count raised (R143). -/
def Tracker.Closed (t : Tracker) (notices : List Notice) : Tracker :=
  { t with table := [], reported := t.reported + BitVec.ofNat 32 notices.length }

/-- The state with its pending context installed, as R61 gives. -/
def State.Installed (u : State) (p : PendingContext) : State :=
  let notices := u.tracker.closeNotices .contextChange
  { u with
    run := { u.run with st := .running, active := p.context, next := none, phase := u.engine.nextLine }
    engine := { u.engine with stride := 0 }
    tracker := u.tracker.Closed notices
    link := (u.link.offerAll notices).Filled p.ticket
      (p.answer u.engine.nextLine u.engine.counter 0x02 u.run.stack.length) }

/-- The state with its run ended and no context pending, as steps 2 to 4 of R64 give. -/
def State.Ended (u : State) : State :=
  let notices := u.tracker.closeNotices .runEnd
  let tracker := u.tracker.Closed notices
  { u with
    run := { u.run with st := .stopped, phase := 0 }
    port := { u.port with st := .off }
    engine := { u.engine with st := .idle }
    tracker := tracker
    link := (u.link.offerAll notices).offer (.runEnd u.run.limit u.engine.counter tracker.reported) }

/-- What follows an item that is finished with the ring empty: a pending context is installed (R60), and the item that holds
line N - 1 ends the run (R64, R86). -/
def State.ItemEnd (u : State) (last : Bool) : State :=
  let v := match u.run.next with
    | none => u
    | some p => u.Installed p
  if last then v.Ended else v

/-- A LINE item is finished: its slot is freed, the next line number and the stride position advance, and the install or the
run's end follows (R60, R64, R81, R86, R87). -/
def State.LineEnd (u : State) (w : LineWork) : State :=
  let last := decide (u.run.limit ≠ 0 ∧ w.number + 1 = u.run.limit)
  let done := { u with
    port := { u.port with slots := u.port.slots.set w.slot none }
    engine := { u.engine with
      st := .between
      nextLine := u.engine.nextLine + 1
      stride := if u.engine.stride + 1 < w.context.stride then u.engine.stride + 1 else 0
      mean := none } }
  if last = true ∨ u.engine.ring = [] then done.ItemEnd last else done

/-- The LINE item in hand is finished once none of its accesses is left and the band tester and the history writer are IDLE
(R86, R95). -/
def State.LineChecked (u : State) : State :=
  match u.engine.st with
  | .line w => if w.outstanding = 0 ∧ u.tester.st = .idle ∧ u.history.st = .idle then u.LineEnd w else u
  | .idle | .between | .loss _ _ _ => u

/-- What a discarded LINE item has committed is taken back: the table is as the previous finished item left it, and its
RUN_OVERFLOW notice is not queued (R67; log 31). -/
def State.TakenBack (u : State) : State :=
  match u.engine.st with
  | .line _ => { u with
      tracker := { u.tracker with table := u.before.table }
      link := match u.before.warned with
        | none => u.link
        | some (number, dropped) => u.link.Unqueued (.runOverflow number dropped) }
  | .idle | .between | .loss _ _ _ => u

-- An integrated line

/-- The history writer with a stored line recorded under its test result (R152). -/
def History.Recorded (h : History) (line : StoreLine) (r : TestResult) : History :=
  { h with
    st := .idle
    writePos := (line.entry + 1) % line.entries
    written := h.written + 1
    result := none
    index := Table.put h.index line.entry (.stored line.number line.region r) }

/-- The history writer with a test result that reaches it: held in STORING, recorded in FILING, dropped in IDLE
(R151, R152). -/
def History.Given (h : History) (r : TestResult) : History :=
  match h.st with
  | .idle => h
  | .storing _ _ => { h with result := some r }
  | .filing line => h.Recorded line r

/-- A taught line is done (R119). -/
def State.Taught (u : State) : State :=
  { u with
    tester := { u.tester with st := .idle, teachCount := u.tester.teachCount + 1 }
    history := u.history.Given ⟨0, false, true⟩ }

/-- The history writer's part in a delivery: the line is not stored, counted as unstored, or stored, with one claim for each
of the entry's rows (R151). -/
def State.Kept (u : State) (n : Word) (means : List Half) : State :=
  match u.lineContext.history with
  | none => u
  | some region =>
    let entries := u.entriesOf .history (some region)
    let entry := u.history.writePos % entries
    let row := u.firstRow .history (some region) + entry * u.slot
    if u.history.hold then
      { u with history := { u.history with unstored := min (2 ^ 32 - 1) (u.history.unstored + 1) } }
    else { u with
      history := { u.history with
        st := .storing ⟨entry, n, region, entries⟩ u.slot
        result := none
        index := Table.put u.history.index entry (.writing n region) }
      store := { u.store with historyReady := u.store.historyReady ++ (List.range u.slot).map (fun t =>
        ⟨row + t, .write .always (((means.drop (512 * t)).take 512).zipIdx.map (fun p => (p.2, p.1))), .history⟩) } }

/-- The band tester's part in a delivery: both bounds are read, row by row, in INSPECT, and the teach claims are made in
TEACH, where a line with none is done at once (R110, R118, R119). -/
def State.Tested (u : State) (means : List Half) : State :=
  let c := u.lineContext
  let read := fun (plane : Plane) (use : Nat → ClaimUse) => (List.range u.slot).map (fun t =>
    (⟨u.profileRow c plane + t, .read (List.range (min 512 (u.lanes - 512 * t))), use t⟩ : Claim))
  match c.test with
  | .inspect => { u with
      tester := { u.tester with st := .testing [] [] (2 * u.slot), runs := [], overflow := 0 }
      store := { u.store with testerReady := u.store.testerReady ++ (read .lower .lower ++ read .upper .upper) } }
  | .teach =>
    if u.teachClaims means = [] then u.Taught
    else { u with
      tester := { u.tester with st := .teaching (u.teachClaims means).length }
      store := { u.store with testerReady := u.store.testerReady ++ u.teachClaims means } }

/-- Once all Q lanes of the mean line are formed the completing record leaves the ring, and once none of the item's accesses
is left the line is delivered, to the history writer first (R85, R94, R95; logs 18 and 19). -/
def State.Formed (u : State) (depth : Nat) : State :=
  match u.engine.mean with
  | none => u
  | some m =>
    if m.pieces.values.length = u.lanes then
      let formed : State := { u with engine := { u.engine with
        ring := u.engine.ring.filter (fun r => !decide (depth ≤ r.added)) } }
      match u.engine.st with
      | .line w =>
        if w.outstanding = 0 then (formed.Kept m.number m.pieces.values).Tested m.pieces.values else formed
      | .idle | .between | .loss _ _ _ => formed
    else u

-- Requests

/-- The executor takes the head request: it is of this kind, the part is awake, no request is in execution, no mode
change holds it, and a reply entry is free (R182, R186). -/
abbrev State.Takes (s : State) (kind : Byte) (r : Request) (rest : List Request) : Prop :=
  s.held = false ∧ s.link.inbound = r :: rest ∧ r.kind = kind ∧ s.link.executor ≠ .executing ∧
    (s.modeCtl.mode.isChanging = true → exemptKind kind = true) ∧ s.link.hasFreeEntry = true

/-- The executor takes the head request, and it passes the checks common to all: length, STARTING, level (R205). -/
abbrev State.Accepts (s : State) (kind : Byte) (r : Request) (rest : List Request) : Prop :=
  s.Takes kind r rest ∧ lengthOk kind r.payload = true ∧ s.modeCtl.mode ≠ .starting ∧
    (serviceKind kind = true → s.link.level = .service)

/-- The kind of the request a command is the acceptance of (R204). -/
def requestKind : Instr → Option Byte
  | .ping => some 0x01
  | .status => some 0x02
  | .level _ => some 0x03
  | .restart => some 0x04
  | .mode => some 0x05
  | .geometry => some 0x06
  | .define => some 0x07
  | .remove => some 0x08
  | .regions => some 0x09
  | .clear => some 0x0A
  | .select => some 0x0B
  | .window => some 0x0C
  | .read => some 0x0D
  | .write => some 0x0E
  | .set => some 0x0F
  | .get => some 0x10
  | .push => some 0x11
  | .pop => some 0x12
  | .start => some 0x13
  | .stop => some 0x14
  | .hold => some 0x15
  | .release => some 0x16
  | .historyInfo => some 0x17
  | .defects => some 0x18
  | .coldReset | .resetRelease _ _ | .startupHoldExpire | .refreshTick | .refreshStart | .refreshComplete
  | .bankOpenComplete _ | .accessComplete _ | .bankCloseComplete _ | .frameReceived _ | .interByteTimeout | .frameSent
  | .svcFall | .trigActiveEdge | .activation _ | .lineEnd | .long | .engineTakeItem | .modeChangeComplete | .sample _ _
  | .headerReceived _ | .trackerCommit => none

-- A context record and its checks

/-- The fields of a SET payload lie in their ranges (R44, R46; offsets of section 12.4). -/
abbrev Context.InRange (p : List Byte) : Prop :=
  u8At p 0 ≤ 1 ∧ (u8At p 1 = 1 ∨ u8At p 1 = 2 ∨ u8At p 1 = 4 ∨ u8At p 1 = 8 ∨ u8At p 1 = 16) ∧
    (1 ≤ u8At p 2 ∧ u8At p 2 ≤ 16) ∧ (u8At p 5 ≤ 15 ∨ u8At p 5 = 255) ∧ u8At p 6 ≤ 31 ∧
    (u8At p 7 ≤ 15 ∨ u8At p 7 = 255) ∧ (u8At p 8 ≤ 15 ∨ u8At p 8 = 255) ∧ (1 ≤ u8At p 9 ∧ u8At p 9 ≤ 64) ∧
    u8At p 10 ≤ 15 ∧ u8At p 11 ≤ 7 ∧ 16 ≤ u16At p 12 ∧ u16At p 14 ≤ 4095 ∧ u16At p 16 ≤ 4095 ∧ u8At p 18 ≤ 4 ∧
    ∀ i < u8At p 18, u16At p (19 + 4 * i) ≤ 4095 ∧ u16At p (21 + 4 * i) ≤ 4095

/-- The context record that a SET payload carries (section 12.4). -/
def Context.Carried (p : List Byte) : Context :=
  let field := fun i : Nat => if u8At p i = 255 then none else some (u8At p i)
  { test := if u8At p 0 = 0 then .inspect else .teach
    depth := u8At p 1
    stride := u8At p 2
    w0 := u8At p 3
    w1 := u8At p 4
    profile := field 5
    entry := u8At p 6
    accum := field 7
    history := field 8
    excluded := (List.range (u8At p 18)).map (fun i => (u16At p (19 + 4 * i), u16At p (21 + 4 * i)))
    minRun := u8At p 9
    gapBridge := u8At p 10
    gapLines := u8At p 11
    maxSpan := u16At p 12
    marginAbove := u16At p 14
    marginBelow := u16At p 16 }

/-- The status of the first load check that a record fails, and then, while the run is not STOPPED, of the first run
check (R48, R49). -/
def State.ContextStatus (s : State) (c : Context) : Option Byte :=
  if c.depth < c.stride then some 0x03
  else if (s.geometry = none ∧ c.excluded ≠ []) ∨ ∃ x ∈ c.excluded, x.2 < x.1 ∨ s.lanes ≤ x.2 then some 0x03
  else if c.profile ≠ none ∧ s.regionOfKind .profile c.profile = none then some 0x0E
  else if c.accum ≠ none ∧ s.regionOfKind .accum c.accum = none then some 0x0E
  else if c.history ≠ none ∧ s.regionOfKind .history c.history = none then some 0x0E
  else if s.run.st = .stopped then none
  else if c.profile = none then some 0x0E
  else if c.accum = none then some 0x0E
  else if s.entriesOf .profile c.profile ≤ c.entry then some 0x03
  else if s.entriesOf .accum c.accum < (c.depth + c.stride - 1) / c.stride then some 0x10
  else if ∀ q, s.regionOfKind .profile c.profile = some q → q.loaded = false then some 0x12
  else if ∃ w, s.access.clear = some w ∧ c.names w.region = true then some 0x08
  else none

-- Reset values

/-- The cold value of a bank (R22). -/
def Bank.isCold (b : Bank) : Prop :=
  b.st = .idle ∧ b.granted = none ∧ b.engineClaim = none ∧ b.accessClaim = none ∧ b.passOver = 0

/-- The bank controller at its cold values (R22). -/
def Store.isCold (st : Store) : Prop :=
  st.mem = [] ∧ (∀ i, (st.banks.get i).isCold) ∧ st.engineReady = [] ∧ st.testerReady = [] ∧ st.historyReady = [] ∧
    st.accessReady = none ∧ st.array = .starting ∧ st.debt = 0 ∧ st.urgent = false ∧ st.pointer = 0 ∧ st.ticking = false

/-- Region manager and run controller at their cold values (R43, R45, R68). -/
def State.runIsCold (s : State) : Prop :=
  s.geometry = none ∧ s.regions = [] ∧ s.run.st = .stopped ∧ s.run.active = Context.default ∧ s.run.next = none ∧
    s.run.stack = [] ∧ s.run.limit = 0 ∧ s.run.trigger = .now ∧ s.run.phase = 0

/-- Line port and integration engine at their cold values (R84, R107). -/
def State.lineIsCold (s : State) : Prop :=
  s.port.st = .off ∧ s.port.counter = 0 ∧ (∀ i, s.port.slots.get i = none) ∧ s.port.queue = [] ∧ s.engine.st = .idle ∧
    s.engine.nextLine = 0 ∧ s.engine.stride = 0 ∧ s.engine.counter = 0 ∧ s.engine.ring = [] ∧ s.engine.mean = none

/-- Band tester, defect tracker and history writer at their cold values (R124, R148, R159). -/
def State.testIsCold (s : State) : Prop :=
  s.tester.st = .idle ∧ s.tester.runs = [] ∧ s.tester.overflow = 0 ∧ s.tester.teachCount = 0 ∧ s.tracker.st = .idle ∧
    s.tracker.table = [] ∧ s.tracker.nextId = 1 ∧ s.tracker.created = 0 ∧ s.tracker.reported = 0 ∧
    s.history.st = .idle ∧ s.history.writePos = 0 ∧ s.history.written = 0 ∧ s.history.hold = false ∧
    s.history.unstored = 0 ∧ s.history.result = none ∧ s.history.index = []

/-- Access unit, command link and mode controller at their cold values (R173, R192, R203). -/
def State.linkIsCold (s : State) : Prop :=
  s.access.selection = none ∧ s.access.st = .idle ∧ s.access.clear = none ∧ s.link.receiver = .hunt ∧
    s.link.inbound = [] ∧ s.link.holdOut = false ∧ s.link.executor = .idle ∧ s.link.reserved = [] ∧
    s.link.replies = [] ∧ s.link.transmitter = .idle ∧ s.link.notices = [] ∧ s.link.drops = 0 ∧
    s.link.level = .operator ∧ s.modeCtl.mode = .starting ∧ s.modeCtl.ticket = none

/-- Every block at its cold values (R199). -/
def State.isCold (s : State) : Prop :=
  s.store.isCold ∧ s.runIsCold ∧ s.lineIsCold ∧ s.testIsCold ∧ s.linkIsCold

-- Invariants

/-- The sparse data is in its canonical form (log 5). -/
def State.tablesCanonical (s : State) : Prop :=
  Memory.wf s.store.mem ∧ Table.wf s.regions ∧ Table.wf s.history.index

/-- A change between steady modes that is allowed (R195). -/
def changeAllowed : Steady → Steady → Bool
  | .quiet, .active | .active, .quiet | .quiet, .retain | .retain, .quiet => true
  | _, _ => false

/-- The ranges of the bank controller's counts, and the debt of 0 throughout RETAIN (R8, R9, R12, R13, R19). -/
def State.refreshSound (s : State) : Prop :=
  s.store.debt ≤ 8 ∧ s.store.pointer < 2048 ∧ (∀ i, (s.store.banks.get i).passOver ≤ 8) ∧
    (s.store.urgent = true → 1 ≤ s.store.debt) ∧
    (s.store.array = .selfRefresh → s.store.debt = 0 ∧ s.store.urgent = false ∧ s.store.work = .none) ∧
    (s.modeCtl.mode = .steady .retain → s.store.array = .selfRefresh) ∧
    (∀ a b, s.modeCtl.mode = .changing a b → changeAllowed a b = true)

/-- The sizes of the link's queues, what drives HOLD, and SERVICE only while SVC is high (R181, R187, R188). -/
def State.linkSound (s : State) : Prop :=
  s.link.inbound.length ≤ 4 ∧ s.link.notices.length ≤ 32 ∧ s.link.drops ≤ 65535 ∧
    (3 ≤ s.link.inbound.length → s.link.holdOut = true) ∧ (s.link.inbound.length ≤ 1 → s.link.holdOut = false) ∧
    (s.link.level = .service → s.svc = true) ∧ (s.held = true → s.link.level = .operator)

/-- The region table: sixteen entries, each inside the store and in whole entries under the fixed geometry, no store row
in two of them (R25, R26, R34). -/
def State.regionsSound (s : State) : Prop :=
  Table.wf s.regions ∧ (s.geometry = none → s.regions = []) ∧
    (∀ i r, s.region i = some r →
      i ≤ 15 ∧ 1 ≤ r.rows ∧ r.first + r.rows ≤ 8192 ∧ r.rows % r.rowsPerEntry s.slot = 0) ∧
    (∀ i j r q, s.region i = some r → s.region j = some q → i ≠ j → rowsMeet r.first r.rows q.first q.rows = false)

/-- The run state against the pending context, the port, the engine and the mode (R54, R57, R71, R85, R193). -/
def State.runSound (s : State) : Prop :=
  (s.run.next.isSome = true ↔ s.run.st = .draining) ∧
    (s.run.st = .stopped → s.engine.st = .idle ∧ s.port.st = .off ∧ s.run.phase = 0) ∧
    (s.run.st = .armed → s.engine.st = .idle) ∧ (s.run.st = .armed ↔ s.port.st = .waitTrig) ∧
    (s.modeCtl.mode ≠ .steady .active → s.run.st = .stopped) ∧
    (s.held = true → s.modeCtl.mode = .starting) ∧
    (s.store.work = .startupHold ∨ (∃ n, s.store.work = .startup n) → s.modeCtl.mode = .starting)

/-- The line slots that something names: the filling line, the LINE items queued, the LINE item in hand (R75). -/
def State.slotsInUse (s : State) : List (Fin 4) :=
  (match s.port.st with | .filling _ slot => [slot] | .off | .waitTrig | .ready | .discarding => [])
    ++ s.port.queue.flatMap (fun i => match i with | .line _ slot => [slot] | .loss _ _ _ => [])
    ++ (match s.engine.st with | .line w => [w.slot] | .idle | .between | .loss _ _ _ => [])

/-- No slot is named twice, and every slot named is held (R75). -/
def State.slotsSound (s : State) : Prop :=
  s.slotsInUse.Nodup ∧ ∀ i ∈ s.slotsInUse, (s.port.slots.get i).isSome = true

/-- The requests whose replies are deferred or whose accesses are under way: a pending context's, a mode change's, a
CLEAR's, a READ's or WRITE's (R183). -/
def State.tickets (s : State) : List Ticket :=
  (match s.run.next with | some p => [p.ticket] | none => [])
    ++ (match s.modeCtl.ticket with | some t => [t] | none => [])
    ++ (match s.access.clear with | some w => [w.ticket] | none => [])
    ++ (match s.access.st with | .reading t _ _ => [t.ticket] | .writing t _ => [t.ticket] | .idle => [])

/-- The reserved reply entries are those of the requests under way, and no more than eight entries are in use (R184). -/
def State.entriesSound (s : State) : Prop :=
  s.link.reserved.Perm s.tickets ∧ s.link.replies.length + s.link.reserved.length ≤ 8 ∧
    (s.link.executor = .executing ↔ s.access.st ≠ .idle) ∧
    (s.modeCtl.mode.isChanging = true ↔ s.modeCtl.ticket.isSome = true)

/-- The context stack, the open defect table and the run list keep to their places (R52, R115, R142). -/
def State.sizesSound (s : State) : Prop :=
  s.run.stack.length ≤ 4 ∧ s.tracker.table.length ≤ 64 ∧ s.tester.runs.length ≤ 128

-- The bank arbiter under load

/-- One permitted grant decision of a bank at which an ENGINE claim waits (R14, R15). -/
def Bank.serve (b : Bank) (e : Claim) : Bank := ({ b with granted := none, engineClaim := some e }).grant

end Sys2Proof.Machine
end

