-- ==== Sys2Proof/Certificates/Slice0/Obligations.lean ====
section
/-! DEFINITION. The statements for the provers. Every rule cited is of spec/. -/

open Sys2Proof Sys2Proof.Machine

-- The queue of commands

/-- A step takes the command at the front of the queue and executes it on the state with the queue's rest; on an empty
queue the part idles (the model's choices, log 1). -/
def Obligations.StepRunsTheFrontCommandOrIdles : Prop :=
  (∀ (c : Instr) (rest : List Instr) (s : State), step { s with pending := c :: rest } = exec c { s with pending := rest }) ∧
    ∀ s : State, s.pending = [] → step s = .next s

-- Reset and start-up

/-- State.reset holds every block at the cold values of R22, R43, R68, R84, R107, R124, R148, R159, R173, R192, R203, and
satisfies every invariant stated below. COLD_RESET takes every block to its cold values, whatever was in progress, and
holds the part (R199). -/
def Obligations.ResetIsColdAndSound : Prop :=
  (State.reset.held = true ∧ State.reset.isCold ∧ State.reset.pending = [] ∧ State.reset.tablesCanonical ∧
    State.reset.refreshSound ∧ State.reset.linkSound ∧ State.reset.regionsSound ∧ State.reset.runSound ∧
    State.reset.slotsSound ∧ State.reset.entriesSound ∧ State.reset.sizesSound) ∧
  ∀ s : State, ∃ t, exec .coldReset s = .next t ∧ t.held = true ∧ t.isCold ∧ t.svc = s.svc ∧ t.pending = s.pending

/-- RESET_RELEASE samples the straps for the bit rate, sets the mode to STARTING and begins the start-up sequence with
its hold (R174, R199, R21); STARTUP_HOLD_EXPIRE ends the hold, and the 8 start-up refreshes begin (R21). Everything else
stays. -/
def Obligations.StartUpBeginsAtTheRelease : Prop :=
  (∀ (s : State) (bsel1 bsel0 : Bool), s.held = true →
    exec (.resetRelease bsel1 bsel0) s = .next { s with
      held := false
      link := { s.link with
        rate := if bsel1 then (if bsel0 then .m12 else .m6) else (if bsel0 then .m3 else .m1) }
      modeCtl := { s.modeCtl with mode := .starting }
      store := { s.store with array := .starting, work := .startupHold } }) ∧
  ∀ s : State, s.held = false → s.store.array = .starting → s.store.work = .startupHold →
    ∃ l', exec .startupHoldExpire s = .next { s with store := { s.store with work := .startup 8 }, link := l' } ∧
      Link.Settled s.link l'

/-- The cold start: after the release of RESET_N, the hold and 8 refreshes, the mode is QUIET, the array READY with the
pointer at 8 and the debt at 0, the tick timer runs, and READY is the one notice (R21, R200). -/
def Obligations.ColdStartEndsInQuietWithReady : Prop :=
  ∀ bsel1 bsel0 : Bool, ∃ t,
    Host.Core.run core 10 { State.reset with
      pending := [.resetRelease bsel1 bsel0, .startupHoldExpire] ++ List.replicate 8 .refreshComplete } = .next t ∧
    t.modeCtl.mode = .steady .quiet ∧ t.store.array = .ready ∧ t.store.pointer = 8 ∧ t.store.debt = 0 ∧
    t.store.urgent = false ∧ t.store.ticking = true ∧ t.link.notices = [.ready Config.partRevision] ∧ t.link.drops = 0 ∧
    t.pending = []

/-- No command but ACCESS_COMPLETE ever stops the part, and that one stops only with the fault noSuchLane, on a granted
claim that names a row or lane R1 says does not exist (log 25). -/
def Obligations.OnlyAnAccessOutsideTheStoreStops : Prop :=
  ∀ (c : Instr) (s : State),
    (∃ t, exec c s = .next t) ∨
    (∃ bank row k, c = .accessComplete bank ∧ (s.store.banks.get bank).st = .opened row ∧
      (s.store.banks.get bank).granted = some k ∧ k.inStore = false ∧ exec c s = .fault .noSuchLane)

-- Refresh

/-- REFRESH_TICK has no effect in SELF_REFRESH and in the exit burst. Otherwise it raises the debt by 1, and a debt of 6
puts an urgent refresh in force; a run of urgent refreshes begins at once where the array is READY with all banks IDLE
(R9, R10, R11; with no self-refresh entry ordered, log 27), and elsewhere the array stays as it was. Memory, banks, pointer
and every other block stay. -/
def Obligations.TickRaisesTheDebt : Prop :=
  ∀ s : State, s.held = false → s.store.ticking = true →
    ((s.store.array = .selfRefresh ∨ ∃ n, s.store.work = .burst n) → s.store.urgent = false →
      ∃ l', exec .refreshTick s = .next { s with link := l' } ∧ Link.Settled s.link l') ∧
    (s.store.array ≠ .selfRefresh → (∀ n, s.store.work ≠ .burst n) → s.store.debt < 8 →
      ∃ l' a w, exec .refreshTick s = .next { s with
          store := { s.store with
            debt := s.store.debt + 1
            urgent := s.store.urgent || decide (s.store.debt = 5)
            array := a
            work := w }
          link := l' } ∧ Link.Settled s.link l' ∧
        ((s.store.urgent = true ∨ s.store.debt = 5) → s.store.array = .ready → s.store.allIdle = true →
          s.store.entryOrdered = false → a = .refreshing ∧ w = .debt) ∧
        (¬((s.store.urgent = true ∨ s.store.debt = 5) ∧ s.store.array = .ready ∧ s.store.allIdle = true ∧
          s.store.entryOrdered = false) → a = s.store.array ∧ w = s.store.work))

/-- REFRESH_START: with no urgent refresh in force, the array READY, all banks IDLE, no claim waiting and the debt at
least 1, a refresh starts and the array is REFRESHING (R9; with no self-refresh entry ordered, R19). Where one of the
conditions fails, nothing starts. -/
def Obligations.RefreshStartsUnderTheFourConditions : Prop :=
  ∀ s : State, s.held = false → s.store.urgent = false → s.store.entryOrdered = false →
    ((s.store.array = .ready ∧ s.store.allIdle = true ∧ s.store.noClaimWaits = true ∧ 1 ≤ s.store.debt) →
      ∃ l', exec .refreshStart s = .next { s with
          store := { s.store with array := .refreshing, work := .debt }, link := l' } ∧ Link.Settled s.link l') ∧
    (¬(s.store.array = .ready ∧ s.store.allIdle = true ∧ s.store.noClaimWaits = true ∧ 1 ≤ s.store.debt) →
      ∃ l', exec .refreshStart s = .next { s with link := l' } ∧ Link.Settled s.link l')

/-- REFRESH_COMPLETE: the pointer advances by one and wraps from 2047 to 0, and no content of the store changes (R8). A
refresh under R9 or R11 brings the debt down by one; while urgency stays in force the next refresh starts at once, and the
completion that brings the debt to 0 ends urgency, and the array returns to READY (R8, R10, R11). A refresh of the exit
burst leaves the debt; the next one follows, and the last one returns the array to READY (R20). A refresh of the start-up sequence leaves the debt;
the next one follows, and the last one brings the array to READY and completes the cold start: the mode is QUIET, the tick
timer runs and READY is offered (R9, R21, R200). Where self-refresh entry is
ordered and no urgent run goes on (log 27), the end of the refresh finds the banks IDLE and the array goes to SELF_REFRESH
with the debt 0 and urgency ended (R19). -/
def Obligations.RefreshCompleteAdvancesPointerAndDebt : Prop :=
  ∀ s : State, s.held = false →
    let pointer := if s.store.pointer + 1 < 2048 then s.store.pointer + 1 else 0
    (s.store.work = .debt → s.store.entryOrdered = false → 1 ≤ s.store.debt →
      ∃ t, exec .refreshComplete s = .next t ∧ t.store.debt = s.store.debt - 1 ∧ t.store.pointer = pointer ∧
        t.store.mem = s.store.mem ∧ t.store.urgent = (s.store.urgent && s.store.debt != 1) ∧
        ((s.store.urgent = true ∧ s.store.debt ≠ 1) →
          t.store.array = s.store.array ∧ t.store.work = .debt ∧ t.store.banks = s.store.banks) ∧
        (¬(s.store.urgent = true ∧ s.store.debt ≠ 1) → t.store.array = .ready ∧ t.store.work = .none)) ∧
    (∀ left, s.store.work = .burst left → s.store.entryOrdered = false →
      ∃ t, exec .refreshComplete s = .next t ∧ t.store.debt = s.store.debt ∧ t.store.pointer = pointer ∧
        t.store.mem = s.store.mem ∧
        (2 ≤ left → t.store = { s.store with pointer := pointer, work := .burst (left - 1) }) ∧
        (left = 1 → s.store.urgent = false → t.store.array = .ready ∧ t.store.work = .none)) ∧
    (∀ left, s.store.work = .startup left → s.store.entryOrdered = false → s.store.urgent = false →
      ∃ t, exec .refreshComplete s = .next t ∧ t.store.debt = s.store.debt ∧ t.store.pointer = pointer ∧
        t.store.mem = s.store.mem ∧
        (2 ≤ left → t.store = { s.store with pointer := pointer, work := .startup (left - 1) } ∧
          t = { s with store := t.store, link := t.link } ∧ Link.Settled s.link t.link) ∧
        (left ≤ 1 → t.store.array = .ready ∧ t.store.work = .none ∧ t.store.ticking = true ∧
          t = { s with
            store := t.store, modeCtl := { s.modeCtl with mode := .steady .quiet }, link := t.link } ∧
          Link.Settled (s.link.offer (.ready Config.partRevision)) t.link)) ∧
    (s.store.entryOrdered = true → s.store.allIdle = true →
      (s.store.work = .burst 1 ∨ (s.store.work = .debt ∧ ¬(s.store.urgent = true ∧ 2 ≤ s.store.debt))) →
      ∃ t, exec .refreshComplete s = .next t ∧ t.store.array = .selfRefresh ∧ t.store.work = .none ∧ t.store.debt = 0 ∧
        t.store.urgent = false ∧ t.store.entryOrdered = false ∧ t.store.pointer = pointer ∧ t.store.mem = s.store.mem)

-- Banks and accesses

/-- BANK_OPEN_COMPLETE: the row that was being opened is open, and nothing else changes. BANK_CLOSE_COMPLETE: with a
granted access waiting, its row begins to open; with none, and no claim waiting, no urgent refresh and no self-refresh
entry ordered, the bank is IDLE (R5). The close that leaves all four banks IDLE with the array READY starts the urgent run
in force (R11), or makes an ordered self-refresh entry, with the debt 0, urgency ended, pointer and pass-over counts kept
(R19; log 27 where urgency is in force too). With an access granted to none and claims waiting, the bank that comes to IDLE
decides at once where grants are permitted: the ENGINE claim below a pass-over count of 8, the ACCESS claim alone or at 8, and
the claimed row begins to open (R14, R15; that a close's end decides is DEDUCED, log 7). Where they are not permitted, the
claims wait on. Another bank stays as it was. A bank's free ENGINE place goes to a ready claim of the integration engine, with
none to one of the band tester, with none to one of the history writer (R4; which of several is free, log 6). Once all banks
have settled, no ready claim is left for a free ENGINE place, and no IDLE bank has a claim waiting that may be granted (R4,
R5, R6). -/
def Obligations.BanksOpenAndClose : Prop :=
  (∀ (s : State) (bank : Fin 4) (row : Nat), s.held = false → (s.store.banks.get bank).st = .opening row →
    ∃ l', exec (.bankOpenComplete bank) s = .next { s with
        store := { s.store with banks := s.store.banks.set bank { s.store.banks.get bank with st := .opened row } }
        link := l' } ∧ Link.Settled s.link l') ∧
  (∀ (s : State) (bank : Fin 4), s.held = false → (s.store.banks.get bank).st = .closing →
    (∀ c, (s.store.banks.get bank).granted = some c →
      ∃ l', exec (.bankCloseComplete bank) s = .next { s with
          store := { s.store with
            banks := s.store.banks.set bank { s.store.banks.get bank with st := .opening (c.row / 4) } }
          link := l' } ∧ Link.Settled s.link l') ∧
    ((s.store.banks.get bank).granted = none → s.store.noClaimWaits = true → s.store.urgent = false →
      s.store.entryOrdered = false →
      ∃ l', exec (.bankCloseComplete bank) s = .next { s with
          store := { s.store with banks := s.store.banks.set bank { s.store.banks.get bank with st := .idle } }
          link := l' } ∧ Link.Settled s.link l') ∧
    ((s.store.banks.get bank).granted = none → s.store.array = .ready →
      (∀ i, i ≠ bank → (s.store.banks.get i).st = .idle) →
      (s.store.urgent = true → s.store.entryOrdered = false →
        ∃ t, exec (.bankCloseComplete bank) s = .next t ∧ t.store.array = .refreshing ∧ t.store.work = .debt ∧
          t.store.debt = s.store.debt ∧ t.store.pointer = s.store.pointer ∧ t.store.mem = s.store.mem ∧
          ∀ i, (t.store.banks.get i).st = .idle) ∧
      (s.store.entryOrdered = true →
        ∃ t, exec (.bankCloseComplete bank) s = .next t ∧ t.store.array = .selfRefresh ∧ t.store.work = .none ∧
          t.store.debt = 0 ∧ t.store.urgent = false ∧ t.store.entryOrdered = false ∧
          t.store.pointer = s.store.pointer ∧ t.store.mem = s.store.mem ∧
          ∀ i, (t.store.banks.get i).st = .idle ∧
            (t.store.banks.get i).passOver = (s.store.banks.get i).passOver)) ∧
    ((s.store.banks.get bank).granted = none →
      let b := s.store.banks.get bank
      let otherBusy := ∃ i, i ≠ bank ∧ (s.store.banks.get i).st ≠ .idle
      let decides := s.store.array = .ready ∧ s.store.urgent = false ∧ (s.store.entryOrdered = false ∨ otherBusy)
      let waits := s.store.array ≠ .ready ∨ (s.store.urgent = true ∧ otherBusy)
      (decides ∨ waits) →
      ∃ t, exec (.bankCloseComplete bank) s = .next t ∧ t = { s with store := t.store, link := t.link } ∧
        Link.Settled s.link t.link ∧
        t.store = { s.store with
          banks := t.store.banks, engineReady := t.store.engineReady, testerReady := t.store.testerReady,
          historyReady := t.store.historyReady, draws := t.store.draws } ∧
        (∀ e, decides → b.engineClaim = some e → b.accessClaim = none →
          (t.store.banks.get bank).granted = some e ∧ (t.store.banks.get bank).st = .opening (e.row / 4) ∧
            (t.store.banks.get bank).accessClaim = none ∧ (t.store.banks.get bank).passOver = b.passOver) ∧
        (∀ e a, decides → b.engineClaim = some e → b.accessClaim = some a → b.passOver < 8 →
          (t.store.banks.get bank).granted = some e ∧ (t.store.banks.get bank).st = .opening (e.row / 4) ∧
            (t.store.banks.get bank).accessClaim = some a ∧ (t.store.banks.get bank).passOver = b.passOver + 1) ∧
        (∀ a, decides → b.accessClaim = some a →
          ((b.engineClaim = none ∧ s.store.NoneReady bank) ∨ (b.engineClaim ≠ none ∧ 8 ≤ b.passOver)) →
          t.store.banks.get bank = { b with
            st := .opening (a.row / 4), granted := some a, accessClaim := none, passOver := 0 }) ∧
        (waits → (b.engineClaim ≠ none ∨ s.store.NoneReady bank) → t.store.banks.get bank = { b with st := .idle }) ∧
        (b.engineClaim = none → b.accessClaim = none → s.store.NoneReady bank →
          t.store.banks.get bank = { b with st := .idle }) ∧
        ∀ i, i ≠ bank →
          (((s.store.banks.get i).st ≠ .idle ∧ ((s.store.banks.get i).engineClaim ≠ none ∨ s.store.NoneReady i)) ∨
            ((s.store.banks.get i).engineClaim = none ∧ (s.store.banks.get i).accessClaim = none ∧ s.store.NoneReady i)) →
          t.store.banks.get i = s.store.banks.get i)) ∧
  (∀ (st : Store) (bank : Fin 4),
    let here := List.filter (fun k : Claim => decide (k.row % 4 = bank.val))
    let takes := fun (k : Claim) => st.banks.set bank { st.banks.get bank with engineClaim := some k }
    ((st.banks.get bank).engineClaim ≠ none → st.present bank = st) ∧
    ((st.banks.get bank).engineClaim = none →
      (here st.engineReady ≠ [] → ∃ k ∈ here st.engineReady, ∃ d, st.present bank = { st with
        engineReady := st.engineReady.erase k, draws := d, banks := takes k }) ∧
      (here st.engineReady = [] → here st.testerReady ≠ [] → ∃ k ∈ here st.testerReady, ∃ d, st.present bank = { st with
        testerReady := st.testerReady.erase k, draws := d, banks := takes k }) ∧
      (here st.engineReady = [] → here st.testerReady = [] → here st.historyReady ≠ [] →
        ∃ k ∈ here st.historyReady, ∃ d, st.present bank = { st with
          historyReady := st.historyReady.erase k, draws := d, banks := takes k }) ∧
      (here st.engineReady = [] → here st.testerReady = [] → here st.historyReady = [] → st.present bank = st))) ∧
  ∀ (st : Store) (i : Fin 4),
    let b := st.settleBanks.banks.get i
    (b.engineClaim = none → st.settleBanks.NoneReady i) ∧
    (st.array = .ready → st.urgent = false → b.st = .idle → b.engineClaim = none ∧ b.accessClaim = none)

/-- ACCESS_COMPLETE: the granted access of an open bank is performed on its row, whole, at its completion (R3, R17, R18;
log 8). Every lane that its claim does not name keeps its content, and a READ changes none. The refresh counts, the geometry,
the mode, the inbound queue, the link level, the context stack, what the run was started with, the pins and the queue stay.
The claimant receives the result, and then the bank decides (log 29); so the whole next state is given, as follows. A CLEAR's row:
the claim for the next row is presented, or the CLEAR completes, a full one of a PROFILE sets its loaded flag, and its reply
is queued (R31, R39, R40). A READ's or WRITE's segment: its values or written count join those so far, and the next one is
presented; with the last the cursor moves, the reply is queued and the executor goes on (R166, R169, R171). A GAIN row: its
lanes are corrected, the item's first one raises the lines added (log 17), and the claims on the records' ACCUM rows become
ready (R89, R93). A WRITE ALWAYS or ADD: one access fewer is left (R93). A READ of the completing record, or a GAIN row with
D = 1: its means join the mean line; with all Q lanes the record leaves the ring. With the last of these accesses a line so
formed goes to the history writer and to the band tester, with their claims, in INSPECT and in TEACH (R85, R94, R95, R110,
R118, R119, R151; logs 18, 19). A bound row:
the last one gives the run list, which the tracker receives (R110, R112, R116). A teach write: the last one counts the line
and hands its result on (R119). A row of a stored line: the last one records the line or waits for the result (R152). With
nothing of the item left it is finished: slot freed, next line number and stride advanced, install or run end (R61, R64, R81,
R86). The result of discarded work goes nowhere (R16). -/
def Obligations.AccessPerformsItsClaimAndNoMore : Prop :=
  ∀ (s : State) (bank : Fin 4) (row : Nat) (c : Claim), s.held = false →
    (s.store.banks.get bank).st = .opened row → (s.store.banks.get bank).granted = some c → c.inStore = true →
    let result := (s.store.mem.perform s.store.coldEpoch c.row c.op).2
    ∃ t, exec (.accessComplete bank) s = .next t ∧
      t.store.mem = (s.store.mem.perform s.store.coldEpoch c.row c.op).1 ∧
      (∀ a, a ∉ c.op.lanes.map (laneAddr c.row) →
        Memory.lane t.store.coldEpoch t.store.mem a = Memory.lane s.store.coldEpoch s.store.mem a) ∧
      (∀ lanes, c.op = .read lanes → t.store.mem = s.store.mem) ∧
      t.store.array = s.store.array ∧ t.store.debt = s.store.debt ∧ t.store.pointer = s.store.pointer ∧
      t.store.urgent = s.store.urgent ∧ t.geometry = s.geometry ∧ t.modeCtl = s.modeCtl ∧
      t.link.receiver = s.link.receiver ∧ t.link.inbound = s.link.inbound ∧ t.link.level = s.link.level ∧
      t.run.stack = s.run.stack ∧ t.run.limit = s.run.limit ∧ t.run.trigger = s.run.trigger ∧ t.svc = s.svc ∧
      t.pending = s.pending ∧
      (let did := s.performed bank c
      let goesOn := fun v : State =>
        t = { v with
          store := ((v.store.admitAccess.present bank).decideDone bank row).settleBanks, link := t.link } ∧
        Link.Settled v.link t.link
      (∀ w, c.use = .clearRow → s.access.clear = some w →
        (w.nextRow < w.endRow →
          let next := { w with nextRow := w.nextRow + 1 }
          goesOn (({ did with access := { s.access with clear := some next } } : State).presentAccess (s.clearClaim next))) ∧
        (∀ q, w.endRow ≤ w.nextRow → s.region w.region = some q →
          let done :=
            if q.kind = .profile ∧ w.firstEntry = 0 ∧ w.lastEntry + 1 = q.entries s.slot then { q with loaded := true }
            else q
          goesOn { did with
            access := { s.access with clear := none }
            regions := Table.put s.regions w.region done
            link := s.link.Filled w.ticket
              ([0x00] ++ le16 ((w.lastEntry + 1 - w.firstEntry) * q.rowsPerEntry s.slot)
                ++ [if done.loaded then 0x01 else 0x00]) })) ∧
      (∀ x wide sofar, c.use = .hostRead → s.access.st = .reading x wide sofar →
        let values := sofar ++ result.values
        (∀ k more, x.claims = k :: more →
          goesOn (({ did with access := { s.access with
            st := .reading { x with claims := more } wide values } } : State).presentAccess k)) ∧
        (x.claims = [] → t.link.executor ≠ .executing ∧
          goesOn { did with
            access := { s.access with st := .idle, selection := s.access.selection.map (Selection.moveTo x.cursor) }
            link := s.link.Filled x.ticket
              ([0x00] ++ le16 (if wide then values.length / 2 else values.length)
                ++ [if x.wrapped then 0x01 else 0x00] ++ le16 x.cursor.entry ++ le16 x.cursor.lane
                ++ values.flatMap (fun v => le16 v.toNat)) })) ∧
      (∀ x sofar, c.use = .hostWrite → s.access.st = .writing x sofar →
        let written := sofar + result.written.count true
        (∀ k more, x.claims = k :: more →
          goesOn (({ did with access := { s.access with
            st := .writing { x with claims := more } written } } : State).presentAccess k)) ∧
        (x.claims = [] → t.link.executor ≠ .executing ∧
          goesOn { did with
            access := { s.access with st := .idle, selection := s.access.selection.map (Selection.moveTo x.cursor) }
            link := s.link.Filled x.ticket
              ([0x00] ++ le16 written ++ [if x.wrapped then 0x01 else 0x00] ++ le16 x.cursor.entry
                ++ le16 x.cursor.lane) })) ∧
      (∀ claimant, c.use = .discarded claimant → goesOn did) ∧
      (∀ k w, c.use = .gain k → s.engine.st = .line w →
        let cs := s.correctedRow w k result.values
        let ring := if w.added then s.engine.ring else s.engine.ring.map (fun r => { r with added := r.added + 1 })
        let claims := s.addClaims w ring k cs
        let v := fun mean : Option MeanLine => { did with
          engine := { s.engine with
            st := .line { w with outstanding := w.outstanding - 1 + claims.length, added := true }
            ring := ring
            mean := mean }
          store := { did.store with engineReady := s.store.engineReady ++ claims } }
        (2 ≤ w.context.depth → goesOn (((v s.engine.mean).Formed w.context.depth).LineChecked)) ∧
        ∀ m, w.context.depth = 1 → ring.find? (fun r => decide (1 ≤ r.added)) = some m →
          let pieces := Pieces.insert ((s.engine.mean.map (·.pieces)).getD []) (512 * k) (cs.map (BitVec.ofNat 16))
          goesOn (((v (some ⟨m.number, pieces⟩)).Formed 1).LineChecked)) ∧
      (∀ w, c.use = .accumulate → s.engine.st = .line w →
        goesOn ((({ did with engine := { s.engine with
          st := .line { w with outstanding := w.outstanding - 1 } } } : State).Formed w.context.depth).LineChecked)) ∧
      (∀ u cs w m, c.use = .complete u cs → s.engine.st = .line w →
        s.engine.ring.find? (fun r => decide (w.context.depth ≤ r.added)) = some m →
        let means := (wideValues result.values).zipWith (fun sum x => (sum.toNat + x) / w.context.depth) cs
        let pieces := Pieces.insert ((s.engine.mean.map (·.pieces)).getD []) (256 * u) (means.map (BitVec.ofNat 16))
        goesOn ((({ did with engine := { s.engine with
          st := .line { w with outstanding := w.outstanding - 1 }
          mean := some ⟨m.number, pieces⟩ } } : State).Formed w.context.depth).LineChecked)) ∧
      (∀ k lo up lo' up' left, s.tester.st = .testing lo up left →
        ((c.use = .lower k ∧ lo' = Pieces.insert lo (512 * k) result.values ∧ up' = up) ∨
          (c.use = .upper k ∧ lo' = lo ∧ up' = Pieces.insert up (512 * k) result.values)) →
        (2 ≤ left → goesOn { did with tester := { s.tester with st := .testing lo' up' (left - 1) } }) ∧
        ∀ w m, left ≤ 1 → s.engine.st = .line w → s.engine.mean = some m →
          let scan := extractRuns w.context m.pieces.values lo'.values up'.values
          goesOn { did with
            tester := { s.tester with st := .tracking, runs := scan.runs, overflow := scan.overflow }
            tracker := { s.tracker with st := .working m.number scan.runs } }) ∧
      (∀ left, c.use = .teach → s.tester.st = .teaching left →
        (2 ≤ left → goesOn { did with tester := { s.tester with st := .teaching (left - 1) } }) ∧
        (left ≤ 1 → goesOn did.Taught.LineChecked)) ∧
      ∀ line left, c.use = .history → s.history.st = .storing line left →
        (2 ≤ left → goesOn { did with history := { s.history with st := .storing line (left - 1) } }) ∧
        (left ≤ 1 → s.history.result = none → goesOn { did with history := { s.history with st := .filing line } }) ∧
        ∀ r, left ≤ 1 → s.history.result = some r →
          goesOn ({ did with history := s.history.Recorded line r } : State).LineChecked)

/-- A WRITE names each lane once: afterwards a named lane holds the supplied value where the condition held against the
value it held, and its own value otherwise; the claimant is told which (R3, R17). An ADD forms the 32-bit value of each
named lane pair, low half in the even lane, adds the addend and writes both halves back (R2, R18). -/
def Obligations.WriteAndAddChangeTheirLanes : Prop :=
  (∀ (epoch row : Nat) (m : Memory) (cond : WriteCond) (values : List (Nat × Half)), (values.map (·.1)).Nodup →
    (∀ l v, (l, v) ∈ values →
      Memory.lane epoch (m.perform epoch row (.write cond values)).1 (laneAddr row l)
        = if (cond = .always ∨ (cond = .ifGreater ∧ (Memory.lane epoch m (laneAddr row l)).toNat < v.toNat) ∨
              (cond = .ifLess ∧ v.toNat < (Memory.lane epoch m (laneAddr row l)).toNat))
          then v else Memory.lane epoch m (laneAddr row l)) ∧
    (m.perform epoch row (.write cond values)).2.written
      = values.map (fun p => cond.holds (Memory.lane epoch m (laneAddr row p.1)) p.2)) ∧
  ∀ (epoch row : Nat) (m : Memory) (addends : List (Nat × Word)), (addends.map (·.1)).Nodup →
    ∀ k w, (k, w) ∈ addends →
      Memory.wide epoch (m.perform epoch row (.add addends)).1 row k = Memory.wide epoch m row k + w

/-- When a grant is permitted, at the completion of an access or at an IDLE bank: the ENGINE claim is granted over a
waiting ACCESS claim while the pass-over count is below 8, and a claim that waits alone is granted, whatever its row; the
row decides only whether the bank stays open or closes. -/
def Obligations.GrantTakesEngineBelowEight : Prop :=
  ∀ (st : Store) (bank : Fin 4) (row : Nat), st.permitted = true →
    let b := st.banks.get bank
    let done := (st.decideDone bank row).banks.get bank
    let begun := (st.decideIdle bank).banks.get bank
    (∀ e a, b.engineClaim = some e → b.accessClaim = some a → b.passOver < 8 →
      (done.granted = some e ∧ done.engineClaim = none ∧ done.accessClaim = some a ∧
        done.st = if e.row / 4 = row then .opened row else .closing) ∧
      (b.st = .idle → begun.granted = some e ∧ begun.engineClaim = none ∧ begun.accessClaim = some a ∧
        begun.st = .opening (e.row / 4))) ∧
    (∀ e, b.engineClaim = some e → b.accessClaim = none →
      (done.granted = some e ∧ done.engineClaim = none ∧
        done.st = if e.row / 4 = row then .opened row else .closing) ∧
      (b.st = .idle → begun.granted = some e ∧ begun.engineClaim = none ∧ begun.st = .opening (e.row / 4))) ∧
    (∀ a, b.engineClaim = none → b.accessClaim = some a →
      (done.granted = some a ∧ done.accessClaim = none ∧
        done.st = if a.row / 4 = row then .opened row else .closing) ∧
      (b.st = .idle → begun.granted = some a ∧ begun.accessClaim = none ∧ begun.st = .opening (a.row / 4)))

/-- A waiting ACCESS claim is granted after at most 8 ENGINE grants on its bank, however many ENGINE claims keep coming,
and its grant returns the pass-over count to 0 (R13, R15). The access unit's next claim waits on its bank at once where its
previous claim has completed, and is kept back where that one still waits or is granted; a claim kept back is presented so
again when an access completes (R4). -/
def Obligations.AccessWaitsForAtMostEightEngineGrants : Prop :=
  (∀ (b : Bank) (a : Claim) (engine : List Claim) (last : Claim), b.accessClaim = some a → b.passOver ≤ 8 →
    engine.length = 8 - b.passOver →
      ((engine.foldl Bank.serve b).serve last).granted = some a ∧ ((engine.foldl Bank.serve b).serve last).passOver = 0) ∧
  ∀ (st : Store) (c : Claim),
    let inStore := ∃ i, (st.banks.get i).accessClaim ≠ none ∨
      ∃ g, (st.banks.get i).granted = some g ∧ g.use.claimant = .access
    (¬inStore → st.presentAccess c = { st with
      accessReady := none
      banks := st.banks.set (bankOf c.row) { st.banks.get (bankOf c.row) with accessClaim := some c } }) ∧
    (inStore → st.presentAccess c = { st with accessReady := some c }) ∧
    (st.accessReady = none → st.admitAccess = st) ∧ (st.accessReady = some c → st.admitAccess = st.presentAccess c)

-- The receiver

/-- A whole frame that arrives in HUNT is read as what it spells: a request of an assigned kind, with any tag and any
payload of up to 1024 bytes, joins an inbound queue that has room, and HOLD is driven from the new count (R175, R177,
R180, R181). Nothing else changes. -/
def Obligations.WholeFrameIsReceivedAsItWasSent : Prop :=
  ∀ (s : State) (kind tag : Byte) (payload : List Byte), s.held = false → s.link.receiver = .hunt →
    1 ≤ kind.toNat → kind.toNat ≤ 24 → payload.length ≤ 1024 → s.link.inbound.length < 4 →
    ∃ l', exec (.frameReceived (Msg.bytes ⟨kind, tag, payload⟩)) s = .next { s with link := l' } ∧
      Link.Settled { s.link with
        inbound := s.link.inbound ++ [⟨kind, tag, payload⟩]
        holdOut := if 2 ≤ s.link.inbound.length then true else s.link.holdOut } l'

/-- The last byte of a frame decides its fate, in the order of R180: BAD_CHECK, UNKNOWN_KIND, FULL, or the request joins
the inbound queue. A rejection takes a free reply entry, and is not sent when there is none (R176, R179, R180). -/
def Obligations.FrameFateIsDecidedInOrder : Prop :=
  ∀ (s : State) (kind tag lo hi : Byte) (payload : List Byte), s.held = false →
    s.link.receiver = .check kind tag payload [lo] →
    let status : Option Byte :=
      if (crc16 payload).toNat ≠ lo.toNat + 256 * hi.toNat then some 0x04
      else if ¬(1 ≤ kind.toNat ∧ kind.toNat ≤ 24) then some 0x01
      else if 4 ≤ s.link.inbound.length then some 0x07
      else none
    ∃ l', exec (.frameReceived [hi]) s = .next { s with link := l' } ∧
      match status with
      | none =>
        Link.Settled { s.link with
          receiver := .hunt
          inbound := s.link.inbound ++ [⟨kind, tag, payload⟩]
          holdOut := if 2 ≤ s.link.inbound.length then true else s.link.holdOut } l'
      | some code =>
        Link.Settled { s.link with
          receiver := .hunt
          replies :=
            if s.link.replies.length + s.link.reserved.length < 8
            then s.link.replies ++ [⟨if kind.toNat < 128 then kind + 0x80 else kind, tag, [code]⟩]
            else s.link.replies } l'

/-- The fifth header byte: a failed check sends no reply and the five bytes are scanned again, from the first D3h among
them or, with none, in HUNT; a length above 1024 is answered TOO_LONG; otherwise the payload follows, or its check when
the length is 0 (R177, R178, R179). -/
def Obligations.HeaderIsCheckedAtTheFifthByte : Prop :=
  (∀ (s : State) (kind tag lo hi check : Byte), s.held = false → s.link.receiver = .header [kind, tag, lo, hi] →
    let length := lo.toNat + 256 * hi.toNat
    ∃ l', exec (.headerReceived [check]) s = .next { s with link := l' } ∧
      (crc8 [kind, tag, lo, hi] ≠ check →
        Link.Settled { s.link with receiver := rescan [kind, tag, lo, hi, check] } l') ∧
      (crc8 [kind, tag, lo, hi] = check → 1024 < length →
        Link.Settled { s.link with
          receiver := .hunt
          replies :=
            if s.link.replies.length + s.link.reserved.length < 8
            then s.link.replies ++ [⟨if kind.toNat < 128 then kind + 0x80 else kind, tag, [0x06]⟩]
            else s.link.replies } l') ∧
      (crc8 [kind, tag, lo, hi] = check → length ≤ 1024 →
        Link.Settled { s.link with
          receiver := if length = 0 then .check kind tag [] [] else .payload kind tag length [] } l')) ∧
  (∀ before after : List Byte, 0xD3 ∉ before → rescan (before ++ 0xD3 :: after) = .header after) ∧
  (∀ bytes : List Byte, 0xD3 ∉ bytes → rescan bytes = .hunt)

/-- The inter-byte timer's expiry: in HEADER the receiver returns to HUNT with no reply, in PAYLOAD and CHECK it answers
TRUNCATED; in HUNT the timer does not run (R177, R179). -/
def Obligations.InterByteTimeoutEndsTheFrame : Prop :=
  ∀ s : State, s.held = false →
    ∃ l', exec .interByteTimeout s = .next { s with link := l' } ∧
      ((s.link.receiver = .hunt ∨ ∃ bytes, s.link.receiver = .header bytes) →
        Link.Settled { s.link with receiver := .hunt } l') ∧
      (∀ kind tag, ((∃ n p, s.link.receiver = .payload kind tag n p) ∨ (∃ p q, s.link.receiver = .check kind tag p q)) →
        Link.Settled { s.link with
          receiver := .hunt
          replies :=
            if s.link.replies.length + s.link.reserved.length < 8
            then s.link.replies ++ [⟨if kind.toNat < 128 then kind + 0x80 else kind, tag, [0x05]⟩]
            else s.link.replies } l')

-- The transmitter, the notices, the level

/-- FRAME_SENT: the frame leaves its queue (one that a RESTART has flushed has left it already), and the transmitter
chooses again: the oldest queued reply, else the head notice, else it is IDLE (R184, R185, R191). That the end of a frame
which a RESTART flushed frees no place is the model's reading where R184 and R191 pull apart (DEDUCED, log 23). Every command
but COLD_RESET leaves the link settled at once: an idle transmitter starts the oldest queued reply, else the head notice, a
busy one goes on with its frame, which only RESTART marks as flushed (R185, R191); an executor not EXECUTING is HELD where a
mode change is in flight and the head request is not exempt, else WAIT_ENTRY where no reply entry is free, else IDLE (R182,
R186; IDLE at a head it may accept, until the command that accepts it, is the model's choice, log 12). Only READ and WRITE
begin EXECUTING, and only ACCESS_COMPLETE ends it (R183). RESET_RELEASE with RESET_N high changes nothing (log 2). -/
def Obligations.FrameSentFreesItsPlaceAndChoosesAgain : Prop :=
  (∀ (s : State) (frame : Msg) (flushed : Bool), s.held = false →
    (s.link.transmitter = .sendingReply frame flushed ∨ s.link.transmitter = .sendingNotice frame flushed) →
    ∃ t, exec .frameSent s = .next t ∧
      t = { s with link := { s.link with
        replies := t.link.replies, notices := t.link.notices, executor := t.link.executor,
        transmitter := t.link.transmitter } } ∧
      (s.link.transmitter = .sendingReply frame flushed →
        t.link.replies = (if flushed then s.link.replies else s.link.replies.drop 1) ∧ t.link.notices = s.link.notices) ∧
      (s.link.transmitter = .sendingNotice frame flushed →
        t.link.replies = s.link.replies ∧ t.link.notices = if flushed then s.link.notices else s.link.notices.drop 1) ∧
      (∀ r rs, t.link.replies = r :: rs → t.link.transmitter = .sendingReply r false) ∧
      (∀ n ns, t.link.replies = [] → t.link.notices = n :: ns → t.link.transmitter = .sendingNotice n.msg false) ∧
      (t.link.replies = [] → t.link.notices = [] → t.link.transmitter = .idle)) ∧
  (∀ (c : Instr) (s t : State), s.held = false → c ≠ .coldReset → (∀ bsel1 bsel0, c ≠ .resetRelease bsel1 bsel0) →
    exec c s = .next t →
    (s.link.transmitter = .idle ∨ c = .frameSent →
      (∀ r rs, t.link.replies = r :: rs → t.link.transmitter = .sendingReply r false) ∧
      (∀ n ns, t.link.replies = [] → t.link.notices = n :: ns → t.link.transmitter = .sendingNotice n.msg false) ∧
      (t.link.replies = [] → t.link.notices = [] → t.link.transmitter = .idle)) ∧
    (∀ frame flushed, c ≠ .frameSent →
      (s.link.transmitter = .sendingReply frame flushed →
        ∃ flushed', t.link.transmitter = .sendingReply frame flushed' ∧ (c ≠ .restart → flushed' = flushed)) ∧
      (s.link.transmitter = .sendingNotice frame flushed →
        ∃ flushed', t.link.transmitter = .sendingNotice frame flushed' ∧ (c ≠ .restart → flushed' = flushed))) ∧
    (t.link.executor ≠ .executing →
      let held := fun r : Request => t.modeCtl.mode.isChanging = true ∧
        ¬(r.kind = 0x01 ∨ r.kind = 0x02 ∨ r.kind = 0x03 ∨ r.kind = 0x09)
      let free := t.link.replies.length + t.link.reserved.length < 8
      (t.link.inbound = [] → t.link.executor = .idle) ∧
      ∀ r rest, t.link.inbound = r :: rest →
        (held r → t.link.executor = .held) ∧ (¬held r → ¬free → t.link.executor = .waitEntry) ∧
          (¬held r → free → t.link.executor = .idle)) ∧
    (s.link.executor = .executing → (∀ bank, c ≠ .accessComplete bank) → t.link.executor = .executing) ∧
    (s.link.executor ≠ .executing → c ≠ .read → c ≠ .write → t.link.executor ≠ .executing)) ∧
  ∀ (s : State) (bsel1 bsel0 : Bool), s.held = false → exec (.resetRelease bsel1 bsel0) s = .next s

/-- The notice queue takes an offered notice by the drop count and the free places, as the table of R187 gives. -/
def Obligations.NoticeIsQueuedOrCounted : Prop :=
  ∀ (l : Link) (n : Notice), l.notices.length ≤ 32 →
    (l.drops = 0 → l.notices.length < 32 → l.offer n = { l with notices := l.notices ++ [n] }) ∧
    (l.drops = 0 → l.notices.length = 32 → l.offer n = { l with drops := 1 }) ∧
    (1 ≤ l.drops → l.notices.length ≤ 30 →
      l.offer n = { l with notices := l.notices ++ [.noticesLost l.drops, n], drops := 0 }) ∧
    (1 ≤ l.drops → 31 ≤ l.notices.length → l.offer n = { l with drops := min 65535 (l.drops + 1) })

-- The line port

/-- The TRIG active edge in WAIT_TRIG moves the port to READY, makes the run RUNNING and puts the engine between items;
in any other port state it has no effect (R57, R73, R100). -/
def Obligations.TrigEdgeStartsAnArmedRun : Prop :=
  ∀ s : State, s.held = false → s.modeCtl.mode = .steady .active →
    (s.port.st = .waitTrig →
      ∃ l', exec .trigActiveEdge s = .next { s with
          port := { s.port with st := .ready }
          run := { s.run with st := .running }
          engine := { s.engine with st := .between }
          link := l' } ∧ Link.Settled s.link l') ∧
    (s.port.st ≠ .waitTrig →
      ∃ l', exec .trigActiveEdge s = .next { s with link := l' } ∧ Link.Settled s.link l')

/-- ACTIVATION in READY, while the counter is below the limit: the line takes the counter's value as its number and the
counter goes up by 1. With a free slot the line fills the lowest-numbered one with its first sample; with none it is lost
with OVERRUN, and the port is discarding, or OFF after line N - 1 (R74, R75, R82). -/
def Obligations.ActivationNumbersTheLine : Prop :=
  ∀ (s : State) (g : Geometry) (first : Sample), s.held = false → s.modeCtl.mode = .steady .active →
    s.geometry = some g → s.port.lval = some (g.lvalLevel == .low) → s.port.st = .ready →
    (s.run.limit = 0 ∨ s.port.counter.toNat < s.run.limit.toNat) →
    let active := some (g.lvalLevel == .high)
    (∀ slot : Fin 4, s.port.slots.get slot = none → (∀ j < slot, s.port.slots.get j ≠ none) →
      ∃ l', exec (.activation first) s = .next { s with
          port := { s.port with
            lval := active
            counter := s.port.counter + 1
            st := .filling s.port.counter slot
            slots := s.port.slots.set slot (some [first]) }
          link := l' } ∧ Link.Settled s.link l') ∧
    ((∀ j, s.port.slots.get j ≠ none) →
      ∃ l', exec (.activation first) s = .next { s with
          port := { s.port with
            lval := active
            counter := s.port.counter + 1
            st := if s.run.limit ≠ 0 ∧ s.port.counter + 1 = s.run.limit then .off else .discarding
            queue := placeLoss s.port.counter .ofOverrun s.port.queue }
          link := l' } ∧ Link.Settled s.link l')

/-- SAMPLE inside a line: a filling line with fewer than P samples stores one more; a discarding line stores none
(R70, R76). LINE_END of a filling line with exactly P samples: a LINE item with its number and slot is appended, and the
port goes to READY, or to OFF when the line is number N - 1 (R76, R82). A discarding line only ends, to READY (R78). -/
def Obligations.SamplesFillALineToItsEnd : Prop :=
  ∀ (s : State) (g : Geometry), s.held = false → s.modeCtl.mode = .steady .active → s.geometry = some g →
    s.port.lval = some (g.lvalLevel == .high) →
    (∀ n slot stored x, s.port.st = .filling n slot → s.port.slots.get slot = some stored → stored.length < g.pixels →
      ∃ l', exec (.sample (g.lvalLevel == .high) x) s = .next { s with
          port := { s.port with slots := s.port.slots.set slot (some (stored ++ [x])) }
          link := l' } ∧ Link.Settled s.link l') ∧
    (∀ n slot stored, s.port.st = .filling n slot → s.port.slots.get slot = some stored → stored.length = g.pixels →
      ∃ l', exec .lineEnd s = .next { s with
          port := { s.port with
            lval := some (g.lvalLevel == .low)
            st := if s.run.limit ≠ 0 ∧ n + 1 = s.run.limit then .off else .ready
            queue := s.port.queue ++ [.line n slot] }
          link := l' } ∧ Link.Settled s.link l') ∧
    (s.port.st = .discarding →
      (∀ x, ∃ l', exec (.sample (g.lvalLevel == .high) x) s = .next { s with link := l' } ∧ Link.Settled s.link l') ∧
      ∃ l', exec .lineEnd s = .next { s with
          port := { s.port with lval := some (g.lvalLevel == .low), st := .ready }
          link := l' } ∧ Link.Settled s.link l')

/-- At the end of a filling line with fewer than P samples the line is lost with SHORT: its slot is freed and its samples
discarded, the loss is placed in the queue under R79, and the port goes to READY, or to OFF under R82. A line of a single
sample is such a line, whatever P is. -/
def Obligations.ShortLineIsLost : Prop :=
  ∀ (s : State) (g : Geometry) (n : Word) (slot : Fin 4) (stored : List Sample), s.held = false →
    s.modeCtl.mode = .steady .active → s.geometry = some g → s.port.lval = some (g.lvalLevel == .high) →
    s.port.st = .filling n slot → s.port.slots.get slot = some stored →
    (stored.length < g.pixels ∨ (stored.length = 1 ∧ 256 ≤ g.pixels)) →
    ∃ l', exec .lineEnd s = .next { s with
        port := { s.port with
          lval := some (g.lvalLevel == .low)
          st := if s.run.limit ≠ 0 ∧ n + 1 = s.run.limit then .off else .ready
          slots := s.port.slots.set slot none
          queue := placeLoss n .ofShort s.port.queue }
        link := l' } ∧ Link.Settled s.link l'

/-- LONG, sample P + 1 of a filling line: the line is lost with LONG and its slot freed; the port is discarding, or OFF
after line N - 1 (R78, R82). That a SAMPLE there does the same is the model's choice (DESIGN CHOICE, log 14). -/
def Obligations.LongLineIsLost : Prop :=
  ∀ (s : State) (g : Geometry) (n : Word) (slot : Fin 4) (stored : List Sample) (x : Sample), s.held = false →
    s.modeCtl.mode = .steady .active → s.geometry = some g → s.port.lval = some (g.lvalLevel == .high) →
    s.port.st = .filling n slot → s.port.slots.get slot = some stored → stored.length = g.pixels →
    ∃ l', exec .long s = .next { s with
        port := { s.port with
          st := if s.run.limit ≠ 0 ∧ n + 1 = s.run.limit then .off else .discarding
          slots := s.port.slots.set slot none
          queue := placeLoss n .ofLong s.port.queue }
        link := l' } ∧ Link.Settled s.link l' ∧ exec (.sample (g.lvalLevel == .high) x) s = exec .long s

/-- A loss of line n merges into a newest LOSS item whose last number is n - 1, its count up by 1 and the reason joined;
in every other case a new LOSS item with count 1 is appended (R79). -/
def Obligations.LossMergesOrIsAppended : Prop :=
  ∀ (n : Word) (reason : Reasons) (queue : List QueueItem),
    placeLoss n reason [] = [.loss n 1 reason] ∧
    (∀ m slot, placeLoss n reason (queue ++ [.line m slot]) = queue ++ [.line m slot, .loss n 1 reason]) ∧
    (∀ first count reasons, first + BitVec.ofNat 32 count - 1 = n - 1 →
      placeLoss n reason (queue ++ [.loss first count reasons])
        = queue ++ [.loss first (count + 1)
            ⟨reasons.overrun || reason.overrun, reasons.short || reason.short, reasons.long || reason.long⟩]) ∧
    (∀ first count reasons, first + BitVec.ofNat 32 count - 1 ≠ n - 1 →
      placeLoss n reason (queue ++ [.loss first count reasons])
        = queue ++ [.loss first count reasons, .loss n 1 reason])

-- The integration engine

/-- Binning forms lane j of sample j under NONE, and of samples 2j and 2j + 1 under PAIR by the formula of R88; with both
weights at 128 it is their sum, with a weight of 0 the sample does not contribute, and the value is at most 16316. -/
def Obligations.BinningFormsTheLanes : Prop :=
  ∀ (samples : List Sample) (w0 w1 : Nat), w0 ≤ 255 → w1 ≤ 255 →
    (∀ j, j < samples.length → (binLanes .none w0 w1 samples)[j]? = some (samples.getD j 0).toNat) ∧
    (∀ j, 2 * j + 1 < samples.length →
      let a := (samples.getD (2 * j) 0).toNat
      let b := (samples.getD (2 * j + 1) 0).toNat
      ∃ v, (binLanes .pair w0 w1 samples)[j]? = some v ∧ v = min 65535 ((a * w0 + b * w1) / 128) ∧ v ≤ 16316 ∧
        (w0 = 128 → w1 = 128 → v = a + b) ∧ (w0 = 0 → v = b * w1 / 128) ∧ (w1 = 0 → v = a * w0 / 128)) ∧
    (binLanes .none w0 w1 samples).length = samples.length ∧
    (binLanes .pair w0 w1 samples).length = samples.length / 2

/-- ENGINE_TAKE_ITEM on a LINE item. On a start line, which needs that no context is pending, a record joins the ring as its
newest, with the integrated counter as its number, the line as its start line, no line added and the lowest-numbered entry
that no record holds; the counter goes up by 1; the engine is in LINE with the active context and one GAIN read outstanding
for each of the s rows of the GAIN plane of the bound entry, each naming the lanes of the line in its row, and these claims
have gone to the banks (R28). On no start line with records in the ring it is in LINE with
ring and counter as they were. In both, the table as it stands is noted for a STOP (log 31). On no start line with the
ring empty no claim is made, the slot is freed, the stride position
and the next line number advance, and the item is finished: a pending context is installed, line N - 1 ends the run with
RUN_END, and otherwise the engine is between items (R60, R61, R64, R86, R87, R89, R90, R91, R101). -/
def Obligations.LineItemIsTaken : Prop :=
  ∀ (s : State) (n : Word) (slot : Fin 4) (rest : List QueueItem), s.held = false → s.modeCtl.mode = .steady .active →
    s.engine.st = .between → s.port.queue = .line n slot :: rest →
    let starts := s.run.next = none ∧ s.engine.stride = 0 ∧
      (s.run.limit = 0 ∨ n.toNat + s.run.active.depth - 1 < s.run.limit.toNat)
    let gain := s.firstRow .profile s.run.active.profile + s.run.active.entry * (3 * s.slot)
    let claims := (List.range s.slot).map (fun t =>
      (⟨gain + t, .read (List.range (min 512 (s.lanes - 512 * t))), .gain t⟩ : Claim))
    let asked := ({ s.store with engineReady := s.store.engineReady ++ claims } : Store).settleBanks
    let noted : ItemBefore := ⟨s.tracker.table, none⟩
    (starts →
      ∃ l' entry, exec .engineTakeItem s = .next { s with
          port := { s.port with queue := rest }
          engine := { s.engine with
            st := .line ⟨n, slot, s.run.active, s.slot, false⟩
            ring := s.engine.ring ++ [⟨s.engine.counter, n, 0, entry⟩]
            counter := s.engine.counter + 1 }
          store := asked
          before := noted
          link := l' } ∧ Link.Settled s.link l' ∧ asked.mem = s.store.mem ∧
        (∀ r ∈ s.engine.ring, r.entry ≠ entry) ∧ (∀ k < entry, ∃ r ∈ s.engine.ring, r.entry = k) ∧
        entry ≤ s.engine.ring.length) ∧
    (¬starts → s.engine.ring ≠ [] →
      ∃ l', exec .engineTakeItem s = .next { s with
          port := { s.port with queue := rest }
          engine := { s.engine with st := .line ⟨n, slot, s.run.active, s.slot, false⟩ }
          store := asked
          before := noted
          link := l' } ∧ Link.Settled s.link l' ∧ asked.mem = s.store.mem) ∧
    (¬starts → s.engine.ring = [] →
      let dealt := { s with
        port := { s.port with queue := rest, slots := s.port.slots.set slot none }
        engine := { s.engine with
          nextLine := s.engine.nextLine + 1
          stride := if s.engine.stride + 1 < s.run.active.stride then s.engine.stride + 1 else 0
          mean := none } }
      let done := dealt.ItemEnd (decide (s.run.limit ≠ 0 ∧ n + 1 = s.run.limit))
      ∃ l', exec .engineTakeItem s = .next { done with store := s.store.settleBanks, link := l' } ∧
        Link.Settled done.link l')

/-- ENGINE_TAKE_ITEM on a LOSS item, which it finishes within the one step (the model's choice, log 16): every record is cut
with no claim on the store; each start line among the item's numbers uses up one integrated number; one LINE_LOST notice
carries the item's fields, the lowest number cut (or the counter) and how many were cut; the next line number advances by
the count. Then a pending context is installed, and the item that holds line N - 1 ends the run with RUN_END (R60, R61, R64,
R86, R87, R97, R98, R99, R102). -/
def Obligations.LossItemCutsTheRing : Prop :=
  ∀ (s : State) (first : Word) (count : Nat) (reasons : Reasons) (rest : List QueueItem), s.held = false →
    s.modeCtl.mode = .steady .active → s.engine.st = .between → s.port.queue = .loss first count reasons :: rest →
    1 ≤ count → 1 ≤ s.run.active.stride → s.engine.stride < s.run.active.stride →
    let starts := fun i : Nat => s.run.next = none ∧ (s.engine.stride + i) % s.run.active.stride = 0 ∧
      (s.run.limit = 0 ∨ (first + BitVec.ofNat 32 i).toNat + s.run.active.depth - 1 < s.run.limit.toNat)
    let used := ((List.range count).filter (fun i => decide (starts i))).length
    let dealt := { s with
      port := { s.port with queue := rest }
      engine := { s.engine with
        nextLine := s.engine.nextLine + BitVec.ofNat 32 count
        stride := (s.engine.stride + count) % s.run.active.stride
        counter := s.engine.counter + BitVec.ofNat 32 used
        ring := []
        mean := none }
      link := s.link.offer (.lineLost first count reasons
        (match s.engine.ring with | r :: _ => r.number | [] => s.engine.counter) (s.engine.ring.length + used)) }
    let done := dealt.ItemEnd (decide (s.run.limit ≠ 0 ∧ (s.run.limit - 1 - first).toNat < count))
    ∃ l', exec .engineTakeItem s = .next { done with store := s.store.settleBanks, link := l' } ∧
      Link.Settled done.link l'

/-- The corrected value of a lane of a GAIN row is min(65535, floor(b g / 4096)) of its lane value and gain (R89). The store
operation on a record's ACCUM row goes by its new count: WRITE ALWAYS of c into the low lane and 0 into the high one for its
first line, ADD of c for the next ones, READ for its D-th (R93, R94). Each record of the
ring gets one such claim on each of the two ACCUM rows of its entry whose lanes lie in the GAIN row, where that row has lanes;
with D = 1 there is none (R29, R93, R94). The mean of the sum read and the D-th corrected value
is their floor((sum + c) / D), and of D values of 16 bits it is one of 16 bits (R94). -/
def Obligations.AddOperationFollowsTheLinesAdded : Prop :=
  (∀ (s : State) (w : LineWork) (t k b : Nat) (gains : List Half) (g : Half),
    (binLanes s.binning w.context.w0 w.context.w1 (s.slotSamples w))[512 * t + k]? = some b → gains[k]? = some g →
    (s.correctedRow w t gains)[k]? = some (min 65535 (b * g.toNat / 4096))) ∧
  (∀ (epoch row depth added : Nat) (m : Memory) (cs : List Nat), 2 ≤ depth → 1 ≤ added → (∀ c ∈ cs, c ≤ 65535) →
    ∀ k c, cs[k]? = some c →
      (added = 1 → Memory.wide epoch (m.perform epoch row (addOp depth added cs)).1 row k = BitVec.ofNat 32 c) ∧
      (2 ≤ added → added < depth →
        Memory.wide epoch (m.perform epoch row (addOp depth added cs)).1 row k
          = Memory.wide epoch m row k + BitVec.ofNat 32 c) ∧
      (added = depth → (m.perform epoch row (addOp depth added cs)).1 = m ∧
        (wideValues (m.perform epoch row (addOp depth added cs)).2.values)[k]? = some (Memory.wide epoch m row k))) ∧
  (∀ (s : State) (w : LineWork) (ring : List RingRecord) (t : Nat) (cs : List Nat),
    (w.context.depth = 1 → s.addClaims w ring t cs = []) ∧
    (2 ≤ w.context.depth → s.addClaims w ring t cs = ring.flatMap (fun r =>
      [(2 * t, cs.take 256), (2 * t + 1, cs.drop 256)].flatMap (fun p =>
        if p.2 = [] then []
        else [⟨s.firstRow .accum w.context.accum + r.entry * (2 * s.slot) + p.1, addOp w.context.depth r.added p.2,
          if w.context.depth ≤ r.added then .complete p.1 p.2 else .accumulate⟩])))) ∧
  ∀ (depth c : Nat) (sum : Word), meanValue depth sum c = (sum.toNat + c) / depth ∧
    (1 ≤ depth → sum.toNat ≤ 65535 * (depth - 1) → c ≤ 65535 → meanValue depth sum c ≤ 65535)

-- The band tester, the tracker

/-- The first condition of R111 that holds gives a lane's class. A mean at a bound is IN_BAND when LOWER is at most UPPER,
a deviation lies from 1 to 65535, and an inverted lane is never IN_BAND unless excluded. -/
def Obligations.LaneClassFollowsTheBand : Prop :=
  ∀ (excluded : Bool) (m lower upper : Nat), m ≤ 65535 → lower ≤ 65535 → upper ≤ 65535 →
    (excluded = true → classify excluded m lower upper = .excluded) ∧
    (excluded = false →
      (upper < m → classify excluded m lower upper = .above (m - upper) ∧ 1 ≤ m - upper ∧ m - upper ≤ 65535) ∧
      (m ≤ upper → m < lower → classify excluded m lower upper = .below (lower - m) ∧ 1 ≤ lower - m ∧ lower - m ≤ 65535) ∧
      (m ≤ upper → lower ≤ m → classify excluded m lower upper = .inBand) ∧
      (lower ≤ upper → (m = upper ∨ m = lower) → classify excluded m lower upper = .inBand) ∧
      (upper < lower → classify excluded m lower upper ≠ .inBand ∧ classify excluded m lower upper ≠ .excluded))

/-- The run list of a line holds the first 128 kept runs in lane order, and overflow is counted only when it is full (R115).
Each is no shorter than the minimum run length and within the line, from an out-of-band lane of its polarity to another; every
lane between is of its polarity or IN_BAND, with at most the gap bridge IN_BAND lanes on end; it carries the number of its
out-of-band lanes, their largest deviation, and the lowest lane that has it (R112, R113, R114). Lanes j to k of one
polarity, with gaps of at most the gap bridge IN_BAND lanes among them and an extent of at least the minimum run length, lie in
one run of that polarity, or in one dropped for want of room, past all the runs listed; with j = k, every out-of-band lane does at a minimum of 1 (R112,
R113, R114). A teach update widens a lane's band to enclose the mean with its margins and never narrows it: UPPER becomes the
greater of its value and min(65535, m + margin above), LOWER the lesser of its value and max(0, m - margin below) (R117). The
teach claims of a line name, in some UPPER and some LOWER row, every lane that is not excluded, with its teach value, and no
other lane (R118). -/
def Obligations.RunListsAreFilteredAndTeachingWidens : Prop :=
  (∀ (c : Context) (means lower upper : List Half),
    let scan := extractRuns c means lower upper
    let lane := fun i => (classifyLine c.excluded 0 means lower upper)[i]?
    let deviation := fun (p : Polarity) i =>
      match p, lane i with
      | .above, some (.above d) | .below, some (.below d) => some d
      | _, _ => none
    let out := fun (p : Polarity) i => (deviation p i).isSome = true
    scan.runs.length ≤ 128 ∧ (0 < scan.overflow → scan.runs.length = 128) ∧
      scan.runs.Pairwise (fun a b => a.last < b.first) ∧
      (∀ r ∈ scan.runs, r.first ≤ r.last ∧ c.minRun ≤ r.last - r.first + 1 ∧ r.last < means.length ∧
        out r.polarity r.first ∧ out r.polarity r.last ∧
        (∀ i, r.first ≤ i → i ≤ r.last → out r.polarity i ∨ lane i = some .inBand) ∧
        (∀ i, r.first ≤ i → i < r.last → ∃ n, i < n ∧ n ≤ i + c.gapBridge + 1 ∧ n ≤ r.last ∧ out r.polarity n) ∧
        r.count = ((List.range (r.last + 1)).filter
          (fun i => decide (r.first ≤ i) && (deviation r.polarity i).isSome)).length ∧
        r.first ≤ r.peakLane ∧ r.peakLane ≤ r.last ∧ deviation r.polarity r.peakLane = some r.peakDev ∧
        ∀ i d, r.first ≤ i → i ≤ r.last → deviation r.polarity i = some d →
          d ≤ r.peakDev ∧ (i < r.peakLane → d < r.peakDev)) ∧
      (∀ (p : Polarity) (j k : Nat), j ≤ k → out p j → out p k → c.minRun ≤ k - j + 1 →
        (∀ i, j < i → i < k → out p i ∨ lane i = some .inBand) →
        (∀ i, j ≤ i → i < k → ∃ n, i < n ∧ n ≤ i + c.gapBridge + 1 ∧ n ≤ k ∧ out p n) →
        (∃ r ∈ scan.runs, r.polarity = p ∧ r.first ≤ j ∧ k ≤ r.last) ∨
          (0 < scan.overflow ∧ ∀ r ∈ scan.runs, r.last < j))) ∧
  (∀ (epoch row lane margin : Nat) (mem : Memory) (m : Half),
    let old := (Memory.lane epoch mem (laneAddr row lane)).toNat
    (Memory.lane epoch (mem.perform epoch row (.write .ifGreater [(lane, upperTeach margin m)])).1 (laneAddr row lane)).toNat
        = max old (min 65535 (m.toNat + margin)) ∧
    (Memory.lane epoch (mem.perform epoch row (.write .ifLess [(lane, lowerTeach margin m)])).1 (laneAddr row lane)).toNat
        = min old (m.toNat - margin)) ∧
  ∀ (s : State) (means : List Half),
    let c := s.lineContext
    (∀ t l m, t < s.slot → l < 512 → means[512 * t + l]? = some m → excludedLane c.excluded (512 * t + l) = false →
      (∃ values, ⟨s.profileRow c .upper + t, .write .ifGreater values, .teach⟩ ∈ s.teachClaims means ∧
        (l, upperTeach c.marginAbove m) ∈ values) ∧
      ∃ values, ⟨s.profileRow c .lower + t, .write .ifLess values, .teach⟩ ∈ s.teachClaims means ∧
        (l, lowerTeach c.marginBelow m) ∈ values) ∧
    ∀ k ∈ s.teachClaims means, k.use = .teach ∧ k.op.lanes ≠ [] ∧ ∃ t < s.slot,
      (∀ l ∈ k.op.lanes, l < 512 ∧ 512 * t + l < means.length ∧ excludedLane c.excluded (512 * t + l) = false) ∧
      ((k.row = s.profileRow c .upper + t ∧ ∃ values, k.op = .write .ifGreater values) ∨
        (k.row = s.profileRow c .lower + t ∧ ∃ values, k.op = .write .ifLess values))

/-- Wrapped order of integrated numbers: a is earlier than b when (b - a) mod 2^32 lies from 1 to 2^31 - 1, a is later
than b when b is earlier than a, and a ≤ b when they are equal or a is earlier. -/
def Obligations.IntegratedNumbersCompareInWrappedOrder : Prop :=
  ∀ a b : Word,
    (earlier a b = true ↔
      1 ≤ (b.toNat + 2 ^ 32 - a.toNat) % 2 ^ 32 ∧ (b.toNat + 2 ^ 32 - a.toNat) % 2 ^ 32 ≤ 2 ^ 31 - 1) ∧
    (notLater a b = true ↔ a = b ∨ earlier a b = true) ∧ (earlier a b = true → earlier b a = false)

/-- A line with no runs and no overflow takes the table through aging alone: every record's idle goes up by 1, and the
records whose idle then exceeds the gap lines close; none is created (R130, R137, R139). On an empty table, with a max span
above 1, a single run opens a record: polarity, lanes, tail, area and peak of the run, first and last line the line itself,
nothing else set; the next id and the creation counter advance (R128, R129, R134, R135). Runs that match no record open
records while the table holds fewer than 64 and are untracked beyond that (R135, R139). A run matches a record of its
polarity whose tail it overlaps within the gap bridge, and extends it; one that reaches the max span closes with SPLIT and
its continuation takes its place (R131, R134, R136). Of two records that one run matches, the earlier absorbs the later
(R132, R133). A split that finds 64 records closes and
reports its record, makes no continuation and counts as untracked (R136, R139). Overflow changes nothing but the flag
OVERFLOW_LINE, which every record that takes part in the line receives, those that close on it too (R140). -/
def Obligations.TableAgesAndARunOpensARecord : Prop :=
  (∀ (c : Context) (i : Word) (t : Tracker),
    let aged := t.table.map (fun d => { d with idle := d.idle + 1 })
    (trackLine c i [] 0 t).table = aged.filter (fun d => d.idle ≤ c.gapLines) ∧
      (trackLine c i [] 0 t).closed = aged.filter (fun d => c.gapLines < d.idle) ∧
      (trackLine c i [] 0 t).nextId = t.nextId ∧ (trackLine c i [] 0 t).created = t.created ∧
      (trackLine c i [] 0 t).untracked = 0) ∧
  (∀ (c : Context) (i : Word) (r : LaneRun) (t : Tracker), t.table = [] → 2 ≤ c.maxSpan → 1 ≤ r.peakDev →
    r.count < 2 ^ 32 →
    (trackLine c i [r] 0 t).table =
      [{ id := t.nextId, seq := t.created, polarity := r.polarity, first := some i, last := some i, laneMin := r.first,
         laneMax := r.last, tailMin := r.first, tailMax := r.last, peakDev := r.peakDev, peakLane := some r.peakLane,
         peakLine := some i, area := r.count, merged := 0, idle := 0, empty := false,
         flags := ⟨false, false, false, false, false, false, false⟩ }] ∧
      (trackLine c i [r] 0 t).closed = [] ∧ (trackLine c i [r] 0 t).created = t.created + 1 ∧
      (trackLine c i [r] 0 t).nextId = (if t.nextId < 65535 then t.nextId + 1 else 1) ∧
      (trackLine c i [r] 0 t).untracked = 0) ∧
  (∀ (c : Context) (i : Word) (runs : List LaneRun) (overflow : Nat) (t : Tracker), 0 < overflow →
    let marked := List.map (fun d : Defect => { d with flags := { d.flags with overflowLine := true } })
    let plain := trackLine c i runs 0 t
    let l := trackLine c i runs overflow t
    l.table = marked plain.table ∧ l.closed = marked plain.closed ∧ l.nextId = plain.nextId ∧
      l.created = plain.created ∧ l.untracked = plain.untracked) ∧
  ∀ (c : Context) (i : Word),
    let matching := fun (r : LaneRun) (d : Defect) =>
      r.polarity = d.polarity ∧ r.first ≤ d.tailMax + c.gapBridge ∧ d.tailMin ≤ r.last + c.gapBridge
    (∀ (runs : List LaneRun) (t : Tracker), 2 ≤ c.maxSpan → t.table.length ≤ 64 →
      (∀ r ∈ runs, ∀ d ∈ t.table, ¬matching r d) →
      let opened := min runs.length (64 - t.table.length)
      let aged := t.table.map (fun d => { d with idle := d.idle + 1 })
      let l := trackLine c i runs 0 t
      l.untracked = runs.length - opened ∧ l.created = t.created + BitVec.ofNat 32 opened ∧
        l.closed = aged.filter (fun d => c.gapLines < d.idle) ∧
        ∃ new, l.table = aged.filter (fun d => d.idle ≤ c.gapLines) ++ new ∧
          new.map (fun d => (d.polarity, d.laneMin, d.laneMax, d.first))
            = (runs.take opened).map (fun r => (r.polarity, r.first, r.last, some i))) ∧
    (∀ (r : LaneRun) (d : Defect) (f : Word) (t : Tracker), t.table = [d] → d.empty = false → d.first = some f →
      matching r d →
      let extended := { d with
        last := some i
        laneMin := min d.laneMin r.first
        laneMax := max d.laneMax r.last
        tailMin := r.first
        tailMax := r.last
        peakDev := max d.peakDev r.peakDev
        peakLane := if d.peakDev < r.peakDev then some r.peakLane else d.peakLane
        peakLine := if d.peakDev < r.peakDev then some i else d.peakLine
        area := min (2 ^ 32 - 1) (d.area + r.count)
        idle := 0 }
      let l := trackLine c i [r] 0 t
      ((i - f + 1).toNat < c.maxSpan →
        l.table = [extended] ∧ l.closed = [] ∧ l.created = t.created ∧ l.untracked = 0) ∧
      (c.maxSpan ≤ (i - f + 1).toNat →
        l.closed = [{ extended with flags := { d.flags with split := true } }] ∧
          l.created = t.created + 1 ∧ l.untracked = 0 ∧
          ∃ next, l.table = [next] ∧ next.id ≠ d.id ∧ next.seq = t.created ∧ next.polarity = d.polarity ∧
            next.empty = true ∧ next.first = none ∧ next.area = 0 ∧ next.idle = 0 ∧ next.merged = 0 ∧
            (next.laneMin, next.laneMax, next.tailMin, next.tailMax)
              = (extended.laneMin, extended.laneMax, r.first, r.last) ∧
            next.flags = { DefectFlags.clear with continuation := true })) ∧
    (∀ (r : LaneRun) (before after : List Defect) (d : Defect) (f : Word) (t : Tracker),
      t.table = before ++ d :: after → t.table.length = 64 → d.first = some f → matching r d →
      (∀ e ∈ before ++ after, ¬matching r e) → c.maxSpan ≤ (i - f + 1).toNat →
      let aged := List.map (fun e : Defect => { e with idle := e.idle + 1 })
      let l := trackLine c i [r] 0 t
      l.untracked = 1 ∧ l.created = t.created ∧ l.nextId = t.nextId ∧
        l.table = (aged (before ++ after)).filter (fun e => e.idle ≤ c.gapLines) ∧
        ∃ closed, l.closed = (aged before).filter (fun e => c.gapLines < e.idle) ++ closed
            :: (aged after).filter (fun e => c.gapLines < e.idle) ∧
          closed.id = d.id ∧ closed.last = some i ∧ closed.empty = false ∧ closed.flags = { d.flags with split := true }) ∧
    ∀ (r : LaneRun) (a b : Defect) (f g : Word) (t : Tracker), t.table = [a, b] → a.empty = false → b.empty = false →
      a.first = some f → b.first = some g → matching r a → matching r b →
      let from' := if earlier g f then g else f
      (i - from' + 1).toNat < c.maxSpan →
      let l := trackLine c i [r] 0 t
      l.closed = [] ∧ l.created = t.created ∧ l.untracked = 0 ∧
        ∃ d, l.table = [d] ∧ d.id = a.id ∧ d.seq = a.seq ∧ d.polarity = a.polarity ∧ d.first = some from' ∧
          d.last = some i ∧ d.laneMin = min (min a.laneMin b.laneMin) r.first ∧
          d.laneMax = max (max a.laneMax b.laneMax) r.last ∧ d.tailMin = r.first ∧ d.tailMax = r.last ∧
          d.peakDev = max (max a.peakDev b.peakDev) r.peakDev ∧
          d.area = min (2 ^ 32 - 1) (min (2 ^ 32 - 1) (a.area + b.area) + r.count) ∧
          d.merged = min 255 (a.merged + 1) ∧ d.flags.merged = true ∧
          d.flags.overflowLine = (a.flags.overflowLine || b.flags.overflowLine)

/-- TRACKER_COMMIT: the line's result is committed to the table, one DEFECT notice is offered for every record that is
not empty and closed on the line, then TRACK_FULL if any run was untracked, then RUN_OVERFLOW if runs were dropped; the
report count goes up by the DEFECT notices; tracker and band tester are IDLE (R116, R138, R139, R141). That the whole result
is worked out and every notice offered in this one step is the model's reading (DEDUCED, log 28); a queued RUN_OVERFLOW
is noted for a STOP (log 31). The test result goes to
the history writer: held in STORING, recorded with the line in FILING, and of no use in IDLE (R116, R152). With the history
writer IDLE then and none of the item's accesses left, the LINE item is finished: its slot is freed, the next line number and
the stride position advance, and the install or the run's end follows (R61, R64, R81, R86, R87). -/
def Obligations.TrackerCommitReportsTheLine : Prop :=
  ∀ (s : State) (n : Word) (runs : List LaneRun), s.held = false → s.tracker.st = .working n runs →
    let result := trackLine s.lineContext n runs s.tester.overflow s.tracker
    let defects := (result.closed.filter (fun d => !d.empty)).map (fun d => Notice.defect d.report)
    let verdict : TestResult := ⟨s.tester.runs.length, decide (0 < s.tester.overflow), false⟩
    let filled := s.link.offerAll (defects ++ (if 0 < result.untracked then [.trackFull n result.untracked] else []))
    let finds := if filled.drops = 0 then filled.notices.length < 32 else filled.notices.length + 2 ≤ 32
    let committed := fun h : History => { s with
      before := { s.before with
        warned := if 0 < s.tester.overflow ∧ finds then some (n, s.tester.overflow) else none }
      tracker := { s.tracker with
        st := .idle
        table := result.table
        nextId := result.nextId
        created := result.created
        reported := s.tracker.reported + BitVec.ofNat 32 defects.length }
      tester := { s.tester with st := .idle, runs := [], overflow := 0 }
      history := h
      link := s.link.offerAll (defects
        ++ (if 0 < result.untracked then [.trackFull n result.untracked] else [])
        ++ (if 0 < s.tester.overflow then [.runOverflow n s.tester.overflow] else [])) }
    let answers := fun v : State =>
      ∃ l', exec .trackerCommit s = .next { v with link := l' } ∧ Link.Settled v.link l'
    (∀ line left, s.history.st = .storing line left → answers (committed { s.history with result := some verdict })) ∧
    (∀ line, s.history.st = .filing line → answers (committed (s.history.Recorded line verdict)).LineChecked) ∧
    (s.history.st = .idle → answers (committed s.history).LineChecked) ∧
    ∀ w, s.history.st = .idle → s.engine.st = .line w → w.outstanding = 0 → answers ((committed s.history).LineEnd w)

-- The requests of the link and the mode controller

/-- A request that fails a check common to all has no effect but its reply, which carries the first failing status:
BAD_LENGTH, STARTING, LEVEL in this order; the LEVEL reply carries the link level too and the MODE reply the mode
(R182, R205, section 12.4). The head request is not accepted, and stays at the head, while the executor is EXECUTING, while a
mode change holds it, and while no reply entry is free (R182, R186). A command that accepts a request then, or one of another
kind than the head's, or one with the queue empty, changes nothing but for the settling of the link (the model's choice, log
2). -/
def Obligations.RefusedRequestHasNoOtherEffect : Prop :=
  (∀ (c : Instr) (kind : Byte) (s : State) (r : Request) (rest : List Request), requestKind c = some kind →
    s.Takes kind r rest →
    let status : Option Byte :=
      if lengthOk kind r.payload = false then some 0x02
      else if s.modeCtl.mode = .starting then some 0x0B
      else if serviceKind kind = true ∧ s.link.level = .operator then some 0x0A
      else none
    ∀ code, status = some code →
      ∃ l', exec c s = .next { s with link := l' } ∧
        s.link.Answered l' r rest
          (if kind = 0x03 then [code, s.link.level.code]
            else if kind = 0x05 then [code, s.modeCtl.mode.code]
            else [code])) ∧
  ∀ (c : Instr) (kind : Byte) (s : State), requestKind c = some kind → s.held = false →
    (s.link.inbound = [] ∨ (∃ r rest, s.link.inbound = r :: rest ∧ r.kind ≠ kind) ∨ s.link.executor = .executing ∨
      (s.modeCtl.mode.isChanging = true ∧ ¬(kind = 0x01 ∨ kind = 0x02 ∨ kind = 0x03 ∨ kind = 0x09)) ∨
      8 ≤ s.link.replies.length + s.link.reserved.length) →
    ∃ l', exec c s = .next { s with link := l' } ∧ Link.Settled s.link l'

/-- PING answers OK, the part revision and the payload unchanged; STATUS the 30 bytes of section 12.4 after OK; REGIONS
the geometry and the region records; GET the active context, the pending one, the run state, the stack count, phase line,
limit and trigger. None of them changes any other state (R37, R51, R189, R190). -/
def Obligations.ReportsAnswerAndChangeNothing : Prop :=
  ∀ (s : State) (r : Request) (rest : List Request),
    (s.Accepts 0x01 r rest →
      ∃ l', exec .ping s = .next { s with link := l' } ∧
        s.link.Answered l' r rest ([0x00, Config.partRevision] ++ r.payload)) ∧
    (s.Accepts 0x02 r rest →
      ∃ l', exec .status s = .next { s with link := l' } ∧
        s.link.Answered l' r rest
          ([0x00, s.modeCtl.mode.code, s.modeCtl.mode.sourceCode, s.modeCtl.mode.targetCode, s.run.st.code,
            s.link.level.code,
            BitVec.ofNat 8 ((if s.geometry.isSome then 1 else 0) + (if s.history.hold then 2 else 0)
              + (if s.run.next.isSome then 4 else 0) + (if s.access.clear.isSome then 8 else 0)),
            BitVec.ofNat 8 s.store.debt]
            ++ le32 s.port.counter.toNat ++ le32 s.engine.counter.toNat
            ++ [BitVec.ofNat 8 s.engine.ring.length, BitVec.ofNat 8 (lineItems s.port.queue),
              BitVec.ofNat 8 (lossItems s.port.queue), BitVec.ofNat 8 s.tracker.table.length,
              BitVec.ofNat 8 s.link.notices.length]
            ++ le16 s.link.drops ++ le32 s.history.unstored ++ le32 s.tester.teachCount.toNat)) ∧
    (s.Accepts 0x10 r rest →
      ∃ l', exec .get s = .next { s with link := l' } ∧
        s.link.Answered l' r rest
          ([0x00] ++ s.run.active.bytes
            ++ (match s.run.next with
              | none => List.replicate 36 0x00
              | some p => [0x01] ++ p.context.bytes)
            ++ [s.run.st.code, BitVec.ofNat 8 s.run.stack.length] ++ le32 s.run.phase.toNat ++ le32 s.run.limit.toNat
            ++ [s.run.trigger.code])) ∧
    (s.Accepts 0x09 r rest →
      ∃ l', exec .regions s = .next { s with link := l' } ∧
        s.link.Answered l' r rest
          ([0x00]
            ++ (match s.geometry with
              | none => List.replicate 10 0x00
              | some g => [0x01] ++ le16 g.pixels
                  ++ [g.binning.code, g.sampleEdge.code, g.lvalLevel.code, g.trigEdge.code] ++ le16 s.lanes
                  ++ [BitVec.ofNat 8 s.slot])
            ++ [BitVec.ofNat 8 s.regions.length]
            ++ s.regions.flatMap (fun p =>
              [BitVec.ofNat 8 p.1, p.2.kind.code] ++ le16 p.2.first ++ le16 p.2.rows
                ++ [p.2.writeLevel.code, BitVec.ofNat 8 (p.2.rowsPerEntry s.slot)] ++ le16 (p.2.entries s.slot)
                ++ [BitVec.ofNat 8 ((if p.2.loaded then 1 else 0) + (if s.bound p.1 then 2 else 0)
                  + (if s.clearTarget p.1 then 4 else 0))])))

/-- LEVEL: naming OPERATOR sets the level to OPERATOR; naming SERVICE sets it to SERVICE when SVC is high at acceptance,
leaves it when it is in force already, and is refused with LEVEL when SVC is low; any other code is refused with
BAD_FIELD. The reply carries the status and the level after the request. Nothing else changes but what the model holds of
pin SVC (log 13). SVC_FALL at SERVICE: the level becomes OPERATOR and LEVEL_DROP is offered; at OPERATOR nothing but the
pin changes (R188). -/
def Obligations.LevelFollowsTheRequestAndThePin : Prop :=
  (∀ (s : State) (risen : Bool) (r : Request) (rest : List Request), s.Accepts 0x03 r rest →
    let code := u8At r.payload 0
    let high := s.svc || risen
    let level : Level :=
      if code = 0 then .operator
      else if code = 1 ∧ high = true then .service
      else s.link.level
    let status : Byte :=
      if 1 < code then 0x03
      else if code = 1 ∧ s.link.level = .operator ∧ high = false then 0x0A
      else 0x00
    ∃ l', exec (.level risen) s = .next { s with svc := high, link := l' } ∧
      Link.Answered { s.link with level := level } l' r rest [status, level.code]) ∧
  ∀ s : State, s.held = false →
    ∃ l', exec .svcFall s = .next { s with svc := false, link := l' } ∧
      (s.link.level = .service → Link.Settled (({ s.link with level := .operator } : Link).offer .levelDrop) l') ∧
      (s.link.level = .operator → Link.Settled s.link l')

/-- RESTART in RETAIN is refused with STATE and changes nothing else. In QUIET or ACTIVE it returns every block but the
bank controller and the receiver to its RESTART values: the run controller, engine, band tester, tracker, history writer
and access unit to their cold values, the port to OFF with its counter at 0; geometry, mode, refresh state and store
contents stay, every waiting claim is withdrawn, the pass-over count is 0 where the waiting ACCESS claim was, a granted access
goes on and its result is discarded, and an aborted CLEAR's PROFILE target loses its loaded flag. Bank states, refresh work,
tick timer and an ordered self-refresh entry stay. The link's queues are emptied, a frame in transmission goes on, the level
is OPERATOR, and the reply, with the run-ended and CLEAR-aborted flags, is the only one queued (R13, R16, R22, R42, R191,
R202). -/
def Obligations.RestartReturnsTheBlocksToTheirRestartValues : Prop :=
  ∀ (s : State) (r : Request) (rest : List Request), s.Accepts 0x04 r rest →
    (s.modeCtl.mode = .steady .retain →
      ∃ l', exec .restart s = .next { s with link := l' } ∧ s.link.Answered l' r rest [0x09]) ∧
    (s.modeCtl.mode ≠ .steady .retain → ∃ t, exec .restart s = .next t ∧
      t.held = false ∧ t.svc = s.svc ∧ t.pending = s.pending ∧ t.geometry = s.geometry ∧ t.modeCtl = s.modeCtl ∧
      t.run = Run.cold ∧ t.port = { Port.cold with lval := s.port.lval } ∧ t.engine = Engine.cold ∧
      t.tester = Tester.cold ∧ t.tracker = Tracker.cold ∧ t.history = History.cold ∧ t.access = Access.cold ∧
      t.before = s.before ∧
      (∀ i, t.region i = (s.region i).map (fun q =>
        if s.clearTarget i = true ∧ q.kind = .profile then { q with loaded := false } else q)) ∧
      t.store.mem = s.store.mem ∧ t.store.debt = s.store.debt ∧ t.store.pointer = s.store.pointer ∧
      t.store.array = s.store.array ∧ t.store.urgent = s.store.urgent ∧ t.store.noClaimWaits = true ∧
      t.store = { s.store with
        banks := t.store.banks, engineReady := [], testerReady := [], historyReady := [], accessReady := none } ∧
      (∀ i, t.store.banks.get i = { s.store.banks.get i with
        granted := (s.store.banks.get i).granted.map (fun g => { g with use := .discarded g.use.claimant })
        engineClaim := none
        accessClaim := none
        passOver := if (s.store.banks.get i).accessClaim = none then (s.store.banks.get i).passOver else 0 }) ∧
      (∀ frame flushed,
        (s.link.transmitter = .sendingReply frame flushed → t.link.transmitter = .sendingReply frame true) ∧
        (s.link.transmitter = .sendingNotice frame flushed → t.link.transmitter = .sendingNotice frame true)) ∧
      t.link.receiver = s.link.receiver ∧ t.link.rate = s.link.rate ∧ t.link.inbound = [] ∧ t.link.holdOut = false ∧
      t.link.reserved = [] ∧ t.link.notices = [] ∧ t.link.drops = 0 ∧ t.link.level = .operator ∧
      t.link.replies = [⟨0x84, r.tag, [0x00, s.modeCtl.mode.code,
        BitVec.ofNat 8 ((if s.run.st = .stopped then 0 else 1) + (if s.access.clear.isSome then 2 else 0))]⟩])

/-- MODE: a target that is no mode is refused with BAD_FIELD, the mode in force is answered OK at once, ACTIVE to RETAIN
and back is refused with TRANSITION, ACTIVE to QUIET with a run not STOPPED with STATE, QUIET to RETAIN with a CLEAR in
flight with BUSY; every such reply carries the mode and nothing else changes. Any other change starts: the mode is
CHANGING, the reply is deferred, and the store work of the pair begins: the exit burst of 64 refreshes, or self-refresh entry,
made at once with the array READY and all banks IDLE and otherwise ordered, the rest of the store as it was (R19, R20, R195,
R196, R198). -/
def Obligations.ModeIsRefusedAnsweredOrStarted : Prop :=
  ∀ (s : State) (r : Request) (rest : List Request) (source : Steady), s.Accepts 0x05 r rest →
    s.modeCtl.mode = .steady source →
    let target := u8At r.payload 0
    let status : Option Byte :=
      if ¬(1 ≤ target ∧ target ≤ 3) then some 0x03
      else if target = source.code.toNat then some 0x00
      else if (source = .active ∧ target = 3) ∨ (source = .retain ∧ target = 2) then some 0x16
      else if source = .active ∧ target = 1 ∧ s.run.st ≠ .stopped then some 0x09
      else if source = .quiet ∧ target = 3 ∧ s.access.clear.isSome = true then some 0x08
      else none
    (∀ code, status = some code →
      ∃ l', exec .mode s = .next { s with link := l' } ∧ s.link.Answered l' r rest [code, source.code]) ∧
    (∀ goal : Steady, status = none → goal.code.toNat = target →
      ∃ l' st', exec .mode s = .next { s with
          modeCtl := ⟨.changing source goal, some ⟨r.kind, r.tag⟩⟩, store := st', link := l' } ∧
        s.link.Deferred l' r rest ∧ st'.mem = s.store.mem ∧
        ((source = .active ∨ goal = .active) → st' = s.store) ∧
        (source = .retain → st' = { s.store with array := .refreshing, work := .burst 64 }) ∧
        (goal = .retain → (s.store.array = .ready ∧ s.store.allIdle = true) → st' = { s.store with
          array := .selfRefresh, work := .none, debt := 0, urgent := false, entryOrdered := false }) ∧
        (goal = .retain → ¬(s.store.array = .ready ∧ s.store.allIdle = true) →
          st' = { s.store with entryOrdered := true }))

/-- MODE_CHANGE_COMPLETE: the mode becomes the target, the deferred reply is queued into its entry with OK and the new
mode, and the port comes up in ACTIVE with no sampling edge taken; nothing else changes (R70, R196, R197). -/
def Obligations.ModeChangeCompletes : Prop :=
  ∀ (s : State) (source target : Steady) (t : Ticket), s.held = false → s.modeCtl = ⟨.changing source target, some t⟩ →
    (target = .retain → s.store.array = .selfRefresh) → (source = .retain → s.store.array = .ready ∧ s.store.work = .none) →
    ∃ l', exec .modeChangeComplete s = .next { s with
        modeCtl := ⟨.steady target, none⟩
        port := if target = .active then { s.port with lval := none } else s.port
        link := l' } ∧
      Link.Settled { s.link with
        reserved := s.link.reserved.erase t
        replies := s.link.replies ++ [⟨t.kind + 0x80, t.tag, [0x00, target.code]⟩] } l'

-- The requests of the region manager

/-- GEOMETRY with a field outside its list is refused with BAD_FIELD. With every field in its list, while the geometry is
unfixed, it fixes it and answers Q and s; once it is fixed, GEOMETRY is refused with FIXED (R23, R24, R25). Nothing else
changes. -/
def Obligations.GeometryIsFixedOnce : Prop :=
  ∀ (s : State) (r : Request) (rest : List Request), s.Accepts 0x06 r rest →
    ((u16At r.payload 0 < 256 ∨ 4096 < u16At r.payload 0 ∨ u16At r.payload 0 % 256 ≠ 0 ∨ 1 < u8At r.payload 2 ∨
        1 < u8At r.payload 3 ∨ 1 < u8At r.payload 4 ∨ 1 < u8At r.payload 5) →
      ∃ l', exec .geometry s = .next { s with link := l' } ∧ s.link.Answered l' r rest [0x03]) ∧
    ∀ g : Geometry,
      r.payload = le16 g.pixels ++ [g.binning.code, g.sampleEdge.code, g.lvalLevel.code, g.trigEdge.code] →
      256 ≤ g.pixels → g.pixels ≤ 4096 → g.pixels % 256 = 0 →
      let lanes := if g.binning = .pair then g.pixels / 2 else g.pixels
      (s.geometry = none →
        ∃ l', exec .geometry s = .next { s with geometry := some g, link := l' } ∧
          s.link.Answered l' r rest ([0x00] ++ le16 lanes ++ [BitVec.ofNat 8 ((lanes + 511) / 512)])) ∧
      (s.geometry ≠ none →
        ∃ l', exec .geometry s = .next { s with link := l' } ∧ s.link.Answered l' r rest [0x0D])

/-- DEFINE: the checks of R34 in their order give the refusal; a DEFINE that passes them writes the region record, a
PROFILE's loaded flag clear, and answers rows per entry and entry count; nothing else changes (R34, R35). -/
def Obligations.DefineWritesTheRecordOrIsRefusedInOrder : Prop :=
  ∀ (s : State) (r : Request) (rest : List Request), s.Accepts 0x07 r rest →
    (3 < u8At r.payload 1 ∨ 1 < u8At r.payload 6 →
      ∃ l', exec .define s = .next { s with link := l' } ∧
        s.link.Answered l' r rest [if s.modeCtl.mode = .steady .retain then 0x09 else 0x03]) ∧
    ∀ (kind : RegionKind) (level : Level), u8At r.payload 1 = kind.code.toNat → u8At r.payload 6 = level.code.toNat →
      let index := u8At r.payload 0
      let first := u16At r.payload 2
      let rows := u16At r.payload 4
      let per := (match kind with | .profile => 3 | .accum => 2 | .history => 1 | .scratch => 1) * s.slot
      let most := match kind with | .profile => 32 | .accum => 16 | .history => 1024 | .scratch => 8192
      let status : Option Byte :=
        if s.modeCtl.mode = .steady .retain then some 0x09
        else if 15 < index ∨ rows = 0 then some 0x03
        else if s.geometry = none then some 0x0C
        else if (s.region index).isSome then some 0x0E
        else if 8191 < first ∨ 8191 < first + rows - 1 then some 0x10
        else if rows % per ≠ 0 ∨ ¬(1 ≤ rows / per ∧ rows / per ≤ most) then some 0x10
        else if ∃ p ∈ s.regions, first < p.2.first + p.2.rows ∧ p.2.first < first + rows then some 0x0F
        else none
      (∀ code, status = some code →
        ∃ l', exec .define s = .next { s with link := l' } ∧ s.link.Answered l' r rest [code]) ∧
      (status = none →
        ∃ l', exec .define s = .next { s with
            regions := Table.put s.regions index ⟨kind, first, rows, level, false⟩, link := l' } ∧
          s.link.Answered l' r rest ([0x00, BitVec.ofNat 8 per] ++ le16 (rows / per)))

/-- REMOVE: the checks of R36 in their order give the refusal; a REMOVE that passes them makes the entry unused, drops the
selection if it was the region, and says so in its reply; nothing else changes (R36, R172). -/
def Obligations.RemoveFreesTheEntryOrIsRefusedInOrder : Prop :=
  ∀ (s : State) (r : Request) (rest : List Request), s.Accepts 0x08 r rest →
    let index := u8At r.payload 0
    let bound := s.run.st ≠ .stopped ∧ (s.run.active.names index = true ∨
      ∃ p, s.run.next = some p ∧ p.context.names index = true)
    let selected := ∃ k, s.access.selection = some k ∧ k.region = index
    let status : Option Byte :=
      if s.modeCtl.mode = .steady .retain then some 0x09
      else if 15 < index then some 0x03
      else if s.region index = none then some 0x0E
      else if bound then some 0x11
      else if ∃ w, s.access.clear = some w ∧ w.region = index then some 0x08
      else none
    (∀ code, status = some code →
      ∃ l', exec .remove s = .next { s with link := l' } ∧ s.link.Answered l' r rest [code]) ∧
    (status = none →
      ∃ l', exec .remove s = .next { s with
          regions := Table.drop s.regions index
          access := { s.access with selection := if selected then none else s.access.selection }
          link := l' } ∧
        s.link.Answered l' r rest [0x00, if selected then 0x01 else 0x00])

/-- CLEAR: the checks of R38 in their order give the refusal. A CLEAR that passes them records the CLEAR in flight, from
the first store row of its first entry to the last of its last entry, its reply deferred, and presents the claim for that
first row, WRITE ALWAYS of the first fill value into the lanes of the line there; no content of the store, no region record
and no other block changes at acceptance (R28, R38, R39). The claim for each of its rows, row t of the plane at a place of an
entry, is WRITE ALWAYS of the fill of that plane, the first, second and third for GAIN, LOWER and UPPER, the first for a single
plane, into the storage lanes that hold lanes of the line in row t, at most 512 and fewer in a partly filled last row, and no
others (R27, R28, R38, R39). -/
def Obligations.ClearStartsOrIsRefusedInOrder : Prop :=
  ∀ (s : State) (r : Request) (rest : List Request), s.Accepts 0x0A r rest →
    let index := u8At r.payload 0
    let fromEntry := u16At r.payload 1
    let toEntry := u16At r.payload 3
    let early : Option Byte :=
      if s.modeCtl.mode = .steady .retain then some 0x09
      else if s.access.clear.isSome then some 0x08
      else if 15 < index ∨ 8191 < fromEntry ∨ 8191 < toEntry ∨ toEntry < fromEntry then some 0x03
      else if s.region index = none then some 0x0E
      else none
    (∀ code, early = some code →
      ∃ l', exec .clear s = .next { s with link := l' } ∧ s.link.Answered l' r rest [code]) ∧
    (∀ q, early = none → s.region index = some q →
      let late : Option Byte :=
        if q.kind = .accum then some 0x0E
        else if q.entries s.slot ≤ toEntry then some 0x03
        else if s.bound index then some 0x11
        else if q.writeLevel = .service ∧ s.link.level = .operator then some 0x0A
        else none
      let work : ClearWork :=
        { region := index, firstEntry := fromEntry, lastEntry := toEntry,
          fill0 := BitVec.ofNat 16 (u16At r.payload 5), fill1 := BitVec.ofNat 16 (u16At r.payload 7),
          fill2 := BitVec.ofNat 16 (u16At r.payload 9),
          nextRow := q.first + fromEntry * q.rowsPerEntry s.slot,
          endRow := q.first + (toEntry + 1) * q.rowsPerEntry s.slot - 1, ticket := ⟨r.kind, r.tag⟩ }
      (∀ code, late = some code →
        ∃ l', exec .clear s = .next { s with link := l' } ∧ s.link.Answered l' r rest [code]) ∧
      (late = none →
        let asked := (s.store.presentAccess (s.clearClaim work)).settleBanks
        ∃ l', exec .clear s = .next { s with
            access := { s.access with clear := some work }
            store := asked
            link := l' } ∧
          s.link.Deferred l' r rest ∧ asked.mem = s.store.mem ∧
          s.clearClaim work = ⟨work.nextRow,
            .write .always ((List.range (min 512 s.lanes)).map (fun l => (l, work.fill0))), .clearRow⟩ ∧
          ∀ row, work.nextRow ≤ row → row ≤ work.endRow →
            ∃ entry place t, fromEntry ≤ entry ∧ entry ≤ toEntry ∧ place < (if q.kind = .profile then 3 else 1) ∧
              t < s.slot ∧ row = q.first + entry * q.rowsPerEntry s.slot + place * s.slot + t ∧
              s.clearClaim { work with nextRow := row } = ⟨row,
                .write .always ((List.range (min 512 (s.lanes - 512 * t))).map (fun l =>
                  (l, if place = 0 then work.fill0 else if place = 1 then work.fill1 else work.fill2))), .clearRow⟩))

-- The requests of the access unit

/-- SELECT: the checks of R161 in their order give the refusal; a SELECT that passes them makes the region the selection,
with the whole plane as the window and the cursor at its start, and answers as section 12.4 lays out. WINDOW: the checks
of R162 in their order give the refusal; a WINDOW that passes them replaces the window and places the cursor at its
start. Neither changes anything else. -/
def Obligations.SelectAndWindowSetTheSelection : Prop :=
  (∀ (s : State) (r : Request) (rest : List Request), s.Accepts 0x0B r rest →
    let index := u8At r.payload 0
    let code := u8At r.payload 1
    (∀ status : Byte,
      (if s.modeCtl.mode = .steady .retain then some (0x09 : Byte)
        else if 15 < index ∨ 3 < code then some 0x03
        else if ∀ q, s.region index = some q → ¬(q.kind = .profile ↔ code ≤ 2) then some 0x0E
        else none) = some status →
      ∃ l', exec .select s = .next { s with link := l' } ∧ s.link.Answered l' r rest [status]) ∧
    ∀ (q : Region) (plane : Plane), s.modeCtl.mode ≠ .steady .retain → index ≤ 15 → code = plane.code.toNat →
      s.region index = some q → (q.kind = .profile ↔ plane ≠ .single) →
      let k : Selection := ⟨index, plane, ⟨0, q.entries s.slot - 1, 0, s.lanes - 1⟩, ⟨0, 0⟩⟩
      ∃ l', exec .select s = .next { s with access := { s.access with selection := some k }, link := l' } ∧
        s.link.Answered l' r rest
          ([0x00, BitVec.ofNat 8 index, q.kind.code, plane.code] ++ le16 (q.entries s.slot) ++ le16 s.lanes
            ++ [if q.kind = .accum then 32 else 16] ++ k.window.bytes ++ k.cursor.bytes)) ∧
  (∀ (s : State) (r : Request) (rest : List Request), s.Accepts 0x0C r rest →
    let w : Window := ⟨u16At r.payload 0, u16At r.payload 2, u16At r.payload 4, u16At r.payload 6⟩
    let early : Option Byte :=
      if s.modeCtl.mode = .steady .retain then some 0x09
      else if 8191 < w.firstEntry ∨ 8191 < w.lastEntry ∨ 4095 < w.firstLane ∨ 4095 < w.lastLane ∨
        w.lastEntry < w.firstEntry ∨ w.lastLane < w.firstLane then some 0x03
      else if s.access.selection = none then some 0x15
      else none
    (∀ status, early = some status →
      ∃ l', exec .window s = .next { s with link := l' } ∧ s.link.Answered l' r rest [status]) ∧
    ∀ (k : Selection) (q : Region), early = none → s.access.selection = some k → s.region k.region = some q →
      (q.entries s.slot ≤ w.lastEntry ∨ s.lanes ≤ w.lastLane →
        ∃ l', exec .window s = .next { s with link := l' } ∧ s.link.Answered l' r rest [0x03]) ∧
      (w.lastEntry < q.entries s.slot → w.lastLane < s.lanes →
        ∃ l', exec .window s = .next { s with
            access := { s.access with selection := some { k with window := w, cursor := ⟨w.firstEntry, w.firstLane⟩ } }
            link := l' } ∧
          s.link.Answered l' r rest ([0x00] ++ w.bytes ++ le16 w.firstEntry ++ le16 w.firstLane)))

/-- The walk of k visits has k positions, the first at the cursor; each next one is a lane further, at the window's first
lane of the next entry, or at the window start, which is a wrap (R163). Its segments are the walk in order, none empty; within
one each visit is the next lane of the same entry and plane row, and between two it is not, so each is maximal (R164). -/
def Obligations.WalkVisitsTheWindowInOrder : Prop :=
  (∀ (w : Window) (count : Nat) (c : Cursor),
    let walk := w.walk count c
    let next := fun p : Cursor =>
      if p.lane < w.lastLane then (⟨p.entry, p.lane + 1⟩ : Cursor)
      else if p.entry < w.lastEntry then ⟨p.entry + 1, w.firstLane⟩
      else ⟨w.firstEntry, w.firstLane⟩
    walk.visits.length = count ∧
      (∀ i p, walk.visits[i]? = some p → p = next^[i] c) ∧ walk.cursor = next^[count] c ∧
      (walk.wrapped = true ↔ ∃ p ∈ walk.visits, w.lastLane ≤ p.lane ∧ w.lastEntry ≤ p.entry)) ∧
  ∀ (α : Type) (unit : Nat) (visits : List (Cursor × α)),
    let cut := segments unit visits
    let follows := fun a b : Cursor × α =>
      b.1.entry = a.1.entry ∧ b.1.lane = a.1.lane + 1 ∧ b.1.lane / unit = a.1.lane / unit
    cut.flatten = visits ∧ [] ∉ cut ∧ (∀ piece ∈ cut, List.IsChain follows piece) ∧
      List.IsChain (fun p q => ∀ a ∈ p.getLast?, ∀ b ∈ q.head?, ¬follows a b) cut

/-- READ and WRITE: the checks of R165 and R168 in their order give the refusal. One that passes them puts the access unit
in READING or WRITING and the executor in EXECUTING, the reply entry reserved, with one claim for each segment of the walk
from the cursor, the values of a WRITE taken in walk order: the first claim has been presented, and the others are kept to
follow it. The claim of a segment names the store row of its lanes and their storage lanes as the table of R164 gives them by
region kind and plane: READ of them, or WRITE under the request's condition of each lane's value (R28, R29, R164). No content
of the store and no other block changes at acceptance (R164, R165, R166, R168, R169, R171). -/
def Obligations.ReadAndWriteStartTheirTransfer : Prop :=
  ∀ (s : State) (r : Request) (rest : List Request),
    let unit := fun q : Region => if q.kind = .accum then 256 else 512
    let rowOf := fun (q : Region) (plane : Plane) (c : Cursor) =>
      q.first + c.entry * (match q.kind with | .profile => 3 * s.slot | .accum => 2 * s.slot | .history | .scratch => s.slot)
        + (match plane with | .gain | .single => 0 | .lower => s.slot | .upper => 2 * s.slot) + c.lane / unit q
    (s.Accepts 0x0D r rest →
      let count := u16At r.payload 0
      let early : Option Byte :=
        if s.modeCtl.mode = .steady .retain then some 0x09
        else if s.access.clear.isSome then some 0x08
        else if count = 0 ∨ 512 < count then some 0x03
        else if s.access.selection = none then some 0x15
        else none
      (∀ status, early = some status →
        ∃ l', exec .read s = .next { s with link := l' } ∧ s.link.Answered l' r rest [status]) ∧
      ∀ (k : Selection) (q : Region), early = none → s.access.selection = some k → s.region k.region = some q →
        (q.kind = .accum → 256 < count →
          ∃ l', exec .read s = .next { s with link := l' } ∧ s.link.Answered l' r rest [0x03]) ∧
        ((q.kind = .accum → count ≤ 256) →
          let walk := k.window.walk count k.cursor
          let readOf := fun segment : List (Cursor × Unit) => (⟨rowOf q k.plane (segment.headD (⟨0, 0⟩, ())).1,
            .read (segment.flatMap (fun v =>
              if q.kind = .accum then [2 * (v.1.lane % 256), 2 * (v.1.lane % 256) + 1] else [v.1.lane % 512])),
            .hostRead⟩ : Claim)
          ∃ l' claim claims, (segments (unit q) (walk.visits.map (fun c => (c, ())))).map readOf = claim :: claims ∧
            exec .read s = .next { s with
              access := { s.access with
                st := .reading ⟨⟨r.kind, r.tag⟩, claims, walk.cursor, walk.wrapped⟩ (decide (q.kind = .accum)) [] }
              store := (s.store.presentAccess claim).settleBanks
              link := l' } ∧ s.link.Deferred l' r rest ∧ l'.executor = .executing ∧
            (s.store.presentAccess claim).settleBanks.mem = s.store.mem)) ∧
    (s.Accepts 0x0E r rest →
      let count := u16At r.payload 1
      let early : Option Byte :=
        if s.modeCtl.mode = .steady .retain then some 0x09
        else if s.access.clear.isSome then some 0x08
        else if count = 0 ∨ 2 < u8At r.payload 0 then some 0x03
        else if s.access.selection = none then some 0x15
        else none
      (∀ status, early = some status →
        ∃ l', exec .write s = .next { s with link := l' } ∧ s.link.Answered l' r rest [status]) ∧
      ∀ (k : Selection) (q : Region), early = none → s.access.selection = some k → s.region k.region = some q →
        let late : Option Byte :=
          if q.kind = .accum then some 0x0E
          else if q.kind = .history ∧ s.bound k.region = true then some 0x11
          else if q.writeLevel = .service ∧ s.link.level = .operator then some 0x0A
          else none
        (∀ status, late = some status →
          ∃ l', exec .write s = .next { s with link := l' } ∧ s.link.Answered l' r rest [status]) ∧
        (late = none →
          let walk := k.window.walk count k.cursor
          let cond : WriteCond :=
            if u8At r.payload 0 = 0 then .always else if u8At r.payload 0 = 1 then .ifGreater else .ifLess
          let values := (List.range count).map (fun i => BitVec.ofNat 16 (u16At r.payload (3 + 2 * i)))
          let writeOf := fun segment : List (Cursor × Half) => (⟨rowOf q k.plane (segment.headD (⟨0, 0⟩, 0)).1,
            .write cond (segment.map (fun v => (v.1.lane % 512, v.2))), .hostWrite⟩ : Claim)
          ∃ l' claim claims, (segments (unit q) (walk.visits.zip values)).map writeOf = claim :: claims ∧
            exec .write s = .next { s with
              access := { s.access with st := .writing ⟨⟨r.kind, r.tag⟩, claims, walk.cursor, walk.wrapped⟩ 0 }
              store := (s.store.presentAccess claim).settleBanks
              link := l' } ∧ s.link.Deferred l' r rest ∧ l'.executor = .executing ∧
            (s.store.presentAccess claim).settleBanks.mem = s.store.mem))

-- The requests of the run controller

/-- Level filtering (R47): at SERVICE a record is used as given; at OPERATOR every service-only field takes the active
context's value, every other field stays, and the list names exactly the fields that differed. SET: BUSY in DRAINING,
BAD_FIELD for a field outside its range (R46), then the first failing load check, and run check while the run is not STOPPED,
in the order of R48 and R49. A record that passes
becomes the active context at once in STOPPED and ARMED. In RUNNING, with an item in hand or the ring not empty, it
becomes the pending context, the run is DRAINING and the reply is deferred; with neither it is installed at once (R50,
R58, R60, R61). -/
def Obligations.SetInstallsOrMakesPending : Prop :=
  (∀ active c : Context,
    filterContext .service active c = (c, []) ∧
    (filterContext .operator active c).1 = { c with
      w0 := active.w0, w1 := active.w1, profile := active.profile, accum := active.accum, history := active.history,
      excluded := active.excluded } ∧
    (filterContext .operator active c).2 =
      (if c.w0 ≠ active.w0 then [Retained.w0] else []) ++ (if c.w1 ≠ active.w1 then [.w1] else [])
        ++ (if c.profile ≠ active.profile then [.profileRegion] else [])
        ++ (if c.accum ≠ active.accum then [.accumRegion] else [])
        ++ (if c.history ≠ active.history then [.historyRegion] else [])
        ++ (if c.excluded ≠ active.excluded then [.excluded] else [])) ∧
  ∀ (s : State) (r : Request) (rest : List Request), s.Accepts 0x0F r rest →
    (s.run.st = .draining → ∃ l', exec .set s = .next { s with link := l' } ∧ s.link.Answered l' r rest [0x08]) ∧
    (s.run.st ≠ .draining → ¬Context.InRange r.payload →
      ∃ l', exec .set s = .next { s with link := l' } ∧ s.link.Answered l' r rest [0x03]) ∧
    (s.run.st ≠ .draining → Context.InRange r.payload →
      let f := filterContext s.link.level s.run.active (Context.Carried r.payload)
      (∀ code, s.ContextStatus f.1 = some code →
        ∃ l', exec .set s = .next { s with link := l' } ∧ s.link.Answered l' r rest [code]) ∧
      (s.ContextStatus f.1 = none → (s.run.st = .stopped ∨ s.run.st = .armed) →
        ∃ l', exec .set s = .next { s with run := { s.run with active := f.1 }, link := l' } ∧
          s.link.Answered l' r rest ([0x00, retainedCode f.2] ++ le32 s.run.phase.toNat ++ le32 s.engine.counter.toNat
            ++ [s.run.st.code])) ∧
      (s.ContextStatus f.1 = none → s.run.st = .running → (s.engine.st ≠ .between ∨ s.engine.ring ≠ []) →
        ∃ l', exec .set s = .next { s with
            run := { s.run with st := .draining, next := some ⟨f.1, ⟨r.kind, r.tag⟩, f.2, none⟩ }, link := l' } ∧
          s.link.Deferred l' r rest) ∧
      (s.ContextStatus f.1 = none → s.run.st = .running → s.engine.st = .between → s.engine.ring = [] →
        ∃ l', exec .set s = .next { s with
            run := { s.run with active := f.1, next := none, phase := s.engine.nextLine }
            engine := { s.engine with stride := 0 }
            tracker := s.tracker.closeAll .contextChange
            link := l' } ∧
          Link.Answered (s.link.offerAll (s.tracker.closeNotices .contextChange)) l' r rest
            ([0x00, retainedCode f.2] ++ le32 s.engine.nextLine.toNat ++ le32 s.engine.counter.toNat ++ [0x02])))

/-- PUSH copies the active context onto the stack and answers the new count, or is refused with STACK_FULL at 4 records
(R52). POP is refused with BUSY in DRAINING, with EMPTY on an empty stack, and with the first failing check of R48 and R49;
otherwise the top record leaves the stack and is installed at once or becomes the pending context, as SET's does, in RUNNING
with the engine between items and the ring empty at acceptance too (R53, R58, R60, R61). -/
def Obligations.PushAndPopMoveTheTopRecord : Prop :=
  ∀ (s : State) (r : Request) (rest : List Request),
    (s.Accepts 0x11 r rest →
      (s.run.stack.length < 4 →
        ∃ l', exec .push s = .next { s with run := { s.run with stack := s.run.active :: s.run.stack }, link := l' } ∧
          s.link.Answered l' r rest [0x00, BitVec.ofNat 8 (s.run.stack.length + 1)]) ∧
      (4 ≤ s.run.stack.length →
        ∃ l', exec .push s = .next { s with link := l' } ∧ s.link.Answered l' r rest [0x14])) ∧
    (s.Accepts 0x12 r rest →
      (s.run.st = .draining → ∃ l', exec .pop s = .next { s with link := l' } ∧ s.link.Answered l' r rest [0x08]) ∧
      (s.run.st ≠ .draining → s.run.stack = [] →
        ∃ l', exec .pop s = .next { s with link := l' } ∧ s.link.Answered l' r rest [0x13]) ∧
      (∀ top left, s.run.st ≠ .draining → s.run.stack = top :: left →
        let f := filterContext s.link.level s.run.active top
        (∀ code, s.ContextStatus f.1 = some code →
          ∃ l', exec .pop s = .next { s with link := l' } ∧ s.link.Answered l' r rest [code]) ∧
        (s.ContextStatus f.1 = none → (s.run.st = .stopped ∨ s.run.st = .armed) →
          ∃ l', exec .pop s = .next { s with run := { s.run with active := f.1, stack := left }, link := l' } ∧
            s.link.Answered l' r rest ([0x00, retainedCode f.2] ++ le32 s.run.phase.toNat
              ++ le32 s.engine.counter.toNat ++ [s.run.st.code, BitVec.ofNat 8 left.length])) ∧
        (s.ContextStatus f.1 = none → s.run.st = .running →
          (s.engine.st ≠ .between ∨ s.engine.ring ≠ []) →
          ∃ l', exec .pop s = .next { s with
              run := { s.run with
                st := .draining, stack := left, next := some ⟨f.1, ⟨r.kind, r.tag⟩, f.2, some left.length⟩ }
              link := l' } ∧
            s.link.Deferred l' r rest) ∧
        (s.ContextStatus f.1 = none → s.run.st = .running → s.engine.st = .between → s.engine.ring = [] →
          ∃ l', exec .pop s = .next { s with
              run := { s.run with active := f.1, next := none, phase := s.engine.nextLine, stack := left }
              engine := { s.engine with stride := 0 }
              tracker := s.tracker.closeAll .contextChange
              link := l' } ∧
            Link.Answered (s.link.offerAll (s.tracker.closeNotices .contextChange)) l' r rest
              ([0x00, retainedCode f.2] ++ le32 s.engine.nextLine.toNat ++ le32 s.engine.counter.toNat
                ++ [0x02, BitVec.ofNat 8 left.length]))))

/-- START: the checks of R55 in their order give the refusal. A START that passes them sets every block of the run to its
beginning, by the trigger, keeps the hold flag, and answers the ring capacity and Q; store, regions and access unit stay
(R55, R56, R72, R100). -/
def Obligations.StartBeginsARunOrIsRefusedInOrder : Prop :=
  ∀ (s : State) (r : Request) (rest : List Request), s.Accepts 0x13 r rest →
    let c := s.run.active
    let trigger := u8At r.payload 0
    let status : Option Byte :=
      if s.modeCtl.mode ≠ .steady .active then some 0x09
      else if s.run.st ≠ .stopped then some 0x09
      else if 1 < trigger then some 0x03
      else if s.geometry = none then some 0x0C
      else if s.regionOfKind .profile c.profile = none then some 0x0E
      else if s.regionOfKind .accum c.accum = none then some 0x0E
      else if c.history ≠ none ∧ s.regionOfKind .history c.history = none then some 0x0E
      else if s.entriesOf .profile c.profile ≤ c.entry then some 0x03
      else if s.entriesOf .accum c.accum < (c.depth + c.stride - 1) / c.stride then some 0x10
      else if ∀ q, s.regionOfKind .profile c.profile = some q → q.loaded = false then some 0x12
      else if ∃ w, s.access.clear = some w ∧ c.names w.region = true then some 0x08
      else none
    (∀ code, status = some code →
      ∃ l', exec .start s = .next { s with link := l' } ∧ s.link.Answered l' r rest [code]) ∧
    (status = none →
      ∃ l', exec .start s = .next { s with
          run := { s.run with
            st := if trigger = 0 then .running else .armed
            limit := BitVec.ofNat 32 (u32At r.payload 1)
            trigger := if trigger = 0 then .now else .atTrig
            phase := 0 }
          port := { Port.cold with lval := s.port.lval, st := if trigger = 0 then .ready else .waitTrig }
          engine := { Engine.cold with st := if trigger = 0 then .between else .idle }
          tester := Tester.cold
          tracker := Tracker.cold
          history := { History.cold with hold := s.history.hold }
          link := l' } ∧
        s.link.Answered l' r rest ([0x00, BitVec.ofNat 8 ((c.depth + c.stride - 1) / c.stride)] ++ le16 s.lanes))

/-- STOP while the run is STOPPED changes nothing and answers zero counts with the two counters. In any other run state
it discards queue, ring and item in hand, closes the table with RUN_STOPPED, and leaves the run STOPPED with phase line 0,
the port OFF and the engine IDLE. Of a LINE item in hand whose line is committed already, the table that is closed is as the
previous finished item left it, and its RUN_OVERFLOW notice leaves the queue (R67; log 31). A pending context becomes the
active one, and its deferred reply is queued before STOP's (the stack count of a POP's by log 21 where the stack has changed
since). The waiting ENGINE claims are withdrawn, a granted one goes on and its result is discarded, and nothing else of the
bank controller changes; the history writer abandons the line in hand, whose index position becomes EMPTY (R16, R158). Line
counter, integrated counter, hold flag, unstored count, write position, h and teach line count stay, and the store keeps its
contents (R65, R66, R67, R83, R103, R119, R122, R124, R143, R159). -/
def Obligations.StopEndsTheRun : Prop :=
  ∀ (s : State) (r : Request) (rest : List Request), s.Accepts 0x14 r rest →
    (s.run.st = .stopped →
      ∃ l', exec .stop s = .next { s with link := l' } ∧
        s.link.Answered l' r rest ([0x00, 0x00, 0x00, 0x00, 0x00] ++ le32 s.port.counter.toNat
          ++ le32 s.engine.counter.toNat)) ∧
    (s.run.st ≠ .stopped →
      let u := s.TakenBack
      let reports := u.tracker.closeNotices .runStopped
      let active := match s.run.next with | some p => p.context | none => s.run.active
      ∃ l' st' h' before, exec .stop s = .next { s with
          store := st'
          run := { s.run with st := .stopped, active := active, next := none, phase := 0 }
          port := { Port.cold with counter := s.port.counter, lval := s.port.lval }
          engine := { s.engine with st := .idle, ring := [], mean := none }
          tester := { s.tester with st := .idle, runs := [], overflow := 0 }
          tracker := { s.tracker with
            st := .idle, table := [], reported := s.tracker.reported + BitVec.ofNat 32 reports.length }
          history := h'
          link := l' } ∧
        st' = { s.store with banks := st'.banks, engineReady := [], testerReady := [], historyReady := [] } ∧
        (∀ i,
          let b := s.store.banks.get i
          let b' := st'.banks.get i
          b' = { b with granted := b'.granted, engineClaim := none } ∧ (b.granted = none → b'.granted = none) ∧
          ∀ g, b.granted = some g →
            b'.granted = some (if g.use.claimant = .engine then { g with use := .discarded .engine } else g)) ∧
        h'.st = .idle ∧ h'.hold = s.history.hold ∧ h'.unstored = s.history.unstored ∧ h'.written = s.history.written ∧
        h'.writePos = s.history.writePos ∧
        (s.history.st = .idle → h' = s.history) ∧
        (∀ line, (s.history.st = .filing line ∨ ∃ left, s.history.st = .storing line left) →
          h'.result = none ∧ h'.index = Table.drop s.history.index line.entry) ∧
        (s.run.next = none → before = u.link) ∧
        (∀ p, s.run.next = some p →
          before = u.link.Filled p.ticket (p.answer 0 s.engine.counter 0x00 s.run.stack.length)) ∧
        Link.Answered (before.offerAll reports) l' r rest
          ([0x00, BitVec.ofNat 8 s.engine.ring.length, BitVec.ofNat 8 s.discards.lines, BitVec.ofNat 8 s.discards.losses,
            BitVec.ofNat 8 reports.length] ++ le32 s.port.counter.toNat ++ le32 s.engine.counter.toNat))

-- The requests of the history writer and the tracker

/-- HOLD sets the hold flag and answers the unstored count with the line in hand; RELEASE clears it, answers the unstored
count as it stood and sets it to 0 (R154, R155). HISTORY_INFO and DEFECTS answer a page of the index and of the committed
table from their start position, or are refused with BAD_FIELD above 1023 and 63 (R145, R157); an unset peak lane of a record is sent as
0 (DEDUCED, log 22). Nothing else changes. -/
def Obligations.HistoryAndDefectRequestsAnswer : Prop :=
  ∀ (s : State) (r : Request) (rest : List Request),
    (s.Accepts 0x15 r rest →
      ∃ l', exec .hold s = .next { s with history := { s.history with hold := true }, link := l' } ∧
        s.link.Answered l' r rest ([0x00] ++ le32 s.history.unstored
          ++ (match s.history.st with
            | .idle => [0x00, 0x00, 0x00]
            | .storing line _ => [0x01] ++ le16 line.entry
            | .filing line => [0x01] ++ le16 line.entry))) ∧
    (s.Accepts 0x16 r rest →
      ∃ l', exec .release s = .next { s with history := { s.history with hold := false, unstored := 0 }, link := l' } ∧
        s.link.Answered l' r rest ([0x00] ++ le32 s.history.unstored)) ∧
    (s.Accepts 0x17 r rest →
      let start := u16At r.payload 0
      let count := min 64 (1024 - start)
      ∃ l', exec .historyInfo s = .next { s with link := l' } ∧
        (1023 < start → s.link.Answered l' r rest [0x03]) ∧
        (start ≤ 1023 → s.link.Answered l' r rest
          ([0x00] ++ le32 s.history.written.toNat ++ le16 s.history.writePos ++ [if s.history.hold then 1 else 0]
            ++ le32 s.history.unstored ++ [regionCode s.run.active.history]
            ++ le16 (s.entriesOf .history s.run.active.history) ++ le16 start ++ [BitVec.ofNat 8 count]
            ++ (List.range count).flatMap (fun i => indexBytes (Table.find s.history.index (start + i)))))) ∧
    (s.Accepts 0x18 r rest →
      let start := u8At r.payload 0
      let page := (s.tracker.table.drop start).take 24
      ∃ l', exec .defects s = .next { s with link := l' } ∧
        (63 < start → s.link.Answered l' r rest [0x03]) ∧
        (start ≤ 63 → s.link.Answered l' r rest
          ([0x00, BitVec.ofNat 8 s.tracker.table.length, BitVec.ofNat 8 start, BitVec.ofNat 8 page.length]
            ++ page.flatMap Defect.bytes)))

-- What every command leaves

/-- Once fixed, the geometry stays fixed through every command but COLD_RESET (R25). The contents of the store change by
completed accesses and COLD_RESET alone: through every other command, RESTART and the mode transitions among them, every
lane reads as before (R1, R16, R22). -/
def Obligations.GeometryAndStoreContentsStay : Prop :=
  (∀ (c : Instr) (s t : State) (g : Geometry), c ≠ .coldReset → s.geometry = some g → exec c s = .next t →
    t.geometry = some g) ∧
  ∀ (c : Instr) (s t : State), c ≠ .coldReset → (∀ bank, c ≠ .accessComplete bank) → exec c s = .next t →
    ∀ a, Memory.lane t.store.coldEpoch t.store.mem a = Memory.lane s.store.coldEpoch s.store.mem a

-- Invariants that every step keeps

/-- The memory, the region table and the history index keep their canonical form (log 5). The context stack holds at most
4 records, the open defect table at most 64, the run list at most 128 (R52, R115, R142). -/
def Obligations.EveryStepKeepsTablesCanonicalAndBounded : Prop :=
  (∀ s t : State, s.tablesCanonical → step s = .next t → t.tablesCanonical) ∧
    ∀ s t : State, s.sizesSound → step s = .next t → t.sizesSound

/-- The refresh debt stays at most 8 and is 0 throughout RETAIN, urgency ends with the debt, the pointer and the pass-over
counts keep to their ranges (R8, R9, R12, R13; the bound of 8 is the model's by log 9). -/
def Obligations.EveryStepKeepsRefreshSound : Prop :=
  ∀ s t : State, s.refreshSound → step s = .next t → t.refreshSound

/-- The inbound queue holds at most 4 requests and drives HOLD, the notice queue at most 32 notices, the drop count stays
in its range, and the level is SERVICE only while SVC is high (R181, R187, R188). -/
def Obligations.EveryStepKeepsLinkSound : Prop :=
  ∀ s t : State, s.linkSound → step s = .next t → t.linkSound

/-- Every region lies inside the store in whole entries, and no store row belongs to two regions (R25, R26, R34). -/
def Obligations.EveryStepKeepsRegionsSound : Prop :=
  ∀ s t : State, s.regionsSound → step s = .next t → t.regionsSound

/-- A pending context exists exactly while the run is DRAINING, a STOPPED run has its port OFF and its engine IDLE, and a
run that is not STOPPED is found in ACTIVE alone (R54, R71, R85). -/
def Obligations.EveryStepKeepsRunSound : Prop :=
  ∀ s t : State, s.runSound → step s = .next t → t.runSound

/-- No line slot is held by two of the filling line, the queued LINE items and the LINE item in hand (R75). -/
def Obligations.EveryStepKeepsSlotsSound : Prop :=
  ∀ s t : State, s.slotsSound → step s = .next t → t.slotsSound

/-- The reserved reply entries are those of the requests under way, and queued replies plus reserved entries never exceed
8 (R183, R184), where the run is sound as stated above. -/
def Obligations.EveryStepKeepsEntriesSound : Prop :=
  ∀ s t : State, s.runSound → s.entriesSound → step s = .next t → t.entriesSound
end

