-- ==== Sys2Proof/Laws/State.lean ====
section
/-! SUPPORT. What the operations on the whole state leave alone, field by field. -/

namespace Sys2Proof.Machine

/-- A reply touches the link alone. -/
@[simp] theorem reply_keeps (t : Ticket) (p : List Byte) (s : State) :
      (s.reply t p).held = s.held ∧
      (s.reply t p).svc = s.svc ∧
      (s.reply t p).store = s.store ∧
      (s.reply t p).geometry = s.geometry ∧
      (s.reply t p).regions = s.regions ∧
      (s.reply t p).run = s.run ∧
      (s.reply t p).port = s.port ∧
      (s.reply t p).engine = s.engine ∧
      (s.reply t p).tester = s.tester ∧
      (s.reply t p).tracker = s.tracker ∧
      (s.reply t p).history = s.history ∧
      (s.reply t p).access = s.access ∧
      (s.reply t p).modeCtl = s.modeCtl ∧
      (s.reply t p).before = s.before ∧
      (s.reply t p).pending = s.pending :=
  ⟨rfl, rfl, rfl, rfl, rfl, rfl, rfl, rfl, rfl, rfl, rfl, rfl, rfl, rfl, rfl⟩

@[simp] theorem reply_link (t : Ticket) (p : List Byte) (s : State) : (s.reply t p).link = s.link.reply t p := rfl

/-- A refusal touches the link alone. -/
@[simp] theorem refuse_keeps (r : Request) (st : Status) (s : State) :
      (s.refuse r st).held = s.held ∧
      (s.refuse r st).svc = s.svc ∧
      (s.refuse r st).store = s.store ∧
      (s.refuse r st).geometry = s.geometry ∧
      (s.refuse r st).regions = s.regions ∧
      (s.refuse r st).run = s.run ∧
      (s.refuse r st).port = s.port ∧
      (s.refuse r st).engine = s.engine ∧
      (s.refuse r st).tester = s.tester ∧
      (s.refuse r st).tracker = s.tracker ∧
      (s.refuse r st).history = s.history ∧
      (s.refuse r st).access = s.access ∧
      (s.refuse r st).modeCtl = s.modeCtl ∧
      (s.refuse r st).before = s.before ∧
      (s.refuse r st).pending = s.pending :=
  ⟨rfl, rfl, rfl, rfl, rfl, rfl, rfl, rfl, rfl, rfl, rfl, rfl, rfl, rfl, rfl⟩

@[simp] theorem refuse_link (r : Request) (st : Status) (s : State) :
    (s.refuse r st).link = s.link.reply r.ticket (s.refusalBytes r.kind st) := rfl

/-- An OK reply touches the link alone. -/
@[simp] theorem replyOk_keeps (r : Request) (p : List Byte) (s : State) :
      (s.replyOk r p).held = s.held ∧
      (s.replyOk r p).svc = s.svc ∧
      (s.replyOk r p).store = s.store ∧
      (s.replyOk r p).geometry = s.geometry ∧
      (s.replyOk r p).regions = s.regions ∧
      (s.replyOk r p).run = s.run ∧
      (s.replyOk r p).port = s.port ∧
      (s.replyOk r p).engine = s.engine ∧
      (s.replyOk r p).tester = s.tester ∧
      (s.replyOk r p).tracker = s.tracker ∧
      (s.replyOk r p).history = s.history ∧
      (s.replyOk r p).access = s.access ∧
      (s.replyOk r p).modeCtl = s.modeCtl ∧
      (s.replyOk r p).before = s.before ∧
      (s.replyOk r p).pending = s.pending :=
  ⟨rfl, rfl, rfl, rfl, rfl, rfl, rfl, rfl, rfl, rfl, rfl, rfl, rfl, rfl, rfl⟩

@[simp] theorem replyOk_link (r : Request) (p : List Byte) (s : State) :
    (s.replyOk r p).link = s.link.reply r.ticket (Status.ok.code :: p) := rfl

/-- An offered notice touches the link alone. -/
@[simp] theorem offer_keeps (n : Notice) (s : State) :
      (s.offer n).held = s.held ∧
      (s.offer n).svc = s.svc ∧
      (s.offer n).store = s.store ∧
      (s.offer n).geometry = s.geometry ∧
      (s.offer n).regions = s.regions ∧
      (s.offer n).run = s.run ∧
      (s.offer n).port = s.port ∧
      (s.offer n).engine = s.engine ∧
      (s.offer n).tester = s.tester ∧
      (s.offer n).tracker = s.tracker ∧
      (s.offer n).history = s.history ∧
      (s.offer n).access = s.access ∧
      (s.offer n).modeCtl = s.modeCtl ∧
      (s.offer n).before = s.before ∧
      (s.offer n).pending = s.pending :=
  ⟨rfl, rfl, rfl, rfl, rfl, rfl, rfl, rfl, rfl, rfl, rfl, rfl, rfl, rfl, rfl⟩

@[simp] theorem offer_link (n : Notice) (s : State) : (s.offer n).link = s.link.offer n := rfl

/-- The link's settling touches the link alone. -/
@[simp] theorem settleLink_keeps (s : State) :
      (s.settleLink).held = s.held ∧
      (s.settleLink).svc = s.svc ∧
      (s.settleLink).store = s.store ∧
      (s.settleLink).geometry = s.geometry ∧
      (s.settleLink).regions = s.regions ∧
      (s.settleLink).run = s.run ∧
      (s.settleLink).port = s.port ∧
      (s.settleLink).engine = s.engine ∧
      (s.settleLink).tester = s.tester ∧
      (s.settleLink).tracker = s.tracker ∧
      (s.settleLink).history = s.history ∧
      (s.settleLink).access = s.access ∧
      (s.settleLink).modeCtl = s.modeCtl ∧
      (s.settleLink).before = s.before ∧
      (s.settleLink).pending = s.pending :=
  ⟨rfl, rfl, rfl, rfl, rfl, rfl, rfl, rfl, rfl, rfl, rfl, rfl, rfl, rfl, rfl⟩

/-- Close-all touches the tracker and the link. -/
@[simp] theorem closeAll_keeps (f : CloseFlag) (s : State) :
      (s.closeAll f).held = s.held ∧
      (s.closeAll f).svc = s.svc ∧
      (s.closeAll f).store = s.store ∧
      (s.closeAll f).geometry = s.geometry ∧
      (s.closeAll f).regions = s.regions ∧
      (s.closeAll f).run = s.run ∧
      (s.closeAll f).port = s.port ∧
      (s.closeAll f).engine = s.engine ∧
      (s.closeAll f).tester = s.tester ∧
      (s.closeAll f).history = s.history ∧
      (s.closeAll f).access = s.access ∧
      (s.closeAll f).modeCtl = s.modeCtl ∧
      (s.closeAll f).before = s.before ∧
      (s.closeAll f).pending = s.pending :=
  ⟨rfl, rfl, rfl, rfl, rfl, rfl, rfl, rfl, rfl, rfl, rfl, rfl, rfl, rfl⟩

@[simp] theorem closeAll_link (f : CloseFlag) (s : State) :
    (s.closeAll f).link = s.link.offerAll (s.tracker.closeNotices f) := rfl

@[simp] theorem closeAll_tracker (f : CloseFlag) (s : State) : (s.closeAll f).tracker = s.tracker.closeAll f := rfl

/-- A deferred SET or POP reply touches the link alone. -/
@[simp] theorem replyPending_keeps (p : PendingContext) (s : State) :
      (s.replyPending p).held = s.held ∧
      (s.replyPending p).svc = s.svc ∧
      (s.replyPending p).store = s.store ∧
      (s.replyPending p).geometry = s.geometry ∧
      (s.replyPending p).regions = s.regions ∧
      (s.replyPending p).run = s.run ∧
      (s.replyPending p).port = s.port ∧
      (s.replyPending p).engine = s.engine ∧
      (s.replyPending p).tester = s.tester ∧
      (s.replyPending p).tracker = s.tracker ∧
      (s.replyPending p).history = s.history ∧
      (s.replyPending p).access = s.access ∧
      (s.replyPending p).modeCtl = s.modeCtl ∧
      (s.replyPending p).before = s.before ∧
      (s.replyPending p).pending = s.pending :=
  ⟨rfl, rfl, rfl, rfl, rfl, rfl, rfl, rfl, rfl, rfl, rfl, rfl, rfl, rfl, rfl⟩

/-- A presented ACCESS claim touches the store alone. -/
@[simp] theorem presentAccess_keeps (c : Claim) (s : State) :
      (s.presentAccess c).held = s.held ∧
      (s.presentAccess c).svc = s.svc ∧
      (s.presentAccess c).geometry = s.geometry ∧
      (s.presentAccess c).regions = s.regions ∧
      (s.presentAccess c).run = s.run ∧
      (s.presentAccess c).port = s.port ∧
      (s.presentAccess c).engine = s.engine ∧
      (s.presentAccess c).tester = s.tester ∧
      (s.presentAccess c).tracker = s.tracker ∧
      (s.presentAccess c).history = s.history ∧
      (s.presentAccess c).access = s.access ∧
      (s.presentAccess c).link = s.link ∧
      (s.presentAccess c).modeCtl = s.modeCtl ∧
      (s.presentAccess c).before = s.before ∧
      (s.presentAccess c).pending = s.pending :=
  ⟨rfl, rfl, rfl, rfl, rfl, rfl, rfl, rfl, rfl, rfl, rfl, rfl, rfl, rfl, rfl⟩

@[simp] theorem presentAccess_store (c : Claim) (s : State) : (s.presentAccess c).store = s.store.presentAccess c := rfl

/-- The banks' decisions touch the store alone. -/
@[simp] theorem settleBanks_keeps (s : State) :
      (s.settleBanks).held = s.held ∧
      (s.settleBanks).svc = s.svc ∧
      (s.settleBanks).geometry = s.geometry ∧
      (s.settleBanks).regions = s.regions ∧
      (s.settleBanks).run = s.run ∧
      (s.settleBanks).port = s.port ∧
      (s.settleBanks).engine = s.engine ∧
      (s.settleBanks).tester = s.tester ∧
      (s.settleBanks).tracker = s.tracker ∧
      (s.settleBanks).history = s.history ∧
      (s.settleBanks).access = s.access ∧
      (s.settleBanks).link = s.link ∧
      (s.settleBanks).modeCtl = s.modeCtl ∧
      (s.settleBanks).before = s.before ∧
      (s.settleBanks).pending = s.pending :=
  ⟨rfl, rfl, rfl, rfl, rfl, rfl, rfl, rfl, rfl, rfl, rfl, rfl, rfl, rfl, rfl⟩

@[simp] theorem settleBanks_store (s : State) : s.settleBanks.store = s.store.settleBanks := by
  simp only [State.settleBanks]

/-- An access touches the store alone. -/
@[simp] theorem performed_keeps (bank : Fin 4) (c : Claim) (s : State) :
      (s.performed bank c).held = s.held ∧
      (s.performed bank c).svc = s.svc ∧
      (s.performed bank c).geometry = s.geometry ∧
      (s.performed bank c).regions = s.regions ∧
      (s.performed bank c).run = s.run ∧
      (s.performed bank c).port = s.port ∧
      (s.performed bank c).engine = s.engine ∧
      (s.performed bank c).tester = s.tester ∧
      (s.performed bank c).tracker = s.tracker ∧
      (s.performed bank c).history = s.history ∧
      (s.performed bank c).access = s.access ∧
      (s.performed bank c).link = s.link ∧
      (s.performed bank c).modeCtl = s.modeCtl ∧
      (s.performed bank c).before = s.before ∧
      (s.performed bank c).pending = s.pending :=
  ⟨rfl, rfl, rfl, rfl, rfl, rfl, rfl, rfl, rfl, rfl, rfl, rfl, rfl, rfl, rfl⟩

/-- A bank's decision touches the store alone. -/
@[simp] theorem decideAfter_keeps (bank : Fin 4) (row : Nat) (s : State) :
      (s.decideAfter bank row).held = s.held ∧
      (s.decideAfter bank row).svc = s.svc ∧
      (s.decideAfter bank row).geometry = s.geometry ∧
      (s.decideAfter bank row).regions = s.regions ∧
      (s.decideAfter bank row).run = s.run ∧
      (s.decideAfter bank row).port = s.port ∧
      (s.decideAfter bank row).engine = s.engine ∧
      (s.decideAfter bank row).tester = s.tester ∧
      (s.decideAfter bank row).tracker = s.tracker ∧
      (s.decideAfter bank row).history = s.history ∧
      (s.decideAfter bank row).access = s.access ∧
      (s.decideAfter bank row).link = s.link ∧
      (s.decideAfter bank row).modeCtl = s.modeCtl ∧
      (s.decideAfter bank row).before = s.before ∧
      (s.decideAfter bank row).pending = s.pending :=
  ⟨rfl, rfl, rfl, rfl, rfl, rfl, rfl, rfl, rfl, rfl, rfl, rfl, rfl, rfl, rfl⟩

end Sys2Proof.Machine
end

