-- ==== Sys2Proof/Laws/Steps.lean ====
section
/-! SUPPORT. What every event and every accepted request comes to: the link settles, a request is answered once. -/

namespace Sys2Proof.Machine

-- Settling

theorem consider_eq (mode : Mode) (l : Link) : ∃ x, l.consider mode = { l with executor := x } := by
  unfold Link.consider
  split
  · exact ⟨l.executor, rfl⟩
  · split
    · exact ⟨_, rfl⟩
    · split
      · exact ⟨_, rfl⟩
      · split <;> exact ⟨_, rfl⟩
  · split
    · exact ⟨_, rfl⟩
    · split
      · exact ⟨_, rfl⟩
      · split <;> exact ⟨_, rfl⟩
  · split
    · exact ⟨_, rfl⟩
    · split
      · exact ⟨_, rfl⟩
      · split <;> exact ⟨_, rfl⟩

theorem startSending_eq (l : Link) : ∃ x, l.startSending = { l with transmitter := x } := by
  unfold Link.startSending
  split
  · split
    · exact ⟨_, rfl⟩
    · exact ⟨_, rfl⟩
    · exact ⟨l.transmitter, rfl⟩
  · exact ⟨l.transmitter, rfl⟩
  · exact ⟨l.transmitter, rfl⟩

/-- The link settles: only the executor and the transmitter go on. -/
theorem settleLink_link (s : State) :
    ∃ x y, s.settleLink.link = { s.link with executor := x, transmitter := y } := by
  obtain ⟨x, hx⟩ := consider_eq s.modeCtl.mode s.link
  obtain ⟨y, hy⟩ := startSending_eq (s.link.consider s.modeCtl.mode)
  refine ⟨x, y, ?_⟩
  show (s.link.consider s.modeCtl.mode).startSending = _
  rw [hy, hx]

theorem settleLink_eq (s : State) :
    ∃ x y, s.settleLink = { s with link := { s.link with executor := x, transmitter := y } } := by
  obtain ⟨x, y, h⟩ := settleLink_link s
  refine ⟨x, y, ?_⟩
  rw [← h]
  rfl

theorem settled_settleLink (s : State) : Link.Settled s.link s.settleLink.link := by
  obtain ⟨x, y, h⟩ := settleLink_link s
  rw [h]
  rfl

@[simp] theorem settleLink_link_keeps (s : State) :
    s.settleLink.link.rate = s.link.rate ∧ s.settleLink.link.receiver = s.link.receiver
      ∧ s.settleLink.link.inbound = s.link.inbound ∧ s.settleLink.link.holdOut = s.link.holdOut
      ∧ s.settleLink.link.reserved = s.link.reserved ∧ s.settleLink.link.replies = s.link.replies
      ∧ s.settleLink.link.notices = s.link.notices ∧ s.settleLink.link.drops = s.link.drops
      ∧ s.settleLink.link.level = s.link.level := by
  obtain ⟨x, y, h⟩ := settleLink_link s
  rw [h]
  exact ⟨rfl, rfl, rfl, rfl, rfl, rfl, rfl, rfl, rfl⟩

/-- The settling of the link never starts a request (R182). -/
theorem settleLink_not_executing {s : State} (h : s.link.executor ≠ .executing) :
    s.settleLink.link.executor ≠ .executing := by
  obtain ⟨y, hy⟩ := startSending_eq (s.link.consider s.modeCtl.mode)
  show (s.link.consider s.modeCtl.mode).startSending.executor ≠ _
  rw [hy]
  show (s.link.consider s.modeCtl.mode).executor ≠ _
  unfold Link.consider
  split
  · contradiction
  all_goals (split; · simp)
  all_goals (split; · simp)
  all_goals split <;> simp

/-- What the executor comes to at a head request, when no request is in execution (R182, R186). -/
theorem consider_spec {mode : Mode} {l : Link} (h : l.executor ≠ .executing) :
    (l.inbound = [] → (l.consider mode).executor = .idle) ∧
      ∀ r rest, l.inbound = r :: rest →
        ((mode.isChanging && !exemptKind r.kind) = true → (l.consider mode).executor = .held) ∧
          ((mode.isChanging && !exemptKind r.kind) = false →
            (l.consider mode).executor = if l.hasFreeEntry then .idle else .waitEntry) := by
  have key : l.consider mode = match l.inbound with
      | [] => { l with executor := .idle }
      | r :: _ =>
        if mode.isChanging && !exemptKind r.kind then { l with executor := .held }
        else if l.hasFreeEntry then { l with executor := .idle }
        else { l with executor := .waitEntry } := by
    unfold Link.consider
    cases hx : l.executor <;> first | rfl | exact absurd hx h
  rw [key]
  refine ⟨fun hi => by rw [hi], fun r rest hi => ?_⟩
  rw [hi]
  refine ⟨fun hc => by simp only [hc, if_true], fun hc => ?_⟩
  simp only [hc, Bool.false_eq_true, if_false]
  split <;> rfl

theorem consider_executing {mode : Mode} {l : Link} (h : l.executor = .executing) : l.consider mode = l := by
  unfold Link.consider
  rw [h]

/-- A frame in transmission goes on (R185). -/
theorem startSending_busy {l : Link} (h : l.transmitter ≠ .idle) : l.startSending = l := by
  unfold Link.startSending
  split
  · contradiction
  all_goals rfl

/-- A request is not accepted from an empty queue, by a command of another kind, in execution, where a mode change holds it,
or without a free entry (R182, R186, log 2). -/
theorem acceptable_none {mode : Mode} {kind : Byte} {l : Link}
    (h : l.inbound = [] ∨ (∃ r rest, l.inbound = r :: rest ∧ r.kind ≠ kind) ∨ l.executor = .executing ∨
      (mode.isChanging = true ∧ exemptKind kind = false) ∨ l.hasFreeEntry = false) : l.acceptable mode kind = none := by
  unfold Link.acceptable
  cases hi : l.inbound with
  | nil => rfl
  | cons r rest =>
    refine if_neg ?_
    rintro ⟨hk, hx, hm, he⟩
    rcases h with h | ⟨q, qs, h, hq⟩ | h | h | h
    · rw [hi] at h; cases h
    · rw [hi] at h; cases h; exact hq hk
    · exact hx h
    · exact hm h
    · rw [he] at h; cases h

/-- Notices offered leave the queues of requests and replies alone (R187). -/
theorem offerAll_keeps (ns : List Notice) : ∀ l : Link,
    (l.offerAll ns).reserved = l.reserved ∧ (l.offerAll ns).replies = l.replies ∧ (l.offerAll ns).holdOut = l.holdOut := by
  induction ns with
  | nil => intro l; exact ⟨rfl, rfl, rfl⟩
  | cons n rest ih =>
    intro l
    obtain ⟨h1, h2, h3⟩ := ih (l.offer n)
    refine ⟨h1.trans ?_, h2.trans ?_, h3.trans ?_⟩ <;> (unfold Link.offer; simp only; split <;> split <;> rfl)

/-- They are offered alike before and after a request is taken (R182, R187). -/
theorem offerAll_taken (ns : List Notice) : ∀ (l : Link) (i : List Request) (h : Bool) (t : List Ticket),
    ({ l with inbound := i, holdOut := h, reserved := t } : Link).offerAll ns
      = { l.offerAll ns with inbound := i, holdOut := h, reserved := t } := by
  induction ns with
  | nil => intros; rfl
  | cons n rest ih =>
    intro l i h t
    have one : ({ l with inbound := i, holdOut := h, reserved := t } : Link).offer n
        = { l.offer n with inbound := i, holdOut := h, reserved := t } := by
      unfold Link.offer
      simp only
      split
      · split <;> rfl
      · split <;> rfl
    show (Link.offer n _).offerAll rest = _
    rw [one, ih]
    rfl

-- Events

theorem awake_of_awake {s : State} (h : s.held = false) (f : State → State) : awake s f = .next (f s).settleLink := by
  simp [awake, h]

theorem awake_held {s : State} (h : s.held = true) (f : State → State) : awake s f = .next s := by
  simp [awake, h]

/-- An event changes what its effect changes, and the link settles. -/
theorem awake_spec {s : State} (h : s.held = false) (f : State → State) :
    ∃ l', awake s f = .next { f s with link := l' } ∧ Link.Settled (f s).link l' :=
  ⟨(f s).settleLink.link, awake_of_awake h f, settled_settleLink (f s)⟩

/-- The same with the effect's result written out. -/
theorem event_spec {s : State} {f : State → State} (t : State) (h : s.held = false) (hf : f s = t) :
    ∃ l', awake s f = .next { t with link := l' } ∧ Link.Settled t.link l' := by
  subst hf
  exact awake_spec h f

/-- A settled state, with all but the link written out. -/
theorem settled_next {u : State} (t : State) (hu : u = t) :
    ∃ l', (.next u.settleLink : Host.Outcome State Fault Refusal) = .next { t with link := l' } ∧
      Link.Settled t.link l' := by
  subst hu
  exact ⟨u.settleLink.link, rfl, settled_settleLink u⟩

/-- A property of states that an event's effect and the settling keep holds after the event. -/
theorem awake_keeps {P : State → Prop} {s t : State} {f : State → State} (hs : P s) (hf : P s → P (f s))
    (hl : ∀ u, P u → P u.settleLink) (h : awake s f = .next t) : P t := by
  cases hh : s.held with
  | false =>
    rw [awake_of_awake hh] at h
    cases h
    exact hl _ (hf hs)
  | true =>
    rw [awake_held hh] at h
    cases h
    exact hs

-- Requests

/-- The state with the head request taken from the inbound queue and its entry reserved (R182). -/
def State.taken (s : State) (r : Request) (rest : List Request) : State := { s with link := s.link.take r rest }

theorem acceptable_of_takes {s : State} {kind : Byte} {r : Request} {rest : List Request} (h : s.Takes kind r rest) :
    s.link.acceptable s.modeCtl.mode kind = some (r, rest) := by
  obtain ⟨-, hin, hk, hx, hm, he⟩ := h
  unfold Link.acceptable
  rw [hin]
  simp only [hk, he, and_true, true_and]
  rw [if_pos]
  refine ⟨hx, ?_⟩
  rintro ⟨h1, h2⟩
  rw [hm h1] at h2
  cases h2

theorem accept_of_takes {s : State} {kind : Byte} {r : Request} {rest : List Request} (h : s.Takes kind r rest)
    (body : Request → State → State) :
    accept kind body s = .next
      (match (s.taken r rest).commonFailure r with
        | some status => (s.taken r rest).refuse r status
        | none => body r (s.taken r rest)).settleLink := by
  unfold accept
  rw [awake_of_awake h.1]
  simp only [acceptable_of_takes h]
  rfl

theorem commonFailure_of_accepts {s : State} {kind : Byte} {r : Request} {rest : List Request}
    (h : s.Accepts kind r rest) : (s.taken r rest).commonFailure r = none := by
  obtain ⟨⟨-, -, hk, -, -, -⟩, hl, hm, hs⟩ := h
  subst hk
  have hd : decide (s.modeCtl.mode = Mode.starting) = false := decide_eq_false hm
  have hv : (serviceKind r.kind && decide (s.link.level = Level.operator)) = false := by
    cases hk : serviceKind r.kind with
    | false => rfl
    | true => rw [hs hk]; rfl
  show firstFailure [(!lengthOk r.kind r.payload, .badLength), (decide (s.modeCtl.mode = Mode.starting), .starting),
    (serviceKind r.kind && decide (s.link.level = Level.operator), .level)] = none
  rw [hl, hd, hv]
  rfl

/-- An accepted request that passes the common checks is carried out by its body. -/
theorem accept_of_accepts {s : State} {kind : Byte} {r : Request} {rest : List Request} (h : s.Accepts kind r rest)
    (body : Request → State → State) : accept kind body s = .next (body r (s.taken r rest)).settleLink := by
  rw [accept_of_takes h.1, commonFailure_of_accepts h]

/-- Where the head request is not one that may be taken, nothing happens but the settling. -/
theorem accept_of_not {s : State} {kind : Byte} (hs : s.held = false)
    (h : s.link.acceptable s.modeCtl.mode kind = none) (body : Request → State → State) :
    accept kind body s = .next s.settleLink := by
  unfold accept
  rw [awake_of_awake hs]
  simp only [h]

theorem erase_append_perm (l : List Ticket) (t : Ticket) : ((l ++ [t]).erase t).Perm l := by
  have h : (t :: l).Perm (l ++ [t]) := (List.perm_append_singleton t l).symm
  have h2 := (h.erase t).symm
  simpa using h2

/-- Taking a request and answering it at once, with anything else done to the link in between that leaves the queues of
requests and replies alone. -/
theorem answered_of_reply {l b l' : Link} {r : Request} {rest : List Request} {payload : List Byte}
    (hb : b.reserved = l.reserved ∧ b.replies = l.replies ∧ b.holdOut = l.holdOut)
    (h : Link.Settled (({ b with
        inbound := rest
        holdOut := holdOnLeave rest.length l.holdOut
        reserved := l.reserved ++ [r.ticket] } : Link).reply r.ticket payload) l') :
    Link.Answered b l' r rest payload := by
  obtain ⟨h1, h2, h3⟩ := hb
  unfold Link.Settled at h
  have hr : l'.reserved = (l.reserved ++ [r.ticket]).erase r.ticket := by rw [h]; rfl
  refine ⟨?_, ?_⟩
  · rw [hr, h1]; exact erase_append_perm _ _
  · rw [h]
    simp [Link.reply, replyKind, Request.ticket, holdOnLeave, h2, h3]

theorem answered {s : State} {r : Request} {rest : List Request} {payload : List Byte} :
    Link.Answered s.link (((s.taken r rest).reply r.ticket payload).settleLink).link r rest payload :=
  answered_of_reply (l := s.link) ⟨rfl, rfl, rfl⟩ (settled_settleLink _)

/-- An accepted request answered at once: the state but for the link, and the link (R182, R184). -/
theorem answer_spec {s u : State} {r : Request} {rest : List Request} {payload : List Byte} (t : State)
    (hu : u = ({ t with link := (s.taken r rest).link }).reply r.ticket payload) :
    ∃ l', (.next u.settleLink : Host.Outcome State Fault Refusal) = .next { t with link := l' } ∧
      s.link.Answered l' r rest payload := by
  subst hu
  refine ⟨_, rfl, answered_of_reply (l := s.link) ⟨rfl, rfl, rfl⟩ ?_⟩
  exact settled_settleLink (({ t with link := (s.taken r rest).link } : State).reply r.ticket payload)

theorem deferred {s u : State} {r : Request} {rest : List Request} (h : u.link = (s.taken r rest).link) :
    Link.Deferred s.link u.settleLink.link r rest := by
  obtain ⟨x, y, hl⟩ := settleLink_link u
  unfold Link.Deferred
  rw [hl, h]
  simp [State.taken, Link.take, holdOnLeave, Request.ticket]

/-- An accepted request whose reply is deferred: the state but for the link, and the link (R183, R184). -/
theorem defer_spec {s u : State} {r : Request} {rest : List Request} (t : State)
    (hu : u = { t with link := (s.taken r rest).link }) :
    ∃ l', (.next u.settleLink : Host.Outcome State Fault Refusal) = .next { t with link := l' } ∧
      s.link.Deferred l' r rest := by
  subst hu
  exact ⟨_, rfl, deferred rfl⟩

/-- A refused request of a kind whose refusal carries its status alone (R205). -/
theorem refuse_spec {s : State} {r : Request} {rest : List Request} (st : Status) (h3 : r.kind ≠ 0x03)
    (h5 : r.kind ≠ 0x05) :
    ∃ l', (.next ((s.taken r rest).refuse r st).settleLink : Host.Outcome State Fault Refusal)
      = .next { s with link := l' } ∧ s.link.Answered l' r rest [st.code] := by
  refine answer_spec s ?_
  unfold State.refuse State.refusalBytes
  rw [if_neg h3, if_neg h5]
  rfl

theorem checked_some {r : Request} {checks : List (Bool × Status)} {effect : State → State} {s : State} {st : Status}
    (h : firstFailure checks = some st) : s.checked r checks effect = s.refuse r st := by
  unfold State.checked
  rw [h]

theorem checked_none {r : Request} {checks : List (Bool × Status)} {effect : State → State} {s : State}
    (h : firstFailure checks = none) : s.checked r checks effect = effect s := by
  unfold State.checked
  rw [h]

/-- Every command that is a request's acceptance is carried out by accept with a body of its own (R182). -/
theorem exec_request {c : Instr} {kind : Byte} (hk : requestKind c = some kind) :
    ∃ body, ∀ s, exec c s = accept kind body s := by
  cases c <;> simp only [requestKind, Option.some.injEq, reduceCtorEq] at hk <;> subst hk
  case level risen => exact ⟨_, fun s => (rfl : execLevel risen s = accept _ _ s)⟩
  case ping => exact ⟨_, fun s => (rfl : execPing s = accept _ _ s)⟩
  case status => exact ⟨_, fun s => (rfl : execStatus s = accept _ _ s)⟩
  case restart => exact ⟨_, fun s => (rfl : execRestart s = accept _ _ s)⟩
  case mode => exact ⟨_, fun s => (rfl : execMode s = accept _ _ s)⟩
  case geometry => exact ⟨_, fun s => (rfl : execGeometry s = accept _ _ s)⟩
  case define => exact ⟨_, fun s => (rfl : execDefine s = accept _ _ s)⟩
  case remove => exact ⟨_, fun s => (rfl : execRemove s = accept _ _ s)⟩
  case regions => exact ⟨_, fun s => (rfl : execRegions s = accept _ _ s)⟩
  case clear => exact ⟨_, fun s => (rfl : execClear s = accept _ _ s)⟩
  case select => exact ⟨_, fun s => (rfl : execSelect s = accept _ _ s)⟩
  case window => exact ⟨_, fun s => (rfl : execWindow s = accept _ _ s)⟩
  case read => exact ⟨_, fun s => (rfl : execRead s = accept _ _ s)⟩
  case write => exact ⟨_, fun s => (rfl : execWrite s = accept _ _ s)⟩
  case set => exact ⟨_, fun s => (rfl : execSet s = accept _ _ s)⟩
  case get => exact ⟨_, fun s => (rfl : execGet s = accept _ _ s)⟩
  case push => exact ⟨_, fun s => (rfl : execPush s = accept _ _ s)⟩
  case pop => exact ⟨_, fun s => (rfl : execPop s = accept _ _ s)⟩
  case start => exact ⟨_, fun s => (rfl : execStart s = accept _ _ s)⟩
  case stop => exact ⟨_, fun s => (rfl : execStop s = accept _ _ s)⟩
  case hold => exact ⟨_, fun s => (rfl : execHold s = accept _ _ s)⟩
  case release => exact ⟨_, fun s => (rfl : execRelease s = accept _ _ s)⟩
  case historyInfo => exact ⟨_, fun s => (rfl : execHistoryInfo s = accept _ _ s)⟩
  case defects => exact ⟨_, fun s => (rfl : execDefects s = accept _ _ s)⟩

end Sys2Proof.Machine
end

