-- ==== Sys2Proof/Laws/Tables.lean ====
section
/-! SUPPORT. Sparse tables, four-place records and the memory: what each operation reads and writes. -/

namespace Sys2Proof.Machine

-- Four like things

@[simp] theorem Four.get_set_self {α : Type} (f : Four α) (i : Fin 4) (x : α) : (f.set i x).get i = x := by
  fin_cases i <;> rfl

@[simp] theorem Four.get_set_ne {α : Type} (f : Four α) {i j : Fin 4} (x : α) (h : j ≠ i) : (f.set i x).get j = f.get j := by
  fin_cases i <;> fin_cases j <;> first | rfl | exact absurd rfl h

theorem Four.get_set {α : Type} (f : Four α) (i j : Fin 4) (x : α) :
    (f.set i x).get j = if j = i then x else f.get j := by
  by_cases h : j = i
  · subst h; simp
  · simp [h]

@[simp] theorem Four.get_map {α : Type} (g : α → α) (f : Four α) (i : Fin 4) : (f.map g).get i = g (f.get i) := by
  fin_cases i <;> rfl

theorem Four.all_iff {α : Type} (p : α → Bool) (f : Four α) : f.all p = true ↔ ∀ i, p (f.get i) = true := by
  constructor
  · intro h i
    simp only [Four.all, Bool.and_eq_true] at h
    fin_cases i
    · exact h.1.1.1
    · exact h.1.1.2
    · exact h.1.2
    · exact h.2
  · intro h
    simp only [Four.all, Bool.and_eq_true]
    exact ⟨⟨⟨h 0, h 1⟩, h 2⟩, h 3⟩

-- Sparse tables

theorem Table.find_put {α : Type} (t : Table α) (n m : Nat) (x : α) :
    Table.find (Table.put t n x) m = if m = n then some x else Table.find t m := by
  induction t with
  | nil => simp only [Table.put, Table.find]; by_cases h : n = m <;> simp [h, eq_comm]
  | cons p rest ih =>
    obtain ⟨k, v⟩ := p
    simp only [Table.put]
    split
    · by_cases h : n = m <;> simp [Table.find, h, eq_comm]
    · split
      · rename_i h; subst h; by_cases h2 : n = m <;> simp [Table.find, h2, eq_comm]
      · simp only [Table.find, ih]
        by_cases hk : k = m
        · subst hk; rename_i h; simp [Ne.symm h]
        · simp [hk]

theorem Table.find_drop_ne {α : Type} (t : Table α) {n m : Nat} (h : m ≠ n) :
    Table.find (Table.drop t n) m = Table.find t m := by
  induction t with
  | nil => rfl
  | cons p rest ih =>
    obtain ⟨k, v⟩ := p
    simp only [Table.drop]
    split
    · rename_i hk; subst hk; simp [Table.find, Ne.symm h]
    · simp only [Table.find, ih]

theorem Table.find_eq_none_of_lt {α : Type} {t : Table α} {n : Nat} (h : ∀ p ∈ t, n < p.1) : Table.find t n = none := by
  induction t with
  | nil => rfl
  | cons p rest ih =>
    obtain ⟨k, v⟩ := p
    have hk : n < k := h (k, v) (by simp)
    simp only [Table.find, if_neg (by omega : ¬ k = n)]
    exact ih (fun q hq => h q (by simp [hq]))

theorem Table.find_drop_self {α : Type} {t : Table α} (h : Table.wf t) (n : Nat) : Table.find (Table.drop t n) n = none := by
  induction t with
  | nil => rfl
  | cons p rest ih =>
    obtain ⟨k, v⟩ := p
    have hp := List.pairwise_cons.mp h
    simp only [Table.drop]
    split
    · rename_i hk; subst hk; exact Table.find_eq_none_of_lt (fun q hq => hp.1 q hq)
    · rename_i hk; simp only [Table.find, if_neg hk]; exact ih hp.2

theorem Table.mem_put {α : Type} {t : Table α} {n : Nat} {x : α} {p : Nat × α} (h : p ∈ Table.put t n x) :
    p = (n, x) ∨ p ∈ t := by
  induction t with
  | nil => simpa [Table.put] using h
  | cons q rest ih =>
    obtain ⟨k, v⟩ := q
    simp only [Table.put] at h
    split at h
    · simpa using h
    · split at h
      · rcases List.mem_cons.mp h with h | h
        · exact Or.inl h
        · exact Or.inr (by simp [h])
      · rcases List.mem_cons.mp h with h | h
        · exact Or.inr (by simp [h])
        · rcases ih h with h | h
          · exact Or.inl h
          · exact Or.inr (by simp [h])

theorem Table.wf_put {α : Type} {t : Table α} (h : Table.wf t) (n : Nat) (x : α) : Table.wf (Table.put t n x) := by
  induction t with
  | nil => simp [Table.put, Table.wf]
  | cons q rest ih =>
    obtain ⟨k, v⟩ := q
    have hp := List.pairwise_cons.mp h
    simp only [Table.put]
    split
    · rename_i hn
      refine List.pairwise_cons.mpr ⟨?_, h⟩
      intro p hp'
      rcases List.mem_cons.mp hp' with rfl | hp'
      · exact hn
      · exact lt_trans hn (hp.1 p hp')
    · split
      · rename_i hk; subst hk
        exact List.pairwise_cons.mpr ⟨hp.1, hp.2⟩
      · refine List.pairwise_cons.mpr ⟨?_, ih hp.2⟩
        intro p hp'
        rcases Table.mem_put hp' with rfl | hp'
        · show k < n; omega
        · exact hp.1 p hp'

theorem Table.mem_drop {α : Type} {t : Table α} {n : Nat} {p : Nat × α} (h : p ∈ Table.drop t n) : p ∈ t := by
  induction t with
  | nil => simp [Table.drop] at h
  | cons q rest ih =>
    obtain ⟨k, v⟩ := q
    simp only [Table.drop] at h
    split at h
    · simp [h]
    · rcases List.mem_cons.mp h with h | h
      · simp [h]
      · simp [ih h]

theorem Table.wf_drop {α : Type} {t : Table α} (h : Table.wf t) (n : Nat) : Table.wf (Table.drop t n) := by
  induction t with
  | nil => simp [Table.drop, Table.wf]
  | cons q rest ih =>
    obtain ⟨k, v⟩ := q
    have hp := List.pairwise_cons.mp h
    simp only [Table.drop]
    split
    · exact hp.2
    · exact List.pairwise_cons.mpr ⟨fun p hp' => hp.1 p (Table.mem_drop hp'), ih hp.2⟩

-- The memory

theorem lane_put (epoch : Nat) (m : Memory) (a b : Nat) (v : Half) :
    Memory.lane epoch (Table.put m a v) b = if b = a then v else Memory.lane epoch m b := by
  unfold Memory.lane
  rw [Table.find_put]
  split <;> rfl

/-- One lane of a write: the written lane takes the value if the condition holds, and no other lane changes (R17). -/
theorem writeLane_spec (epoch : Nat) (cond : WriteCond) (m : Memory) (a : Nat) (v : Half) :
    (∀ b, Memory.lane epoch (Memory.writeLane epoch cond m a v).1 b
      = if b = a ∧ cond.holds (Memory.lane epoch m a) v = true then v else Memory.lane epoch m b)
    ∧ (Memory.writeLane epoch cond m a v).2 = cond.holds (Memory.lane epoch m a) v := by
  unfold Memory.writeLane
  cases h : cond.holds (Memory.lane epoch m a) v
  · simp
  · constructor
    · intro b; simp [lane_put]
    · simp

theorem writeLane_wf (epoch : Nat) (cond : WriteCond) {m : Memory} (h : Memory.wf m) (a : Nat) (v : Half) :
    Memory.wf (Memory.writeLane epoch cond m a v).1 := by
  unfold Memory.writeLane
  split
  · exact Table.wf_put h a v
  · exact h

theorem writeLanes_wf (epoch row : Nat) (cond : WriteCond) (values : List (Nat × Half)) :
    ∀ {m : Memory}, Memory.wf m → Memory.wf (Memory.writeLanes epoch row cond m values).1 := by
  induction values with
  | nil => intro m h; exact h
  | cons p rest ih => intro m h; obtain ⟨l, v⟩ := p; exact ih (writeLane_wf epoch cond h _ v)

theorem writeLanes_other (epoch row : Nat) (cond : WriteCond) (values : List (Nat × Half)) :
    ∀ (m : Memory) (b : Nat), b ∉ values.map (fun p => laneAddr row p.1) →
      Memory.lane epoch (Memory.writeLanes epoch row cond m values).1 b = Memory.lane epoch m b := by
  induction values with
  | nil => intro m b _; rfl
  | cons p rest ih =>
    intro m b hb
    obtain ⟨l, v⟩ := p
    simp only [List.map_cons, List.mem_cons, not_or] at hb
    simp only [Memory.writeLanes]
    rw [ih _ b hb.2, (writeLane_spec epoch cond m (laneAddr row l) v).1 b]
    simp [hb.1]

theorem putWide_wf {m : Memory} (h : Memory.wf m) (row k : Nat) (v : Word) : Memory.wf (Memory.putWide m row k v) :=
  Table.wf_put (Table.wf_put h _ _) _ _

theorem lane_putWide (epoch : Nat) (m : Memory) (row k b : Nat) (v : Word) :
    Memory.lane epoch (Memory.putWide m row k v) b
      = if b = laneAddr row (2 * k + 1) then (v >>> 16).setWidth 16
        else if b = laneAddr row (2 * k) then v.setWidth 16 else Memory.lane epoch m b := by
  simp only [Memory.putWide, lane_put]

theorem addLanes_wf (epoch row : Nat) (addends : List (Nat × Word)) :
    ∀ {m : Memory}, Memory.wf m → Memory.wf (Memory.addLanes epoch row m addends) := by
  induction addends with
  | nil => intro m h; exact h
  | cons p rest ih => intro m h; obtain ⟨k, w⟩ := p; exact ih (putWide_wf h _ _ _)

theorem addLanes_other (epoch row : Nat) (addends : List (Nat × Word)) :
    ∀ (m : Memory) (b : Nat),
      b ∉ addends.flatMap (fun p => [laneAddr row (2 * p.1), laneAddr row (2 * p.1 + 1)]) →
      Memory.lane epoch (Memory.addLanes epoch row m addends) b = Memory.lane epoch m b := by
  induction addends with
  | nil => intro m b _; rfl
  | cons p rest ih =>
    intro m b hb
    obtain ⟨k, w⟩ := p
    simp only [List.flatMap_cons, List.mem_append, List.mem_cons, List.not_mem_nil, or_false, not_or] at hb
    simp only [Memory.addLanes]
    rw [ih _ b hb.2, lane_putWide, if_neg hb.1.2, if_neg hb.1.1]

/-- Every access keeps the memory's canonical form. -/
theorem perform_wf (epoch : Nat) {m : Memory} (h : Memory.wf m) (row : Nat) (op : StoreOp) :
    Memory.wf (m.perform epoch row op).1 := by
  cases op with
  | read lanes => exact h
  | write cond values => exact writeLanes_wf epoch row cond values h
  | add addends => exact addLanes_wf epoch row addends h

end Sys2Proof.Machine
end

