-- ==== Sys2Proof/Laws/Blocks.lean ====
section
/-! SUPPORT. What the work of a line, of an access and of a run leaves alone: the background of a state. -/

namespace Sys2Proof.Machine

/-- What no work on a line, an access, an install or a run's end touches: the pins, the geometry, the mode, the queue of
commands, the store but for claims, the receiving side of the link, what the run was started with. -/
structure Background where
  pins : Bool × Bool
  geometry : Option Geometry
  modeCtl : ModeCtl
  pending : List Instr
  mem : Memory × Nat
  array : ArrayState × RefreshWork × Nat × Bool × Nat × Bool × Bool
  receiving : BitRate × Receiver × List Request × Bool × Level
  started : List Context × Word × Trigger

def Store.background (st : Store) : (Memory × Nat) × (ArrayState × RefreshWork × Nat × Bool × Nat × Bool × Bool) :=
  ((st.mem, st.coldEpoch), (st.array, st.work, st.debt, st.urgent, st.pointer, st.ticking, st.entryOrdered))

def Link.background (l : Link) : BitRate × Receiver × List Request × Bool × Level :=
  (l.rate, l.receiver, l.inbound, l.holdOut, l.level)

def State.background (s : State) : Background where
  pins := (s.held, s.svc)
  geometry := s.geometry
  modeCtl := s.modeCtl
  pending := s.pending
  mem := s.store.background.1
  array := s.store.background.2
  receiving := s.link.background
  started := (s.run.stack, s.run.limit, s.run.trigger)

-- The link

@[simp] theorem background_link_reply (l : Link) (t : Ticket) (p : List Byte) : (l.reply t p).background = l.background := rfl

@[simp] theorem background_link_offer (l : Link) (n : Notice) : (l.offer n).background = l.background := by
  unfold Link.offer
  simp only
  split
  · split <;> rfl
  · split <;> rfl

@[simp] theorem background_link_offerAll (ns : List Notice) : ∀ l : Link, (l.offerAll ns).background = l.background := by
  induction ns with
  | nil => intro l; rfl
  | cons n rest ih =>
    intro l
    show ((l.offer n).offerAll rest).background = _
    rw [ih, background_link_offer]

theorem background_of_link {s : State} {l : Link} (h : l.background = s.link.background) :
    ({ s with link := l } : State).background = s.background := by
  simp only [State.background, h]

@[simp] theorem background_reply (s : State) (t : Ticket) (p : List Byte) : (s.reply t p).background = s.background := rfl

@[simp] theorem background_offer (s : State) (n : Notice) : (s.offer n).background = s.background :=
  background_of_link (background_link_offer s.link n)

@[simp] theorem background_replyPending (s : State) (p : PendingContext) : (s.replyPending p).background = s.background := rfl

@[simp] theorem background_settleLink (s : State) : s.settleLink.background = s.background := by
  obtain ⟨x, y, h⟩ := settleLink_eq s
  rw [h]
  rfl

-- The run

@[simp] theorem background_closeAll (s : State) (f : CloseFlag) : (s.closeAll f).background = s.background := by
  show ({ s with tracker := s.tracker.closeAll f, link := s.link.offerAll (s.tracker.closeNotices f) } : State).background = _
  simp only [State.background, background_link_offerAll]

@[simp] theorem background_install (s : State) : s.install.background = s.background := by
  unfold State.install
  split
  · rfl
  · simp only [background_replyPending]
    rename_i p _
    have h := background_closeAll { s with run := { s.run with active := p.context, next := none } } .contextChange
    simp only [State.background, closeAll_keeps, closeAll_link, background_link_offerAll] at h ⊢

@[simp] theorem background_tryInstall (s : State) : s.tryInstall.background = s.background := by
  unfold State.tryInstall
  split
  · exact background_install s
  · rfl

@[simp] theorem background_endRun (s : State) : s.endRun.background = s.background := by
  unfold State.endRun
  have h : (((s.install).closeAll .runEnd).offer
      (.runEnd ((s.install).closeAll .runEnd).run.limit ((s.install).closeAll .runEnd).engine.counter
        ((s.install).closeAll .runEnd).tracker.reported)).background = s.background := by
    rw [background_offer, background_closeAll, background_install]
  rw [← h]
  rfl

@[simp] theorem background_finishItem (s : State) (count : Nat) (last : Bool) :
    (s.finishItem count last).background = s.background := by
  unfold State.finishItem
  simp only
  split
  · rw [background_endRun]; rfl
  · rw [background_tryInstall]; rfl

@[simp] theorem background_finishLine (s : State) (w : LineWork) : (s.finishLine w).background = s.background := by
  unfold State.finishLine
  rw [background_finishItem]
  rfl

@[simp] theorem background_checkLine (s : State) : s.checkLine.background = s.background := by
  unfold State.checkLine
  split
  · split
    · exact background_finishLine s _
    · rfl
  all_goals rfl

-- The integrated line

@[simp] theorem background_storeLine (s : State) (n : Word) (means : List Half) :
    (s.storeLine n means).background = s.background := by
  unfold State.storeLine
  split
  · rfl
  · split <;> rfl

@[simp] theorem background_testLine (s : State) (means : List Half) : (s.testLine means).background = s.background := by
  unfold State.testLine
  split
  · rfl
  · split <;> rfl

@[simp] theorem background_deliver (s : State) (line : MeanLine) : (s.deliver line).background = s.background := by
  unfold State.deliver
  rw [background_testLine, background_storeLine]

@[simp] theorem background_checkMean (s : State) (depth : Nat) : (s.checkMean depth).background = s.background := by
  unfold State.checkMean
  split
  · rfl
  · split
    · simp only
      split
      · split
        · rw [background_deliver]; rfl
        · rfl
      all_goals rfl
    · rfl

@[simp] theorem background_gainRead (s : State) (t : Nat) (gains : List Half) :
    (s.gainRead t gains).background = s.background := by
  unfold State.gainRead
  split
  · rw [background_checkMean]; rfl
  all_goals rfl

@[simp] theorem background_accumulated (s : State) : s.accumulated.background = s.background := by
  unfold State.accumulated
  split
  · rw [background_checkMean]; rfl
  all_goals rfl

@[simp] theorem background_completeRead (s : State) (u : Nat) (cs : List Nat) (values : List Half) :
    (s.completeRead u cs values).background = s.background := by
  unfold State.completeRead
  split
  · rw [background_checkMean]; rfl
  all_goals rfl

@[simp] theorem background_boundsRead (s : State) (lower upper : Pieces) (left : Nat) :
    (s.boundsRead lower upper left).background = s.background := by
  unfold State.boundsRead
  split <;> rfl

@[simp] theorem background_lowerRead (s : State) (row : Nat) (values : List Half) :
    (s.lowerRead row values).background = s.background := by
  unfold State.lowerRead
  split
  · exact background_boundsRead s _ _ _
  all_goals rfl

@[simp] theorem background_upperRead (s : State) (row : Nat) (values : List Half) :
    (s.upperRead row values).background = s.background := by
  unfold State.upperRead
  split
  · exact background_boundsRead s _ _ _
  all_goals rfl

@[simp] theorem background_teachWritten (s : State) : s.teachWritten.background = s.background := by
  unfold State.teachWritten
  split
  · split <;> rfl
  all_goals rfl

@[simp] theorem background_commitLine (s : State) (n : Word) (runs : List LaneRun) :
    (s.commitLine n runs).background = s.background := by
  unfold State.commitLine
  simp only [State.background, background_link_offerAll]

-- The access unit

theorem background_of_store {s : State} {st : Store} (h : st.background = s.store.background) :
    ({ s with store := st } : State).background = s.background := by
  simp only [State.background, h]

@[simp] theorem admitAccess_background (st : Store) : st.admitAccess.background = st.background := by
  unfold Store.admitAccess
  split
  · rfl
  · split <;> rfl

@[simp] theorem background_presentAccess (s : State) (c : Claim) : (s.presentAccess c).background = s.background :=
  background_of_store (admitAccess_background _)

@[simp] theorem background_clearDone (s : State) (w : ClearWork) : (s.clearDone w).background = s.background := by
  unfold State.clearDone
  simp only
  split <;> rfl

@[simp] theorem background_rowCleared (s : State) : s.rowCleared.background = s.background := by
  unfold State.rowCleared
  split
  · rfl
  · split
    · rw [background_presentAccess]; rfl
    · exact background_clearDone s _

@[simp] theorem background_segmentRead (s : State) (values : List Half) :
    (s.segmentRead values).background = s.background := by
  unfold State.segmentRead
  split
  · split
    · rfl
    · simp only [background_presentAccess]; rfl
  all_goals rfl

@[simp] theorem background_segmentWritten (s : State) (written : List Bool) :
    (s.segmentWritten written).background = s.background := by
  unfold State.segmentWritten
  split
  · split
    · rfl
    · simp only [background_presentAccess]; rfl
  all_goals rfl

/-- Whoever receives the result of an access, the background stays. -/
@[simp] theorem background_giveResult (s : State) (use : ClaimUse) (r : AccessResult) :
    (s.giveResult use r).background = s.background := by
  cases use <;> simp only [State.giveResult, background_checkLine, background_gainRead, background_accumulated,
    background_completeRead, background_lowerRead, background_upperRead, background_teachWritten,
    background_segmentRead, background_segmentWritten, background_rowCleared]
  rfl

/-- The engine's taking of an item leaves the background alone. -/
@[simp] theorem background_takeItem (s : State) (item : QueueItem) : (s.takeItem item).background = s.background := by
  cases item with
  | line n slot =>
    show (s.takeLine n slot).background = _
    unfold State.takeLine
    simp only
    split
    · exact background_finishLine s _
    · rfl
  | loss first count reasons =>
    show (s.takeLoss first count reasons).background = _
    unfold State.takeLoss
    rw [background_finishItem, background_offer]
    rfl

-- The banks

theorem present_background (st : Store) (bank : Fin 4) : (st.present bank).background = st.background := by
  unfold Store.present
  simp only
  split
  · rfl
  · split
    · rfl
    · split
      · rfl
      · split <;> rfl

theorem decideIdle_background (st : Store) (bank : Fin 4) : (st.decideIdle bank).background = st.background := by
  unfold Store.decideIdle
  simp only
  split
  · split <;> rfl
  · rfl

theorem decideDone_background (st : Store) (bank : Fin 4) (row : Nat) : (st.decideDone bank row).background = st.background := by
  unfold Store.decideDone
  simp only
  split <;> rfl

theorem settleBank_background (st : Store) (bank : Fin 4) : (st.settleBank bank).background = st.background := by
  unfold Store.settleBank
  rw [present_background, decideIdle_background, present_background]

@[simp] theorem store_settleBanks_background (st : Store) : st.settleBanks.background = st.background := by
  unfold Store.settleBanks
  simp only [settleBank_background]

@[simp] theorem background_settleBanks (s : State) : s.settleBanks.background = s.background := by
  unfold State.settleBanks
  exact background_of_store (store_settleBanks_background s.store)

@[simp] theorem background_decideAfter (s : State) (bank : Fin 4) (row : Nat) :
    (s.decideAfter bank row).background = s.background := by
  unfold State.decideAfter
  apply background_of_store
  rw [store_settleBanks_background, decideDone_background, present_background, admitAccess_background]

end Sys2Proof.Machine
end

