-- ==== Sys2Proof/Laws/Contexts.lean ====
section
/-! SUPPORT. The checks of a context record and the claims of CLEAR, READ and WRITE, each in the words that statements are
made in (R28, R29, R39, R46, R48, R49, R164). -/

namespace Sys2Proof.Machine

-- Context records

theorem testModeOf_eq (n : Nat) :
    testModeOf n = if n ≤ 1 then some (if n = 0 then .inspect else .teach) else none := by
  rcases n with _ | _ | n
  · rfl
  · rfl
  · simp [testModeOf]

theorem regionFieldOf_eq (n : Nat) :
    regionFieldOf n = if n ≤ 15 ∨ n = 255 then some (if n = 255 then none else some n) else none := by
  unfold regionFieldOf
  by_cases h : n ≤ 15
  · have : n ≠ 255 := by omega
    simp [h, this]
  · by_cases h2 : n = 255 <;> simp [h, h2]

/-- The record of a SET payload, or none where a field is outside its range (R46). -/
theorem contextOf_eq (p : List Byte) : contextOf p = if Context.InRange p then some (Context.Carried p) else none := by
  have ranges : contextRangesOk p = true ↔
      (u8At p 1 = 1 ∨ u8At p 1 = 2 ∨ u8At p 1 = 4 ∨ u8At p 1 = 8 ∨ u8At p 1 = 16) ∧ (1 ≤ u8At p 2 ∧ u8At p 2 ≤ 16) ∧
        u8At p 6 ≤ 31 ∧ (1 ≤ u8At p 9 ∧ u8At p 9 ≤ 64) ∧ u8At p 10 ≤ 15 ∧ u8At p 11 ≤ 7 ∧ 16 ≤ u16At p 12 ∧
        u16At p 14 ≤ 4095 ∧ u16At p 16 ≤ 4095 ∧ u8At p 18 ≤ 4 ∧
        ∀ i < u8At p 18, u16At p (19 + 4 * i) ≤ 4095 ∧ u16At p (21 + 4 * i) ≤ 4095 := by
    simp [contextRangesOk, excludedOf, and_assoc]
  have whole : Context.InRange p ↔ u8At p 0 ≤ 1 ∧ (u8At p 5 ≤ 15 ∨ u8At p 5 = 255) ∧ (u8At p 7 ≤ 15 ∨ u8At p 7 = 255) ∧
      (u8At p 8 ≤ 15 ∨ u8At p 8 = 255) ∧ contextRangesOk p = true := by
    rw [ranges]
    constructor
    · rintro ⟨a, b, c, d, e, f, g, h, i, j, k, l, m, n, o⟩
      exact ⟨a, d, f, g, b, c, e, h, i, j, k, l, m, n, o⟩
    · rintro ⟨a, d, f, g, b, c, e, h, i, j, k, l, m, n, o⟩
      exact ⟨a, b, c, d, e, f, g, h, i, j, k, l, m, n, o⟩
  unfold contextOf
  rw [testModeOf_eq, regionFieldOf_eq, regionFieldOf_eq, regionFieldOf_eq]
  by_cases h0 : u8At p 0 ≤ 1
  · by_cases h5 : u8At p 5 ≤ 15 ∨ u8At p 5 = 255
    · by_cases h7 : u8At p 7 ≤ 15 ∨ u8At p 7 = 255
      · by_cases h8 : u8At p 8 ≤ 15 ∨ u8At p 8 = 255
        · rw [if_pos h0, if_pos h5, if_pos h7, if_pos h8]
          by_cases hr : contextRangesOk p = true
          · rw [if_pos (whole.mpr ⟨h0, h5, h7, h8, hr⟩)]
            simp only [hr, if_true]
            rfl
          · rw [if_neg (fun c => hr (whole.mp c).2.2.2.2)]
            simp only [hr, Bool.false_eq_true, if_false]
        · rw [if_neg (fun c => h8 (whole.mp c).2.2.2.1), if_pos h0, if_pos h5, if_pos h7, if_neg h8]
      · rw [if_neg (fun c => h7 (whole.mp c).2.2.1), if_pos h0, if_pos h5, if_neg h7]
    · rw [if_neg (fun c => h5 (whole.mp c).2.1), if_pos h0, if_neg h5]
  · rw [if_neg (fun c => h0 (whole.mp c).1), if_neg h0]

/-- One check of a list, in words of its own, before the others. -/
theorem firstFailure_cons {bad : Bool} {p : Prop} [Decidable p] {status : Status} {rest : List (Bool × Status)}
    {x : Option Byte} (hb : bad = true ↔ p) (hr : (firstFailure rest).map Status.code = x) :
    (firstFailure ((bad, status) :: rest)).map Status.code = if p then some status.code else x := by
  by_cases h : p
  · simp [firstFailure, hb.mpr h, h]
  · have : bad = false := by rw [← Bool.not_eq_true]; exact fun c => h (hb.mp c)
    simp [firstFailure, this, h, hr]

/-- The first failing check of a record gives its status (R48, R49). -/
theorem contextChecks_eq (s : State) (c : Context) :
    (firstFailure (s.contextChecks c)).map Status.code = s.ContextStatus c := by
  have range : c.excluded.any s.badRange = true ↔
      (s.geometry = none ∧ c.excluded ≠ []) ∨ ∃ x ∈ c.excluded, x.2 < x.1 ∨ s.lanes ≤ x.2 := by
    simp only [List.any_eq_true, State.badRange, Bool.or_eq_true, Option.isNone_iff_eq_none, decide_eq_true_eq]
    constructor
    · rintro ⟨x, hx, h | h⟩
      · exact Or.inl ⟨h, List.ne_nil_of_mem hx⟩
      · exact Or.inr ⟨x, hx, h⟩
    · rintro (⟨h, hx⟩ | ⟨x, hx, h⟩)
      · obtain ⟨x, hx⟩ := List.exists_mem_of_ne_nil _ hx
        exact ⟨x, hx, Or.inl h⟩
      · exact ⟨x, hx, Or.inr h⟩
  have region : ∀ kind field, s.badRegion kind field = true ↔ field ≠ none ∧ s.regionOfKind kind field = none := by
    intro kind field
    simp [State.badRegion, Option.isSome_iff_ne_none]
  have loaded : s.notLoaded c = true ↔ ∀ q, s.regionOfKind .profile c.profile = some q → q.loaded = false := by
    unfold State.notLoaded
    cases s.regionOfKind .profile c.profile <;> simp
  have busy : s.namesClearTarget c = true ↔ ∃ w, s.access.clear = some w ∧ c.names w.region = true := by
    unfold State.namesClearTarget
    cases s.access.clear <;> simp
  have absent : ∀ field : Option Nat, field.isNone = true ↔ field = none := fun _ => Option.isNone_iff_eq_none
  unfold State.contextChecks State.ContextStatus State.loadChecks State.runChecks
  refine firstFailure_cons decide_eq_true_iff (firstFailure_cons range (firstFailure_cons (region _ _)
    (firstFailure_cons (region _ _) (firstFailure_cons (region _ _) ?_))))
  by_cases hs : s.run.st = .stopped
  · simp only [hs, if_true]
    rfl
  · simp only [hs, if_false]
    exact firstFailure_cons (absent _) (firstFailure_cons (absent _) (firstFailure_cons decide_eq_true_iff
      (firstFailure_cons decide_eq_true_iff (firstFailure_cons loaded (firstFailure_cons busy rfl)))))

-- Claims

/-- The claim of a CLEAR for row t of the plane at a place of an entry (R28, R39). -/
theorem clearClaim_row {s : State} {w : ClearWork} {q : Region} (hq : s.region w.region = some q) (entry place t : Nat)
    (hk : q.kind ≠ .accum) (hp : place < if q.kind = .profile then 3 else 1) (ht : t < s.slot)
    (hr : w.nextRow = q.first + entry * q.rowsPerEntry s.slot + place * s.slot + t) :
    s.clearClaim w = ⟨w.nextRow,
      .write .always ((List.range (min 512 (s.lanes - 512 * t))).map (fun l =>
        (l, if place = 0 then w.fill0 else if place = 1 then w.fill1 else w.fill2))), .clearRow⟩ := by
  have hper : q.rowsPerEntry s.slot = (if q.kind = .profile then 3 else 1) * s.slot := by
    unfold Region.rowsPerEntry RegionKind.rowsPerEntry
    cases hc : q.kind <;> simp_all
  have hlt : place * s.slot + t < q.rowsPerEntry s.slot := by
    rw [hper]
    calc place * s.slot + t < place * s.slot + s.slot := by omega
      _ = (place + 1) * s.slot := by ring
      _ ≤ _ := Nat.mul_le_mul_right _ hp
  have hmod : (w.nextRow - q.first) % q.rowsPerEntry s.slot = place * s.slot + t := by
    rw [hr, show q.first + entry * q.rowsPerEntry s.slot + place * s.slot + t - q.first
      = place * s.slot + t + entry * q.rowsPerEntry s.slot by omega, Nat.add_mul_mod_self_right, Nat.mod_eq_of_lt hlt]
  have hdiv : (place * s.slot + t) / s.slot = place := by
    rw [Nat.mul_comm, Nat.mul_add_div (by omega), Nat.div_eq_of_lt ht, Nat.add_zero]
  have hrem : (place * s.slot + t) % s.slot = t := by
    rw [Nat.mul_comm, Nat.mul_add_mod, Nat.mod_eq_of_lt ht]
  have hfill : w.fill place = if place = 0 then w.fill0 else if place = 1 then w.fill1 else w.fill2 := by
    rcases place with _ | _ | n <;> simp [ClearWork.fill]
  unfold State.clearClaim
  simp only [hq, hmod, hdiv, hrem, planeLanes, planeRowLanes, hfill]

/-- The store row of a position, as the table of R164 gives it. -/
theorem rowOf_eq (slot : Nat) (q : Region) (plane : Plane) (c : Cursor) :
    q.rowOf slot plane c = q.first
      + c.entry * (match q.kind with | .profile => 3 * slot | .accum => 2 * slot | .history | .scratch => slot)
      + (match plane with | .gain | .single => 0 | .lower => slot | .upper => 2 * slot)
      + c.lane / (if q.kind = .accum then 256 else 512) := by
  unfold Region.rowOf Region.planeRow Region.rowsPerEntry
  cases q.kind <;> cases plane <;> simp [RegionKind.rowsPerEntry, RegionKind.laneUnit, Plane.offset]

/-- The storage lanes of a position, as the table of R164 gives them. -/
theorem lanesOf_eq (kind : RegionKind) (c : Cursor) :
    kind.lanesOf c = if kind = .accum then [2 * (c.lane % 256), 2 * (c.lane % 256) + 1] else [c.lane % 512] := by
  cases kind <;> simp [RegionKind.lanesOf]

theorem laneUnit_eq (kind : RegionKind) : kind.laneUnit = if kind = .accum then 256 else 512 := by
  cases kind <;> simp [RegionKind.laneUnit]

end Sys2Proof.Machine
end

