-- ==== Sys2Proof/Laws/Store.lean ====
section
/-! SUPPORT. The bank controller: what one access does to each lane, and when nothing is left to decide. -/

namespace Sys2Proof.Machine

-- One access on the lanes of a row

/-- An access changes no lane that its claim does not name (R3). -/
theorem perform_other (epoch : Nat) (m : Memory) (row : Nat) (op : StoreOp) (a : Nat) (h : a ∉ op.lanes.map (laneAddr row)) :
    Memory.lane epoch (m.perform epoch row op).1 a = Memory.lane epoch m a := by
  cases op with
  | read l => rfl
  | write cond vs => exact writeLanes_other epoch row cond vs m a (by simpa [StoreOp.lanes, List.map_map, Function.comp_def] using h)
  | add as => exact addLanes_other epoch row as m a (by simpa [StoreOp.lanes, List.map_flatMap] using h)

/-- Lanes of one row have addresses of their own (R1). -/
theorem laneAddr_inj {row a b : Nat} (h : laneAddr row a = laneAddr row b) : a = b := by
  unfold laneAddr at h; omega

/-- When a condition holds (R17). -/
theorem holds_iff (cond : WriteCond) (o n : Half) : cond.holds o n = true ↔ (cond = .always ∨ (cond = .ifGreater ∧ o.toNat < n.toNat) ∨ (cond = .ifLess ∧ n.toNat < o.toNat)) := by
  cases cond <;> simp [WriteCond.holds]

/-- A write that names each lane once, lane by lane, with the results told to the claimant (R17). -/
theorem writeLanes_spec (epoch row : Nat) (cond : WriteCond) (values : List (Nat × Half)) (hn : (values.map (·.1)).Nodup) :
   ∀ m : Memory,
    (∀ l v, (l, v) ∈ values → Memory.lane epoch (Memory.writeLanes epoch row cond m values).1 (laneAddr row l)
       = if cond.holds (Memory.lane epoch m (laneAddr row l)) v = true then v else Memory.lane epoch m (laneAddr row l)) ∧
    (Memory.writeLanes epoch row cond m values).2 = values.map (fun p => cond.holds (Memory.lane epoch m (laneAddr row p.1)) p.2) := by
  induction values with
  | nil => intro m; exact ⟨fun l v h => absurd h (by simp), rfl⟩
  | cons p rest ih =>
    intro m
    obtain ⟨k, w⟩ := p
    simp only [List.map_cons, List.nodup_cons] at hn
    obtain ⟨i1, i2⟩ := ih hn.2 (Memory.writeLane epoch cond m (laneAddr row k) w).1
    have sp := writeLane_spec epoch cond m (laneAddr row k) w
    have hne : ∀ l, l ∈ rest.map (·.1) → Memory.lane epoch (Memory.writeLane epoch cond m (laneAddr row k) w).1 (laneAddr row l) = Memory.lane epoch m (laneAddr row l) := by
      intro l hl
      rw [sp.1, if_neg]
      rintro ⟨h, -⟩
      have := laneAddr_inj h; subst this; exact hn.1 hl
    refine ⟨?_, ?_⟩
    · intro l v hl
      simp only [Memory.writeLanes]
      rcases List.mem_cons.mp hl with hl | hl
      · cases hl
        rw [writeLanes_other, sp.1]
        · simp
        · intro hc
          simp only [List.mem_map] at hc
          obtain ⟨q, hq, e⟩ := hc
          exact hn.1 (List.mem_map.mpr ⟨q, hq, laneAddr_inj e⟩)
      · rw [i1 l v hl, hne l (List.mem_map.mpr ⟨_, hl, rfl⟩)]
    · simp only [Memory.writeLanes, i2, List.map_cons, sp.2]
      congr 1
      apply List.map_congr_left
      intro q hq
      rw [hne q.1 (List.mem_map.mpr ⟨_, hq, rfl⟩)]

/-- The two halves of a 32-bit value, high half first, are the value (R2). -/
theorem halves_append (v : Word) : (v >>> 16).setWidth 16 ++ v.setWidth 16 = v := by
  apply BitVec.eq_of_getLsbD_eq
  intro i hi
  rw [BitVec.getLsbD_append]
  by_cases h : i < 16
  · simp [h]
  · have h16 : i - 16 < 16 := by omega
    simp [h, h16, show 16 + (i - 16) = i by omega]

/-- An ADD that names each lane pair once, pair by pair (R18). -/
theorem addLanes_spec (epoch row : Nat) (values : List (Nat × Word)) (hn : (values.map (·.1)).Nodup) :
   ∀ m : Memory, ∀ k w, (k, w) ∈ values → Memory.wide epoch (Memory.addLanes epoch row m values) row k = Memory.wide epoch m row k + w := by
  induction values with
  | nil => intro m l v h; simp at h
  | cons p rest ih =>
    intro m k w hk
    obtain ⟨j, x⟩ := p
    simp only [List.map_cons, List.nodup_cons] at hn
    simp only [Memory.addLanes]
    rcases List.mem_cons.mp hk with h2 | h2
    · cases h2
      have : ∀ v : Word, Memory.wide epoch (Memory.addLanes epoch row (Memory.putWide m row k v) rest) row k = v := by
        intro v
        have hnot : ∀ d, d < 2 → laneAddr row (2 * k + d) ∉ rest.flatMap (fun p => [laneAddr row (2 * p.1), laneAddr row (2 * p.1 + 1)]) := by
          intro d hd hc
          simp only [List.mem_flatMap, List.mem_cons, List.not_mem_nil, or_false] at hc
          obtain ⟨q, hq, e⟩ := hc
          have : q.1 = k := by
            rcases e with e | e <;> have := laneAddr_inj e <;> omega
          exact hn.1 (List.mem_map.mpr ⟨q, hq, this⟩)
        unfold Memory.wide
        rw [addLanes_other _ _ _ _ _ (hnot 1 (by omega)), addLanes_other _ _ _ _ _ (by simpa using hnot 0 (by omega)), lane_putWide, lane_putWide]
        have : laneAddr row (2 * k) ≠ laneAddr row (2 * k + 1) := by unfold laneAddr; omega
        simp only [if_true, this, if_false]
        exact halves_append v
      exact this _
    · rw [ih hn.2 _ k w h2]
      have hkj : k ≠ j := fun e => hn.1 (List.mem_map.mpr ⟨(k, w), h2, e⟩)
      unfold Memory.wide
      simp only [lane_putWide]
      have a1 : laneAddr row (2 * k + 1) ≠ laneAddr row (2 * j + 1) := by unfold laneAddr; omega
      have a2 : laneAddr row (2 * k + 1) ≠ laneAddr row (2 * j) := by unfold laneAddr; omega
      have a3 : laneAddr row (2 * k) ≠ laneAddr row (2 * j + 1) := by unfold laneAddr; omega
      have a4 : laneAddr row (2 * k) ≠ laneAddr row (2 * j) := by unfold laneAddr; omega
      simp [a1, a2, a3, a4]

-- Decisions

/-- An IDLE bank at which no claim waits has nothing to decide. -/
theorem decideIdle_noop (st : Store) (b : Fin 4) (h1 : (st.banks.get b).engineClaim = none) (h2 : (st.banks.get b).accessClaim = none) :
   st.decideIdle b = st := by
  unfold Store.decideIdle
  simp only [Bank.grant, h1, h2]
  split <;> rfl

/-- With no claim ready, none arrives at a bank. -/
theorem present_noop (st : Store) (b : Fin 4) (h1 : st.engineReady = []) (h2 : st.testerReady = []) (h3 : st.historyReady = []) :
   st.present b = st := by
  unfold Store.present
  simp only [h1, h2, h3, pickReady, List.filter_nil]
  split <;> rfl

/-- With no claim waiting, no bank decides anything (R6, R9). -/
theorem settleBanks_noop (st : Store) (h : st.noClaimWaits = true) : st.settleBanks = st := by
  unfold Store.noClaimWaits at h
  simp only [Bool.and_eq_true, List.isEmpty_iff, Four.all_iff, Option.isNone_iff_eq_none] at h
  obtain ⟨⟨⟨⟨h0, h1⟩, h2⟩, h3⟩, -⟩ := h
  unfold Store.settleBanks Store.settleBank
  simp only [present_noop st _ h1 h2 h3, decideIdle_noop st _ (h0 _).1 (h0 _).2]

/-- The arrival of an ENGINE claim changes no bank's state, grant or pass-over count (R4). -/
theorem present_banks (st : Store) (bank i : Fin 4) :
    ((st.present bank).banks.get i).st = (st.banks.get i).st ∧
      ((st.present bank).banks.get i).granted = (st.banks.get i).granted ∧
      ((st.present bank).banks.get i).passOver = (st.banks.get i).passOver := by
  have key : ∀ c : Claim, ((st.banks.set bank { st.banks.get bank with engineClaim := some c }).get i).st = (st.banks.get i).st ∧
      ((st.banks.set bank { st.banks.get bank with engineClaim := some c }).get i).granted = (st.banks.get i).granted ∧
      ((st.banks.set bank { st.banks.get bank with engineClaim := some c }).get i).passOver = (st.banks.get i).passOver := by
    intro c
    rw [Four.get_set]
    split
    · subst_vars; exact ⟨rfl, rfl, rfl⟩
    · exact ⟨rfl, rfl, rfl⟩
  unfold Store.present
  simp only
  split
  · exact ⟨rfl, rfl, rfl⟩
  · split
    · exact key _
    · split
      · exact key _
      · split
        · exact key _
        · exact ⟨rfl, rfl, rfl⟩

/-- A claim's arrival does not decide whether grants are permitted (R6). -/
theorem present_permitted (st : Store) (bank : Fin 4) : (st.present bank).permitted = st.permitted := by
  have h := present_background st bank
  have h1 : (st.present bank).array = st.array := congrArg (·.2.1) h
  have h2 : (st.present bank).urgent = st.urgent := congrArg (·.2.2.2.2.1) h
  unfold Store.permitted; rw [h1, h2]

/-- Where no grant is permitted, an IDLE bank decides nothing (R6). -/
theorem decideIdle_forbidden {st : Store} (h : st.permitted = false) (bank : Fin 4) : st.decideIdle bank = st := by
  unfold Store.decideIdle
  simp only [h]
  rw [if_neg]
  simp

/-- Where no grant is permitted, the banks keep their states, grants and pass-over counts (R6). -/
theorem settleBanks_forbidden {st : Store} (h : st.permitted = false) (i : Fin 4) :
    (st.settleBanks.banks.get i).st = (st.banks.get i).st ∧
      (st.settleBanks.banks.get i).granted = (st.banks.get i).granted ∧
      (st.settleBanks.banks.get i).passOver = (st.banks.get i).passOver := by
  have one : ∀ (u : Store) (b : Fin 4), u.permitted = false → (u.settleBank b).permitted = false ∧
      ((u.settleBank b).banks.get i).st = (u.banks.get i).st ∧
      ((u.settleBank b).banks.get i).granted = (u.banks.get i).granted ∧
      ((u.settleBank b).banks.get i).passOver = (u.banks.get i).passOver := by
    intro u b hu
    unfold Store.settleBank
    have hp : (u.present b).permitted = false := by rw [present_permitted, hu]
    rw [decideIdle_forbidden hp]
    refine ⟨by rw [present_permitted, hp], ?_, ?_, ?_⟩
    · rw [(present_banks _ b i).1, (present_banks _ b i).1]
    · rw [(present_banks _ b i).2.1, (present_banks _ b i).2.1]
    · rw [(present_banks _ b i).2.2, (present_banks _ b i).2.2]
  unfold Store.settleBanks
  have a0 := one st 0 h
  have a1 := one _ 1 a0.1
  have a2 := one _ 2 a1.1
  have a3 := one _ 3 a2.1
  exact ⟨by rw [a3.2.1, a2.2.1, a1.2.1, a0.2.1], by rw [a3.2.2.1, a2.2.2.1, a1.2.2.1, a0.2.2.1],
    by rw [a3.2.2.2, a2.2.2.2, a1.2.2.2, a0.2.2.2]⟩

/-- With no urgency and no self-refresh entry ordered, only grants are decided (R6, R11, R19). -/
theorem settle_noEntry {st : Store} (h : st.entryOrdered = false) (hu : st.urgent = false) :
    st.settle = st.settleBanks := by
  unfold Store.settle Store.enterSelfRefresh Store.startUrgent
  simp [h, hu]

-- The access unit's claim

/-- A claim of the access unit is in the store: it waits on a bank, or was granted there (R4). -/
theorem accessUnderWay_iff (st : Store) :
    st.accessUnderWay = true ↔ ∃ i, (st.banks.get i).accessClaim ≠ none ∨
      ∃ g, (st.banks.get i).granted = some g ∧ g.use.claimant = .access := by
  unfold Store.accessUnderWay
  rw [Bool.not_eq_true', ← Bool.not_eq_true, Four.all_iff]
  push Not
  refine exists_congr fun i => ?_
  simp only [Bank.hasAccess, ne_eq, Bool.not_eq_true', Bool.not_eq_false, Bool.or_eq_true, Option.any_eq_true,
    decide_eq_true_eq, Option.isSome_iff_ne_none]

/-- The access unit's claim goes to its bank where its previous one has completed (R4). -/
theorem presentAccess_free {st : Store} (c : Claim) (h : st.accessUnderWay = false) :
    st.presentAccess c = { st with
      accessReady := none
      banks := st.banks.set (bankOf c.row) { st.banks.get (bankOf c.row) with accessClaim := some c } } := by
  have h' : ({ st with accessReady := some c } : Store).accessUnderWay = false := h
  unfold Store.presentAccess Store.admitAccess
  simp only [h']
  rfl

/-- It is kept back where the previous one has not (R4). -/
theorem presentAccess_busy {st : Store} (c : Claim) (h : st.accessUnderWay = true) :
    st.presentAccess c = { st with accessReady := some c } := by
  have h' : ({ st with accessReady := some c } : Store).accessUnderWay = true := h
  unfold Store.presentAccess Store.admitAccess
  simp only [h', if_true]

-- Orders and withdrawals

/-- Self-refresh entry is made at once with the array READY and all banks IDLE (R19). -/
theorem orderEntry_made {st : Store} (ha : st.array = .ready) (hi : st.allIdle = true) :
    st.orderEntry = { st with array := .selfRefresh, work := .none, debt := 0, urgent := false, entryOrdered := false } := by
  unfold Store.orderEntry Store.enterSelfRefresh
  rw [if_pos ⟨rfl, ha, hi⟩]

/-- Otherwise it stands ordered (R19). -/
theorem orderEntry_waits {st : Store} (h : ¬(st.array = .ready ∧ st.allIdle = true)) :
    st.orderEntry = { st with entryOrdered := true } := by
  unfold Store.orderEntry Store.enterSelfRefresh
  rw [if_neg (fun k => h ⟨k.2.1, k.2.2⟩)]

/-- Each bank after the withdrawal of the ENGINE claims (R16). -/
theorem withdrawEngine_get (st : Store) (i : Fin 4) : st.withdrawEngine.banks.get i = (st.banks.get i).withdrawEngine := by
  simp only [Store.withdrawEngine, Four.map, Four.get]
  split <;> rfl

/-- Each bank after RESTART's withdrawals: no claim waits, a granted access goes on for no one (R13, R16). -/
theorem withdrawAll_get (st : Store) (i : Fin 4) :
    st.withdrawEngine.withdrawAccess.banks.get i = { st.banks.get i with
      granted := (st.banks.get i).granted.map (fun g => { g with use := .discarded g.use.claimant })
      engineClaim := none
      accessClaim := none
      passOver := if (st.banks.get i).accessClaim = none then (st.banks.get i).passOver else 0 } := by
  simp only [Store.withdrawEngine, Store.withdrawAccess, Four.get_map]
  obtain ⟨b, granted, engine, access, count⟩ := st.banks.get i
  cases granted with
  | none => cases access <;> rfl
  | some g =>
    obtain ⟨row, op, use⟩ := g
    cases use <;> cases access <;> first | rfl | (rename_i c x; cases c <;> rfl) | (rename_i c; cases c <;> rfl)

end Sys2Proof.Machine
end

