-- ==== Sys2Proof/Laws/Events.lean ====
section
/-! SUPPORT. What an event's command comes to once its conditions hold: the engine's taking of an item, a completed
access, the sampling edges of the line port. -/

namespace Sys2Proof.Machine

/-- The engine takes the item at the head of the line queue (R86). -/
theorem engineTakeItem_next {s : State} {item : QueueItem} {rest : List QueueItem} (h : s.held = false)
    (hp : s.powered = true) (hb : s.engine.st = .between) (hq : s.port.queue = item :: rest) :
    exec .engineTakeItem s
      = .next ((({ s with port := { s.port with queue := rest } }).takeItem item).settleBanks).settleLink := by
  show execEngineTakeItem s = _
  unfold execEngineTakeItem
  rw [awake_of_awake h]
  simp only [hp, hb, hq, and_self, if_true]

/-- The granted access of an open bank completes (R3, R6). -/
theorem accessComplete_next {s : State} {bank : Fin 4} {row : Nat} {c : Claim} (h : s.held = false)
    (h1 : (s.store.banks.get bank).st = .opened row) (h2 : (s.store.banks.get bank).granted = some c)
    (h3 : c.inStore = true) :
    exec (.accessComplete bank) s
      = .next ((((s.performed bank c).giveResult c.use
          (s.store.mem.perform s.store.coldEpoch c.row c.op).2).decideAfter bank row).settleLink) := by
  show execAccessComplete bank s = _
  unfold execAccessComplete
  simp only [h1, h2, h3, if_true]
  rw [awake_of_awake h]

-- The line port

/-- An effect at a sampling edge, in ACTIVE under a fixed geometry (R69). -/
theorem atEdge_eq {s : State} {g : Geometry} (hm : s.modeCtl.mode = .steady .active) (hg : s.geometry = some g)
    (f : Geometry → Port → Port) : s.atEdge f = { s with port := f g s.port } := by
  unfold State.atEdge
  rw [hg]
  simp [State.powered, hm]

theorem wasActive_high {g : Geometry} {p : Port} (h : p.lval = some (g.lvalLevel == .high)) : p.wasActive g = true := by
  unfold Port.wasActive
  rw [h]
  unfold Geometry.isActive
  cases g.lvalLevel <;> rfl

theorem wasActive_low {g : Geometry} {p : Port} (h : p.lval = some (g.lvalLevel == .low)) : p.wasActive g = false := by
  unfold Port.wasActive
  rw [h]
  unfold Geometry.isActive
  cases g.lvalLevel <;> rfl

theorem level_eq (g : Geometry) : g.level true = (g.lvalLevel == .high) ∧ g.level false = (g.lvalLevel == .low) := by
  unfold Geometry.level
  cases g.lvalLevel <;> exact ⟨rfl, rfl⟩

theorem isActive_eq (g : Geometry) :
    g.isActive (g.lvalLevel == .high) = true ∧ g.isActive (g.lvalLevel == .low) = false := by
  unfold Geometry.isActive
  cases g.lvalLevel <;> exact ⟨rfl, rfl⟩

/-- The lowest-numbered free slot is found (R75). -/
theorem lowestFree_some {f : Four (Option (List Sample))} {k : Fin 4} (h : f.get k = none)
    (hk : ∀ j < k, f.get j ≠ none) : lowestFree f = some k := by
  unfold lowestFree
  fin_cases k
  · exact if_pos h
  · have a : f.a0 ≠ none := hk 0 (by decide)
    rw [if_neg a]
    exact if_pos h
  · have a : f.a0 ≠ none := hk 0 (by decide)
    have b : f.a1 ≠ none := hk 1 (by decide)
    rw [if_neg a, if_neg b]
    exact if_pos h
  · have a : f.a0 ≠ none := hk 0 (by decide)
    have b : f.a1 ≠ none := hk 1 (by decide)
    have c : f.a2 ≠ none := hk 2 (by decide)
    rw [if_neg a, if_neg b, if_neg c]
    exact if_pos h

theorem lowestFree_none {f : Four (Option (List Sample))} (h : ∀ j, f.get j ≠ none) : lowestFree f = none := by
  have a : f.a0 ≠ none := h 0
  have b : f.a1 ≠ none := h 1
  have c : f.a2 ≠ none := h 2
  have d : f.a3 ≠ none := h 3
  unfold lowestFree
  rw [if_neg a, if_neg b, if_neg c, if_neg d]

/-- An activation that numbers a line (R74, R75). -/
theorem activate_eq {p : Port} {limit : Word} (x : Sample) (hr : p.st = .ready)
    (hl : limit = 0 ∨ p.counter.toNat < limit.toNat) :
    p.activate limit x =
      match lowestFree p.slots with
      | some slot =>
        { p with counter := p.counter + 1, st := .filling p.counter slot, slots := p.slots.set slot (some [x]) }
      | none =>
        { p with
          counter := p.counter + 1
          st := if lastLine limit p.counter then .off else .discarding
          queue := placeLoss p.counter .ofOverrun p.queue } :=
  if_pos ⟨hr, hl⟩

/-- A loss is placed by the newest item alone (R79). -/
theorem placeLoss_append (n : Word) (reason : Reasons) (q : List QueueItem) (i : QueueItem) :
    placeLoss n reason (q ++ [i]) = q ++ placeLoss n reason [i] := by
  induction q with
  | nil => rfl
  | cons a rest ih =>
    cases rest with
    | nil => cases a <;> simp [placeLoss]
    | cons b bs => cases a <;> simp [placeLoss] at ih ⊢ <;> exact ih

-- The receiver

/-- A receiver rejection takes a free entry, or is not sent (R179). -/
theorem reject_eq (kind tag : Byte) (st : Status) (l : Link) :
    l.reject kind tag st = { l with
      replies :=
        if l.replies.length + l.reserved.length < 8
        then l.replies ++ [⟨if kind.toNat < 128 then kind + 0x80 else kind, tag, [st.code]⟩]
        else l.replies } := by
  unfold Link.reject Link.hasFreeEntry
  by_cases hq : l.replies.length + l.reserved.length < 8 <;> simp [hq, Config.replyEntries, rejectionKind]

theorem u16of_le16 {n : Nat} (h : n < 65536) : u16of (BitVec.ofNat 8 n) (BitVec.ofNat 8 (n / 256)) = n := by
  simp only [u16of, BitVec.toNat_ofNat]
  omega

/-- The payload bytes of a frame bring the receiver to its check (R177). -/
theorem receive_payload {kind tag : Byte} {length : Nat} {p q : List Byte} {l : Link}
    (hl : l.receiver = .payload kind tag length q) (hn : q.length + p.length = length) (hp : p ≠ []) :
    l.receive p = { l with receiver := .check kind tag (q ++ p) [] } := by
  unfold Link.receive
  induction p generalizing q l with
  | nil => exact absurd rfl hp
  | cons b rest ih =>
    simp only [List.foldl_cons]
    simp only [List.length_cons] at hn
    cases rest with
    | nil =>
      simp only [List.length_nil] at hn
      simp only [List.foldl_nil, Link.receiveByte, hl]
      rw [if_neg (by omega)]
    | cons c cs =>
      have h1 : l.receiveByte b = { l with receiver := .payload kind tag length (q ++ [b]) } := by
        simp only [Link.receiveByte, hl]
        rw [if_pos (by simp only [List.length_cons] at hn; omega)]
      rw [h1, ih (q := q ++ [b]) rfl (by simp only [List.length_append, List.length_cons, List.length_nil] at *; omega)
        (by simp)]
      simp

-- The transmitter

/-- What an idle transmitter starts (R185). -/
theorem startSending_spec {l : Link} (hl : l.transmitter = .idle) :
    (∀ r rs, l.replies = r :: rs → l.startSending.transmitter = .sendingReply r false) ∧
      (∀ n ns, l.replies = [] → l.notices = n :: ns → l.startSending.transmitter = .sendingNotice n.msg false) ∧
      (l.replies = [] → l.notices = [] → l.startSending.transmitter = .idle) := by
  unfold Link.startSending
  rw [hl]
  refine ⟨fun r rs h => ?_, fun n ns h k => ?_, fun h k => ?_⟩
  · simp only [h]
  · simp only [h, k]
  · simp only [h, k, hl]

-- The engine

/-- The entry a new record takes: the lowest-numbered that no record holds (R91). -/
theorem freeEntry_spec (ring : List RingRecord) :
    (∀ r ∈ ring, r.entry ≠ freeEntry ring) ∧ (∀ k < freeEntry ring, ∃ r ∈ ring, r.entry = k) ∧
      freeEntry ring ≤ ring.length := by
  unfold freeEntry
  obtain ⟨k, hk⟩ : ∃ k, (List.range (ring.length + 1)).find? (fun k => ring.all (fun r => decide (r.entry ≠ k))) = some k := by
    rw [← Option.ne_none_iff_exists']
    intro hc
    rw [List.find?_eq_none] at hc
    have sub : ∀ k ∈ List.range (ring.length + 1), k ∈ ring.map (·.entry) := by
      intro k hk
      have := hc k hk
      simp only [List.all_eq_true, decide_eq_true_eq, not_forall] at this
      obtain ⟨r, hr, he⟩ := this
      exact List.mem_map.mpr ⟨r, hr, not_not.mp he⟩
    have := List.Subperm.length_le (List.subperm_of_subset List.nodup_range sub)
    simp at this
  rw [hk]
  simp only [Option.getD_some]
  have hp := List.find?_some hk
  have hm := List.mem_of_find?_eq_some hk
  refine ⟨fun r hr => ?_, fun j hj => ?_, ?_⟩
  · simp only [List.all_eq_true, decide_eq_true_eq] at hp
    exact hp r hr
  · rw [List.find?_range_eq_some] at hk
    have := hk.2.2 j hj
    simpa using this
  · simp only [List.mem_range] at hm
    omega

end Sys2Proof.Machine
end

