-- ==== Sys2Proof/Laws/Runs.lean ====
section
/-! SUPPORT. The end of an item: the install of a pending context, the end of a run, and the finished item, each as one
equation in the words of Safety.lean (R60, R61, R64, R86). -/

namespace Sys2Proof.Machine

/-- The deferred reply of a pending context fills its reserved entry (R61, R66). -/
theorem replyPending_eq (p : PendingContext) (u : State) :
    u.replyPending p = { u with
      link := u.link.Filled p.ticket (p.answer u.run.phase u.engine.counter u.run.st.code u.run.stack.length) } := by
  unfold State.replyPending State.reply State.setFields PendingContext.answer
  cases p.popLeft <;> simp [Link.reply, Link.Filled, replyKind, Status.code, byte]

/-- The install of the pending context, where there is one (R61). -/
theorem install_eq (u : State) : u.install = match u.run.next with | none => u | some p => u.Installed p := by
  unfold State.install
  cases u.run.next with
  | none => rfl
  | some p => simp only [replyPending_eq]; rfl

/-- The end of a run installs a pending context first (R64). -/
theorem endRun_eq (u : State) : u.endRun = u.ItemEnd true := by
  unfold State.endRun State.ItemEnd
  rw [install_eq, if_pos rfl]
  rfl

/-- A finished item, with the ring empty (R86). -/
theorem finishItem_eq (s : State) (count : Nat) (last : Bool) (hr : s.engine.ring = []) :
    s.finishItem count last = ({ s with engine := { s.engine with
      nextLine := s.engine.nextLine + BitVec.ofNat 32 count, mean := none, st := .between } } : State).ItemEnd
        (decide (s.run.limit ≠ 0) && last) := by
  unfold State.finishItem
  simp only
  by_cases h : s.run.limit ≠ 0 ∧ last = true
  · rw [if_pos h, endRun_eq, show (decide (s.run.limit ≠ 0) && last) = true by simpa using h]
  · rw [if_neg h, show (decide (s.run.limit ≠ 0) && last) = false by simpa using h]
    unfold State.tryInstall State.ItemEnd
    rw [if_pos ⟨rfl, hr⟩, install_eq]
    rfl

/-- The end of an item makes no claim. -/
@[simp] theorem itemEnd_store (u : State) (last : Bool) : (u.ItemEnd last).store = u.store := by
  unfold State.ItemEnd
  simp only
  split <;> split <;> rfl

/-- A finished LINE item (R81, R86, R87). -/
theorem finishLine_eq (s : State) (w : LineWork) : s.finishLine w = s.LineEnd w := by
  unfold State.finishLine State.finishItem State.LineEnd
  simp only
  by_cases hl : s.run.limit ≠ 0 ∧ w.number + 1 = s.run.limit
  · rw [if_pos (by simpa using hl), if_pos (Or.inl (decide_eq_true hl)), endRun_eq, decide_eq_true hl]
    rfl
  · rw [if_neg (by simpa using hl)]
    unfold State.tryInstall
    by_cases hr : s.engine.ring = []
    · rw [if_pos ⟨rfl, hr⟩, if_pos (Or.inr hr), install_eq, decide_eq_false hl]
      rfl
    · rw [if_neg (fun h => hr h.2), if_neg (fun h => h.elim (fun h => hl (of_decide_eq_true h)) hr)]
      rfl

/-- A LINE item is finished once nothing of it is left (R86, R95). -/
theorem checkLine_eq (s : State) : s.checkLine = s.LineChecked := by
  unfold State.checkLine State.LineChecked
  split <;> simp_all [finishLine_eq]

/-- The newest notice like this one leaves the queue, and a frame in transmission keeps its place (R185). -/
theorem takeBack_eq (l : Link) (n : Notice) : l.takeBack n = l.Unqueued n := by
  unfold Link.takeBack Link.Unqueued
  cases l.transmitter with
  | idle => rfl
  | sendingReply frame flushed => rfl
  | sendingNotice frame flushed => cases flushed <;> cases l.notices <;> rfl

/-- What a discarded LINE item has committed is taken back (R67). -/
theorem takeBackItem_eq (s : State) : s.takeBackItem = s.TakenBack := by
  unfold State.takeBackItem State.TakenBack
  simp only [takeBack_eq]
  cases s.engine.st with
  | line w => cases s.before.warned <;> rfl
  | idle | between | loss first count reasons => rfl

/-- The history writer's part in a delivery (R151). -/
theorem storeLine_eq (s : State) (n : Word) (means : List Half) : s.storeLine n means = s.Kept n means := by
  unfold State.storeLine State.Kept planeChunk
  rfl

/-- The band tester's part in a delivery (R110, R118, R119). -/
theorem testLine_eq (s : State) (means : List Half) : s.testLine means = s.Tested means := by
  have bounds : s.boundClaims.length = 2 * s.slot := by
    simp only [State.boundClaims, List.length_append, List.length_map, List.length_range]
    omega
  unfold State.testLine State.Tested
  simp only
  cases s.lineContext.test with
  | inspect =>
    simp only [bounds]
    rfl
  | teach =>
    simp only
    cases h : s.teachClaims means with
    | nil => rfl
    | cons c cs => rfl

/-- The delivery of the mean line, once all its lanes are formed (R94, R95). -/
theorem checkMean_eq (s : State) (depth : Nat) : s.checkMean depth = s.Formed depth := by
  unfold State.checkMean State.Formed
  cases s.engine.mean with
  | none => rfl
  | some m =>
    simp only [State.deliver, storeLine_eq, testLine_eq]
    rfl

/-- A test result at the history writer (R151, R152). -/
theorem giveResult_eq (h : History) (r : TestResult) : h.giveResult r = h.Given r := rfl

/-- A taught line is done (R119). -/
theorem teachDone_eq (s : State) : s.teachDone = s.Taught := rfl

/-- What a teach claim names: the lanes of its row that are not excluded, each with its teach value (R117, R118). -/
theorem mem_teachChunk (ranges : List (Nat × Nat)) (teach : Half → Half) (means : List Half) (t l : Nat) (v : Half) :
    (l, v) ∈ teachChunk ranges teach means t ↔
      ∃ m, v = teach m ∧ l < 512 ∧ means[512 * t + l]? = some m ∧ excludedLane ranges (512 * t + l) = false := by
  simp only [teachChunk, planeChunk, List.mem_map, List.mem_filter, Prod.mk.injEq, Prod.exists,
    List.mem_zipIdx_iff_getElem?, List.getElem?_take, List.getElem?_drop]
  constructor
  · rintro ⟨a, b, ⟨⟨x, y, hxy, rfl, rfl⟩, hb⟩, rfl, rfl⟩
    split at hxy
    · exact ⟨_, rfl, by assumption, hxy, by simpa using hb⟩
    · cases hxy
  · rintro ⟨m, rfl, hl, hm, he⟩
    exact ⟨l, m, ⟨⟨m, l, by rw [if_pos hl]; exact hm, rfl, rfl⟩, by simp [he]⟩, rfl, rfl⟩

/-- An item whose line the band tester or the history writer still holds is not finished (R86, R95). -/
theorem lineChecked_busy {u : State} (h : u.tester.st ≠ .idle ∨ u.history.st ≠ .idle) : u.LineChecked = u := by
  unfold State.LineChecked
  split
  · rw [if_neg]
    rintro ⟨-, h1, h2⟩
    exact h.elim (fun k => k h1) (fun k => k h2)
  all_goals rfl

/-- The end of an item leaves the history writer alone. -/
@[simp] theorem finishItem_history (s : State) (count : Nat) (last : Bool) :
    (s.finishItem count last).history = s.history := by
  unfold State.finishItem
  simp only
  split
  · unfold State.endRun State.install
    simp only
    split <;> rfl
  · unfold State.tryInstall State.install
    split
    · simp only
      split <;> rfl
    · rfl

@[simp] theorem checkLine_history (s : State) : s.checkLine.history = s.history := by
  unfold State.checkLine
  split
  · split
    · unfold State.finishLine
      exact finishItem_history _ _ _
    · rfl
  all_goals rfl

end Sys2Proof.Machine
end

