-- ==== Sys2Proof/Laws/Settling.lean ====
section
/-! SUPPORT. The waiting places of the banks: who takes a free ENGINE place, and what settled banks have in common (R4 to
R6). -/

namespace Sys2Proof.Machine

theorem filter_nil_iff (ready : List Claim) (i : Fin 4) :
    ready.filter (fun c => bankOf c.row = i) = [] ↔ ∀ k ∈ ready, k.row % 4 ≠ i.val := by
  rw [List.filter_eq_nil_iff]
  refine forall₂_congr fun k _ => ?_
  simp [bankOf, Fin.ext_iff]

/-- A claim is picked exactly where one is ready for the bank; it is one of those, and leaves the ready ones (R4). -/
theorem pickReady_spec (bank : Fin 4) (ready : List Claim) (draws : Nat) :
    (pickReady bank ready draws = none ∧ ∀ k ∈ ready, k.row % 4 ≠ bank.val) ∨
      ∃ k d, pickReady bank ready draws = some (k, ready.erase k, d) ∧ k ∈ ready ∧ k.row % 4 = bank.val := by
  unfold pickReady
  cases hf : ready.filter (fun c => bankOf c.row = bank) with
  | nil => exact Or.inl ⟨rfl, (filter_nil_iff ready bank).mp hf⟩
  | cons c more =>
    have mem : ∀ k ∈ c :: more, k ∈ ready ∧ k.row % 4 = bank.val := by
      intro k hk
      rw [← hf, List.mem_filter] at hk
      exact ⟨hk.1, by simpa [bankOf, Fin.ext_iff] using hk.2⟩
    right
    cases more with
    | nil => exact ⟨c, draws, rfl, mem c (by simp)⟩
    | cons d rest =>
      refine ⟨_, draws + 1, rfl, mem _ ?_⟩
      have hl : Config.claimChoice draws % (c :: d :: rest).length < (c :: d :: rest).length :=
        Nat.mod_lt _ (by simp)
      rw [List.getD_eq_getElem _ _ hl]
      exact List.getElem_mem hl

/-- Who takes the free ENGINE place of a bank (R4). -/
theorem present_spec (st : Store) (bank : Fin 4) :
    (st.present bank = st ∧ ((st.banks.get bank).engineClaim ≠ none ∨ st.NoneReady bank)) ∨
      ((st.banks.get bank).engineClaim = none ∧ ∃ k d, k.row % 4 = bank.val ∧
        let taken := st.banks.set bank { st.banks.get bank with engineClaim := some k }
        ((k ∈ st.engineReady ∧
            st.present bank = { st with engineReady := st.engineReady.erase k, draws := d, banks := taken }) ∨
          (k ∈ st.testerReady ∧ (∀ j ∈ st.engineReady, j.row % 4 ≠ bank.val) ∧
            st.present bank = { st with testerReady := st.testerReady.erase k, draws := d, banks := taken }) ∨
          (k ∈ st.historyReady ∧ (∀ j ∈ st.engineReady ++ st.testerReady, j.row % 4 ≠ bank.val) ∧
            st.present bank = { st with historyReady := st.historyReady.erase k, draws := d, banks := taken }))) := by
  unfold Store.present Store.NoneReady
  cases hb : (st.banks.get bank).engineClaim with
  | some e => left; simp [hb]
  | none =>
    simp only [hb, Option.isSome_none, Bool.false_eq_true, if_false]
    rcases pickReady_spec bank st.engineReady st.draws with ⟨h1, e1⟩ | ⟨k, d, h, hk, hr⟩
    · rcases pickReady_spec bank st.testerReady st.draws with ⟨h2, e2⟩ | ⟨k, d, h, hk, hr⟩
      · rcases pickReady_spec bank st.historyReady st.draws with ⟨h3, e3⟩ | ⟨k, d, h, hk, hr⟩
        · left
          simp only [h1, h2, h3]
          refine ⟨trivial, Or.inr fun k hk => ?_⟩
          simp only [List.mem_append] at hk
          rcases hk with (hk | hk) | hk
          · exact e1 k hk
          · exact e2 k hk
          · exact e3 k hk
        · right
          simp only [h1, h2, h]
          refine ⟨trivial, k, d, hr, Or.inr (Or.inr ⟨hk, fun j hj => ?_, rfl⟩)⟩
          exact (List.mem_append.mp hj).elim (e1 j) (e2 j)
      · right
        simp only [h1, h]
        exact ⟨trivial, k, d, hr, Or.inr (Or.inl ⟨hk, e1, rfl⟩)⟩
    · right
      simp only [h]
      exact ⟨trivial, k, d, hr, Or.inl ⟨hk, rfl⟩⟩

/-- An arrival leaves the other banks alone, and only takes from the ready claims (R4). -/
theorem present_others (st : Store) (bank : Fin 4) :
    (∀ i, i ≠ bank → (st.present bank).banks.get i = st.banks.get i) ∧
      (∀ i, st.NoneReady i → (st.present bank).NoneReady i) ∧
      ((st.banks.get bank).accessClaim = ((st.present bank).banks.get bank).accessClaim) := by
  rcases present_spec st bank with ⟨h, -⟩ | ⟨-, k, d, -, ⟨-, h⟩ | ⟨-, -, h⟩ | ⟨-, -, h⟩⟩
  · rw [h]; exact ⟨fun _ _ => rfl, fun _ h => h, rfl⟩
  all_goals
    rw [h]
    refine ⟨fun i hi => Four.get_set_ne _ _ hi, fun i hr j hj => ?_, by simp⟩
    simp only [List.mem_append] at hj
    rcases hj with (hj | hj) | hj <;>
      (apply hr j; first | (simp [hj]; done) | simp [List.mem_of_mem_erase hj])

/-- The grant decision of one bank touches nothing but that bank. -/
theorem decideIdle_spec (st : Store) (bank : Fin 4) :
    ∃ b, st.decideIdle bank = { st with banks := st.banks.set bank b } ∨ st.decideIdle bank = st := by
  unfold Store.decideIdle
  simp only
  split
  · split
    · exact ⟨_, Or.inl rfl⟩
    · exact ⟨Bank.cold, Or.inr rfl⟩
  · exact ⟨Bank.cold, Or.inr rfl⟩

/-- An IDLE bank that has decided, where grants are permitted, has no claim waiting (R6). -/
theorem decideIdle_idle {st : Store} {bank : Fin 4} (hp : st.permitted = true)
    (hi : ((st.decideIdle bank).banks.get bank).st = .idle) :
    (st.banks.get bank).engineClaim = none ∧ (st.banks.get bank).accessClaim = none ∧ st.decideIdle bank = st := by
  cases he : (st.banks.get bank).engineClaim with
  | none =>
    cases ha : (st.banks.get bank).accessClaim with
    | none => exact ⟨rfl, rfl, decideIdle_noop st bank he ha⟩
    | some a =>
      exfalso
      unfold Store.decideIdle at hi
      by_cases h : (st.banks.get bank).st = .idle
      · simp [h, hp, Bank.grant, he, ha] at hi
      · simp [h] at hi
  | some e =>
    exfalso
    unfold Store.decideIdle at hi
    by_cases h : (st.banks.get bank).st = .idle
    · cases ha : (st.banks.get bank).accessClaim with
      | none => simp [h, hp, Bank.grant, he, ha] at hi
      | some a =>
        by_cases hq : (st.banks.get bank).passOver < Config.maxPassOver <;>
          simp [h, hp, Bank.grant, he, ha, hq] at hi
    · simp [h] at hi

/-- A bank has settled: its free ENGINE place finds no ready claim, and it decides nothing (R4, R6). -/
def Store.BankSettled (st : Store) (i : Fin 4) : Prop :=
  ((st.banks.get i).engineClaim = none → st.NoneReady i) ∧
    (st.permitted = true → (st.banks.get i).st = .idle →
      (st.banks.get i).engineClaim = none ∧ (st.banks.get i).accessClaim = none)

theorem settleBank_permitted (st : Store) (bank : Fin 4) : (st.settleBank bank).permitted = st.permitted := by
  have h := settleBank_background st bank
  have h1 : (st.settleBank bank).array = st.array := congrArg (·.2.1) h
  have h2 : (st.settleBank bank).urgent = st.urgent := congrArg (·.2.2.2.2.1) h
  unfold Store.permitted
  rw [h1, h2]

/-- A bank's settling leaves the other banks alone, and only takes from the ready claims (R4). -/
theorem settleBank_others (st : Store) (bank : Fin 4) :
    (∀ i, i ≠ bank → (st.settleBank bank).banks.get i = st.banks.get i) ∧
      (∀ i, st.NoneReady i → (st.settleBank bank).NoneReady i) := by
  have mid : (∀ i, i ≠ bank → ((st.present bank).decideIdle bank).banks.get i = (st.present bank).banks.get i) ∧
      (∀ i, (st.present bank).NoneReady i → ((st.present bank).decideIdle bank).NoneReady i) := by
    obtain ⟨b, h | h⟩ := decideIdle_spec (st.present bank) bank <;> rw [h]
    · exact ⟨fun i hi => Four.get_set_ne _ _ hi, fun _ h => h⟩
    · exact ⟨fun _ _ => rfl, fun _ h => h⟩
  have a := present_others st bank
  have c := present_others ((st.present bank).decideIdle bank) bank
  exact ⟨fun i hi => (c.1 i hi).trans ((mid.1 i hi).trans (a.1 i hi)), fun i h => c.2.1 i (mid.2 i (a.2.1 i h))⟩

/-- A bank with its ENGINE place taken, or with no claim ready for it, is left as it is by arrivals (R4). -/
theorem present_stays {st : Store} {bank : Fin 4} (h : (st.banks.get bank).engineClaim ≠ none ∨ st.NoneReady bank) :
    st.present bank = st := by
  rcases present_spec st bank with ⟨h', -⟩ | ⟨hn, k, d, hk, hm⟩
  · exact h'
  · exfalso
    rcases h with h | h
    · exact h hn
    · rcases hm with ⟨hm, -⟩ | ⟨hm, -⟩ | ⟨hm, -⟩ <;> exact h k (by simp [hm]) hk

theorem settleBank_settles (st : Store) (bank : Fin 4) : (st.settleBank bank).BankSettled bank := by
  have first : ∀ u : Store, ((u.present bank).banks.get bank).engineClaim = none → (u.present bank).NoneReady bank := by
    intro u hn
    rcases present_spec u bank with ⟨h, h1 | h1⟩ | ⟨-, k, d, -, ⟨-, h⟩ | ⟨-, -, h⟩ | ⟨-, -, h⟩⟩
    · rw [h] at hn; exact absurd hn h1
    · rw [h]; exact h1
    all_goals (rw [h] at hn; simp at hn)
  refine ⟨first _, fun hp hi => ?_⟩
  rw [settleBank_permitted] at hp
  unfold Store.settleBank at hi ⊢
  rw [(present_banks _ bank bank).1] at hi
  have hp' : (st.present bank).permitted = true := by rw [present_permitted]; exact hp
  obtain ⟨h1, h2, h3⟩ := decideIdle_idle hp' hi
  rw [h3, present_stays (Or.inr (first st h1))]
  exact ⟨h1, h2⟩

theorem settled_kept {st : Store} {i bank : Fin 4} (hi : i ≠ bank) (h : st.BankSettled i) :
    (st.settleBank bank).BankSettled i := by
  obtain ⟨h1, h2⟩ := settleBank_others st bank
  unfold Store.BankSettled
  rw [h1 i hi, settleBank_permitted]
  exact ⟨fun hn => h2 i (h.1 hn), h.2⟩

/-- Once the banks have settled, every one of them has (R4, R6). -/
theorem settleBanks_settles (st : Store) (i : Fin 4) : st.settleBanks.BankSettled i := by
  unfold Store.settleBanks
  fin_cases i
  · exact settled_kept (by decide) (settled_kept (by decide) (settled_kept (by decide) (settleBank_settles _ _)))
  · exact settled_kept (by decide) (settled_kept (by decide) (settleBank_settles _ _))
  · exact settled_kept (by decide) (settleBank_settles _ _)
  · exact settleBank_settles _ _

/-- What the settling of all the banks makes of one of them is what its own settling makes of it, with no more claims ready
for it than there were. -/
theorem settleBanks_get (st : Store) (i : Fin 4) :
    ∃ u : Store, u.permitted = st.permitted ∧ u.banks.get i = st.banks.get i ∧ (st.NoneReady i → u.NoneReady i) ∧
      st.settleBanks.banks.get i = (u.settleBank i).banks.get i := by
  have p := fun u b => settleBank_permitted u b
  have o := fun u b => settleBank_others u b
  unfold Store.settleBanks
  fin_cases i
  · refine ⟨st, rfl, rfl, id, ?_⟩
    exact ((o _ 3).1 0 (by decide)).trans (((o _ 2).1 0 (by decide)).trans ((o _ 1).1 0 (by decide)))
  · refine ⟨st.settleBank 0, p _ _, (o _ 0).1 1 (by decide), (o _ 0).2 1, ?_⟩
    exact ((o _ 3).1 1 (by decide)).trans ((o _ 2).1 1 (by decide))
  · refine ⟨(st.settleBank 0).settleBank 1, by rw [p, p], ?_, fun h => (o _ 1).2 2 ((o _ 0).2 2 h), (o _ 3).1 2 (by decide)⟩
    exact ((o _ 1).1 2 (by decide)).trans ((o _ 0).1 2 (by decide))
  · refine ⟨((st.settleBank 0).settleBank 1).settleBank 2, by rw [p, p, p], ?_,
      fun h => (o _ 2).2 3 ((o _ 1).2 3 ((o _ 0).2 3 h)), rfl⟩
    exact ((o _ 2).1 3 (by decide)).trans (((o _ 1).1 3 (by decide)).trans ((o _ 0).1 3 (by decide)))

/-- A bank at which nothing arrives and nothing can be granted stays as it was (R4, R6). -/
theorem settleBanks_stays {st : Store} {i : Fin 4}
    (h : (((st.banks.get i).st ≠ .idle ∨ st.permitted = false) ∧ ((st.banks.get i).engineClaim ≠ none ∨ st.NoneReady i)) ∨
      ((st.banks.get i).engineClaim = none ∧ (st.banks.get i).accessClaim = none ∧ st.NoneReady i)) :
    st.settleBanks.banks.get i = st.banks.get i := by
  obtain ⟨u, hp, hb, hr, hg⟩ := settleBanks_get st i
  rw [hg, ← hb]
  rw [← hb, ← hp] at h
  have arrive : (u.banks.get i).engineClaim ≠ none ∨ u.NoneReady i := by
    rcases h with ⟨-, h | h⟩ | ⟨-, -, h⟩
    · exact Or.inl h
    · exact Or.inr (hr h)
    · exact Or.inr (hr h)
  have decide' : u.decideIdle i = u := by
    rcases h with ⟨h | h, -⟩ | ⟨h1, h2, -⟩
    · unfold Store.decideIdle
      simp [h]
    · exact decideIdle_forbidden h i
    · exact decideIdle_noop u i h1 h2
  unfold Store.settleBank
  rw [present_stays arrive, decide', present_stays arrive]

/-- An IDLE bank with a claim waiting, where grants are permitted, grants one and opens its row (R5, R6, R14, R15). -/
theorem settleBanks_grants {st : Store} {i : Fin 4} (hp : st.permitted = true) (hi : (st.banks.get i).st = .idle) :
    (∀ e, (st.banks.get i).engineClaim = some e →
      (∀ a, (st.banks.get i).accessClaim = some a → (st.banks.get i).passOver < 8) →
      let b := st.settleBanks.banks.get i
      b.granted = some e ∧ b.st = .opening (e.row / 4) ∧ b.accessClaim = (st.banks.get i).accessClaim ∧
        b.passOver = if (st.banks.get i).accessClaim = none then (st.banks.get i).passOver
          else (st.banks.get i).passOver + 1) ∧
    (∀ a, (st.banks.get i).accessClaim = some a →
      (((st.banks.get i).engineClaim = none ∧ st.NoneReady i) ∨
        ((st.banks.get i).engineClaim ≠ none ∧ 8 ≤ (st.banks.get i).passOver)) →
      st.settleBanks.banks.get i = { st.banks.get i with
        st := .opening (a.row / 4), granted := some a, accessClaim := none, passOver := 0 }) := by
  obtain ⟨u, hup, hb, hr, hg⟩ := settleBanks_get st i
  rw [hg, ← hb]
  rw [← hb] at hi
  rw [← hup] at hp
  refine ⟨fun e he hq => ?_, fun a ha hc => ?_⟩
  · unfold Store.settleBank
    rw [present_stays (st := u) (Or.inl (by rw [he]; exact Option.some_ne_none e))]
    have hd : ∃ q, u.decideIdle i = { u with banks := u.banks.set i { u.banks.get i with
        st := .opening (e.row / 4), granted := some e, engineClaim := none, passOver := q } } ∧
        q = if (u.banks.get i).accessClaim = none then (u.banks.get i).passOver else (u.banks.get i).passOver + 1 := by
      unfold Store.decideIdle
      cases ha : (u.banks.get i).accessClaim with
      | none => exact ⟨_, by simp [hi, hp, Bank.grant, he, ha, bankRowOf]; rfl, by simp⟩
      | some a => exact ⟨_, by simp [hi, hp, Bank.grant, he, ha, bankRowOf, Config.maxPassOver, hq a ha]; rfl, by simp⟩
    obtain ⟨q, hd, hq⟩ := hd
    rw [hd]
    refine ⟨?_, ?_, ?_, ?_⟩
    · rw [(present_banks _ i i).2.1]; simp
    · rw [(present_banks _ i i).1]; simp
    · rw [← (present_others _ i).2.2]; simp
    · rw [(present_banks _ i i).2.2]; simp [hq]
  · have arrive : (u.banks.get i).engineClaim ≠ none ∨ u.NoneReady i :=
      hc.elim (fun h => Or.inr (hr h.2)) (fun h => Or.inl h.1)
    have hd : u.decideIdle i = { u with banks := u.banks.set i { u.banks.get i with
        st := .opening (a.row / 4), granted := some a, accessClaim := none, passOver := 0 } } := by
      unfold Store.decideIdle
      cases he : (u.banks.get i).engineClaim with
      | none => simp [hi, hp, Bank.grant, he, ha, bankRowOf]
      | some e =>
        have : ¬(u.banks.get i).passOver < Config.maxPassOver := by
          rcases hc with ⟨h, -⟩ | ⟨-, h⟩
          · rw [he] at h; cases h
          · show ¬(_ < 8); omega
        simp [hi, hp, Bank.grant, he, ha, bankRowOf, this]
    unfold Store.settleBank
    rw [present_stays arrive, hd, present_stays]
    · simp
    · rcases arrive with h | h
      · left; simpa using h
      · exact Or.inr h

/-- All that settling touches: the banks, the ready claims, the count of free choices. -/
theorem settleBanks_frame (st : Store) : st.settleBanks = { st with
    banks := st.settleBanks.banks, engineReady := st.settleBanks.engineReady, testerReady := st.settleBanks.testerReady,
    historyReady := st.settleBanks.historyReady, draws := st.settleBanks.draws } := by
  have a : ∀ (u : Store) (b : Fin 4), ∃ x e t h d, u.present b = { u with
      banks := x, engineReady := e, testerReady := t, historyReady := h, draws := d } := by
    intro u b
    rcases present_spec u b with ⟨h, -⟩ | ⟨-, k, d, -, ⟨-, h⟩ | ⟨-, -, h⟩ | ⟨-, -, h⟩⟩ <;>
      exact ⟨_, _, _, _, _, h⟩
  have c : ∀ (u : Store) (b : Fin 4), ∃ x, u.decideIdle b = { u with banks := x } := by
    intro u b
    obtain ⟨x, h | h⟩ := decideIdle_spec u b
    · exact ⟨_, h⟩
    · exact ⟨u.banks, h⟩
  have one : ∀ (u : Store) (b : Fin 4), ∃ x e t h d, u.settleBank b = { u with
      banks := x, engineReady := e, testerReady := t, historyReady := h, draws := d } := by
    intro u b
    unfold Store.settleBank
    obtain ⟨x1, e1, t1, h1, d1, q1⟩ := a u b
    obtain ⟨x2, q2⟩ := c (u.present b) b
    obtain ⟨x3, e3, t3, h3, d3, q3⟩ := a ((u.present b).decideIdle b) b
    exact ⟨x3, e3, t3, h3, d3, by rw [q3, q2, q1]⟩
  obtain ⟨x0, e0, t0, h0, d0, q0⟩ := one st 0
  obtain ⟨x1, e1, t1, h1, d1, q1⟩ := one (st.settleBank 0) 1
  obtain ⟨x2, e2, t2, h2, d2, q2⟩ := one ((st.settleBank 0).settleBank 1) 2
  obtain ⟨x3, e3, t3, h3, d3, q3⟩ := one (((st.settleBank 0).settleBank 1).settleBank 2) 3
  unfold Store.settleBanks
  rw [q3, q2, q1, q0]

end Sys2Proof.Machine
end

