-- ==== Sys2Proof/WellFormed.lean ====
section
/-! DEFINITION. The checks on a command's operands. A bank is a Fin 4, so only the byte lists need one. -/

namespace Sys2Proof

/-- Bytes on RXD up to the end of one frame: at least one, and at most the largest request frame, 1032 (R174). -/
def Instr.frameBytesOk (bytes : List Byte) : Bool := 1 ≤ bytes.length && bytes.length ≤ 1032

/-- Bytes on RXD up to the fifth header byte: at least one, and at most a start byte and a header (R175). -/
def Instr.headerBytesOk (bytes : List Byte) : Bool := 1 ≤ bytes.length && bytes.length ≤ 6

/-- The operands of a command lie in the spec's ranges. -/
def Instr.wf : Instr → Bool
  | .frameReceived bytes => Instr.frameBytesOk bytes
  | .headerReceived bytes => Instr.headerBytesOk bytes
  | .coldReset | .resetRelease _ _ | .startupHoldExpire | .refreshTick | .refreshStart | .refreshComplete
  | .bankOpenComplete _ | .accessComplete _ | .bankCloseComplete _ | .interByteTimeout | .frameSent | .svcFall
  | .trigActiveEdge | .activation _ | .lineEnd | .long | .engineTakeItem | .modeChangeComplete | .ping | .status
  | .level _ | .restart | .mode | .geometry | .define | .remove | .regions | .clear | .select | .window | .read
  | .write | .set | .get | .push | .pop | .start | .stop | .hold | .release | .historyInfo | .defects
  | .sample _ _ | .trackerCommit => true

end Sys2Proof
end

