-- ==== Sys2Proof/Tests/Slice0.lean ====
section
/-! SUPPORT. Tests of the model: the operand checks, the spec's worked examples, single commands on small states, and for
every obligation states and operands that meet its hypotheses. -/

namespace Sys2Proof.Tests

set_option Elab.async false

open Sys2Proof.Machine

-- Small states

def quiet : State := { State.reset with
  held := false, modeCtl := ⟨.steady .quiet, none⟩, store := { State.reset.store with array := .ready, ticking := true } }

def active : State := { quiet with modeCtl := ⟨.steady .active, none⟩ }

def retain : State := { quiet with
  modeCtl := ⟨.steady .retain, none⟩, store := { quiet.store with array := .selfRefresh } }

def geo : Geometry := ⟨256, .none, .rising, .high, .rising⟩

/-- A loaded PROFILE, an ACCUM and a HISTORY region of one entry each, at slot size 1. -/
def table : Table Region :=
  [(0, ⟨.profile, 0, 3, .operator, true⟩), (1, ⟨.accum, 4, 2, .operator, false⟩), (2, ⟨.history, 8, 1, .operator, false⟩)]

def ctx : Context := { Context.default with profile := some 0, accum := some 1, history := some 2 }

def ready : State := { active with geometry := some geo, regions := table, run := { Run.cold with active := ctx } }

def running : State := { ready with
  run := { ready.run with st := .running }
  port := { Port.cold with st := .ready, lval := some false }
  engine := { Engine.cold with st := .between } }

/-- A line of the run with this many samples stored, LVAL active. -/
def filling (count : Nat) : State := { running with
  port := { running.port with
    st := .filling 0 0, counter := 1, slots := ⟨some (List.replicate count 5), none, none, none⟩, lval := some true } }

/-- A start line taken: the item in hand, its record in the ring, one read outstanding. -/
def integrating : State := { running with
  engine := { Engine.cold with st := .line ⟨0, 0, ctx, 1, false⟩, counter := 1, ring := [⟨0, 0, 0, 0⟩] } }

def service (s : State) : State := { s with svc := true, link := { s.link with level := .service } }

/-- A request at the head of the inbound queue, with tag 7. -/
def ask (kind : Byte) (payload : List Byte) (s : State) : State :=
  { s with link := { s.link with inbound := [⟨kind, 7, payload⟩] } }

/-- What a function says of the next state. -/
def after {α : Type} (o : Host.Outcome State Fault Refusal) (f : State → α) : Option α :=
  match o with
  | .next t => some (f t)
  | .fault _ | .refused _ => none

def replies (s : State) : List (List Byte) := s.link.replies.map (·.payload)

-- Operand checks

theorem test_wf_no_frame_bytes : (Instr.frameReceived []).wf = false := by decide
theorem test_wf_too_many_frame_bytes : (Instr.frameReceived (List.replicate 1033 0)).wf = false := by decide +kernel
theorem test_wf_no_header_bytes : (Instr.headerReceived []).wf = false := by decide
theorem test_wf_too_many_header_bytes : (Instr.headerReceived (List.replicate 7 0)).wf = false := by decide
theorem test_wf_largest_frame : (Instr.frameReceived (List.replicate 1032 0)).wf = true := by decide +kernel
theorem test_wf_whole_header : (Instr.headerReceived (List.replicate 6 0)).wf = true := by decide

-- Worked examples of the spec

/-- The check values of the two checks over the ASCII digits 1 to 9 (R175). -/
theorem test_checks :
    crc8 [0x31, 0x32, 0x33, 0x34, 0x35, 0x36, 0x37, 0x38, 0x39] = 0xF4
      ∧ crc16 [0x31, 0x32, 0x33, 0x34, 0x35, 0x36, 0x37, 0x38, 0x39] = 0x29B1 := by decide +kernel

/-- Section 5.2: the arithmetic of one lane. -/
theorem test_lane_arithmetic :
    binLanes .pair 128 96 [1000, 2000] = [2500] ∧ correctedValue 2500 5000 = 3051 ∧ correctedValue 16316 65535 = 65535 := by
  decide +kernel

/-- Two conditional writes to one lane compose to the greatest value in either order (R17). -/
theorem test_conditional_writes :
    let m : Memory := [(3, 1000)]
    let w := fun (v : Half) (m : Memory) => (m.perform 0 0 (.write .ifGreater [(3, v)])).1
    w 900 (w 1200 m) = [(3, 1200)] ∧ w 1200 (w 900 m) = [(3, 1200)] := by decide +kernel

/-- ADD carries from the low half to the high half (R2, R18). -/
theorem test_add_carries :
    (Memory.perform 0 [(4, 0xFFFF), (5, 1)] 0 (.add [(2, 1)])).1 = [(4, 0), (5, 2)] := by decide +kernel

/-- A run bridged over one lane, and a trailing gap that does not belong to it (R112). -/
theorem test_run_bridges_a_gap :
    (extractRuns { Context.default with gapBridge := 1 } [9, 5, 8, 5, 5] [4, 4, 4, 4, 4] [6, 6, 6, 6, 6]).runs
      = [⟨0, 2, .above, 3, 0, 2⟩] := by decide +kernel

def oldDefect (id : Nat) (seq : Word) (lane area : Nat) : Defect :=
  ⟨id, seq, .above, some 1, some 1, lane, lane, lane, lane, 5, some lane, some 1, area, 0, 0, false, DefectFlags.clear⟩

def mergedLine : LineResult :=
  trackLine Context.default 2 [⟨3, 6, .above, 7, 4, 4⟩] 0 ⟨.idle, [oldDefect 1 0 3 1, oldDefect 2 1 6 2], 3, 2, 0⟩

def splitLine : LineResult :=
  trackLine { Context.default with maxSpan := 1 } 2 [⟨3, 6, .above, 7, 4, 4⟩] 0 ⟨.idle, [], 3, 2, 0⟩

/-- Two records joined by one run: the earlier survives and absorbs the other (R132, R133). -/
theorem test_records_merge :
    mergedLine.table.map (fun r => ((r.id, r.laneMin, r.laneMax, r.area), (r.peakDev, r.peakLane, r.merged, r.flags.merged)))
        = [((1, 3, 6, 7), (7, some 4, 1, true))] ∧ mergedLine.closed = [] := by decide +kernel

/-- A record that reaches the max span closes with SPLIT, and a continuation stands in its place (R136). -/
theorem test_span_split :
    splitLine.closed.map (fun r => (r.id, r.flags.split)) = [(3, true)]
      ∧ splitLine.table.map (fun r => (r.id, r.seq, r.empty, r.flags.continuation)) = [(4, 3, true, true)] := by
  decide +kernel

/-- A walk over the end of the window wraps (R163). -/
theorem test_walk_wraps : (Window.mk 1 2 10 11).walk 3 ⟨2, 10⟩ = ⟨[⟨2, 10⟩, ⟨2, 11⟩, ⟨1, 10⟩], ⟨1, 11⟩, true⟩ := by decide

-- Events

theorem test_step_runs_front : after (step { quiet with pending := [.svcFall] }) (·.pending) = some [] := by decide +kernel
theorem test_reset_release : after (exec (.resetRelease true false) State.reset) (fun t => (t.link.rate, t.store.work))
    = some (.m6, .startupHold) := by decide +kernel
theorem test_tick_to_urgent : after (exec .refreshTick { quiet with store := { quiet.store with debt := 5 } })
    (fun t => (t.store.debt, t.store.urgent, t.store.array)) = some (6, true, .refreshing) := by decide +kernel
theorem test_refresh_wraps_pointer :
    after (exec .refreshComplete { quiet with store := { quiet.store with
      array := .refreshing, work := .debt, debt := 1, urgent := true, pointer := 2047 } })
      (fun t => (t.store.debt, t.store.urgent, t.store.pointer, t.store.array)) = some (0, false, 0, .ready) := by
  decide +kernel
theorem test_notices_lost_goes_first :
    ((Link.cold .m1).offerAll (List.replicate 33 .levelDrop)).drops = 1 ∧
      (({ Link.cold .m1 with drops := 3, notices := List.replicate 30 .levelDrop } : Link).offer .levelDrop).notices.drop 30
        = [.noticesLost 3, .levelDrop] := by decide +kernel
theorem test_activation_takes_slot : after (exec (.activation 9) running) (fun t => (t.port.st, t.port.counter, t.port.slots.a0))
    = some (.filling 0 0, 1, some [9]) := by decide +kernel
theorem test_line_end : after (exec .lineEnd (filling 256)) (fun t => (t.port.st, t.port.queue))
    = some (.ready, [.line 0 0]) := by decide +kernel
theorem test_short_line : after (exec .lineEnd (filling 255)) (fun t => (t.port.slots.a0, t.port.queue))
    = some (none, [.loss 0 1 .ofShort]) := by decide +kernel
theorem test_long_line : after (exec .long (filling 256)) (fun t => (t.port.st, t.port.queue))
    = some (.discarding, [.loss 0 1 .ofLong]) := by decide +kernel
theorem test_take_start_line :
    after (exec .engineTakeItem { running with port := { running.port with queue := [.line 0 0] } })
      (fun t => (t.engine.ring, t.engine.counter, (t.store.banks.get 0).granted.map (·.row)))
      = some ([⟨0, 0, 0, 0⟩], 1, some 0) := by decide +kernel

-- Requests

theorem test_ping_echoes : after (exec .ping (ask 0x01 [1, 2] quiet)) replies = some [[0, Config.partRevision, 1, 2]] := rfl
theorem test_status_length : after (exec .status (ask 0x02 [] quiet)) (fun t => (replies t).map (·.length)) = some [31] := by
  decide +kernel
theorem test_level_needs_pin : after (exec (.level false) (ask 0x03 [1] quiet)) replies = some [[0x0A, 0]] := by decide +kernel
theorem test_mode_transition : after (exec .mode (ask 0x05 [3] active)) replies = some [[0x16, 2]] := by decide +kernel
theorem test_geometry : after (exec .geometry (ask 0x06 [0, 2, 1, 0, 0, 0] (service quiet))) replies
    = some [[0, 0, 1, 1]] := by decide +kernel
theorem test_define_overlap : after (exec .define (ask 0x07 [5, 3, 2, 0, 1, 0, 0] (service ready))) replies
    = some [[0x0F]] := by decide +kernel
theorem test_remove : after (exec .remove (ask 0x08 [2] (service ready))) (fun t => (t.regions.map (·.1), replies t))
    = some ([0, 1], [[0, 0]]) := by decide +kernel
theorem test_regions_length : after (exec .regions (ask 0x09 [] ready)) (fun t => (replies t).map (·.length))
    = some [45] := by decide +kernel
theorem test_clear_claims_first_row :
    after (exec .clear (ask 0x0A [0, 0, 0, 0, 0, 0, 16, 0, 0, 255, 255] { ready with run := Run.cold }))
      (fun t => (t.access.clear.map (fun w => (w.nextRow, w.endRow)), (t.store.banks.get 0).st))
      = some (some (0, 2), .opening 0) := by decide +kernel
theorem test_select : after (exec .select (ask 0x0B [0, 1] ready)) replies
    = some [[0, 0, 0, 1, 1, 0, 0, 1, 16, 0, 0, 0, 0, 0, 0, 255, 0, 0, 0, 0, 0]] := by decide +kernel
theorem test_read_needs_selection : after (exec .read (ask 0x0D [1, 0] ready)) replies = some [[0x15]] := by decide +kernel
theorem test_get_length : after (exec .get (ask 0x10 [] ready)) (fun t => (replies t).map (·.length)) = some [83] := by
  decide +kernel
theorem test_push_full :
    after (exec .push (ask 0x11 [] { ready with run := { ready.run with stack := [ctx, ctx, ctx, ctx] } })) replies
      = some [[0x14]] := by decide +kernel
theorem test_pop_empty : after (exec .pop (ask 0x12 [] ready)) replies = some [[0x13]] := by decide +kernel
theorem test_start : after (exec .start (ask 0x13 [0, 0, 0, 0, 0] ready)) (fun t => (t.run.st, t.port.st, replies t))
    = some (.running, .ready, [[0, 1, 0, 1]]) := by decide +kernel
theorem test_stop : after (exec .stop (ask 0x14 [] integrating)) (fun t => (t.run.st, t.engine.ring, replies t))
    = some (.stopped, [], [[0, 1, 1, 0, 0, 0, 0, 0, 0, 1, 0, 0, 0]]) := by decide +kernel
theorem test_hold : after (exec .hold (ask 0x15 [] ready)) (fun t => (t.history.hold, replies t))
    = some (true, [[0, 0, 0, 0, 0, 0, 0, 0]]) := by decide +kernel
theorem test_history_info_length : after (exec .historyInfo (ask 0x17 [0xFF, 0x03] ready))
    (fun t => (replies t).map (·.length)) = some [26] := by decide +kernel

-- What meets the hypotheses of the obligations

/-- A claim of the access unit on a row that exists, and one on a row that does not. -/
def goodClaim : Claim := ⟨8191, .read [0, 511], .hostRead⟩
def badClaim : Claim := ⟨8192, .read [0], .hostRead⟩

/-- Bank 3 in a state, with a granted claim. -/
def bank3 (st : BankState) (granted : Option Claim) : State := { quiet with
  store := { quiet.store with banks := quiet.store.banks.set 3 { Bank.cold with st := st, granted := granted } } }

/-- Bank 3 with its waiting claims and pass-over count. -/
def waiting (st : BankState) (engine access : Option Claim) (passOver : Nat) : Store :=
  { quiet.store with banks := quiet.store.banks.set 3 ⟨st, none, engine, access, passOver⟩ }

/-- Bank 3 open at a row with an access granted on it. -/
def granting (op : StoreOp) (use : ClaimUse) (s : State) : State := { s with
  store := { s.store with banks := s.store.banks.set 3 { Bank.cold with st := .opened 0, granted := some ⟨3, op, use⟩ } } }

/-- A CLEAR of both rows of the ACCUM region's only entry but for its rows, which are given. -/
def clearing (nextRow endRow : Nat) : State := { ready with
  access := { Access.cold with clear := some ⟨0, 0, 0, 0, 16, 65535, nextRow, endRow, ⟨0x0A, 7⟩⟩ } }

/-- The access unit with a READ or a WRITE under way, its first claim granted on bank 3. -/
def moving (st : AccessState) : State := { ready with
  access := { Access.cold with selection := some (wholePlane 0 .gain 1 256), st := st }
  link := { ready.link with executor := .executing, reserved := [⟨0x0D, 7⟩] } }

/-- Row 0 is open and the access of a CLEAR that a RESTART aborted goes on there (R16). -/
def aborted : State := { ready with store := { ready.store with
  banks := ready.store.banks.set 0 { Bank.cold with
    st := .opened 5, granted := some ⟨20, .write .always [(0, 1)], .discarded .access⟩ } } }

theorem witness_step : State.reset.pending = [] := rfl
theorem witness_access_outside_stops :
    badClaim.inStore = false ∧ exec (.accessComplete 3) (bank3 (.opened 2048) (some badClaim)) = .fault .noSuchLane :=
  ⟨by decide, rfl⟩
theorem witness_start_up : State.reset.held = true ∧
    (let s : State := { State.reset with held := false, store := { State.reset.store with work := .startupHold } }
     s.held = false ∧ s.store.array = .starting ∧ s.store.work = .startupHold) := by decide
theorem witness_tick_without_effect : quiet.held = false ∧ quiet.store.ticking = true ∧
    (({ quiet.store with array := .selfRefresh } : Store).urgent = false) ∧
    (({ quiet.store with array := .refreshing, work := .burst 64 } : Store).urgent = false) := by decide
theorem witness_tick_debt : ∀ d ∈ [0, 5, 7], (d < 8) ∧ quiet.store.array ≠ .selfRefresh ∧
    (∀ n, quiet.store.work ≠ .burst n) ∧ quiet.store.array = .ready ∧ quiet.store.allIdle = true ∧
    quiet.store.entryOrdered = false ∧ quiet.store.urgent = false := by
  intro d hd
  refine ⟨by fin_cases hd <;> decide, by decide, fun n h => (by cases h), by decide, by decide, by decide, by decide⟩
theorem witness_tick_elsewhere :
    let refreshing : Store := { quiet.store with array := .refreshing, work := .debt, debt := 7, urgent := true }
    let busy : Store := { (bank3 .closing none).store with debt := 5 }
    refreshing.array ≠ .selfRefresh ∧ refreshing.array ≠ .ready ∧ refreshing.debt < 8 ∧
      busy.debt = 5 ∧ busy.array = .ready ∧ busy.allIdle = false := by decide
theorem witness_refresh_start :
    let st : Store := { quiet.store with debt := 1 }
    st.array = .ready ∧ st.allIdle = true ∧ st.noClaimWaits = true ∧ 1 ≤ st.debt ∧ st.urgent = false ∧
      st.entryOrdered = false ∧ ¬(1 ≤ quiet.store.debt) := by decide
theorem witness_refresh_complete : ∀ d ∈ [1, 2, 8], ∀ u ∈ [true, false],
    let st : Store := { quiet.store with array := .refreshing, work := .debt, debt := d, urgent := u }
    st.work = .debt ∧ st.entryOrdered = false ∧ 1 ≤ st.debt := by decide
theorem witness_refresh_burst_and_entry :
    let st := fun work debt urgent ordered => ({ quiet.store with
      array := .refreshing, work := work, debt := debt, urgent := urgent, entryOrdered := ordered } : Store)
    (∀ left ∈ [64, 2, 1], (st (.burst left) 0 false false).work = .burst left ∧
      (st (.burst left) 0 false false).entryOrdered = false) ∧
    (∀ work ∈ [RefreshWork.burst 1, .debt], (st work 1 true true).entryOrdered = true ∧ (st work 1 true true).allIdle = true ∧
      (work = .burst 1 ∨ (work = .debt ∧ ¬((st work 1 true true).urgent = true ∧ 2 ≤ (st work 1 true true).debt)))) := by
  decide
theorem witness_banks :
    ((bank3 (.opening 2047) (some goodClaim)).store.banks.get 3).st = .opening 2047 ∧
      ((bank3 .closing (some goodClaim)).store.banks.get 3).granted = some goodClaim ∧
      ((bank3 .closing none).store.banks.get 3).granted = none ∧ (bank3 .closing none).store.noClaimWaits = true ∧
      (bank3 .closing none).store.array = .ready ∧ (∀ i, i ≠ 3 → ((bank3 .closing none).store.banks.get i).st = .idle) := by
  decide

theorem witness_start_up_refresh :
    (∀ left ∈ [8, 2, 1], ({ State.reset.store with work := .startup left } : Store).work = .startup left) ∧
      State.reset.store.entryOrdered = false ∧ State.reset.store.urgent = false := by decide

/-- The last bank's close starts the urgent run, or makes an ordered entry (R11, R19). -/
theorem test_last_close :
    let s := fun urgent ordered => ({ bank3 .closing none with
      store := { (bank3 .closing none).store with debt := 6, urgent := urgent, entryOrdered := ordered } } : State)
    after (exec (.bankCloseComplete 3) (s true false)) (fun t => (t.store.array, t.store.work, t.store.debt))
        = some (.refreshing, .debt, 6) ∧
      after (exec (.bankCloseComplete 3) (s true true)) (fun t => (t.store.array, t.store.debt, t.store.urgent))
        = some (.selfRefresh, 0, false) := by decide +kernel
theorem witness_access : ((bank3 (.opened 2047) (some goodClaim)).store.banks.get 3).st = .opened 2047 ∧
    ((bank3 (.opened 2047) (some goodClaim)).store.banks.get 3).granted = some goodClaim ∧ goodClaim.inStore = true ∧
    512 ∉ goodClaim.op.lanes.map (laneAddr 8191) := by decide
theorem witness_results :
    (∀ rows ∈ [(0, 2), (1, 2), (2, 2)], (clearing rows.1 rows.2).access.clear.map (fun w => (w.nextRow, w.endRow)) = some rows) ∧
    ready.region 0 = some ⟨.profile, 0, 3, .operator, true⟩ ∧
    (let x : Transfer := ⟨⟨0x0D, 7⟩, [], ⟨0, 1⟩, false⟩; (moving (.reading x false [])).access.st = .reading x false []) ∧
    (let x : Transfer := ⟨⟨0x0D, 7⟩, [goodClaim], ⟨0, 1⟩, false⟩; (moving (.writing x 0)).access.st = .writing x 0) ∧
    (let two : Context := { ctx with depth := 2 }
     let w : LineWork := ⟨1, 0, two, 1, true⟩
     let ring : List RingRecord := [⟨0, 0, 2, 0⟩, ⟨1, 1, 1, 1⟩]
     w.context.test = .inspect ∧ w.context.history = some 2 ∧ ring.find? (RingRecord.completes 2) = some ⟨0, 0, 2, 0⟩) ∧
    (∀ left ∈ [1, 2], ({ History.cold with st := .storing ⟨0, 0, 2, 1⟩ left } : History).st = .storing ⟨0, 0, 2, 1⟩ left) := by
  decide

/-- A line of 256 equal samples in hand under a context, one access left. -/
def lastAccess (c : Context) : State := { integrating with
  port := (filling 256).port
  engine := { integrating.engine with st := .line ⟨0, 0, c, 1, false⟩ } }

theorem witness_engine_results : (integrating.engine.st = .line ⟨0, 0, ctx, 1, false⟩) ∧ ctx.depth = 1 ∧ ctx.test = .inspect ∧
    ([(⟨0, 0, 1, 0⟩ : RingRecord)].find? (fun r => decide (1 ≤ r.added)) = some ⟨0, 0, 1, 0⟩) ∧
    2 ≤ ({ ctx with depth := 2 } : Context).depth ∧
    (∀ left ∈ [1, 2], ({ Tester.cold with st := .testing [] [] left } : Tester).st = .testing [] [] left) ∧
    (∀ left ∈ [1, 2], ({ Tester.cold with st := .teaching left } : Tester).st = .teaching left) := by decide

/-- With D = 1 the GAIN row's lanes are the means: the record leaves the ring and the line is delivered to both (R94, R95,
R110, R151). -/
theorem test_gain_delivers :
    after (exec (.accessComplete 3) (granting (.read (List.range 256)) (.gain 0)
        { lastAccess ctx with store := { ready.store with mem := (List.range 256).map (fun l => (laneAddr 3 l, 4096)) } }))
      (fun t => ((t.engine.ring, t.tester.st), (t.history.st, t.store.testerReady.length + t.store.historyReady.length)))
      = some (([], .testing [] [] 2), (.storing ⟨0, 0, 2, 1⟩ 1, 0)) := by decide +kernel

/-- A line that is formed waits for the item's other adds, and the last of them delivers it (R85, R95; log 18). -/
theorem test_formed_line_waits :
    let c : Context := { ctx with depth := 2 }
    let s (left : Nat) : State := { lastAccess c with engine := { Engine.cold with
      st := .line ⟨0, 0, c, left, true⟩, ring := [⟨1, 1, 1, 1⟩], mean := some ⟨0, [(0, List.replicate 256 5)]⟩ } }
    ([2, 1].map fun left => after (exec (.accessComplete 3) (granting (.add [(0, 5)]) .accumulate (s left)))
      (fun t => (t.engine.ring.length, t.tester.st, t.history.st)))
      = [some (1, .idle, .idle), some (1, .testing [] [] 2, .storing ⟨0, 0, 2, 1⟩ 1)] := by decide +kernel

/-- The last teach write counts the line and finishes the item: slot free, next line number on, the engine between items
(R81, R86, R119). -/
theorem test_last_teach_write :
    let s := lastAccess { ctx with test := .teach, history := none }
    after (exec (.accessComplete 3) (granting (.write .ifGreater [(0, 5)]) .teach { s with
        engine := { s.engine with ring := [], st := .line ⟨0, 0, { ctx with test := .teach, history := none }, 0, true⟩ }
        tester := { Tester.cold with st := .teaching 1 } }))
      (fun t => ((t.tester.st, t.tester.teachCount), (t.engine.st, t.engine.nextLine, t.port.slots.a0)))
      = some ((.idle, 1), (.between, 1, none)) := by decide +kernel

/-- The last row of a CLEAR: the PROFILE becomes loaded and the reply is queued (R31, R40). -/
theorem test_clear_completes :
    after (exec (.accessComplete 3) (granting (.write .always [(0, 1)]) .clearRow (clearing 2 2)))
      (fun t => (t.access.clear, replies t, (t.region 0).map (·.loaded))) = some (none, [[0, 3, 0, 1]], some true) := by
  decide +kernel

/-- The last segment of a READ: its values go out and the executor is free (R166, R171). -/
theorem test_read_completes :
    after (exec (.accessComplete 3) (granting (.read [0]) .hostRead { moving (.reading ⟨⟨0x0D, 7⟩, [], ⟨0, 1⟩, false⟩ false []) with
        store := { ready.store with mem := [(laneAddr 3 0, 0x0102)] } }))
      (fun t => (t.access.st, t.link.executor, replies t)) = some (.idle, .idle, [[0, 1, 0, 0, 0, 0, 1, 0, 2, 1]]) := by
  decide +kernel

/-- A CLEAR accepted while an aborted CLEAR's access goes on waits for that access, and goes to its bank then (R4). -/
theorem test_next_access_waits :
    let s := ask 0x0A [0, 0, 0, 0, 0, 0, 0, 0, 0, 0, 0] aborted
    after (exec .clear s) (fun t => (t.store.accessReady.map (·.row), (t.store.banks.get 0).accessClaim)) = some (some 0, none) ∧
      (match exec .clear s with
        | .next t => after (exec (.accessComplete 0) t)
            (fun u => (u.store.accessReady, ((u.store.banks.get 0).granted.map (·.row)), (u.store.banks.get 0).st))
        | .fault _ | .refused _ => none) = some (none, some 0, .closing) := by decide +kernel

theorem witness_write_and_add : (([(0, 1), (511, 2)] : List (Nat × Half)).map (·.1)).Nodup ∧
    (([(0, 1), (255, 2)] : List (Nat × Word)).map (·.1)).Nodup := by decide
theorem witness_grant : (waiting .idle (some goodClaim) (some goodClaim) 7).permitted = true ∧
    ((waiting .idle (some goodClaim) (some goodClaim) 7).banks.get 3).passOver < 8 ∧
    ((waiting .idle (some goodClaim) none 0).banks.get 3).accessClaim = none ∧
    ((waiting .idle none (some goodClaim) 8).banks.get 3).engineClaim = none := by decide
theorem witness_access_waits : ∀ n ∈ [0, 8],
    ({ Bank.cold with accessClaim := some goodClaim, passOver := n } : Bank).accessClaim = some goodClaim ∧ n ≤ 8 ∧
      (List.replicate (8 - n) goodClaim).length = 8 - n := by decide
theorem witness_access_free_and_busy : (∀ i, (quiet.store.banks.get i).accessClaim = none ∧ (quiet.store.banks.get i).granted = none) ∧
    (aborted.store.banks.get 0).granted = some ⟨20, .write .always [(0, 1)], .discarded .access⟩ ∧
    (ClaimUse.discarded .access).claimant = .access ∧ ((waiting .closing none (some goodClaim) 0).banks.get 3).accessClaim ≠ none := by
  decide
theorem witness_whole_frame : ∀ k ∈ ([0x01, 0x18] : List Byte), quiet.link.receiver = .hunt ∧ 1 ≤ k.toNat ∧ k.toNat ≤ 24 ∧
    quiet.link.inbound.length < 4 := by decide
theorem witness_frame_fate :
    let s : State := { quiet with link := { quiet.link with receiver := .check 0x02 7 [] [0xFF] } }
    s.held = false ∧ s.link.receiver = .check 0x02 7 [] [0xFF] ∧ (crc16 []).toNat = 0xFF + 256 * 0xFF := by decide
theorem witness_header :
    let s : State := { quiet with link := { quiet.link with receiver := .header [2, 7, 0, 4] } }
    s.held = false ∧ s.link.receiver = .header [2, 7, 0, 4] ∧ crc8 [2, 7, 0, 4] ≠ 0 ∧ 0xD3 ∉ [2, 7, 0, 4, (0 : Byte)] := by
  decide +kernel
theorem witness_timeout :
    let s : State := { quiet with link := { quiet.link with receiver := .payload 0x0E 7 3 [0] } }
    s.held = false ∧ s.link.receiver = .payload 0x0E 7 3 [0] ∧ quiet.link.receiver = .hunt := by decide
theorem witness_frame_sent :
    let s : State := { quiet with link := { quiet.link with transmitter := .sendingReply ⟨0x81, 7, [0]⟩ false } }
    s.held = false ∧ s.link.transmitter = .sendingReply ⟨0x81, 7, [0]⟩ false := by decide
theorem witness_notice :
    let l := fun drops count : Nat => ({ quiet.link with drops := drops, notices := List.replicate count .levelDrop } : Link)
    (l 0 31).notices.length < 32 ∧ (l 0 32).notices.length = 32 ∧ (l 1 30).notices.length ≤ 30 ∧ 31 ≤ (l 1 31).notices.length := by
  decide
theorem witness_trig :
    let s : State := { ready with port := { Port.cold with st := .waitTrig } }
    s.held = false ∧ s.modeCtl.mode = .steady .active ∧ s.port.st = .waitTrig ∧ running.port.st ≠ .waitTrig := by decide
theorem witness_activation : running.held = false ∧ running.modeCtl.mode = .steady .active ∧ running.geometry = some geo ∧
    running.port.lval = some (geo.lvalLevel == .low) ∧ running.port.st = .ready ∧ running.run.limit = 0 ∧
    running.port.slots.get 0 = none ∧
    (let full : Four (Option (List Sample)) := ⟨some [], some [], some [], some []⟩; ∀ j, full.get j ≠ none) := by decide
theorem witness_samples : ∀ n ∈ [1, 255, 256], (filling n).held = false ∧ (filling n).modeCtl.mode = .steady .active ∧
    (filling n).geometry = some geo ∧ (filling n).port.lval = some (geo.lvalLevel == .high) ∧
    (filling n).port.st = .filling 0 0 ∧ ((filling n).port.slots.get 0).map (·.length) = some n := by decide +kernel
theorem witness_loss_merges : (5 : Word) + BitVec.ofNat 32 2 - 1 = 7 - 1 ∧ (5 : Word) + BitVec.ofNat 32 2 - 1 ≠ 8 - 1 := by decide
theorem witness_line_item :
    let s := fun stride ring =>
      ({ running with port := { running.port with queue := [.line 0 0] }
                      engine := { running.engine with stride := stride, ring := ring } } : State)
    (s 0 []).engine.st = .between ∧ (s 0 []).run.next = none ∧ (s 0 []).engine.stride = 0 ∧ (s 0 []).run.limit = 0 ∧
      (s 1 [⟨0, 0, 1, 0⟩]).engine.stride ≠ 0 ∧ (s 1 [⟨0, 0, 1, 0⟩]).engine.ring ≠ [] ∧
      (s 1 []).engine.stride ≠ 0 ∧ (s 1 []).engine.ring = [] := by decide

/-- A pending SET of the active context, under a limit of N lines. -/
def draining (limit : Word) (queue : List QueueItem) : State := { running with
  run := { running.run with st := .draining, limit := limit, next := some ⟨ctx, ⟨0x0F, 6⟩, [], none⟩ }
  port := { running.port with queue := queue }
  link := { running.link with reserved := [⟨0x0F, 6⟩] } }

theorem witness_item_ends : (draining 1 [.line 0 0]).run.next ≠ none ∧ (draining 1 [.line 0 0]).engine.ring = [] ∧
    ((0 : Word) + 1 = 1) ∧ (draining 2 [.loss 0 2 .ofShort]).port.queue = [.loss 0 2 .ofShort] ∧
    ((2 : Word) - 1 - 0).toNat < 2 ∧ ¬ ((3 : Word) - 1 - 0).toNat < 2 := by decide

/-- The run's last item installs the pending context and then ends the run, the deferred reply and RUN_END following
(R61, R64). -/
theorem test_last_item_installs_and_ends :
    after (exec .engineTakeItem (draining 1 [.line 0 0]))
        (fun t => ((t.run.st, t.port.st, t.run.next.isNone), (t.link.notices, replies t)))
      = some ((.stopped, .off, true), ([.runEnd 1 0 0], [[0, 0, 1, 0, 0, 0, 0, 0, 0, 0, 2]])) := by decide +kernel
theorem test_last_loss_ends_the_run :
    after (exec .engineTakeItem (draining 2 [.loss 0 2 .ofShort])) (fun t => (t.run.st, t.engine.nextLine, t.link.notices))
      = some (.stopped, 2, [.lineLost 0 2 .ofShort 0 0, .runEnd 2 0 0]) := by decide +kernel

theorem witness_correction : (binLanes .none 128 128 [5, 6])[1]? = some 6 ∧ ([(4096 : Half), 8192])[1]? = some 8192 ∧
    (∀ added ∈ [1, 2, 3], 1 ≤ added ∧ added ≤ 3) ∧ (∀ c ∈ [0, 65535], c ≤ 65535) ∧ (4294836225 : Nat) ≤ 65535 * (65536 - 1) := by
  decide
theorem witness_loss_item :
    let s : State := { running with port := { running.port with queue := [.loss 0 2 .ofShort] } }
    s.engine.st = .between ∧ s.port.queue = [.loss 0 2 .ofShort] ∧ s.run.next = none ∧ s.run.limit = 0 ∧
      1 ≤ s.run.active.stride ∧ s.engine.stride < s.run.active.stride := by decide
/-- Lanes 0 and 2 above the band, lane 1 in it, a gap bridge of 1: the hypotheses on a run, and on lane 0 alone. -/
theorem witness_run_is_found :
    let c : Context := { Context.default with gapBridge := 1 }
    let classes := classifyLine c.excluded 0 [9, 5, 8] [4, 4, 4] [6, 6, 6]
    classes = [.above 3, .inBand, .above 2] ∧ c.minRun ≤ 2 - 0 + 1 ∧ c.minRun ≤ 0 - 0 + 1 ∧
      (extractRuns c [9, 5, 8] [4, 4, 4] [6, 6, 6]).overflow = 0 := by decide +kernel

/-- A run meets the record below it, one at the edge of the gap bridge too, and misses one beyond it; a table of 64 that it
misses; the spans at which a record splits and does not (R131, R135, R136). -/
theorem witness_table :
    let r : LaneRun := ⟨3, 6, .above, 7, 4, 4⟩
    runMatches 0 r (oldDefect 1 0 3 1) = true ∧ runMatches 0 r (oldDefect 2 1 6 2) = true ∧
      runMatches 1 r (oldDefect 1 0 7 1) = true ∧ runMatches 0 r (oldDefect 1 0 7 1) = false ∧
      (∀ n ∈ [0, 63, 64], ∀ d ∈ List.replicate n (oldDefect 1 0 7 1), runMatches 0 r d = false) ∧
      (oldDefect 1 0 3 1).empty = false ∧ (oldDefect 1 0 3 1).first = some 1 ∧ ((2 : Word) - 1 + 1).toNat = 2 ∧
      earlier 1 1 = false := by decide +kernel

/-- The 129th run of a line is dropped (R115). -/
theorem witness_overflow :
    let means : List Half := (List.range 130).map (fun i => if i % 2 = 0 then 9 else 1)
    (extractRuns Context.default means (List.replicate 130 4) (List.replicate 130 6)).overflow = 2 := by decide +kernel

/-- A split in a full table: the record closes, and its continuation counts as untracked (R136, R139). -/
theorem test_split_in_full_table :
    let table := List.replicate 63 (oldDefect 1 0 90 1) ++ [oldDefect 2 9 3 1]
    let l := trackLine { Context.default with maxSpan := 2, gapLines := 5 } 2 [⟨3, 6, .above, 7, 4, 4⟩] 1 ⟨.idle, table, 3, 64, 0⟩
    table.length = 64 ∧ (l.untracked, l.table.length, l.closed.map (fun d => (d.id, d.flags.split, d.flags.overflowLine)))
      = (1, 63, [(2, true, true)]) := by decide +kernel

theorem witness_teach_claims : let s := lastAccess { ctx with test := .teach, excluded := [(0, 254)] }
    (0 < s.slot) ∧ (List.replicate 256 (5 : Half))[512 * 0 + 255]? = some 5 ∧ excludedLane s.lineContext.excluded 255 = false ∧
      excludedLane s.lineContext.excluded 254 = true ∧ (s.teachClaims (List.replicate 256 5)).map (·.row) = [2, 1] := by
  decide +kernel

/-- A full table: the run opens no record and counts as untracked (R139). -/
theorem test_full_table :
    (trackLine Context.default 2 [⟨3, 6, .above, 7, 4, 4⟩] 0 ⟨.idle, List.replicate 64 (oldDefect 1 0 7 1), 3, 64, 0⟩).untracked
      = 1 := by decide +kernel

theorem witness_run_opens : ctx.maxSpan ≥ 2 ∧ (1 : Nat) ≤ (⟨3, 6, .above, 7, 4, 4⟩ : LaneRun).peakDev ∧
    (Tracker.cold).table = [] := by decide
theorem witness_commit :
    let s : State := { integrating with
      tracker := { Tracker.cold with st := .working 0 [] }, history := { History.cold with st := .storing ⟨0, 0, 2, 1⟩ 1 } }
    s.held = false ∧ s.tracker.st = .working 0 [] ∧ s.history.st = .storing ⟨0, 0, 2, 1⟩ 1 ∧
      ({ History.cold with st := .filing ⟨0, 0, 2, 1⟩ } : History).st = .filing ⟨0, 0, 2, 1⟩ ∧ History.cold.st = .idle := by decide

/-- The commit finishes a line of which nothing else is left (R86). -/
theorem test_commit_finishes_the_line :
    let w : LineWork := ⟨0, 0, { ctx with history := none }, 0, true⟩
    after (exec .trackerCommit { lastAccess ctx with
        engine := { Engine.cold with st := .line w }
        tester := { Tester.cold with st := .tracking }
        tracker := { Tracker.cold with st := .working 0 [] } })
      (fun t => (t.engine.st, t.engine.nextLine, t.port.slots.a0)) = some (.between, 1, none) := by decide +kernel

/-- Every request of a payload of the right length is accepted at SERVICE level in a steady mode, and a payload of the
wrong length is refused. -/
theorem witness_accepts : ∀ p ∈ ([(0x01, 64), (0x02, 0), (0x03, 1), (0x04, 0), (0x05, 1), (0x06, 6), (0x07, 7), (0x08, 1),
      (0x09, 0), (0x0A, 11), (0x0B, 2), (0x0C, 8), (0x0D, 2), (0x0E, 3), (0x0F, 35), (0x10, 0), (0x11, 0), (0x12, 0),
      (0x13, 5), (0x14, 0), (0x15, 0), (0x16, 0), (0x17, 2), (0x18, 1)] : List (Byte × Nat)),
    (ask p.1 (List.replicate p.2 0) (service ready)).Accepts p.1 ⟨p.1, 7, List.replicate p.2 0⟩ [] ∧
      (ask p.1 (List.replicate 65 0) (service ready)).Takes p.1 ⟨p.1, 7, List.replicate 65 0⟩ [] ∧
      lengthOk p.1 (List.replicate 65 0) = false := by decide +kernel
theorem witness_refused : requestKind .define = some 0x07 ∧
    (ask 0x07 (List.replicate 7 0) ready).Takes 0x07 ⟨0x07, 7, List.replicate 7 0⟩ [] ∧
    serviceKind 0x07 = true ∧ ready.link.level = .operator := by decide +kernel
theorem witness_level_refused : requestKind (.level true) = some 0x03 ∧
    (ask 0x03 [] quiet).Takes 0x03 ⟨0x03, 7, []⟩ [] ∧ lengthOk 0x03 [] = false ∧
    after (exec (.level false) (ask 0x03 [] quiet)) replies = some [[0x02, 0]] := by decide +kernel
theorem witness_restart : ready.modeCtl.mode ≠ .steady .retain ∧ retain.modeCtl.mode = .steady .retain ∧
    (ask 0x04 [] retain).Accepts 0x04 ⟨0x04, 7, []⟩ [] := by decide +kernel
theorem witness_mode : ∀ s ∈ [quiet, active, retain], ∀ t ∈ ([0, 1, 2, 3, 4] : List Byte),
    (ask 0x05 [t] s).Accepts 0x05 ⟨0x05, 7, [t]⟩ [] ∧
      ((ask 0x05 [t] s).modeCtl.mode = .steady .quiet ∨ (ask 0x05 [t] s).modeCtl.mode = .steady .active ∨
        (ask 0x05 [t] s).modeCtl.mode = .steady .retain) := by decide +kernel
/-- RETAIN is ordered while a bank closes, and entered at once where none does (R19). -/
theorem test_retain_is_ordered :
    after (exec .mode (ask 0x05 [3] (bank3 .closing none))) (fun t => (t.store.array, t.store.entryOrdered)) = some (.ready, true) ∧
      after (exec .mode (ask 0x05 [3] quiet)) (fun t => (t.store.array, t.store.entryOrdered)) = some (.selfRefresh, false) := by
  decide +kernel
theorem witness_mode_change :
    let s : State := { quiet with modeCtl := ⟨.changing .retain .quiet, some ⟨0x05, 7⟩⟩ }
    s.held = false ∧ s.modeCtl = ⟨.changing .retain .quiet, some ⟨0x05, 7⟩⟩ ∧ s.store.array = .ready ∧ s.store.work = .none := by
  decide
theorem witness_geometry : ∀ g ∈ [geo, { geo with pixels := 4096, binning := .pair }],
    256 ≤ g.pixels ∧ g.pixels ≤ 4096 ∧ g.pixels % 256 = 0 ∧
      (le16 g.pixels ++ [g.binning.code, g.sampleEdge.code, g.lvalLevel.code, g.trigEdge.code]).length = 6 := by decide
theorem witness_define : ∀ k ∈ [RegionKind.profile, .accum, .history, .scratch],
    (ask 0x07 ([15, k.code] ++ le16 8186 ++ le16 6 ++ [0]) (service ready)).Accepts 0x07
      ⟨0x07, 7, [15, k.code] ++ le16 8186 ++ le16 6 ++ [0]⟩ [] := by decide +kernel
theorem witness_remove_and_clear : ready.region 2 = some ⟨.history, 8, 1, .operator, false⟩ ∧ ready.bound 2 = false ∧
    running.bound 2 = true ∧ ready.access.clear = none := by decide
theorem witness_select : ready.region 0 = some ⟨.profile, 0, 3, .operator, true⟩ ∧ (RegionKind.profile = .profile ↔ Plane.upper ≠ .single) ∧
    ready.lanes = 256 ∧ ready.slot = 1 := by decide
theorem witness_read_and_write :
    let s : State := { ready with access := { Access.cold with selection := some (wholePlane 0 .gain 1 256) } }
    s.access.selection = some (wholePlane 0 .gain 1 256) ∧ s.region 0 = some ⟨.profile, 0, 3, .operator, true⟩ ∧
      s.access.clear = none ∧ s.modeCtl.mode ≠ .steady .retain := by decide
theorem witness_transfer_accepted : ∀ p ∈ ([(0x0D, [1, 0]), (0x0D, [0, 2]), (0x0E, [0, 1, 0, 5, 0]), (0x0E, [2, 1, 0, 5, 0])] :
      List (Byte × List Byte)), (ask p.1 p.2 ready).Accepts p.1 ⟨p.1, 7, p.2⟩ [] := by decide +kernel

/-- A WRITE of one value presents its claim at the selection's row and lane (R164, R169). -/
theorem test_write_starts :
    let s : State := { ready with access := { Access.cold with selection := some (wholePlane 0 .gain 1 256) } }
    after (exec .write (ask 0x0E [0, 1, 0, 5, 0] s)) (fun t => (t.link.executor, (t.store.banks.get 0).granted.map (·.op)))
      = some (.executing, some (.write .always [(0, 5)])) := by decide +kernel
theorem witness_set : Context.InRange ctx.bytes ∧ Context.Carried ctx.bytes = ctx ∧ ready.ContextStatus ctx = none ∧
    running.ContextStatus ctx = none ∧ ready.run.st = .stopped ∧ running.run.st = .running ∧
    running.engine.st = .between ∧ running.engine.ring = [] ∧ integrating.engine.st ≠ .between ∧
    ¬Context.InRange (List.replicate 35 0) := by decide +kernel

/-- Each load check and each run check gives its status (R48, R49). -/
theorem test_context_status :
    [{ ctx with stride := 2 }, { ctx with excluded := [(0, 256)] }, { ctx with profile := some 1 },
        { ctx with accum := some 5 }, { ctx with history := some 0 }, { ctx with profile := none },
        { ctx with accum := none }, { ctx with entry := 1 }, { ctx with depth := 2 }].map running.ContextStatus
      = [0x03, 0x03, 0x0E, 0x0E, 0x0E, 0x0E, 0x0E, 0x03, 0x10].map some ∧
    ({ running with regions := [(0, ⟨.profile, 0, 3, .operator, false⟩), (1, ⟨.accum, 4, 2, .operator, false⟩)] } : State).ContextStatus
      { ctx with history := none } = some 0x12 ∧
    ({ running with access := { Access.cold with clear := some ⟨2, 0, 0, 0, 0, 0, 8, 8, ⟨0x0A, 7⟩⟩ } } : State).ContextStatus ctx
      = some 0x08 := by decide +kernel
theorem witness_stack :
    let s : State := { running with run := { running.run with stack := [ctx] } }
    s.run.stack = [ctx] ∧ s.run.stack.length < 4 ∧ s.ContextStatus ctx = none ∧ s.engine.st = .between ∧
      s.engine.ring = [] ∧ after (exec .pop (ask 0x12 [] s)) (fun t => (t.run.st, t.run.stack, (replies t).map (·.drop 10)))
        = some (.running, [], [[2, 0]]) := by decide +kernel
theorem witness_start : ready.modeCtl.mode = .steady .active ∧ ready.run.st = .stopped ∧
    firstFailure ready.startChecks = none := by decide +kernel
/-- A pending POP, and a line that the history writer is storing. -/
def stopping : State := { integrating with
  run := { integrating.run with st := .draining, stack := [ctx], next := some ⟨ctx, ⟨0x12, 6⟩, [], some 1⟩ }
  history := { History.cold with st := .storing ⟨0, 0, 2, 1⟩ 1, index := [(0, .writing 0 2)] } }

theorem witness_stop : ready.run.st = .stopped ∧ running.run.st ≠ .stopped ∧ running.run.next = none ∧
    stopping.run.next = some ⟨ctx, ⟨0x12, 6⟩, [], some 1⟩ ∧ stopping.history.st = .storing ⟨0, 0, 2, 1⟩ 1 ∧
    running.history.st = .idle ∧ ({ stopping.history with st := .filing ⟨0, 0, 2, 1⟩ } : History).st ≠ .idle := by decide

theorem witness_stop_claims : (bank3 (.opened 0) (some ⟨3, .read [0], .gain 0⟩)).store.banks.a3.granted
    = some ⟨3, .read [0], .gain 0⟩ ∧ (ClaimUse.gain 0).claimant = .engine ∧ goodClaim.use.claimant = .access := by decide

/-- STOP answers the pending POP first, and abandons the line being stored (R66, R158). -/
theorem test_stop_abandons : after (exec .stop (ask 0x14 [] stopping))
    (fun t => (t.history.index, t.history.st, (replies t).map (·.length))) = some ([], .idle, [12, 13]) := by decide +kernel
/-- A bank that closes with an ENGINE and an ACCESS claim waiting, at a pass-over count. -/
def closing (passOver : Nat) (urgent : Bool) : State := { quiet with store := { quiet.store with
  urgent := urgent, debt := 6
  banks := (quiet.store.banks.set 3 ⟨.closing, none, some ⟨3, .read [0], .gain 0⟩, some ⟨7, .read [1], .hostRead⟩, passOver⟩).set 0
    { Bank.cold with st := .closing } } }

theorem witness_close_decides : ∀ s ∈ [closing 7 false, closing 8 false, closing 8 true], s.held = false ∧
    (s.store.banks.get 3).st = .closing ∧ (s.store.banks.get 3).granted = none ∧ s.store.array = .ready ∧
    s.store.entryOrdered = false ∧ (s.store.banks.get 0).st ≠ .idle ∧ s.store.NoneReady 3 ∧
    (s.store.banks.get 3).engineClaim ≠ none := by decide

/-- The bank comes to IDLE and decides, or waits under urgency (R6, R10, R14, R15). -/
theorem test_close_decides :
    [closing 7 false, closing 8 false, closing 8 true].map (fun s => after (exec (.bankCloseComplete 3) s) (fun t =>
        ((t.store.banks.get 3).st, (t.store.banks.get 3).passOver, (t.store.banks.get 0).st)))
      = [some (.opening 0, 8, .closing), some (.opening 1, 0, .closing), some (.idle, 8, .closing)] := by decide +kernel

/-- The band tester's claim takes the bank's place before the history writer's, and a taken place stays (R4). -/
theorem test_place_order :
    let st : Store := { quiet.store with testerReady := [⟨7, .read [0], .lower 0⟩], historyReady := [⟨3, .read [0], .history⟩] }
    ((st.present 3).banks.get 3).engineClaim = some ⟨7, .read [0], .lower 0⟩ ∧ (st.present 3).present 3 = st.present 3 := by
  decide +kernel

/-- What the link comes to after any event: HELD at a request that a mode change holds, WAIT_ENTRY with no free entry, and
the head notice in transmission (R182, R185, R186). -/
theorem test_link_settles :
    let s := ask 0x07 [] quiet
    after (exec .refreshTick { s with modeCtl := ⟨.changing .quiet .active, some ⟨0x05, 6⟩⟩ }) (·.link.executor) = some .held ∧
      after (exec .refreshTick { s with link := { s.link with reserved := List.replicate 8 ⟨0x0A, 6⟩ } }) (·.link.executor)
        = some .waitEntry ∧
      after (exec .refreshTick { s with link := { s.link with notices := [.levelDrop] } })
        (fun t => (t.link.executor, t.link.transmitter)) = some (.idle, .sendingNotice ⟨0x47, 0, []⟩ false) := by decide +kernel

/-- A frame in transmission, a request in execution, and the cases in which no request is accepted. -/
theorem witness_link_busy :
    let s := ask 0x07 [] quiet
    s.held = false ∧ (∃ r rest, s.link.inbound = r :: rest ∧ r.kind ≠ 0x08) ∧ requestKind .remove = some 0x08 ∧
      ({ s.link with executor := .executing } : Link).executor = .executing ∧
      (Mode.changing .quiet .active).isChanging = true ∧ ¬((0x07 : Byte) = 0x01 ∨ (0x07 : Byte) = 0x02 ∨ (0x07 : Byte) = 0x03 ∨ (0x07 : Byte) = 0x09) ∧
      8 ≤ ([] : List Msg).length + (List.replicate 8 (Ticket.mk 0x0A 6)).length ∧ s.link.transmitter = .idle ∧
      ({ s.link with transmitter := .sendingReply ⟨0x81, 6, []⟩ false } : Link).transmitter = .sendingReply ⟨0x81, 6, []⟩ false :=
  ⟨by decide, ⟨_, _, rfl, by decide⟩, by decide, rfl, by decide, by decide, by decide, by decide, rfl⟩

/-- Slot size 2, the second row of a plane half filled: the LOWER plane's second row (R28, R39). -/
theorem test_clear_partly_filled_row :
    let s : State := { quiet with geometry := some { geo with pixels := 768 }, regions := [(0, ⟨.profile, 12, 6, .operator, false⟩)] }
    let k := s.clearClaim ⟨0, 0, 0, 16, 7, 9, 15, 17, ⟨0x0A, 7⟩⟩
    s.slot = 2 ∧ (k.row, k.op.lanes.length, k.op) = (15, 256, .write .always ((List.range 256).map (fun l => (l, 7)))) := by
  decide +kernel

/-- A READ over the row boundary of an ACCUM plane: one claim on each row, two storage lanes to a lane (R29, R164). -/
theorem test_read_accum_claims :
    readClaims 2 ⟨.accum, 24, 8, .operator, false⟩ .single [⟨1, 255⟩, ⟨1, 256⟩]
      = [⟨28, .read [510, 511], .hostRead⟩, ⟨29, .read [0, 1], .hostRead⟩] := by decide +kernel

/-- RESTART: the granted access goes on for no one, the waiting claims are gone, and so is the pass-over count (R13, R16). -/
theorem test_restart_withdraws :
    let s : State := { quiet with store := { quiet.store with
      banks := quiet.store.banks.set 3 ⟨.opened 0, some ⟨3, .read [0], .gain 0⟩, some ⟨3, .read [0], .gain 0⟩, some goodClaim, 5⟩ } }
    after (exec .restart (ask 0x04 [] s)) (fun t => t.store.banks.get 3)
      = some ⟨.opened 0, some ⟨3, .read [0], .discarded .engine⟩, none, none, 0⟩ := by decide +kernel

/-- A LINE item whose line is taught, committed and warned of, with its history writes outstanding under index position 4. -/
def committed : State := { integrating with
  engine := { integrating.engine with st := .line ⟨0, 0, ctx, 0, true⟩ }
  tester := { Tester.cold with teachCount := 8 }
  tracker := { Tracker.cold with table := [oldDefect 2 0 3 1], reported := 1 }
  history := { History.cold with
    st := .storing ⟨4, 9, 2, 6⟩ 1, result := some ⟨128, true, false⟩, writePos := 4, written := 4
    index := [(3, .stored 8 2 ⟨0, false, false⟩), (4, .writing 9 2)] }
  link := { integrating.link with
    transmitter := .sendingNotice ⟨0x47, 0, []⟩ false, notices := [.levelDrop, .runOverflow 8 3, .runOverflow 9 3, .lineLost 4 1 .ofShort 4 0] }
  before := ⟨[oldDefect 1 0 3 1], some (9, 3)⟩ }

theorem witness_stop_takes_back : committed.engine.st = .line ⟨0, 0, ctx, 0, true⟩ ∧ committed.run.st ≠ .stopped ∧
    committed.tester.st = .idle ∧ committed.history.st = .storing ⟨4, 9, 2, 6⟩ 1 ∧ committed.before.warned = some (9, 3) ∧
    (ask 0x14 [] committed).Accepts 0x14 ⟨0x14, 7, []⟩ [] := by decide +kernel

/-- STOP with such an item in hand: the previous item's table is closed and the RUN_OVERFLOW notice has left the queue (R67,
log 31); the line that is being stored is abandoned (R158), and the idle band tester keeps its count (R119, R122, R124). -/
theorem test_stop_takes_the_item_back :
    after (exec .stop (ask 0x14 [] committed)) (fun t =>
        ((t.tracker.table, t.tracker.reported, t.tester.teachCount), (t.history.writePos, t.history.written, t.history.index)))
      = some (([], 2, 8), (4, 4, [(3, .stored 8 2 ⟨0, false, false⟩)])) ∧
    after (exec .stop (ask 0x14 [] committed)) (·.link.notices)
      = some ([.levelDrop, .runOverflow 8 3, .lineLost 4 1 .ofShort 4 0]
        ++ ({ Tracker.cold with table := [oldDefect 1 0 3 1] } : Tracker).closeNotices .runStopped) := by decide +kernel

/-- A RUN_OVERFLOW notice in transmission is sent to its end (R185). -/
theorem test_notice_in_transmission_stays :
    let l : Link := { Link.cold .m1 with
      transmitter := .sendingNotice ⟨0x45, 0, []⟩ false, notices := [.runOverflow 9 3, .runOverflow 8 3] }
    (l.takeBack (.runOverflow 9 3)).notices = l.notices ∧
      (l.takeBack (.runOverflow 8 3)).notices = [.runOverflow 9 3] := by decide

/-- A commit notes the RUN_OVERFLOW notice that finds a place, and none that does not (R116, log 31). -/
theorem test_commit_notes_its_warning :
    ([[], List.replicate 32 Notice.levelDrop].map fun queued =>
      let s : State := { integrating with
        tester := { Tester.cold with st := .tracking, overflow := 3 }
        tracker := { Tracker.cold with st := .working 9 [] }
        link := { integrating.link with transmitter := .sendingReply ⟨0x81, 6, []⟩ false, notices := queued } }
      after (exec .trackerCommit s) (·.before.warned)) = [some (some (9, 3)), some none] := by decide +kernel

theorem witness_geometry_stays : ready.geometry = some geo ∧ after (exec .trackerCommit ready) (·.geometry) = some (some geo) := by decide +kernel

/-- A running state with regions meets every invariant, and a step is taken there. -/
theorem witness_invariants : running.tablesCanonical ∧ running.sizesSound ∧ running.refreshSound ∧ running.linkSound ∧
    running.runSound ∧ running.slotsSound ∧ running.entriesSound ∧ step running = .next running := by
  refine ⟨⟨List.Pairwise.nil, by decide, List.Pairwise.nil⟩, ⟨by decide, by decide, by decide⟩,
    ⟨by decide, by decide, by decide, by decide, by decide, by decide, fun a b h => by cases h⟩,
    ⟨by decide, by decide, by decide, by decide, by decide, by decide, by decide⟩,
    ⟨by decide, by decide, by decide, by decide, by decide, by decide, ?_⟩, ⟨by decide, by decide⟩,
    ⟨List.Perm.refl _, by decide, by decide, by decide⟩, rfl⟩
  rintro (h | ⟨n, h⟩) <;> cases h

theorem witness_regions_sound : running.regionsSound := by
  have find : ∀ i r, running.region i = some r → (i, r) ∈ table := by
    intro i r h
    simp only [State.region, running, ready, table, Table.find] at h
    split at h
    · cases h; subst i; decide
    · split at h
      · cases h; subst i; decide
      · split at h
        · cases h; subst i; decide
        · cases h
  refine ⟨by decide, fun h => (by cases h), fun i r h => ?_, fun i j r q h k hij => ?_⟩
  · have := find i r h
    simp only [table, List.mem_cons, List.not_mem_nil, or_false] at this
    rcases this with h | h | h <;> cases h <;> decide
  · have a := find i r h
    have b := find j q k
    simp only [table, List.mem_cons, List.not_mem_nil, or_false] at a b
    rcases a with h | h | h <;> rcases b with k | k | k <;> cases h <;> cases k <;>
      first | exact absurd rfl hij | decide

end Sys2Proof.Tests
end

section
/-! SUPPORT. Which waiting claim a permitted grant takes, and what its row decides (R6, R13, R14). -/

namespace Sys2Proof.Machine

-- The arbiter's choice, by the claims that wait

/-- Below a pass-over count of 8 the ENGINE claim goes before the ACCESS claim, which is passed over (R13, R14). -/
theorem grant_engine_of_passOver_lt {b : Bank} {e a : Claim} (he : b.engineClaim = some e) (ha : b.accessClaim = some a)
    (hq : b.passOver < 8) :
    b.grant = { b with granted := some e, engineClaim := none, passOver := b.passOver + 1 } := by
  simp [Bank.grant, he, ha, Config.maxPassOver, hq]

/-- A lone ENGINE claim is granted, and passes over nothing (R13, R14). -/
theorem grant_engine_alone {b : Bank} {e : Claim} (he : b.engineClaim = some e) (ha : b.accessClaim = none) :
    b.grant = { b with granted := some e, engineClaim := none } := by
  simp [Bank.grant, he, ha]

/-- A lone ACCESS claim is granted, and the pass-over count goes back to 0 (R13, R14). -/
theorem grant_access_alone {b : Bank} {a : Claim} (he : b.engineClaim = none) (ha : b.accessClaim = some a) :
    b.grant = { b with granted := some a, accessClaim := none, passOver := 0 } := by
  simp [Bank.grant, he, ha]

-- The bank after its decision, by the claim that the arbiter takes

/-- At the completion of an access the arbiter decides as at any bank with no access granted; the row of the claim it
takes decides only whether the bank stays open (R6). -/
theorem decideDone_get_of_grant {st : Store} {bank : Fin 4} (row : Nat) {g : Bank} {c : Claim} (hp : st.permitted = true)
    (hg : ({ st.banks.get bank with granted := none } : Bank).grant = g) (hc : g.granted = some c) :
    (st.decideDone bank row).banks.get bank
      = { g with st := if bankRowOf c.row = row then .opened row else .closing } := by
  simp only [Store.decideDone, hp, if_true, hg, hc, Four.get_set_self]

/-- An IDLE bank opens the row of the claim that the arbiter takes (R5, R6). -/
theorem decideIdle_get_of_grant {st : Store} {bank : Fin 4} {g : Bank} {c : Claim} (hp : st.permitted = true)
    (hi : (st.banks.get bank).st = .idle)
    (hg : ({ st.banks.get bank with granted := none } : Bank).grant = g) (hc : g.granted = some c) :
    (st.decideIdle bank).banks.get bank = { g with st := .opening (bankRowOf c.row) } := by
  simp only [Store.decideIdle, if_pos (And.intro hi hp), hg, hc, Four.get_set_self]

/-- Settles O12: in each case of R14 the arbiter's choice fixes the bank at both moments of R6. -/
theorem grantTakesEngineBelowEight : Obligations.GrantTakesEngineBelowEight := by
  intro st bank row hp
  refine ⟨fun e a he ha hq => ?both, fun e he ha => ?engineAlone, fun a he ha => ?accessAlone⟩
  case both =>
    have hg := grant_engine_of_passOver_lt (b := { st.banks.get bank with granted := none }) he ha hq
    rw [decideDone_get_of_grant row hp hg rfl]
    refine ⟨⟨rfl, rfl, ha, rfl⟩, fun hi => ?_⟩
    rw [decideIdle_get_of_grant hp hi hg rfl]
    exact ⟨rfl, rfl, ha, rfl⟩
  case engineAlone =>
    have hg := grant_engine_alone (b := { st.banks.get bank with granted := none }) he ha
    rw [decideDone_get_of_grant row hp hg rfl]
    refine ⟨⟨rfl, rfl, rfl⟩, fun hi => ?_⟩
    rw [decideIdle_get_of_grant hp hi hg rfl]
    exact ⟨rfl, rfl, rfl⟩
  case accessAlone =>
    have hg := grant_access_alone (b := { st.banks.get bank with granted := none }) he ha
    rw [decideDone_get_of_grant row hp hg rfl]
    refine ⟨⟨rfl, rfl, rfl⟩, fun hi => ?_⟩
    rw [decideIdle_get_of_grant hp hi hg rfl]
    exact ⟨rfl, rfl, rfl⟩

end Sys2Proof.Machine
end

section
/-! SUPPORT. How a line ends short of its P samples, and where the loss of a line goes in the queue (R77, R79, R82). -/

namespace Sys2Proof.Machine

-- The loss in the queue, by the newest item

/-- After a LINE item a loss is a new LOSS item (R79). -/
theorem placeLoss_newest_line (n : Word) (reason : Reasons) (queue : List QueueItem) (m : Word) (slot : Fin 4) :
    placeLoss n reason (queue ++ [.line m slot]) = queue ++ [.line m slot, .loss n 1 reason] := by
  rw [placeLoss_append]
  rfl

/-- The newest LOSS item takes a loss in when its last number comes just before the lost line's (R79). -/
theorem placeLoss_newest_loss (n : Word) (reason : Reasons) (queue : List QueueItem) (first : Word) (count : Nat)
    (reasons : Reasons) :
    placeLoss n reason (queue ++ [.loss first count reasons])
      = queue ++ if first + BitVec.ofNat 32 count - 1 = n - 1 then [.loss first (count + 1) (reasons.join reason)]
          else [.loss first count reasons, .loss n 1 reason] := by
  rw [placeLoss_append]
  simp only [placeLoss, sub_left_inj]

/-- Settles O25, by the newest item of the queue. -/
theorem lossMergesOrIsAppended : Obligations.LossMergesOrIsAppended := by
  intro n reason queue
  refine ⟨?empty, ?line, ?continued, ?apart⟩
  case empty => rfl
  case line => exact placeLoss_newest_line n reason queue
  case continued =>
    intro first count reasons h
    rw [placeLoss_newest_loss, if_pos h]
    rfl
  case apart =>
    intro first count reasons h
    rw [placeLoss_newest_loss, if_neg h]

-- The end of a line

/-- A numbered line leaves the port in OFF when it is the last of a limited run, and in READY otherwise (R76, R77, R82). -/
theorem afterLine_eq (limit n : Word) : afterLine limit n = if limit ≠ 0 ∧ n + 1 = limit then .off else .ready := by
  simp only [afterLine, lastLine, decide_eq_true_eq]

/-- A filling line that ends with another number of samples than P is lost with SHORT (R77). -/
theorem endLine_short {p : Port} {n : Word} {slot : Fin 4} {stored : List Sample} {pixels : Nat} (limit : Word)
    (hst : p.st = .filling n slot) (hslot : p.slots.get slot = some stored) (hne : stored.length ≠ pixels) :
    p.endLine limit pixels = { p.lose n slot .ofShort with st := afterLine limit n } := by
  simp only [Port.endLine, hst, hslot, Option.getD_some, if_neg hne]

/-- Where LVAL was active, an edge with it inactive ends the line in progress (R70). -/
theorem edge_ends_line {p : Port} {g : Geometry} (limit : Word) (x : Sample) (h : p.wasActive g = true) :
    p.edge limit g (g.lvalLevel == .low) x = { p.endLine limit g.pixels with lval := some (g.lvalLevel == .low) } := by
  simp only [Port.edge, h, (isActive_eq g).2]

/-- LINE_END in ACTIVE, with LVAL active before, ends the line in progress and has no other effect (R69, R76, R77). -/
theorem lineEnd_next {s : State} {g : Geometry} (hs : s.held = false) (hm : s.modeCtl.mode = .steady .active)
    (hg : s.geometry = some g) (hl : s.port.lval = some (g.lvalLevel == .high)) :
    ∃ l', exec .lineEnd s = .next { s with
        port := { s.port.endLine s.run.limit g.pixels with lval := some (g.lvalLevel == .low) }
        link := l' } ∧ Link.Settled s.link l' := by
  refine event_spec { s with
    port := { s.port.endLine s.run.limit g.pixels with lval := some (g.lvalLevel == .low) } } hs ?_
  have hwas := wasActive_high hl
  rw [atEdge_eq hm hg, if_pos hwas, (level_eq g).2, edge_ends_line s.run.limit 0 hwas]

/-- Settles O23: either hypothesis on the samples keeps their number from P, so that LINE_END finds the line short. -/
theorem shortLineIsLost : Obligations.ShortLineIsLost := by
  intro s g n slot stored hs hm hg hl hst hslot hshort
  have hne : stored.length ≠ g.pixels := by omega
  obtain ⟨l', hnext, hsettled⟩ := lineEnd_next hs hm hg hl
  refine ⟨l', ?_, hsettled⟩
  rw [hnext, endLine_short s.run.limit hst hslot hne, afterLine_eq]
  rfl

end Sys2Proof.Machine
end

section
/-! SUPPORT. The lane values that binning forms of a line's samples (R88). -/

namespace Sys2Proof.Machine

-- The formula of PAIR, for one pair of samples

/-- A sample has 12 bits (R69). -/
theorem sample_le (x : Sample) : x.toNat ≤ 4095 := Nat.le_of_lt_succ x.isLt

/-- The weighted sum of two samples is at most 4095 × 510 (R88). -/
theorem weightedSum_le {a b w0 w1 : Nat} (ha : a ≤ 4095) (hb : b ≤ 4095) (hw0 : w0 ≤ 255) (hw1 : w1 ≤ 255) :
    a * w0 + b * w1 ≤ 4095 * 510 :=
  calc a * w0 + b * w1
    _ ≤ 4095 * 255 + 4095 * 255 := Nat.add_le_add (Nat.mul_le_mul ha hw0) (Nat.mul_le_mul hb hw1)
    _ = 4095 * 510 := rfl

/-- No weights of R88 bring a lane value of PAIR above 16316, which 65535 exceeds: the saturation is not reached. -/
theorem pairValue_le {a b w0 w1 : Nat} (ha : a ≤ 4095) (hb : b ≤ 4095) (hw0 : w0 ≤ 255) (hw1 : w1 ≤ 255) :
    (a * w0 + b * w1) / 128 ≤ 16316 :=
  Nat.div_le_div_right (c := 128) (weightedSum_le ha hb hw0 hw1)

/-- With both weights at 128, which stands for 1.0, the formula gives the sum of the two samples (R88). -/
theorem pairValue_unit_weights (a b : Nat) : (a * 128 + b * 128) / 128 = a + b := by
  rw [← Nat.add_mul, Nat.mul_div_cancel _ (by decide)]

-- The lanes of a line

/-- PAIR forms lane j of samples 2j and 2j + 1 (R88). -/
theorem pairLanes_getElem? (w0 w1 : Nat) : ∀ (samples : List Sample) (j : Nat), 2 * j + 1 < samples.length →
    (pairLanes w0 w1 samples)[j]? = some (min 65535
      (((samples.getD (2 * j) 0).toNat * w0 + (samples.getD (2 * j + 1) 0).toNat * w1) / 128))
  | [], _, hj => absurd hj (Nat.not_lt_zero _)
  | [_], _, hj => absurd (Nat.lt_of_succ_lt_succ hj) (Nat.not_lt_zero _)
  | _ :: _ :: _, 0, _ => rfl
  | _ :: _ :: rest, j + 1, hj =>
    have hrest : 2 * j + 1 < rest.length := Nat.lt_of_succ_lt_succ (Nat.lt_of_succ_lt_succ hj)
    pairLanes_getElem? w0 w1 rest j hrest

/-- PAIR forms one lane of every two samples; an odd last sample forms none. -/
theorem pairLanes_length (w0 w1 : Nat) : ∀ samples : List Sample,
    (pairLanes w0 w1 samples).length = samples.length / 2
  | [] => rfl
  | [_] => by simp only [pairLanes, List.length_nil, List.length_singleton, Nat.reduceDiv]
  | a :: b :: rest => by
    simp only [pairLanes, List.length_cons, pairLanes_length w0 w1 rest]
    omega

/-- NONE forms lane j of sample j (R88). -/
theorem binLanes_none_getElem? (w0 w1 : Nat) {samples : List Sample} {j : Nat} (hj : j < samples.length) :
    (binLanes .none w0 w1 samples)[j]? = some (samples.getD j 0).toNat := by
  simp only [binLanes, List.getElem?_map, List.getD_eq_getElem?_getD, List.getElem?_eq_getElem hj, Option.map_some,
    Option.getD_some]

/-- Settles O26: the formula lane by lane, then its value under the weights that R88 names. -/
theorem binningFormsTheLanes : Obligations.BinningFormsTheLanes := by
  intro samples w0 w1 hw0 hw1
  refine ⟨fun j hj => binLanes_none_getElem? w0 w1 hj, fun j hj => ?pair, List.length_map _,
    pairLanes_length w0 w1 samples⟩
  case pair =>
    intro a b
    have hle : (a * w0 + b * w1) / 128 ≤ 16316 := pairValue_le (sample_le _) (sample_le _) hw0 hw1
    have hmin : min 65535 ((a * w0 + b * w1) / 128) = (a * w0 + b * w1) / 128 := min_eq_right (by omega)
    refine ⟨(a * w0 + b * w1) / 128, ?formula, hmin.symm, hle, ?unitWeights, ?noFirst, ?noSecond⟩
    case formula => exact (pairLanes_getElem? w0 w1 samples j hj).trans (congrArg some hmin)
    case unitWeights =>
      rintro rfl rfl
      exact pairValue_unit_weights a b
    case noFirst =>
      rintro rfl
      rw [Nat.mul_zero, Nat.zero_add]
    case noSecond =>
      rintro rfl
      rw [Nat.mul_zero, Nat.add_zero]

end Sys2Proof.Machine
end

section
/-! SUPPORT. The class of a lane by the rows of the table of R111, and what an inverted band leaves of them. -/

namespace Sys2Proof.Machine

-- The rows of the table of R111, in order, each after the conditions before it have failed

/-- Row 1: an excluded lane is EXCLUDED whatever its bounds and its mean. -/
theorem classify_excluded (m lower upper : Nat) : classify true m lower upper = .excluded := rfl

/-- Row 2: a mean above UPPER is ABOVE, whatever LOWER is. -/
theorem classify_above {m upper : Nat} (lower : Nat) (h : upper < m) :
    classify false m lower upper = .above (m - upper) := by
  simp only [classify, Bool.false_eq_true, if_false, if_pos h]

/-- Row 3: a mean that is not above UPPER is BELOW when it is below LOWER. -/
theorem classify_below {m lower upper : Nat} (hu : m ≤ upper) (hl : m < lower) :
    classify false m lower upper = .below (lower - m) := by
  simp only [classify, Bool.false_eq_true, if_false, if_neg (Nat.not_lt_of_le hu), if_pos hl]

/-- Row 4: a mean from LOWER to UPPER is IN_BAND. -/
theorem classify_inBand {m lower upper : Nat} (hu : m ≤ upper) (hl : lower ≤ m) :
    classify false m lower upper = .inBand := by
  simp only [classify, Bool.false_eq_true, if_false, if_neg (Nat.not_lt_of_le hu), if_neg (Nat.not_lt_of_le hl)]

-- What R111 says of deviations and of inverted bands

/-- The distance of a 16-bit value from a lesser one lies in the range of a deviation (R111). -/
theorem deviation_range {a b : Nat} (hab : a < b) (hb : b ≤ 65535) : 1 ≤ b - a ∧ b - a ≤ 65535 :=
  ⟨Nat.sub_pos_of_lt hab, (Nat.sub_le b a).trans hb⟩

/-- An inverted band holds no value: a mean is ABOVE or, as it then lies below LOWER, BELOW (R111). -/
theorem classify_inverted {lower upper : Nat} (m : Nat) (h : upper < lower) :
    classify false m lower upper = .above (m - upper) ∨ classify false m lower upper = .below (lower - m) := by
  rcases lt_or_ge upper m with hu | hu
  · exact .inl (classify_above lower hu)
  · exact .inr (classify_below hu (hu.trans_lt h))

/-- Settles O30: the rows of the table in order, then the bounds themselves and the inverted band. -/
theorem laneClassFollowsTheBand : Obligations.LaneClassFollowsTheBand := by
  intro excluded m lower upper hm hlower _
  refine ⟨?excluded, ?notExcluded⟩
  case excluded =>
    rintro rfl
    exact classify_excluded m lower upper
  case notExcluded =>
    rintro rfl
    refine ⟨fun hu => ⟨classify_above lower hu, deviation_range hu hm⟩,
      fun hu hl => ⟨classify_below hu hl, deviation_range hl hlower⟩,
      classify_inBand, ?atBound, ?inverted⟩
    case atBound =>
      rintro hband (rfl | rfl)
      · exact classify_inBand le_rfl hband
      · exact classify_inBand hband le_rfl
    case inverted =>
      intro h
      rcases classify_inverted m h with hclass | hclass <;> rw [hclass] <;> exact ⟨nofun, nofun⟩

end Sys2Proof.Machine
end

section
/-! SUPPORT. What a command can come to: every next state of the part, by the command and by the conditions under which it
comes to it (log 2). Each invariant is proved over these cases. -/

namespace Sys2Proof.Machine

-- The checks of a request

theorem firstFailure_eq_none_iff (checks : List (Bool × Status)) :
    firstFailure checks = none ↔ ∀ p ∈ checks, p.1 = false := by
  induction checks with
  | nil => simp [firstFailure]
  | cons p rest ih =>
    obtain ⟨bad, status⟩ := p
    cases bad <;> simp [firstFailure, ih]

/-- A checked request is refused, or all of its checks pass and it takes effect (R205). -/
theorem checked_cases (r : Request) (checks : List (Bool × Status)) (effect : State → State) (s : State) :
    (∃ status, s.checked r checks effect = s.refuse r status) ∨
      ((∀ p ∈ checks, p.1 = false) ∧ s.checked r checks effect = effect s) := by
  cases h : firstFailure checks with
  | some status => exact .inl ⟨status, checked_some h⟩
  | none => exact .inr ⟨(firstFailure_eq_none_iff checks).mp h, checked_none h⟩

-- The path of a context record

/-- A record that has passed its checks is installed at once, or becomes the pending context, which may be installed then
(R50, R53, R58, R60). -/
theorem useContext_cases (s : State) (r : Request) (c : Context) (retained : List Retained) (popLeft : Option Nat)
    (early : s.run.st ≠ .draining) :
    ((s.run.st = .stopped ∨ s.run.st = .armed) ∧ s.useContext r c retained popLeft
        = ({ s with run := { s.run with active := c } } : State).replyOk r
            (({ s with run := { s.run with active := c } } : State).setFields retained popLeft)) ∨
      (s.run.st = .running ∧ ∃ v, v = { s with run := { s.run with
          st := .draining, next := some ⟨c, r.ticket, retained, popLeft⟩ } } ∧
        (s.useContext r c retained popLeft = v ∨
          (v.engine.st = .between ∧ v.engine.ring = [] ∧ s.useContext r c retained popLeft = v.install))) := by
  unfold State.useContext
  cases hs : s.run.st with
  | stopped => exact .inl ⟨.inl rfl, rfl⟩
  | armed => exact .inl ⟨.inr rfl, rfl⟩
  | draining => exact absurd hs early
  | running =>
    refine .inr ⟨rfl, _, rfl, ?_⟩
    unfold State.tryInstall
    simp only
    split
    · rename_i h
      exact .inr ⟨h.1, h.2, rfl⟩
    · exact .inl rfl

-- What an accepted request comes to

/-- What an accepted request makes of the state in which it has been taken. -/
inductive Served (u : State) (r : Request) : Instr → State → Prop
  | refused (c : Instr) (status : Status) : Served u r c (u.refuse r status)
  | reported (c : Instr) (fields : List Byte) : Served u r c (u.replyOk r fields)
  | levelRefused (risen : Bool) (status : Status) :
      Served u r (.level risen) (({ u with svc := u.svc || risen } : State).refuse r status)
  | levelSet (risen : Bool) (level : Level)
      (pin : level = .service → (u.svc || risen) = true ∨ u.link.level = .service) :
      Served u r (.level risen) (({ u with svc := u.svc || risen } : State).setLevel r level)
  | restarted (fields : List Byte) : Served u r .restart ((u.restarted r.ticket).replyOk r fields)
  | changing (source target : Steady) (mode : u.modeCtl.mode = .steady source) (other : target ≠ source)
      (passed : u.changeFailure source target = none) : Served u r .mode (u.startChange source target r.ticket)
  | geometryFixed (g : Geometry) (fields : List Byte) (free : u.geometry = none) :
      Served u r .geometry (({ u with geometry := some g } : State).replyOk r fields)
  | defined (index : Nat) (n : Region) (fields : List Byte) (range : index ≤ 15) (rows : n.rows ≠ 0)
      (fixed : u.geometry ≠ none) (free : u.region index = none) (inside : n.first + n.rows ≤ 8192)
      (whole : n.badEntries u.slot = false) (apart : u.overlaps n = false) :
      Served u r .define (({ u with regions := Table.put u.regions index n } : State).replyOk r fields)
  | removed (index : Nat) (selection : Option Selection) (fields : List Byte) :
      Served u r .remove (({ u with
        regions := Table.drop u.regions index
        access := { u.access with selection := selection } } : State).replyOk r fields)
  | clearing (target : Region) (free : u.access.clear = none) :
      Served u r .clear (u.startClear (u.clearWork r target))
  | selected (c : Instr) (selection : Selection) (fields : List Byte) :
      Served u r c (({ u with access := { u.access with selection := some selection } } : State).replyOk r fields)
  | reading (first : Claim) (rest : List Claim) (cursor : Cursor) (wrapped wide : Bool) :
      Served u r .read (u.startTransfer (first :: rest)
        (fun claims => .reading ⟨r.ticket, claims, cursor, wrapped⟩ wide []))
  | writing (first : Claim) (rest : List Claim) (cursor : Cursor) (wrapped : Bool) :
      Served u r .write (u.startTransfer (first :: rest) (fun claims => .writing ⟨r.ticket, claims, cursor, wrapped⟩ 0))
  | adopted (c : Instr) (stack : List Context) (context : Context) (fields : List Byte)
      (fewer : stack.length ≤ u.run.stack.length) :
      Served u r c (({ u with run := { u.run with stack := stack, active := context } } : State).replyOk r fields)
  | pended (c : Instr) (stack : List Context) (p : PendingContext) (ticket : p.ticket = r.ticket)
      (running : u.run.st = .running) (fewer : stack.length ≤ u.run.stack.length) :
      Served u r c { u with run := { u.run with stack := stack, st := .draining, next := some p } }
  | installed (c : Instr) (stack : List Context) (p : PendingContext) (ticket : p.ticket = r.ticket)
      (running : u.run.st = .running) (between : u.engine.st = .between)
      (fewer : stack.length ≤ u.run.stack.length) : Served u r c
        ({ u with run := { u.run with stack := stack, st := .draining, next := some p } } : State).install
  | pushed (fields : List Byte) (room : u.run.stack.length < 4) :
      Served u r .push (({ u with run := { u.run with stack := u.run.active :: u.run.stack } } : State).replyOk r fields)
  | started (trigger : Trigger) (limit : Word) (fields : List Byte) (powered : u.modeCtl.mode = .steady .active)
      (stopped : u.run.st = .stopped) : Served u r .start ((u.beginRun trigger limit).replyOk r fields)
  | stopping (fields : List Byte) (running : u.run.st ≠ .stopped) :
      Served u r .stop ((u.abandonRun.stopRun.closeAll .runStopped).replyOk r fields)
  | historyMarked (c : Instr) (hold : Bool) (unstored : Nat) (fields : List Byte) :
      Served u r c (({ u with history := { u.history with hold := hold, unstored := unstored } } : State).replyOk r fields)

/-- A request with checks of its own is refused by one of them, or served where all of them pass. -/
theorem Served.checked {u : State} {r : Request} {c : Instr} {checks : List (Bool × Status)} {effect : State → State}
    (h : (∀ p ∈ checks, p.1 = false) → Served u r c (effect u)) : Served u r c (u.checked r checks effect) := by
  rcases checked_cases r checks effect u with ⟨status, hr⟩ | ⟨hp, he⟩
  · rw [hr]
    exact .refused c status
  · rw [he]
    exact h hp

theorem levelRequest_served (u : State) (r : Request) (risen : Bool) :
    Served u r (.level risen) (({ u with svc := u.svc || risen } : State).levelRequest r) := by
  unfold State.levelRequest
  split
  · exact .levelRefused risen _
  · exact .levelSet risen .operator nofun
  · split
    · rename_i hl
      have same : ({ u with svc := u.svc || risen } : State).setLevel r .service
          = ({ u with svc := u.svc || risen } : State).replyOk r [u.link.level.code] := by
        rw [← hl]
        rfl
      exact same ▸ .levelSet risen .service (fun _ => .inr hl)
    · rename_i hs
      exact .levelSet risen .service (fun _ => .inl hs)
    · exact .levelRefused risen _

theorem modeRequest_served (u : State) (r : Request) (hs : u.modeCtl.mode ≠ .starting)
    (hc : u.modeCtl.mode.isChanging = false) : Served u r .mode (u.modeRequest r) := by
  unfold State.modeRequest
  split
  · exact .refused _ _
  · rename_i target source _ hm
    split
    · exact .reported _ _
    · rename_i hne
      split
      · exact .refused _ _
      · rename_i hf
        exact .changing source target hm hne hf
  · rename_i hm
    exact absurd hm hs
  · rename_i hm
    rw [hm] at hc
    cases hc

theorem geometryRequest_served (u : State) (r : Request) : Served u r .geometry (u.geometryRequest r) := by
  unfold State.geometryRequest
  split
  · exact .refused _ _
  · exact .checked fun hp => .geometryFixed _ _ (by simpa using hp)

theorem defineRequest_served (u : State) (r : Request) : Served u r .define (u.defineRequest r) := by
  unfold State.defineRequest
  simp only
  split
  · exact .refused _ _
  · exact .refused _ _
  · refine .checked fun hp => ?_
    simp only [List.mem_cons, List.not_mem_nil, or_false, forall_eq_or_imp, forall_eq, decide_eq_false_iff_not] at hp
    obtain ⟨hrange, hfixed, hfree, hinside, hwhole, hapart⟩ := hp
    exact .defined _ _ _ (by omega) (by omega) (by simpa [Option.isSome_iff_ne_none] using hfixed) (by simpa using hfree) (by omega) hwhole hapart

theorem removeRequest_served (u : State) (r : Request) : Served u r .remove (u.removeRequest r) := by
  unfold State.removeRequest
  exact .checked fun _ => .removed _ _ _

theorem clearRequest_served (u : State) (r : Request) : Served u r .clear (u.clearRequest r) := by
  refine .checked fun hp => ?_
  have hfree : u.access.clear = none := by simpa using hp _ (List.mem_cons_of_mem _ List.mem_cons_self)
  split
  · exact .refused _ _
  · exact .checked fun _ => .clearing _ hfree

theorem selectRequest_served (u : State) (r : Request) : Served u r .select (u.selectRequest r) := by
  unfold State.selectRequest
  simp only
  split
  · exact .refused _ _
  · exact .refused _ _
  · split
    · exact .refused _ _
    · split
      · exact .refused _ _
      · exact .checked fun _ => .selected _ _ _

theorem windowRequest_served (u : State) (r : Request) : Served u r .window (u.windowRequest r) := by
  unfold State.windowRequest
  refine .checked fun _ => ?_
  split
  · exact .refused _ _
  · exact .checked fun _ => .selected _ _ _

/-- The walk of a count visits as many positions (R163). -/
theorem walk_visits_length (w : Window) (count : Nat) (c : Cursor) : (w.walk count c).visits.length = count := by
  induction count generalizing c with
  | zero => rfl
  | succ n ih => simp [Window.walk, ih]

/-- A walk that visits something has a segment (R164). -/
theorem segments_ne_nil {α : Type} (unit : Nat) {visits : List (Cursor × α)} (h : visits ≠ []) :
    segments unit visits ≠ [] := by
  cases visits with
  | nil => exact absurd rfl h
  | cons v rest =>
    unfold segments
    split
    · split <;> simp
    · simp

/-- A READ of some lanes has a first claim (R166). -/
theorem readClaims_ne_nil {slot : Nat} {target : Region} {plane : Plane} {visits : List Cursor} (h : visits ≠ []) :
    readClaims slot target plane visits ≠ [] := by
  unfold readClaims
  rw [Ne, List.map_eq_nil_iff]
  exact segments_ne_nil _ (by simpa using h)

/-- A WRITE of some lanes has a first claim (R169). -/
theorem writeClaims_ne_nil {slot : Nat} {target : Region} {plane : Plane} {cond : WriteCond} {visits : List Cursor}
    {values : List Half} (h : visits ≠ []) (hv : values ≠ []) : writeClaims slot target plane cond visits values ≠ [] := by
  unfold writeClaims
  rw [Ne, List.map_eq_nil_iff]
  exact segments_ne_nil _ (by simp [List.zip_eq_nil_iff, h, hv])

theorem walk_visits_ne_nil (w : Window) {count : Nat} (c : Cursor) (h : count ≠ 0) : (w.walk count c).visits ≠ [] := by
  rw [← List.length_pos_iff, walk_visits_length]
  omega

theorem readRequest_served (u : State) (r : Request) : Served u r .read (u.readRequest r) := by
  unfold State.readRequest
  refine .checked fun hp => ?_
  have hcount : ¬(u16At r.payload 0 = 0 ∨ 512 < u16At r.payload 0) := by
    simpa using hp _ (List.mem_cons_of_mem _ (List.mem_cons_of_mem _ List.mem_cons_self))
  split
  · exact .refused _ _
  · rename_i k target _
    refine .checked fun _ => ?_
    obtain ⟨first, rest, hc⟩ := List.exists_cons_of_ne_nil (readClaims_ne_nil (slot := u.slot) (target := target)
      (plane := k.plane) (walk_visits_ne_nil k.window k.cursor (fun h => hcount (.inl h))))
    simp only [hc]
    exact .reading first rest _ _ _

theorem writeRequest_served (u : State) (r : Request) : Served u r .write (u.writeRequest r) := by
  unfold State.writeRequest
  refine .checked fun hp => ?_
  have hcount : (writeValues r.payload).length ≠ 0 := by
    simpa using hp _ (List.mem_cons_of_mem _ (List.mem_cons_of_mem _ List.mem_cons_self))
  split
  · exact .refused _ _
  · rename_i cond _
    split
    · exact .refused _ _
    · rename_i k target _
      refine .checked fun _ => ?_
      obtain ⟨first, rest, hc⟩ := List.exists_cons_of_ne_nil (writeClaims_ne_nil (slot := u.slot) (target := target)
        (plane := k.plane) (cond := cond) (walk_visits_ne_nil k.window k.cursor hcount)
        (List.ne_nil_of_length_pos (Nat.pos_of_ne_zero hcount)))
      simp only [hc]
      exact .writing first rest _ _

theorem useContext_served {u : State} {r : Request} (c : Instr) {stack : List Context} (context : Context)
    (retained : List Retained) (popLeft : Option Nat) (early : u.run.st ≠ .draining)
    (fewer : stack.length ≤ u.run.stack.length) : Served u r c
      (({ u with run := { u.run with stack := stack } } : State).useContext r context retained popLeft) := by
  rcases useContext_cases { u with run := { u.run with stack := stack } } r context retained popLeft early with
    ⟨-, he⟩ | ⟨running, v, rfl, he | ⟨between, -, he⟩⟩ <;> rw [he]
  · exact .adopted c stack context _ fewer
  · exact .pended c stack ⟨context, r.ticket, retained, popLeft⟩ rfl running fewer
  · exact .installed c stack ⟨context, r.ticket, retained, popLeft⟩ rfl running between fewer

theorem setRequest_served (u : State) (r : Request) : Served u r .set (u.setRequest r) := by
  refine .checked fun hp => ?_
  split
  · exact .refused _ _
  · exact .checked fun _ => useContext_served _ _ _ _ (by simpa using hp) le_rfl

theorem popRequest_served (u : State) (r : Request) : Served u r .pop (u.popRequest r) := by
  refine .checked fun hp => ?_
  split
  · exact .refused _ _
  · rename_i top rest hst
    exact .checked fun _ => useContext_served _ _ _ _ (by simpa using hp) (by simp [hst])

theorem pushRequest_served (u : State) (r : Request) : Served u r .push (u.pushRequest r) :=
  .checked fun hp => .pushed _ (by simpa using hp)

theorem startRequest_served (u : State) (r : Request) : Served u r .start (u.startRequest r) := by
  refine .checked fun hp => ?_
  have hmode : u.modeCtl.mode = .steady .active := by simpa [State.powered] using hp _ List.mem_cons_self
  have hstopped : u.run.st = .stopped := by simpa using hp _ (List.mem_cons_of_mem _ List.mem_cons_self)
  split
  · exact .refused _ _
  · exact .checked fun _ => .started _ _ _ hmode hstopped

theorem stopRequest_served (u : State) (r : Request) : Served u r .stop (u.stopRequest r) := by
  unfold State.stopRequest
  split
  · exact .reported _ _
  · rename_i hrun
    exact .stopping _ hrun

/-- A mode change in flight lets through only the kinds that it exempts (R186). -/
theorem not_changing_of_takes {s : State} {kind : Byte} {r : Request} {rest : List Request} (h : s.Takes kind r rest)
    (hk : exemptKind kind = false) : s.modeCtl.mode.isChanging = false := by
  obtain ⟨-, -, -, -, hm, -⟩ := h
  by_contra hc
  rw [hm (by simpa using hc)] at hk
  cases hk

theorem served_of_body {c : Instr} {kind : Byte} {s : State} {r : Request} {rest : List Request}
    {body : Request → State → State} (h : s.Accepts kind r rest) (he : exec c s = accept kind body s)
    (hb : Served (s.taken r rest) r c (body r (s.taken r rest))) :
    ∃ u, exec c s = .next u.settleLink ∧ Served (s.taken r rest) r c u :=
  ⟨_, he.trans (accept_of_accepts h body), hb⟩

/-- Every request that is accepted is served (R182). -/
theorem exec_of_accepts {c : Instr} {kind : Byte} (hk : requestKind c = some kind) {s : State} {r : Request}
    {rest : List Request} (h : s.Accepts kind r rest) :
    ∃ u, exec c s = .next u.settleLink ∧ Served (s.taken r rest) r c u := by
  cases c <;> simp only [requestKind, Option.some.injEq, reduceCtorEq] at hk <;> subst hk
  case ping => exact served_of_body h (rfl : execPing s = accept _ _ s) (.reported _ _)
  case status => exact served_of_body h (rfl : execStatus s = accept _ _ s) (.reported _ _)
  case level risen => exact served_of_body h (rfl : execLevel risen s = accept _ _ s) (levelRequest_served _ r risen)
  case restart => exact served_of_body h (rfl : execRestart s = accept _ _ s) (.checked fun _ => .restarted _)
  case mode =>
    have still : s.modeCtl.mode.isChanging = false := not_changing_of_takes h.1 (by decide)
    exact served_of_body h (rfl : execMode s = accept _ _ s) (modeRequest_served _ r h.2.2.1 still)
  case geometry => exact served_of_body h (rfl : execGeometry s = accept _ _ s) (geometryRequest_served _ r)
  case define => exact served_of_body h (rfl : execDefine s = accept _ _ s) (defineRequest_served _ r)
  case remove => exact served_of_body h (rfl : execRemove s = accept _ _ s) (removeRequest_served _ r)
  case regions => exact served_of_body h (rfl : execRegions s = accept _ _ s) (.reported _ _)
  case clear => exact served_of_body h (rfl : execClear s = accept _ _ s) (clearRequest_served _ r)
  case select => exact served_of_body h (rfl : execSelect s = accept _ _ s) (selectRequest_served _ r)
  case window => exact served_of_body h (rfl : execWindow s = accept _ _ s) (windowRequest_served _ r)
  case read => exact served_of_body h (rfl : execRead s = accept _ _ s) (readRequest_served _ r)
  case write => exact served_of_body h (rfl : execWrite s = accept _ _ s) (writeRequest_served _ r)
  case set => exact served_of_body h (rfl : execSet s = accept _ _ s) (setRequest_served _ r)
  case get => exact served_of_body h (rfl : execGet s = accept _ _ s) (.reported _ _)
  case push => exact served_of_body h (rfl : execPush s = accept _ _ s) (pushRequest_served _ r)
  case pop => exact served_of_body h (rfl : execPop s = accept _ _ s) (popRequest_served _ r)
  case start => exact served_of_body h (rfl : execStart s = accept _ _ s) (startRequest_served _ r)
  case stop => exact served_of_body h (rfl : execStop s = accept _ _ s) (stopRequest_served _ r)
  case hold => exact served_of_body h (rfl : execHold s = accept _ _ s) (.historyMarked _ true _ _)
  case release => exact served_of_body h (rfl : execRelease s = accept _ _ s) (.historyMarked _ false 0 _)
  case historyInfo => exact served_of_body h (rfl : execHistoryInfo s = accept _ _ s) (.checked fun _ => .reported _ _)
  case defects => exact served_of_body h (rfl : execDefects s = accept _ _ s) (.checked fun _ => .reported _ _)

/-- The head request is taken, or it is not one that may be. -/
theorem acceptable_cases {s : State} (kind : Byte) (hs : s.held = false) :
    s.link.acceptable s.modeCtl.mode kind = none ∨ ∃ r rest, s.Takes kind r rest := by
  unfold Link.acceptable
  split
  · exact .inl rfl
  · rename_i r rest hin
    split
    · rename_i hcond
      obtain ⟨hkind, hexec, hmode, hfree⟩ := hcond
      exact .inr ⟨r, rest, hs, hin, hkind, hexec, fun hc => by simpa [hc] using hmode, hfree⟩
    · exact .inl rfl

/-- A request taken is refused by a check common to all, or accepted (R205). -/
theorem commonFailure_cases {s : State} {kind : Byte} {r : Request} {rest : List Request} (h : s.Takes kind r rest) :
    (∃ status, (s.taken r rest).commonFailure r = some status) ∨ s.Accepts kind r rest := by
  cases hf : (s.taken r rest).commonFailure r with
  | some status => exact .inl ⟨status, rfl⟩
  | none =>
    right
    have hkind : r.kind = kind := h.2.2.1
    simp only [State.commonFailure, firstFailure_eq_none_iff, List.mem_cons, List.not_mem_nil, or_false,
      forall_eq_or_imp, forall_eq, hkind] at hf
    obtain ⟨hlength, hmode, hlevel⟩ := hf
    refine ⟨h, by simpa using hlength, of_decide_eq_false hmode, fun hserv => ?_⟩
    have hl : (s.taken r rest).link.level ≠ .operator := by simpa [hserv] using hlevel
    show s.link.level = .service
    cases hlv : s.link.level with
    | service => rfl
    | operator => exact absurd hlv hl

/-- The acceptance of a request: nothing happens, or the request is taken and refused or served (R182, R205, log 2). -/
theorem exec_request_cases {c : Instr} {kind : Byte} (hk : requestKind c = some kind) {s : State} (hs : s.held = false) :
    exec c s = .next s.settleLink ∨
      ∃ r rest u, s.Takes kind r rest ∧ Served (s.taken r rest) r c u ∧ exec c s = .next u.settleLink := by
  obtain ⟨body, hbody⟩ := exec_request hk
  rcases acceptable_cases kind hs with hn | ⟨r, rest, ht⟩
  · left
    rw [hbody, accept_of_not hs hn]
  · right
    rcases commonFailure_cases ht with ⟨status, hf⟩ | ha
    · refine ⟨r, rest, _, ht, .refused c status, ?_⟩
      rw [hbody, accept_of_takes ht, hf]
    · obtain ⟨u, hu, hserved⟩ := exec_of_accepts hk ha
      exact ⟨r, rest, u, ht, hserved, hu⟩

end Sys2Proof.Machine
end

section
/-! SUPPORT. The next states of the part: what an event or an accepted request makes of the part while RESET_N is high, and
what a step comes to. -/

namespace Sys2Proof.Machine

/-- A sampling edge's work on the port, but for the record of the level of LVAL (R70 to R78). -/
inductive PortMove (limit : Word) (pixels : Nat) (p : Port) : Port → Prop
  | still : PortMove limit pixels p p
  | activated (x : Sample) : PortMove limit pixels p (p.activate limit x)
  | sampled (x : Sample) : PortMove limit pixels p (p.takeSample limit pixels x)
  | ended : PortMove limit pixels p (p.endLine limit pixels)
  | overlong : PortMove limit pixels p (p.longLine limit pixels)

/-- An edge moves the port and records the level of LVAL (R70). -/
theorem edge_moves (limit : Word) (g : Geometry) (high : Bool) (x : Sample) (p : Port) :
    ∃ q, PortMove limit g.pixels p q ∧ p.edge limit g high x = { q with lval := some high } := by
  unfold Port.edge
  simp only
  split
  · exact ⟨_, .activated x, rfl⟩
  · exact ⟨_, .sampled x, rfl⟩
  · exact ⟨_, .ended, rfl⟩
  · exact ⟨_, .still, rfl⟩

/-- What a command makes of the part while RESET_N is high, before the link settles. -/
inductive Happens (s : State) : Instr → State → Prop
  | nothing (c : Instr) : Happens s c s
  | holdOver (array : s.store.array = .starting) (work : s.store.work = .startupHold) :
      Happens s .startupHoldExpire { s with store := { s.store with work := .startup 8 } }
  | ticked : Happens s .refreshTick { s with store := s.store.tick.startUrgent }
  | refreshStarted : Happens s .refreshStart { s with store := s.store.startRefresh }
  | refreshed : Happens s .refreshComplete s.refreshed
  | opened (bank : Fin 4) (row : Nat) (opening : (s.store.banks.get bank).st = .opening row) :
      Happens s (.bankOpenComplete bank) { s with store := { s.store with
        banks := s.store.banks.set bank { s.store.banks.get bank with st := .opened row } } }
  | closedForGrant (bank : Fin 4) (k : Claim) (closing : (s.store.banks.get bank).st = .closing)
      (granted : (s.store.banks.get bank).granted = some k) :
      Happens s (.bankCloseComplete bank) { s with store := { s.store with
        banks := s.store.banks.set bank { s.store.banks.get bank with st := .opening (bankRowOf k.row) } } }
  | closed (bank : Fin 4) (closing : (s.store.banks.get bank).st = .closing)
      (free : (s.store.banks.get bank).granted = none) :
      Happens s (.bankCloseComplete bank) { s with store := ({ s.store with
        banks := s.store.banks.set bank { s.store.banks.get bank with st := .idle } } : Store).settle }
  | accessed (bank : Fin 4) (row : Nat) (k : Claim) (opened : (s.store.banks.get bank).st = .opened row)
      (granted : (s.store.banks.get bank).granted = some k) (inside : k.inStore = true) :
      Happens s (.accessComplete bank) (((s.performed bank k).giveResult k.use
        (s.store.mem.perform s.store.coldEpoch k.row k.op).2).decideAfter bank row)
  | received (c : Instr) (bytes : List Byte) : Happens s c { s with link := s.link.receive bytes }
  | timedOut : Happens s .interByteTimeout { s with link := s.link.timeout }
  | sent : Happens s .frameSent { s with link := s.link.sent }
  | pinFell (level : s.link.level = .operator) : Happens s .svcFall { s with svc := false }
  | levelFell (level : s.link.level = .service) : Happens s .svcFall { s with
      svc := false, link := ({ s.link with level := .operator } : Link).offer .levelDrop }
  | edge (c : Instr) (g : Geometry) (p : Port) (lval : Option Bool) (powered : s.modeCtl.mode = .steady .active)
      (move : PortMove s.run.limit g.pixels s.port p) : Happens s c { s with port := { p with lval := lval } }
  | triggered (powered : s.modeCtl.mode = .steady .active) (port : s.port.st = .waitTrig) :
      Happens s .trigActiveEdge { s with
        port := { s.port with st := .ready }
        run := { s.run with st := .running }
        engine := { s.engine with st := .between } }
  | itemTaken (item : QueueItem) (rest : List QueueItem) (powered : s.modeCtl.mode = .steady .active)
      (between : s.engine.st = .between) (queue : s.port.queue = item :: rest) :
      Happens s .engineTakeItem
        ((({ s with port := { s.port with queue := rest } } : State).takeItem item).settleBanks)
  | modeChanged (source target : Steady) (mode : s.modeCtl.mode = .changing source target)
      (done : s.store.changeDone source target = true) : Happens s .modeChangeComplete (s.changed target)
  | committed (n : Word) (runs : List LaneRun) (working : s.tracker.st = .working n runs) :
      Happens s .trackerCommit (s.commitLine n runs).checkLine
  | requested (c : Instr) (kind : Byte) (r : Request) (rest : List Request) (u : State)
      (known : requestKind c = some kind) (takes : s.Takes kind r rest) (served : Served (s.taken r rest) r c u) :
      Happens s c u

/-- What a command makes of the part. -/
inductive Becomes (s : State) : Instr → State → Prop
  | coldReset : Becomes s .coldReset (State.cold s.svc s.link.rate (s.store.coldEpoch + 1) s.store.draws s.pending)
  | released (bsel1 bsel0 : Bool) (held : s.held = true) : Becomes s (.resetRelease bsel1 bsel0) { s with
      held := false
      link := { s.link with rate := strapRate bsel1 bsel0 }
      modeCtl := { s.modeCtl with mode := .starting }
      store := { s.store with array := .starting, work := .startupHold } }
  | releasedBefore (bsel1 bsel0 : Bool) (awake : s.held = false) : Becomes s (.resetRelease bsel1 bsel0) s
  | deaf (c : Instr) (held : s.held = true) : Becomes s c s
  | pinFell (held : s.held = true) : Becomes s .svcFall { s with svc := false }
  | settled (c : Instr) (u : State) (awake : s.held = false) (happens : Happens s c u) : Becomes s c u.settleLink

/-- An event whose effect on an awake part is known. -/
theorem becomes_of_awake {s t : State} {c : Instr} {f : State → State} (h : awake s f = .next t)
    (hf : s.held = false → Happens s c (f s)) : Becomes s c t := by
  cases hs : s.held with
  | true =>
    rw [awake_held hs] at h
    cases h
    exact .deaf c hs
  | false =>
    rw [awake_of_awake hs] at h
    cases h
    exact .settled c _ hs (hf hs)

theorem becomes_of_event {s t : State} {c : Instr} {f : State → State} (he : exec c s = awake s f)
    (h : exec c s = .next t) (hf : s.held = false → Happens s c (f s)) : Becomes s c t :=
  becomes_of_awake (he ▸ h) hf

theorem atEdge_happens (c : Instr) (s : State) (f : Geometry → Port → Port)
    (hf : ∀ g, ∃ q lval, PortMove s.run.limit g.pixels s.port q ∧ f g s.port = { q with lval := lval }) :
    Happens s c (s.atEdge f) := by
  unfold State.atEdge
  split
  · exact .nothing c
  · rename_i g _
    split
    · rename_i hp
      obtain ⟨q, lval, hmove, hq⟩ := hf g
      rw [hq]
      exact .edge c g q lval (of_decide_eq_true hp) hmove
    · exact .nothing c

theorem becomes_of_accessComplete {s t : State} {bank : Fin 4} (h : execAccessComplete bank s = .next t) :
    Becomes s (.accessComplete bank) t := by
  unfold execAccessComplete at h
  simp only at h
  split at h
  · rename_i row k hrow hk
    split at h
    · rename_i hin
      exact becomes_of_awake h fun _ => .accessed bank row k hrow hk hin
    · cases h
  · exact becomes_of_awake h fun _ => .nothing _

theorem becomes_of_svcFall {s t : State} (h : execSvcFall s = .next t) : Becomes s .svcFall t := by
  unfold execSvcFall at h
  split at h
  · rename_i hs
    cases h
    exact .pinFell hs
  · rename_i hs
    have hs' : s.held = false := by simpa using hs
    have hw : ({ s with svc := false } : State).held = false := hs'
    rw [awake_of_awake hw] at h
    cases h
    refine .settled _ _ hs' ?_
    split
    · rename_i hl
      exact .pinFell hl
    · rename_i hl
      exact .levelFell hl

/-- Every next state of a command is one of those listed. -/
theorem becomes_of_exec {s t : State} {c : Instr} (h : exec c s = .next t) : Becomes s c t := by
  have request : ∀ kind, requestKind c = some kind → Becomes s c t := by
    intro kind hk
    cases hs : s.held with
    | true =>
      obtain ⟨body, hbody⟩ := exec_request hk
      rw [hbody] at h
      unfold accept at h
      rw [awake_held hs] at h
      cases h
      exact .deaf c hs
    | false =>
      rcases exec_request_cases hk hs with hn | ⟨r, rest, u, ht, hserved, hu⟩
      · rw [hn] at h
        cases h
        exact .settled c _ hs (.nothing c)
      · rw [hu] at h
        cases h
        exact .settled c _ hs (.requested c kind r rest u hk ht hserved)
  cases c
  case coldReset => cases h; exact .coldReset
  case resetRelease bsel1 bsel0 =>
    change execResetRelease bsel1 bsel0 s = _ at h
    unfold execResetRelease at h
    split at h
    · rename_i hs
      cases h
      exact .released bsel1 bsel0 hs
    · rename_i hs
      cases h
      exact .releasedBefore bsel1 bsel0 (by simpa using hs)
  case startupHoldExpire =>
    refine becomes_of_event (rfl : execStartupHoldExpire s = awake s _) h fun _ => ?_
    unfold Store.holdOver
    split
    · rename_i hc
      exact .holdOver hc.1 hc.2
    · exact .nothing _
  case refreshTick =>
    refine becomes_of_event (rfl : execRefreshTick s = awake s _) h fun _ => ?_
    split
    · exact .ticked
    · exact .nothing _
  case refreshStart =>
    exact becomes_of_event (rfl : execRefreshStart s = awake s _) h fun _ => .refreshStarted
  case refreshComplete =>
    exact becomes_of_event (rfl : execRefreshComplete s = awake s _) h fun _ => .refreshed
  case bankOpenComplete bank =>
    refine becomes_of_event (rfl : execBankOpenComplete bank s = awake s _) h fun _ => ?_
    simp only
    split
    · rename_i row hrow
      exact .opened bank row hrow
    all_goals exact .nothing _
  case accessComplete bank => exact becomes_of_accessComplete h
  case bankCloseComplete bank =>
    refine becomes_of_event (rfl : execBankCloseComplete bank s = awake s _) h fun _ => ?_
    simp only
    split
    · rename_i k hc hk
      exact .closedForGrant bank k hc hk
    · rename_i hc hk
      exact .closed bank hc hk
    · exact .nothing _
  case frameReceived bytes =>
    exact becomes_of_event (rfl : execFrameReceived bytes s = awake s _) h fun _ => .received _ bytes
  case headerReceived bytes =>
    exact becomes_of_event (rfl : execHeaderReceived bytes s = awake s _) h fun _ => .received _ bytes
  case interByteTimeout =>
    exact becomes_of_event (rfl : execInterByteTimeout s = awake s _) h fun _ => .timedOut
  case frameSent => exact becomes_of_event (rfl : execFrameSent s = awake s _) h fun _ => .sent
  case svcFall => exact becomes_of_svcFall h
  case trigActiveEdge =>
    refine becomes_of_event (rfl : execTrigActiveEdge s = awake s _) h fun _ => ?_
    unfold State.triggered
    split
    · rename_i hc
      exact .triggered (of_decide_eq_true hc.1) hc.2
    · exact .nothing _
  case activation first =>
    refine becomes_of_event (rfl : execActivation first s = awake s _) h fun _ => atEdge_happens _ s _ fun g => ?_
    split
    · exact ⟨s.port, s.port.lval, .still, rfl⟩
    · obtain ⟨q, hq, he⟩ := edge_moves s.run.limit g (g.level true) first s.port
      exact ⟨q, _, hq, he⟩
  case sample high x =>
    refine becomes_of_event (rfl : execSample high x s = awake s _) h fun _ => atEdge_happens _ s _ fun g => ?_
    obtain ⟨q, hq, he⟩ := edge_moves s.run.limit g high x s.port
    exact ⟨q, _, hq, he⟩
  case lineEnd =>
    refine becomes_of_event (rfl : execLineEnd s = awake s _) h fun _ => atEdge_happens _ s _ fun g => ?_
    split
    · obtain ⟨q, hq, he⟩ := edge_moves s.run.limit g (g.level false) 0 s.port
      exact ⟨q, _, hq, he⟩
    · exact ⟨s.port, s.port.lval, .still, rfl⟩
  case long =>
    refine becomes_of_event (rfl : execLong s = awake s _) h fun _ => atEdge_happens _ s _ fun g => ?_
    split
    · exact ⟨_, _, .overlong, rfl⟩
    · exact ⟨s.port, s.port.lval, .still, rfl⟩
  case engineTakeItem =>
    refine becomes_of_event (rfl : execEngineTakeItem s = awake s _) h fun _ => ?_
    split
    · rename_i hc
      split
      · exact .nothing _
      · rename_i item rest hq
        exact .itemTaken item rest (of_decide_eq_true hc.1) hc.2 hq
    · exact .nothing _
  case modeChangeComplete =>
    refine becomes_of_event (rfl : execModeChangeComplete s = awake s _) h fun _ => ?_
    split
    · rename_i source target hm
      split
      · rename_i hd
        exact .modeChanged source target hm hd
      · exact .nothing _
    all_goals exact .nothing _
  case trackerCommit =>
    refine becomes_of_event (rfl : execTrackerCommit s = awake s _) h fun _ => ?_
    split
    · exact .nothing _
    · rename_i n runs hw
      exact .committed n runs hw
  all_goals exact request _ rfl

/-- A property that takes no account of the queue of commands, and that every command keeps, is kept by every step. -/
theorem step_keeps {P : State → Prop} (hq : ∀ (s : State) (q : List Instr), P s → P { s with pending := q })
    (hb : ∀ (c : Instr) (s t : State), P s → Becomes s c t → P t) (s t : State) (hs : P s) (h : step s = .next t) : P t := by
  unfold step at h
  split at h
  · cases h
    exact hs
  · rename_i c rest _
    exact hb c _ t (hq s rest hs) (becomes_of_exec h)

end Sys2Proof.Machine
end

section
/-! SUPPORT. What the work on a line in hand, the end of an item and a completed access of the access unit leave alone, and
the few ways in which each of them can end. -/

namespace Sys2Proof.Machine

-- The work on a line in hand

/-- The state of the engine stays, or it has the same line in hand (R85). -/
def EngineState.SameItem (a b : EngineState) : Prop :=
  b = a ∨ ∃ w w', a = .line w ∧ b = .line w' ∧ w'.slot = w.slot

theorem EngineState.SameItem.trans {a b c : EngineState} (h : a.SameItem b) (k : b.SameItem c) : a.SameItem c := by
  rcases h with rfl | ⟨w, w', ha, hb, hw⟩
  · exact k
  · rcases k with rfl | ⟨x, x', hx, hc, hx'⟩
    · exact .inr ⟨w, w', ha, hb, hw⟩
    · rw [hb] at hx
      cases hx
      exact .inr ⟨w, x', ha, hc, hx'.trans hw⟩

/-- The work on the line in hand, short of its end: claims are made ready, the engine, the band tester, the tracker and the
history writer go on with the line, and the tables keep their form and their bounds. -/
structure Worked (s v : State) : Prop where
  background : v.background = s.background
  banks : v.store.banks = s.store.banks
  regions : v.regions = s.regions
  run : v.run = s.run
  port : v.port = s.port
  link : v.link = s.link
  access : v.access = s.access
  table : v.tracker.table = s.tracker.table
  engine : s.engine.st.SameItem v.engine.st
  runs : s.tester.runs.length ≤ 128 → v.tester.runs.length ≤ 128
  index : Table.wf s.history.index → Table.wf v.history.index

theorem Worked.rfl (s : State) : Worked s s :=
  ⟨by rfl, by rfl, by rfl, by rfl, by rfl, by rfl, by rfl, by rfl, .inl (by rfl), id, id⟩

theorem Worked.trans {s v u : State} (h : Worked s v) (k : Worked v u) : Worked s u where
  background := k.background.trans h.background
  banks := k.banks.trans h.banks
  regions := k.regions.trans h.regions
  run := k.run.trans h.run
  port := k.port.trans h.port
  link := k.link.trans h.link
  access := k.access.trans h.access
  table := k.table.trans h.table
  engine := h.engine.trans k.engine
  runs := k.runs ∘ h.runs
  index := k.index ∘ h.index

theorem history_record_wf {h : History} (hw : Table.wf h.index) (line : StoreLine) (r : TestResult) :
    Table.wf (h.record line r).index := Table.wf_put hw _ _

theorem history_giveResult_wf {h : History} (hw : Table.wf h.index) (r : TestResult) : Table.wf (h.giveResult r).index := by
  unfold History.giveResult
  split
  · exact hw
  · exact hw
  · exact history_record_wf hw _ r

theorem history_rowWritten_wf {h : History} (hw : Table.wf h.index) : Table.wf h.rowWritten.index := by
  unfold History.rowWritten
  split
  · split
    · exact hw
    · split
      · exact history_record_wf hw _ _
      · exact hw
  all_goals exact hw

theorem storeLine_worked (s : State) (n : Word) (means : List Half) : Worked s (s.storeLine n means) := by
  unfold State.storeLine
  split
  · exact .rfl s
  · split
    · exact ⟨rfl, rfl, rfl, rfl, rfl, rfl, rfl, rfl, .inl rfl, id, id⟩
    · exact ⟨rfl, rfl, rfl, rfl, rfl, rfl, rfl, rfl, .inl rfl, id, fun hw => Table.wf_put hw _ _⟩

theorem teachDone_worked (s : State) : Worked s s.teachDone :=
  ⟨rfl, rfl, rfl, rfl, rfl, rfl, rfl, rfl, .inl rfl, id, fun hw => history_giveResult_wf hw _⟩

theorem testLine_worked (s : State) (means : List Half) : Worked s (s.testLine means) := by
  unfold State.testLine
  split
  · exact ⟨rfl, rfl, rfl, rfl, rfl, rfl, rfl, rfl, .inl rfl, fun _ => Nat.zero_le _, id⟩
  · split
    · exact teachDone_worked s
    · exact ⟨rfl, rfl, rfl, rfl, rfl, rfl, rfl, rfl, .inl rfl, id, id⟩

theorem deliver_worked (s : State) (line : MeanLine) : Worked s (s.deliver line) :=
  (storeLine_worked s _ _).trans (testLine_worked _ _)

/-- The engine goes on with the same line in hand, with claims made ready. -/
theorem engine_worked {s : State} {e : Engine} {ready : List Claim} (h : s.engine.st.SameItem e.st) :
    Worked s { s with engine := e, store := { s.store with engineReady := ready } } :=
  ⟨rfl, rfl, rfl, rfl, rfl, rfl, rfl, rfl, h, id, id⟩

theorem checkMean_worked (s : State) (depth : Nat) : Worked s (s.checkMean depth) := by
  have formed : ∀ ring, Worked s { s with engine := { s.engine with ring := ring } } :=
    fun _ => engine_worked (ready := s.store.engineReady) (.inl rfl)
  unfold State.checkMean
  split
  · exact .rfl s
  · split
    · simp only
      split
      · split
        · exact (formed _).trans (deliver_worked _ _)
        · exact formed _
      all_goals exact formed _
    · exact .rfl s

@[simp] theorem putMean_st (depth lane : Nat) (values : List Nat) (e : Engine) : (e.putMean depth lane values).st = e.st := by
  unfold Engine.putMean
  split <;> rfl

theorem gainRead_worked (s : State) (t : Nat) (gains : List Half) : Worked s (s.gainRead t gains) := by
  unfold State.gainRead
  split
  · rename_i w hw
    refine Worked.trans (engine_worked (.inr ⟨w, { w with
      outstanding := w.outstanding - 1
        + (s.addClaims w (bumpRing w.added s.engine.ring) t (s.correctedRow w t gains)).length
      added := true }, hw, ?_, rfl⟩)) (checkMean_worked _ _)
    split
    · exact putMean_st _ _ _ _
    · rfl
  all_goals exact .rfl s

theorem accumulated_worked (s : State) : Worked s s.accumulated := by
  unfold State.accumulated
  split
  · rename_i w hw
    exact Worked.trans (engine_worked (ready := s.store.engineReady) (.inr ⟨w,
      { w with outstanding := w.outstanding - 1 }, hw, rfl, rfl⟩)) (checkMean_worked _ _)
  all_goals exact .rfl s

theorem completeRead_worked (s : State) (u : Nat) (cs : List Nat) (values : List Half) :
    Worked s (s.completeRead u cs values) := by
  unfold State.completeRead
  split
  · rename_i w hw
    exact Worked.trans (engine_worked (ready := s.store.engineReady) (.inr ⟨w,
      { w with outstanding := w.outstanding - 1 }, hw, putMean_st _ _ _ _, rfl⟩)) (checkMean_worked _ _)
  all_goals exact .rfl s

theorem scan_keep_length {minRun : Nat} {run : LaneRun} {s : Scan} (h : s.runs.length ≤ 128) :
    (s.keep minRun run).runs.length ≤ 128 := by
  unfold Scan.keep
  split
  · exact h
  · split
    · rename_i hlt
      simp only [List.length_append, List.length_singleton]
      exact hlt
    · exact h

theorem scan_close_length {minRun : Nat} {s : Scan} (h : s.runs.length ≤ 128) : (s.close minRun).runs.length ≤ 128 := by
  unfold Scan.close
  split
  · exact h
  · exact scan_keep_length h

theorem scan_lane_length {minRun bridge lane : Nat} {s : Scan} (c : LaneClass) (h : s.runs.length ≤ 128) :
    (s.lane minRun bridge lane c).runs.length ≤ 128 := by
  have out : ∀ polarity deviation, (s.outOfBand minRun polarity lane deviation).runs.length ≤ 128 := by
    intro polarity deviation
    unfold Scan.outOfBand
    split
    · exact h
    · split
      · exact h
      · exact scan_close_length (minRun := minRun) h
  cases c with
  | excluded => exact scan_close_length h
  | above d => exact out _ _
  | below d => exact out _ _
  | inBand =>
    show (s.bandLane minRun bridge).runs.length ≤ 128
    unfold Scan.bandLane
    split
    · exact h
    all_goals
      split
      · exact h
      · exact scan_close_length h

/-- A scan lists at most 128 runs (R115). -/
theorem scan_lanes_length {minRun bridge : Nat} (classes : List LaneClass) : ∀ (lane : Nat) (s : Scan),
    s.runs.length ≤ 128 → (Scan.lanes minRun bridge lane classes s).runs.length ≤ 128 := by
  induction classes with
  | nil => exact fun _ _ h => scan_close_length h
  | cons c rest ih => exact fun lane s h => ih (lane + 1) _ (scan_lane_length c h)

theorem extractRuns_length (c : Context) (means lower upper : List Half) :
    (extractRuns c means lower upper).runs.length ≤ 128 := scan_lanes_length _ _ _ (Nat.zero_le _)

theorem boundsRead_worked (s : State) (lower upper : Pieces) (left : Nat) : Worked s (s.boundsRead lower upper left) := by
  unfold State.boundsRead
  split
  · exact ⟨rfl, rfl, rfl, rfl, rfl, rfl, rfl, rfl, .inl rfl, id, id⟩
  · exact ⟨rfl, rfl, rfl, rfl, rfl, rfl, rfl, rfl, .inl rfl, fun _ => extractRuns_length _ _ _ _, id⟩

theorem lowerRead_worked (s : State) (row : Nat) (values : List Half) : Worked s (s.lowerRead row values) := by
  unfold State.lowerRead
  split
  · exact boundsRead_worked s _ _ _
  all_goals exact .rfl s

theorem upperRead_worked (s : State) (row : Nat) (values : List Half) : Worked s (s.upperRead row values) := by
  unfold State.upperRead
  split
  · exact boundsRead_worked s _ _ _
  all_goals exact .rfl s

theorem teachWritten_worked (s : State) : Worked s s.teachWritten := by
  unfold State.teachWritten
  split
  · split
    · exact ⟨rfl, rfl, rfl, rfl, rfl, rfl, rfl, rfl, .inl rfl, id, id⟩
    · exact teachDone_worked s
  all_goals exact .rfl s

theorem rowWritten_worked (s : State) : Worked s { s with history := s.history.rowWritten } :=
  ⟨rfl, rfl, rfl, rfl, rfl, rfl, rfl, rfl, .inl rfl, id, history_rowWritten_wf⟩

-- A completed access

/-- What the access unit makes of a completed access (R39, R40, R166, R169). -/
inductive AccessMove (s : State) : State → Prop
  | none : AccessMove s s
  | nextRow (w next : ClearWork) (k : Claim) (clear : s.access.clear = some w) (ticket : next.ticket = w.ticket) :
      AccessMove s (({ s with access := { s.access with clear := some next } } : State).presentAccess k)
  | cleared (w : ClearWork) (clear : s.access.clear = some w) : AccessMove s (s.clearDone w)
  | nextRead (x : Transfer) (more : List Claim) (wide : Bool) (sofar values : List Half) (k : Claim)
      (reading : s.access.st = .reading x wide sofar) :
      AccessMove s (({ s with access := { s.access with
        st := .reading { x with claims := more } wide values } } : State).presentAccess k)
  | nextWrite (x : Transfer) (more : List Claim) (sofar count : Nat) (k : Claim)
      (writing : s.access.st = .writing x sofar) :
      AccessMove s (({ s with access := { s.access with
        st := .writing { x with claims := more } count } } : State).presentAccess k)
  | wasRead (x : Transfer) (wide : Bool) (sofar : List Half) (payload : List Byte)
      (reading : s.access.st = .reading x wide sofar) : AccessMove s (s.transferDone x payload)
  | wasWritten (x : Transfer) (sofar : Nat) (payload : List Byte)
      (writing : s.access.st = .writing x sofar) : AccessMove s (s.transferDone x payload)

theorem rowCleared_moves (s : State) : AccessMove s s.rowCleared := by
  unfold State.rowCleared
  split
  · exact .none
  · rename_i w hw
    split
    · exact .nextRow w _ _ hw rfl
    · exact .cleared w hw

theorem segmentRead_moves (s : State) (values : List Half) : AccessMove s (s.segmentRead values) := by
  unfold State.segmentRead
  split
  · rename_i x wide sofar hx
    split
    · exact .wasRead x wide sofar _ hx
    · exact .nextRead x _ wide sofar _ _ hx
  all_goals exact .none

theorem segmentWritten_moves (s : State) (written : List Bool) : AccessMove s (s.segmentWritten written) := by
  unfold State.segmentWritten
  split
  · rename_i x sofar hx
    simp only
    split
    · exact .wasWritten x sofar _ hx
    · exact .nextWrite x _ sofar _ _ hx
  all_goals exact .none

/-- The result of an access serves the line in hand, which may be finished then, or the access unit (R3). -/
theorem giveResult_cases (s : State) (use : ClaimUse) (r : AccessResult) :
    (∃ v, Worked s v ∧ s.giveResult use r = v.checkLine) ∨ AccessMove s (s.giveResult use r) := by
  cases use with
  | gain t => exact .inl ⟨_, gainRead_worked s t _, rfl⟩
  | accumulate => exact .inl ⟨_, accumulated_worked s, rfl⟩
  | complete u cs => exact .inl ⟨_, completeRead_worked s u cs _, rfl⟩
  | lower t => exact .inl ⟨_, lowerRead_worked s t _, rfl⟩
  | upper t => exact .inl ⟨_, upperRead_worked s t _, rfl⟩
  | teach => exact .inl ⟨_, teachWritten_worked s, rfl⟩
  | history => exact .inl ⟨_, rowWritten_worked s, rfl⟩
  | hostRead => exact .inr (segmentRead_moves s _)
  | hostWrite => exact .inr (segmentWritten_moves s _)
  | clearRow => exact .inr (rowCleared_moves s)
  | discarded claimant => exact .inr .none

-- The end of an item

/-- The blocks that the end of an item leaves alone. -/
structure ItemFrame (s u : State) : Prop where
  background : u.background = s.background
  store : u.store = s.store
  regions : u.regions = s.regions
  tester : u.tester = s.tester
  history : u.history = s.history
  access : u.access = s.access

theorem ItemFrame.trans {s v u : State} (h : ItemFrame s v) (k : ItemFrame v u) : ItemFrame s u where
  background := k.background.trans h.background
  store := k.store.trans h.store
  regions := k.regions.trans h.regions
  tester := k.tester.trans h.tester
  history := k.history.trans h.history
  access := k.access.trans h.access

theorem install_frame (s : State) : ItemFrame s s.install := by
  refine ⟨background_install s, ?_, ?_, ?_, ?_, ?_⟩ <;> (unfold State.install; split <;> rfl)

theorem endRun_frame (s : State) : ItemFrame s s.endRun where
  background := background_endRun s
  store := (install_frame s).store
  regions := (install_frame s).regions
  tester := (install_frame s).tester
  history := (install_frame s).history
  access := (install_frame s).access

/-- A finished item leaves the engine between items; then nothing follows, or the install, or the end of the run (R86). -/
theorem finishItem_cases (s : State) (count : Nat) (last : Bool) :
    ∃ v, v = { s with engine := { s.engine with
        nextLine := s.engine.nextLine + BitVec.ofNat 32 count, mean := none, st := .between } } ∧
      (s.finishItem count last = v ∨ s.finishItem count last = v.install ∨ s.finishItem count last = v.endRun) := by
  refine ⟨_, rfl, ?_⟩
  unfold State.finishItem State.tryInstall
  simp only
  split
  · exact .inr (.inr rfl)
  · split
    · exact .inr (.inl rfl)
    · exact .inl rfl

theorem finishItem_frame (s : State) (count : Nat) (last : Bool) : ItemFrame s (s.finishItem count last) := by
  obtain ⟨v, hv, h⟩ := finishItem_cases s count last
  have between : ItemFrame s v := by
    rw [hv]
    exact ⟨rfl, rfl, rfl, rfl, rfl, rfl⟩
  rcases h with h | h | h <;> rw [h]
  · exact between
  · exact between.trans (install_frame v)
  · exact between.trans (endRun_frame v)

theorem finishLine_frame (s : State) (w : LineWork) : ItemFrame s (s.finishLine w) := by
  refine ItemFrame.trans ?_ (finishItem_frame _ _ _)
  exact ⟨rfl, rfl, rfl, rfl, rfl, rfl⟩

/-- The line in hand is not finished, or it is (R86, R95). -/
theorem checkLine_cases (s : State) :
    s.checkLine = s ∨ ∃ w, s.engine.st = .line w ∧ s.checkLine = s.finishLine w := by
  unfold State.checkLine
  split
  · rename_i w hw
    split
    · exact .inr ⟨w, hw, rfl⟩
    · exact .inl rfl
  all_goals exact .inl rfl

theorem checkLine_frame (s : State) : ItemFrame s s.checkLine := by
  rcases checkLine_cases s with h | ⟨w, -, h⟩ <;> rw [h]
  · exact ⟨rfl, rfl, rfl, rfl, rfl, rfl⟩
  · exact finishLine_frame s w

-- The taking of an item

/-- A LINE item is finished at once, or it is in hand with its GAIN claims ready (R86, R90). -/
theorem takeLine_cases (s : State) (n : Word) (slot : Fin 4) :
    (∃ w : LineWork, w.slot = slot ∧ s.takeLine n slot = s.finishLine w) ∨
      ∃ (e : Engine) (w : LineWork), w.slot = slot ∧ e.st = .line w ∧
        s.takeLine n slot = { s with
          engine := e
          store := { s.store with engineReady := s.store.engineReady ++ s.gainClaims }
          before := s.noteBefore } := by
  unfold State.takeLine
  simp only
  split
  · exact .inl ⟨_, rfl, rfl⟩
  · exact .inr ⟨_, _, rfl, rfl, rfl⟩

theorem loseNumbers_st (run : Run) (count : Nat) : ∀ (n : Word) (e : Engine), (e.loseNumbers run count n).1.st = e.st := by
  induction count with
  | zero => exact fun _ _ => rfl
  | succ k ih => exact fun n e => ih (n + 1) _

/-- A LOSS item is dealt with and finished (R97, R99, log 16). -/
theorem takeLoss_cases (s : State) (first : Word) (count : Nat) (reasons : Reasons) :
    ∃ (e : Engine) (n : Notice) (last : Bool), e.st = s.engine.st ∧
      s.takeLoss first count reasons = ((({ s with engine := e } : State).offer n).finishItem count last) :=
  ⟨_, _, _, loseNumbers_st _ _ _ _, rfl⟩

theorem takeItem_frame (s : State) (item : QueueItem) :
    (s.takeItem item).background = s.background ∧ (s.takeItem item).store.banks = s.store.banks ∧
      (s.takeItem item).regions = s.regions ∧ (s.takeItem item).tester = s.tester ∧
      (s.takeItem item).history = s.history ∧ (s.takeItem item).access = s.access := by
  refine ⟨background_takeItem s item, ?_⟩
  cases item with
  | line n slot =>
    show (s.takeLine n slot).store.banks = _ ∧ _
    rcases takeLine_cases s n slot with ⟨w, -, h⟩ | ⟨e, w, -, -, h⟩
    · have f := finishLine_frame s w
      simp only [State.takeItem, h, f.store, f.regions, f.tester, f.history, f.access, and_self]
    · simp only [State.takeItem, h, and_self]
  | loss first count reasons =>
    show (s.takeLoss first count reasons).store.banks = _ ∧ _
    obtain ⟨e, n, last, -, h⟩ := takeLoss_cases s first count reasons
    have f := finishItem_frame (({ s with engine := e } : State).offer n) count last
    simp only [State.takeItem, h, f.store, f.regions, f.tester, f.history, f.access, offer_keeps, and_self]

end Sys2Proof.Machine
end

section
/-! SUPPORT. The forms of the operations that change a few blocks: the end of a refresh, the withdrawal of
claims, the region table; and what each leaves of the store's contents (R1, R16, R22). -/

namespace Sys2Proof.Machine

-- The store's contents

/-- What decides every lane of the store: the values written and the number of the cold reset (R1, log 4). -/
def Store.contents (st : Store) : Memory × Nat := (st.mem, st.coldEpoch)

theorem contents_of_background {st u : Store} (h : u.background = st.background) : u.contents = st.contents :=
  congrArg Prod.fst h

theorem contents_of_state_background {s t : State} (h : t.background = s.background) : t.store.contents = s.store.contents :=
  congrArg Background.mem h

theorem startUrgent_contents (st : Store) : st.startUrgent.contents = st.contents := by
  unfold Store.startUrgent
  split <;> rfl

theorem enterSelfRefresh_contents (st : Store) : st.enterSelfRefresh.contents = st.contents := by
  unfold Store.enterSelfRefresh
  split <;> rfl

theorem tick_contents (st : Store) : st.tick.contents = st.contents := by
  unfold Store.tick
  split <;> rfl

theorem settle_contents (st : Store) : st.settle.contents = st.contents := by
  unfold Store.settle
  rw [contents_of_background (store_settleBanks_background _), startUrgent_contents, enterSelfRefresh_contents]

theorem toReady_contents (st : Store) : st.toReady.contents = st.contents := settle_contents _

theorem debtRefreshed_contents (st : Store) : st.debtRefreshed.contents = st.contents := by
  unfold Store.debtRefreshed
  simp only
  split
  · rfl
  · exact toReady_contents _

theorem startRefresh_contents (st : Store) : st.startRefresh.contents = st.contents := by
  unfold Store.startRefresh
  split
  · exact startUrgent_contents st
  · split <;> rfl

theorem startChange_contents (source target : Steady) (st : Store) :
    (st.startChange source target).contents = st.contents := by
  unfold Store.startChange
  split
  · exact enterSelfRefresh_contents _
  · rfl
  · rfl

-- The end of a refresh

/-- The end of a refresh touches the store; that of the start-up sequence brings the mode to QUIET and offers READY too
(R8, R20, R21). -/
theorem refreshed_cases (s : State) :
    (∃ st : Store, s.refreshed = { s with store := st } ∧ st.contents = s.store.contents) ∨
      ∃ (left : Nat) (st : Store), s.store.work = .startup left ∧ st.contents = s.store.contents ∧
        s.refreshed = ({ s with
          store := st.toReady, modeCtl := { s.modeCtl with mode := .steady .quiet } } : State).offer
            (.ready Config.partRevision) := by
  unfold State.refreshed
  simp only
  split
  · exact .inl ⟨s.store, rfl, rfl⟩
  · exact .inl ⟨s.store, rfl, rfl⟩
  · exact .inl ⟨_, rfl, debtRefreshed_contents _⟩
  · rename_i left hw
    split
    · exact .inl ⟨_, rfl, rfl⟩
    · exact .inr ⟨left, { s.store with pointer := nextPointer s.store.pointer, ticking := true }, hw, rfl, rfl⟩
  · refine .inl ⟨_, rfl, ?_⟩
    split
    · rfl
    · exact toReady_contents _

-- STOP

theorem withdrawEngine_contents (st : Store) : st.withdrawEngine.contents = st.contents := rfl

theorem takeBackItem_keeps (s : State) :
    s.takeBackItem.regions = s.regions ∧ s.takeBackItem.run = s.run ∧ s.takeBackItem.port = s.port ∧
      s.takeBackItem.engine = s.engine ∧ s.takeBackItem.tester = s.tester ∧ s.takeBackItem.history = s.history ∧
      s.takeBackItem.access = s.access ∧ s.takeBackItem.store = s.store ∧ s.takeBackItem.modeCtl = s.modeCtl ∧
      s.takeBackItem.held = s.held ∧ s.takeBackItem.svc = s.svc ∧ s.takeBackItem.geometry = s.geometry ∧
      s.takeBackItem.pending = s.pending ∧ s.takeBackItem.before = s.before := by
  unfold State.takeBackItem
  split <;> exact ⟨rfl, rfl, rfl, rfl, rfl, rfl, rfl, rfl, rfl, rfl, rfl, rfl, rfl, rfl⟩

/-- What STOP makes of each block but the link (R65, R66, R67). -/
theorem stopped_blocks (s : State) :
    let t := s.abandonRun.stopRun.closeAll .runStopped
    t.held = s.held ∧ t.svc = s.svc ∧ t.geometry = s.geometry ∧ t.regions = s.regions ∧ t.modeCtl = s.modeCtl ∧
      t.access = s.access ∧ t.store = s.store.withdrawEngine ∧ t.before = s.before ∧ t.pending = s.pending ∧
      t.port = { Port.cold with counter := s.port.counter, lval := s.port.lval } ∧
      t.engine = { s.engine with st := .idle, ring := [], mean := none } ∧
      t.tester = { s.tester with st := .idle, runs := [], overflow := 0 } ∧ t.tracker.table = [] ∧
      t.history = s.history.abandon ∧ t.run = { s.run with
        st := .stopped, phase := 0, next := none
        active := match s.run.next with | some p => p.context | none => s.run.active } := by
  obtain ⟨h1, h2, h3, h4, h5, h6, h7, h8, h9, h10, h11, h12, h13, h14⟩ := takeBackItem_keeps s
  have hrun : s.abandonRun.run = s.run := h2
  simp only [closeAll_keeps, closeAll_tracker]
  unfold State.stopRun
  rw [hrun]
  unfold State.abandonRun
  simp only [h1, h3, h4, h5, h6, h7, h8, h9, h10, h11, h12, h13, h14]
  cases s.run.next with
  | none => exact ⟨rfl, rfl, rfl, rfl, rfl, rfl, rfl, rfl, rfl, rfl, rfl, rfl, rfl, rfl, rfl⟩
  | some p => exact ⟨rfl, rfl, rfl, rfl, rfl, rfl, rfl, rfl, rfl, rfl, rfl, rfl, rfl, rfl, rfl⟩

/-- The history writer with its line in hand abandoned has an index of the same form (R158). -/
theorem abandon_index_wf {h : History} (hw : Table.wf h.index) : Table.wf h.abandon.index := by
  unfold History.abandon
  split
  · exact hw
  · exact Table.wf_drop hw _
  · exact Table.wf_drop hw _

-- The region table

/-- An aborted CLEAR touches its PROFILE target's loaded flag alone (R31, R42). -/
theorem abortedRegions_cases (s : State) :
    s.abortedRegions = s.regions ∨
      ∃ i q, s.region i = some q ∧ s.abortedRegions = Table.put s.regions i { q with loaded := false } := by
  unfold State.abortedRegions
  split
  · exact .inl rfl
  · rename_i w _
    split
    · exact .inl rfl
    · rename_i q hq
      split
      · exact .inr ⟨w.region, q, hq, rfl⟩
      · exact .inl rfl

theorem cleared_eq (slot : Nat) (w : ClearWork) (q : Region) :
    q.cleared slot w = { q with loaded := (q.cleared slot w).loaded } := by
  unfold Region.cleared
  split <;> rfl

/-- The end of a CLEAR touches its target's loaded flag alone (R31, R40). -/
theorem clearDone_cases (s : State) (w : ClearWork) :
    ∃ payload regions, s.clearDone w = ({ s with
        access := { s.access with clear := none }, regions := regions } : State).reply w.ticket payload ∧
      (regions = s.regions ∨
        ∃ i q loaded, s.region i = some q ∧ regions = Table.put s.regions i { q with loaded := loaded }) := by
  unfold State.clearDone
  simp only
  split
  · exact ⟨_, s.regions, rfl, .inl rfl⟩
  · rename_i q hq
    exact ⟨_, _, rfl, .inr ⟨w.region, q, _, hq, congrArg (Table.put s.regions w.region) (cleared_eq s.slot w q)⟩⟩

end Sys2Proof.Machine
end

section
/-! SUPPORT. The region table stays sound through every step (R25, R26, R31, R34). -/

namespace Sys2Proof.Machine

theorem regionsSound_congr {s t : State} (hs : s.regionsSound) (hg : t.geometry = s.geometry)
    (hr : t.regions = s.regions) : t.regionsSound := by
  unfold State.regionsSound State.region State.slot State.lanes at hs ⊢
  rw [hg, hr]
  exact hs

theorem regionsSound_of_background {s t : State} (hs : s.regionsSound) (hb : t.background = s.background)
    (hr : t.regions = s.regions) : t.regionsSound :=
  regionsSound_congr hs (congrArg Background.geometry hb) hr

theorem regionsSound_cold (svc : Bool) (rate : BitRate) (epoch draws : Nat) (pending : List Instr) :
    (State.cold svc rate epoch draws pending).regionsSound := by
  refine ⟨List.Pairwise.nil, fun _ => rfl, fun i r h => ?_, fun i j r q h => ?_⟩
  all_goals
    simp only [State.region, State.cold, Table.find, reduceCtorEq] at h

/-- A region whose loaded flag alone changes leaves the table sound (R31). -/
theorem regionsSound_put_loaded {s : State} {i : Nat} {q : Region} (hs : s.regionsSound) (hq : s.region i = some q)
    (loaded : Bool) : ({ s with regions := Table.put s.regions i { q with loaded := loaded } } : State).regionsSound := by
  obtain ⟨hwf, hnone, hrows, hapart⟩ := hs
  have find : ∀ j r, ({ s with regions := Table.put s.regions i { q with loaded := loaded } } : State).region j = some r →
      ∃ r', s.region j = some r' ∧ r.first = r'.first ∧ r.rows = r'.rows ∧ r.kind = r'.kind := by
    intro j r hr
    simp only [State.region, Table.find_put] at hr
    split at hr
    · rename_i hj
      cases hr
      exact ⟨q, hj ▸ hq, rfl, rfl, rfl⟩
    · exact ⟨r, hr, rfl, rfl, rfl⟩
  refine ⟨Table.wf_put hwf _ _, fun hg => ?_, fun j r hr => ?_, fun j k r x hr hx hjk => ?_⟩
  · have hq' : Table.find s.regions i = some q := hq
    rw [hnone hg] at hq'
    cases hq'
  · obtain ⟨r', hr', hf, hn, hk⟩ := find j r hr
    unfold Region.rowsPerEntry
    rw [hf, hn, hk]
    exact hrows j r' hr'
  · obtain ⟨r', hr', hf, hn, -⟩ := find j r hr
    obtain ⟨x', hx', hf', hn', -⟩ := find k x hx
    rw [hf, hn, hf', hn']
    exact hapart j k r' x' hr' hx' hjk

/-- What the table holds at an index is one of its entries. -/
theorem Table.mem_of_find {α : Type} {t : Table α} {n : Nat} {x : α} (h : Table.find t n = some x) : (n, x) ∈ t := by
  induction t with
  | nil => cases h
  | cons p rest ih =>
    obtain ⟨k, v⟩ := p
    simp only [Table.find] at h
    split at h
    · rename_i hk
      cases h
      rw [hk]
      exact List.mem_cons_self
    · exact List.mem_cons_of_mem _ (ih h)

theorem rowsMeet_comm (a m b n : Nat) : rowsMeet a m b n = rowsMeet b n a m := by
  unfold rowsMeet
  exact decide_eq_decide.mpr and_comm

/-- A defined region that passes the checks of R34 leaves the table sound. -/
theorem regionsSound_define {s : State} {i : Nat} {n : Region} (hs : s.regionsSound) (range : i ≤ 15)
    (rows : n.rows ≠ 0) (fixed : s.geometry ≠ none) (inside : n.first + n.rows ≤ 8192)
    (whole : n.badEntries s.slot = false) (apart : s.overlaps n = false) :
    ({ s with regions := Table.put s.regions i n } : State).regionsSound := by
  obtain ⟨hwf, -, hrows, hapart⟩ := hs
  have clear : ∀ j q, s.region j = some q → rowsMeet n.first n.rows q.first q.rows = false := by
    intro j q hq
    have h := List.any_eq_false.mp apart (j, q) (Table.mem_of_find hq)
    exact Bool.eq_false_iff.mpr h
  have find : ∀ j r, ({ s with regions := Table.put s.regions i n } : State).region j = some r →
      (j = i ∧ r = n) ∨ (j ≠ i ∧ s.region j = some r) := by
    intro j r hr
    simp only [State.region, Table.find_put] at hr
    split at hr
    · rename_i hj
      cases hr
      exact .inl ⟨hj, rfl⟩
    · rename_i hj
      exact .inr ⟨hj, hr⟩
  refine ⟨Table.wf_put hwf _ _, fun hg => absurd hg fixed, fun j r hr => ?_, fun j k r x hr hx hjk => ?_⟩
  · rcases find j r hr with ⟨rfl, rfl⟩ | ⟨-, h⟩
    · have hmod : r.rows % r.rowsPerEntry s.slot = 0 := by
        have := (Bool.or_eq_false_iff.mp whole).1
        simpa using this
      exact ⟨range, by omega, inside, hmod⟩
    · exact hrows j r h
  · rcases find j r hr with ⟨rfl, rfl⟩ | ⟨-, h⟩ <;> rcases find k x hx with ⟨rfl, rfl⟩ | ⟨-, h'⟩
    · exact absurd rfl hjk
    · exact clear k x h'
    · rw [rowsMeet_comm]
      exact clear j r h
    · exact hapart j k r x h h' hjk

theorem regionsSound_drop {s : State} (hs : s.regionsSound) (i : Nat) :
    ({ s with regions := Table.drop s.regions i } : State).regionsSound := by
  obtain ⟨hwf, hnone, hrows, hapart⟩ := hs
  have find : ∀ j r, ({ s with regions := Table.drop s.regions i } : State).region j = some r → s.region j = some r := by
    intro j r hr
    by_cases hj : j = i
    · simp only [State.region, hj, Table.find_drop_self hwf, reduceCtorEq] at hr
    · simpa only [State.region, Table.find_drop_ne _ hj] using hr
  refine ⟨Table.wf_drop hwf i, fun hg => ?_, fun j r hr => hrows j r (find j r hr), fun j k r x hr hx =>
    hapart j k r x (find j r hr) (find k x hx)⟩
  show Table.drop s.regions i = []
  rw [hnone hg]
  rfl

/-- GEOMETRY finds the table empty (R25). -/
theorem regionsSound_geometry {s : State} (hs : s.regionsSound) (free : s.geometry = none) (g : Geometry) :
    ({ s with geometry := some g } : State).regionsSound := by
  have hempty : s.regions = [] := hs.2.1 free
  refine ⟨hs.1, nofun, fun i r h => ?_, fun i j r q h => ?_⟩
  all_goals
    simp only [State.region, hempty, Table.find, reduceCtorEq] at h

theorem regionsSound_served {u v : State} {r : Request} {c : Instr} (hu : u.regionsSound) (h : Served u r c v) :
    v.regionsSound := by
  cases h with
  | geometryFixed g fields free => exact regionsSound_congr (regionsSound_geometry hu free g) rfl rfl
  | defined index n fields range rows fixed free inside whole apart =>
    exact regionsSound_congr (regionsSound_define hu range rows fixed inside whole apart) rfl rfl
  | removed index selection fields => exact regionsSound_congr (regionsSound_drop hu index) rfl rfl
  | restarted fields =>
    rcases abortedRegions_cases u with ha | ⟨i, q, hq, ha⟩
    · exact regionsSound_congr hu rfl ha
    · exact regionsSound_congr (regionsSound_put_loaded hu hq false) rfl ha
  | installed c stack p ticket running between fewer =>
    refine regionsSound_of_background ?_ (background_install _) (install_frame _).regions
    exact regionsSound_congr hu rfl rfl
  | stopping fields running =>
    obtain ⟨-, -, hg, hr, -⟩ := stopped_blocks u
    exact regionsSound_congr hu hg hr
  | _ => exact regionsSound_congr hu rfl rfl

theorem regionsSound_accessMove {s v : State} (hs : s.regionsSound) (h : AccessMove s v) : v.regionsSound := by
  cases h with
  | cleared w clear =>
    obtain ⟨payload, regions, he, hr | ⟨i, q, loaded, hq, hr⟩⟩ := clearDone_cases s w <;> rw [he]
    · exact regionsSound_congr hs rfl hr
    · exact regionsSound_congr (regionsSound_put_loaded hs hq loaded) rfl hr
  | _ => exact regionsSound_congr hs rfl rfl

theorem regionsSound_happens {s u : State} {c : Instr} (hs : s.regionsSound) (h : Happens s c u) : u.regionsSound := by
  cases h with
  | refreshed =>
    rcases refreshed_cases s with ⟨st, he, -⟩ | ⟨left, st, -, -, he⟩ <;> rw [he] <;> exact regionsSound_congr hs rfl rfl
  | accessed bank row k opened granted inside =>
    have did : (s.performed bank k).regionsSound := regionsSound_congr hs rfl rfl
    have given : ((s.performed bank k).giveResult k.use
        (s.store.mem.perform s.store.coldEpoch k.row k.op).2).regionsSound := by
      rcases giveResult_cases (s.performed bank k) k.use (s.store.mem.perform s.store.coldEpoch k.row k.op).2 with
        ⟨v, hv, he⟩ | hm
      · have f := checkLine_frame v
        rw [he]
        exact regionsSound_of_background did (f.background.trans hv.background) (f.regions.trans hv.regions)
      · exact regionsSound_accessMove did hm
    exact regionsSound_congr given rfl rfl
  | itemTaken item rest powered between queue =>
    obtain ⟨hb, -, hr, -⟩ := takeItem_frame { s with port := { s.port with queue := rest } } item
    exact regionsSound_congr (regionsSound_of_background (s := s) hs hb hr) rfl rfl
  | modeChanged source target mode done =>
    refine regionsSound_congr hs ?_ ?_ <;> (unfold State.changed State.replyMode; simp only; split <;> rfl)
  | committed n runs working =>
    have f := checkLine_frame (s.commitLine n runs)
    exact regionsSound_of_background hs (f.background.trans (background_commitLine s n runs)) f.regions
  | requested c kind r rest u known takes served =>
    exact regionsSound_served (u := s.taken r rest) (regionsSound_congr hs rfl rfl) served
  | _ => exact regionsSound_congr hs rfl rfl

/-- Settles O57, over what each command can come to. -/
theorem everyStepKeepsRegionsSound : Obligations.EveryStepKeepsRegionsSound := by
  refine step_keeps (fun s q hs => regionsSound_congr hs rfl rfl) fun c s t hs h => ?_
  cases h with
  | coldReset => exact regionsSound_cold _ _ _ _ _
  | settled c u awake happens => exact regionsSound_congr (regionsSound_happens hs happens) rfl rfl
  | _ => exact regionsSound_congr hs rfl rfl

end Sys2Proof.Machine
end

section
/-! SUPPORT. The sparse tables keep their canonical form, and the context stack, the defect table and the run list their
places, through every step (R52, R115, R142). -/

namespace Sys2Proof.Machine

-- The canonical form

theorem tablesCanonical_congr {s t : State} (hs : s.tablesCanonical) (hm : t.store.contents = s.store.contents)
    (hr : t.regions = s.regions) (hi : t.history.index = s.history.index) : t.tablesCanonical := by
  have hmem : t.store.mem = s.store.mem := congrArg Prod.fst hm
  obtain ⟨mem, regions, index⟩ := hs
  exact ⟨hmem ▸ mem, hr ▸ regions, hi ▸ index⟩

theorem abortedRegions_wf {s : State} (h : Table.wf s.regions) : Table.wf s.abortedRegions := by
  rcases abortedRegions_cases s with ha | ⟨i, q, -, ha⟩ <;> rw [ha]
  · exact h
  · exact Table.wf_put h _ _

theorem tablesCanonical_served {u v : State} {r : Request} {c : Instr} (hu : u.tablesCanonical) (h : Served u r c v) :
    v.tablesCanonical := by
  obtain ⟨mem, regions, index⟩ := hu
  cases h with
  | defined i n fields => exact ⟨mem, Table.wf_put regions i n, index⟩
  | removed i selection fields => exact ⟨mem, Table.wf_drop regions i, index⟩
  | restarted fields => exact ⟨mem, abortedRegions_wf regions, List.Pairwise.nil⟩
  | changing source target mode other passed =>
    exact tablesCanonical_congr ⟨mem, regions, index⟩ (startChange_contents source target u.store) rfl rfl
  | clearing target free =>
    exact tablesCanonical_congr ⟨mem, regions, index⟩ (contents_of_state_background
      ((background_settleBanks _).trans (background_presentAccess _ _))) rfl rfl
  | reading first rest cursor wrapped wide =>
    exact tablesCanonical_congr ⟨mem, regions, index⟩ (contents_of_state_background
      ((background_settleBanks _).trans (background_presentAccess _ _))) rfl rfl
  | writing first rest cursor wrapped =>
    exact tablesCanonical_congr ⟨mem, regions, index⟩ (contents_of_state_background
      ((background_settleBanks _).trans (background_presentAccess _ _))) rfl rfl
  | installed c stack p ticket running between fewer =>
    have f := install_frame { u with run := { u.run with stack := stack, st := .draining, next := some p } }
    refine tablesCanonical_congr ⟨mem, regions, index⟩ (congrArg Store.contents f.store) f.regions
      (congrArg History.index f.history)
  | started trigger limit fields powered stopped => exact ⟨mem, regions, List.Pairwise.nil⟩
  | stopping fields running =>
    obtain ⟨-, -, -, hr, -, -, hst, -, -, -, -, -, -, hh, -⟩ := stopped_blocks u
    exact ⟨(congrArg Store.mem hst) ▸ mem, hr ▸ regions, (congrArg History.index hh) ▸ abandon_index_wf index⟩
  | _ => exact ⟨mem, regions, index⟩

theorem tablesCanonical_accessMove {s v : State} (hs : s.tablesCanonical) (h : AccessMove s v) : v.tablesCanonical := by
  have present : ∀ (a : Access) (k : Claim),
      (({ s with access := a } : State).presentAccess k).tablesCanonical := fun a k =>
    tablesCanonical_congr hs (contents_of_state_background (background_presentAccess { s with access := a } k)) rfl rfl
  cases h with
  | cleared w clear =>
    obtain ⟨payload, regions, he, hr⟩ := clearDone_cases s w
    rw [he]
    refine ⟨hs.1, ?_, hs.2.2⟩
    rcases hr with hr | ⟨i, q, loaded, -, hr⟩ <;> rw [hr]
    · exact hs.2.1
    · exact Table.wf_put hs.2.1 _ _
  | nextRow w next k clear ticket => exact present _ k
  | nextRead x more wide sofar values k reading => exact present _ k
  | nextWrite x more sofar count k writing => exact present _ k
  | _ => exact hs

theorem performed_wf {s : State} (hs : s.tablesCanonical) (bank : Fin 4) (k : Claim) :
    (s.performed bank k).tablesCanonical := by
  obtain ⟨mem, regions, index⟩ := hs
  exact ⟨perform_wf _ mem _ _, regions, index⟩

theorem tablesCanonical_happens {s u : State} {c : Instr} (hs : s.tablesCanonical) (h : Happens s c u) :
    u.tablesCanonical := by
  cases h with
  | ticked => exact tablesCanonical_congr hs ((startUrgent_contents _).trans (tick_contents _)) rfl rfl
  | refreshStarted => exact tablesCanonical_congr hs (startRefresh_contents _) rfl rfl
  | refreshed =>
    rcases refreshed_cases s with ⟨st, he, hc⟩ | ⟨left, st, -, hc, he⟩ <;> rw [he]
    · exact tablesCanonical_congr hs hc rfl rfl
    · exact tablesCanonical_congr hs ((toReady_contents st).trans hc) rfl rfl
  | closed bank closing free => exact tablesCanonical_congr hs (settle_contents _) rfl rfl
  | accessed bank row k opened granted inside =>
    refine tablesCanonical_congr ?_ (contents_of_state_background (background_decideAfter _ bank row)) rfl rfl
    have did := performed_wf hs bank k
    rcases giveResult_cases (s.performed bank k) k.use (s.store.mem.perform s.store.coldEpoch k.row k.op).2 with
      ⟨v, hv, he⟩ | hm
    · have f := checkLine_frame v
      obtain ⟨mem, regions, index⟩ := did
      have hmem : v.checkLine.store.mem = (s.performed bank k).store.mem :=
        congrArg Prod.fst (contents_of_state_background (f.background.trans hv.background))
      rw [he]
      exact ⟨hmem ▸ mem, (f.regions.trans hv.regions) ▸ regions, f.history ▸ hv.index index⟩
    · exact tablesCanonical_accessMove did hm
  | itemTaken item rest powered between queue =>
    obtain ⟨hb, -, hr, -, hh, -⟩ := takeItem_frame { s with port := { s.port with queue := rest } } item
    exact tablesCanonical_congr hs (contents_of_state_background ((background_settleBanks _).trans hb)) hr
      (congrArg History.index hh)
  | modeChanged source target mode done =>
    refine tablesCanonical_congr hs ?_ ?_ ?_ <;> (unfold State.changed State.replyMode; simp only; split <;> rfl)
  | committed n runs working =>
    have f := checkLine_frame (s.commitLine n runs)
    obtain ⟨mem, regions, index⟩ := hs
    have hmem : (s.commitLine n runs).checkLine.store.mem = s.store.mem :=
      congrArg Prod.fst (contents_of_state_background (f.background.trans (background_commitLine s n runs)))
    exact ⟨hmem ▸ mem, f.regions ▸ regions, f.history ▸ history_giveResult_wf index _⟩
  | requested c kind r rest u known takes served =>
    exact tablesCanonical_served (u := s.taken r rest) hs served
  | _ => exact hs

theorem tablesCanonical_becomes {s t : State} {c : Instr} (hs : s.tablesCanonical) (h : Becomes s c t) :
    t.tablesCanonical := by
  cases h with
  | coldReset => exact ⟨List.Pairwise.nil, List.Pairwise.nil, List.Pairwise.nil⟩
  | settled c u awake happens => exact (tablesCanonical_happens hs happens : u.tablesCanonical)
  | _ => exact hs

-- The defect table of a line's result

theorem stepTwoRow_length (i : Word) (table : List Defect) (runs : List LaneRun) (groups : List Group) (d : Defect)
    (at' : Nat) : (stepTwoRow i table runs groups d at').length ≤ 1 := by
  unfold stepTwoRow
  split
  · exact le_rfl
  · split
    · exact Nat.zero_le _
    · split
      · exact le_rfl
      · exact Nat.zero_le _

/-- Matching and merging leave no more records than there were (R132 to R134). -/
theorem stepTwo_length (bridge : Nat) (i : Word) (table : List Defect) (runs : List LaneRun) :
    (stepTwo bridge i table runs).length ≤ table.length := by
  have rows : ∀ l : List (Defect × Nat),
      (l.flatMap (fun p => stepTwoRow i table runs (groupsOf bridge table runs) p.1 p.2)).length ≤ l.length := by
    intro l
    induction l with
    | nil => exact le_rfl
    | cons p rest ih =>
      have one := stepTwoRow_length i table runs (groupsOf bridge table runs) p.1 p.2
      simp only [List.flatMap_cons, List.length_append, List.length_cons]
      omega
  exact (rows _).trans (List.length_zipIdx).le

/-- A new record finds a place among 64 (R129, R142). -/
theorem create_length {l : LineResult} (h : l.rows.length ≤ 64) (extended : Bool) (make : Nat → Word → Defect) :
    (l.create extended make).rows.length ≤ 64 := by
  unfold LineResult.create
  split
  · rename_i hlt
    simp only [List.length_append, List.length_singleton]
    exact hlt
  · exact h

theorem foldl_keeps {α β : Type} {P : β → Prop} (f : β → α → β) (hf : ∀ b a, P b → P (f b a)) (l : List α) :
    ∀ b, P b → P (l.foldl f b) := by
  induction l with
  | nil => exact fun _ h => h
  | cons a rest ih => exact fun b h => ih _ (hf b a h)

/-- A line's result holds at most 64 records (R142). -/
theorem trackLine_length (c : Context) (i : Word) (runs : List LaneRun) (overflow : Nat) {t : Tracker}
    (h : t.table.length ≤ 64) : (trackLine c i runs overflow t).table.length ≤ 64 := by
  have three : (stepThree c.gapBridge i t.table runs
      ⟨stepTwo c.gapBridge i t.table runs, t.nextId, t.created, 0⟩).rows.length ≤ 64 :=
    foldl_keeps (P := fun l : LineResult => l.rows.length ≤ 64) _ (fun l r hl => create_length hl _ _) _ _
      ((stepTwo_length _ _ _ _).trans h)
  have four : (stepFour i c.maxSpan (stepThree c.gapBridge i t.table runs
      ⟨stepTwo c.gapBridge i t.table runs, t.nextId, t.created, 0⟩)).rows.length ≤ 64 :=
    foldl_keeps (P := fun l : LineResult => l.rows.length ≤ 64) _ (fun l r hl => create_length hl _ _) _ _
      (by simpa using three)
  unfold LineResult.table trackLine stepFive
  rw [List.length_map]
  refine (List.length_filter_le _ _).trans ?_
  rw [List.length_map, List.length_map]
  exact four

-- The bounds

theorem stack_of_background {s t : State} (h : t.background = s.background) : t.run.stack = s.run.stack :=
  congrArg (fun b => b.started.1) h

/-- The install and the end of a run leave the defect table as it was, or empty (R143). -/
theorem install_table (s : State) : s.install.tracker.table = s.tracker.table ∨ s.install.tracker.table = [] := by
  unfold State.install
  split
  · exact .inl rfl
  · exact .inr rfl

theorem finishItem_table (s : State) (count : Nat) (last : Bool) :
    (s.finishItem count last).tracker.table = s.tracker.table ∨ (s.finishItem count last).tracker.table = [] := by
  obtain ⟨v, hv, h | h | h⟩ := finishItem_cases s count last <;> rw [h]
  · exact .inl (by rw [hv])
  · have hvt : v.tracker.table = s.tracker.table := by rw [hv]
    exact hvt ▸ install_table v
  · exact .inr rfl

theorem checkLine_table (s : State) : s.checkLine.tracker.table = s.tracker.table ∨ s.checkLine.tracker.table = [] := by
  rcases checkLine_cases s with h | ⟨w, -, h⟩ <;> rw [h]
  · exact .inl rfl
  · exact finishItem_table _ _ _

theorem takeItem_table (s : State) (item : QueueItem) :
    (s.takeItem item).tracker.table = s.tracker.table ∨ (s.takeItem item).tracker.table = [] := by
  cases item with
  | line n slot =>
    show (s.takeLine n slot).tracker.table = _ ∨ (s.takeLine n slot).tracker.table = _
    rcases takeLine_cases s n slot with ⟨w, -, h⟩ | ⟨e, w, -, -, h⟩ <;> rw [h]
    · exact finishItem_table _ _ _
    · exact .inl rfl
  | loss first count reasons =>
    show (s.takeLoss first count reasons).tracker.table = _ ∨ (s.takeLoss first count reasons).tracker.table = _
    obtain ⟨e, n, last, -, h⟩ := takeLoss_cases s first count reasons
    rw [h]
    exact finishItem_table _ _ _

theorem sizesSound_congr {s t : State} (hs : s.sizesSound) (hst : t.run.stack = s.run.stack)
    (ht : t.tracker.table = s.tracker.table ∨ t.tracker.table = []) (hr : t.tester.runs = s.tester.runs) :
    t.sizesSound := by
  obtain ⟨stack, table, runs⟩ := hs
  refine ⟨hst ▸ stack, ?_, hr ▸ runs⟩
  rcases ht with ht | ht <;> rw [ht]
  · exact table
  · exact Nat.zero_le _

theorem sizesSound_served {u v : State} {r : Request} {c : Instr} (hu : u.sizesSound) (h : Served u r c v) :
    v.sizesSound := by
  obtain ⟨stack, table, runs⟩ := hu
  cases h with
  | restarted fields => exact ⟨Nat.zero_le _, Nat.zero_le _, Nat.zero_le _⟩
  | adopted c left context fields fewer => exact ⟨fewer.trans stack, table, runs⟩
  | pended c left p ticket running fewer => exact ⟨fewer.trans stack, table, runs⟩
  | installed c left p ticket running between fewer =>
    refine sizesSound_congr ?_ (stack_of_background (background_install _)) (install_table _)
      (congrArg Tester.runs (install_frame _).tester)
    exact ⟨fewer.trans stack, table, runs⟩
  | pushed fields room => exact ⟨room, table, runs⟩
  | started trigger limit fields powered stopped => exact ⟨stack, Nat.zero_le _, Nat.zero_le _⟩
  | stopping fields running =>
    obtain ⟨-, -, -, -, -, -, -, -, -, -, -, htester, htable, -, hrun⟩ := stopped_blocks u
    refine ⟨?_, ?_, ?_⟩
    · exact (congrArg (fun run : Run => run.stack.length) hrun).trans_le stack
    · exact (congrArg List.length htable).trans_le (Nat.zero_le _)
    · exact (congrArg (fun t : Tester => t.runs.length) htester).trans_le (Nat.zero_le _)
  | _ => exact ⟨stack, table, runs⟩

theorem sizesSound_accessMove {s v : State} (hs : s.sizesSound) (h : AccessMove s v) : v.sizesSound := by
  cases h with
  | cleared w clear =>
    obtain ⟨payload, regions, he, -⟩ := clearDone_cases s w
    rw [he]
    exact hs
  | _ => exact hs

theorem sizesSound_happens {s u : State} {c : Instr} (hs : s.sizesSound) (h : Happens s c u) : u.sizesSound := by
  cases h with
  | refreshed =>
    rcases refreshed_cases s with ⟨st, he, -⟩ | ⟨left, st, -, -, he⟩ <;> rw [he] <;> exact hs
  | accessed bank row k opened granted inside =>
    have did : (s.performed bank k).sizesSound := hs
    refine sizesSound_congr ?_ (stack_of_background (background_decideAfter _ bank row)) (.inl rfl) rfl
    rcases giveResult_cases (s.performed bank k) k.use (s.store.mem.perform s.store.coldEpoch k.row k.op).2 with
      ⟨v, hv, he⟩ | hm
    · rw [he]
      obtain ⟨stack, table, runs⟩ := did
      refine sizesSound_congr (s := v) ⟨hv.run ▸ stack, hv.table ▸ table, hv.runs runs⟩
        (stack_of_background (background_checkLine v)) (checkLine_table v)
        (congrArg Tester.runs (checkLine_frame v).tester)
    · exact sizesSound_accessMove did hm
  | itemTaken item rest powered between queue =>
    obtain ⟨hb, -, -, ht, -, -⟩ := takeItem_frame { s with port := { s.port with queue := rest } } item
    exact sizesSound_congr hs (stack_of_background ((background_settleBanks _).trans hb)) (takeItem_table _ _)
      (congrArg Tester.runs ht)
  | modeChanged source target mode done =>
    refine sizesSound_congr hs ?_ (.inl ?_) ?_ <;> (unfold State.changed State.replyMode; simp only; split <;> rfl)
  | committed n runs working =>
    have committed : (s.commitLine n runs).sizesSound := ⟨hs.1, trackLine_length _ _ _ _ hs.2.1, Nat.zero_le _⟩
    exact sizesSound_congr committed (stack_of_background (background_checkLine _)) (checkLine_table _)
      (congrArg Tester.runs (checkLine_frame _).tester)
  | requested c kind r rest u known takes served => exact sizesSound_served (u := s.taken r rest) hs served
  | _ => exact hs

theorem sizesSound_becomes {s t : State} {c : Instr} (hs : s.sizesSound) (h : Becomes s c t) : t.sizesSound := by
  cases h with
  | coldReset => exact ⟨Nat.zero_le _, Nat.zero_le _, Nat.zero_le _⟩
  | settled c u awake happens => exact (sizesSound_happens hs happens : u.sizesSound)
  | _ => exact hs

/-- Settles O54, over what each command can come to. -/
theorem everyStepKeepsTablesCanonicalAndBounded : Obligations.EveryStepKeepsTablesCanonicalAndBounded :=
  ⟨step_keeps (fun _ _ hs => hs) fun _ _ _ => tablesCanonical_becomes,
    step_keeps (fun _ _ hs => hs) fun _ _ _ => sizesSound_becomes⟩

end Sys2Proof.Machine
end

section
/-! SUPPORT. The counts of the bank controller keep to their ranges, and the store stays in self-refresh through RETAIN
(R8, R9, R12, R13, R19). -/

namespace Sys2Proof.Machine

-- The pass-over counts

/-- Every pass-over count is at most 8 (R13). -/
def Store.CountsBounded (st : Store) : Prop := ∀ i, (st.banks.get i).passOver ≤ 8

theorem countsBounded_set {st u : Store} {bank : Fin 4} {b : Bank} (h : st.CountsBounded) (hb : b.passOver ≤ 8)
    (hu : u.banks = st.banks.set bank b) : u.CountsBounded := by
  intro i
  rw [hu, Four.get_set]
  split
  · exact hb
  · exact h i

theorem grant_passOver {b : Bank} (h : b.passOver ≤ 8) : b.grant.passOver ≤ 8 := by
  unfold Bank.grant
  split
  · exact h
  · exact h
  · exact Nat.zero_le _
  · split
    · rename_i hlt
      exact hlt
    · exact Nat.zero_le _

theorem present_counts {st : Store} (h : st.CountsBounded) (bank : Fin 4) : (st.present bank).CountsBounded := fun i =>
  (present_banks st bank i).2.2.trans_le (h i)

theorem decideIdle_counts {st : Store} (h : st.CountsBounded) (bank : Fin 4) : (st.decideIdle bank).CountsBounded := by
  unfold Store.decideIdle
  simp only
  split
  · split
    · refine countsBounded_set h ?_ rfl
      exact grant_passOver (b := { st.banks.get bank with granted := none }) (h bank)
    · exact h
  · exact h

theorem decideDone_counts {st : Store} (h : st.CountsBounded) (bank : Fin 4) (row : Nat) :
    (st.decideDone bank row).CountsBounded := by
  have decided : (if st.permitted = true then ({ st.banks.get bank with granted := none } : Bank).grant
      else { st.banks.get bank with granted := none }).passOver ≤ 8 := by
    split
    · exact grant_passOver (b := { st.banks.get bank with granted := none }) (h bank)
    · exact h bank
  unfold Store.decideDone
  simp only
  split <;>
  · refine countsBounded_set h ?_ rfl
    exact decided

theorem settleBank_counts {st : Store} (h : st.CountsBounded) (bank : Fin 4) : (st.settleBank bank).CountsBounded :=
  present_counts (decideIdle_counts (present_counts h bank) bank) bank

theorem settleBanks_counts {st : Store} (h : st.CountsBounded) : st.settleBanks.CountsBounded :=
  settleBank_counts (settleBank_counts (settleBank_counts (settleBank_counts h 0) 1) 2) 3

theorem admitAccess_counts {st : Store} (h : st.CountsBounded) : st.admitAccess.CountsBounded := by
  unfold Store.admitAccess
  split
  · exact h
  · split
    · exact h
    · refine countsBounded_set h ?_ rfl
      exact h _

theorem withdrawEngine_counts {st : Store} (h : st.CountsBounded) : st.withdrawEngine.CountsBounded := by
  intro i
  rw [withdrawEngine_get]
  exact h i

theorem withdrawAll_counts {st : Store} (h : st.CountsBounded) : st.withdrawEngine.withdrawAccess.CountsBounded := by
  intro i
  rw [withdrawAll_get]
  show (if _ then _ else 0) ≤ 8
  split
  · exact h i
  · exact Nat.zero_le _

-- The refresh counts

/-- What refreshSound says of the store alone (R8, R9, R10, R12, R13, R19). -/
structure Store.RefreshSound (st : Store) : Prop where
  debt : st.debt ≤ 8
  pointer : st.pointer < 2048
  counts : st.CountsBounded
  urgent : st.urgent = true → 1 ≤ st.debt
  asleep : st.array = .selfRefresh → st.debt = 0 ∧ st.urgent = false ∧ st.work = .none

theorem refreshSound_iff (s : State) : s.refreshSound ↔ s.store.RefreshSound ∧
    (s.modeCtl.mode = .steady .retain → s.store.array = .selfRefresh) ∧
      ∀ a b, s.modeCtl.mode = .changing a b → changeAllowed a b = true :=
  ⟨fun ⟨debt, pointer, counts, urgent, asleep, retain, allowed⟩ =>
    ⟨⟨debt, pointer, counts, urgent, asleep⟩, retain, allowed⟩,
    fun ⟨⟨debt, pointer, counts, urgent, asleep⟩, retain, allowed⟩ =>
      ⟨debt, pointer, counts, urgent, asleep, retain, allowed⟩⟩

/-- A step of the store that keeps its counts sound, and in self-refresh leaves it there (R19). -/
structure Store.Refreshes (st u : Store) : Prop where
  sound : u.RefreshSound
  sleeps : st.array = .selfRefresh → u.array = .selfRefresh

theorem Store.Refreshes.trans {st u v : Store} (h : st.Refreshes u) (k : u.Refreshes v) : st.Refreshes v :=
  ⟨k.sound, k.sleeps ∘ h.sleeps⟩

theorem refreshes_of_background {st u : Store} (h : st.RefreshSound) (hb : u.background = st.background)
    (hc : u.CountsBounded) : st.Refreshes u := by
  have harray : u.array = st.array := congrArg (·.2.1) hb
  have hwork : u.work = st.work := congrArg (·.2.2.1) hb
  have hdebt : u.debt = st.debt := congrArg (·.2.2.2.1) hb
  have hurgent : u.urgent = st.urgent := congrArg (·.2.2.2.2.1) hb
  have hpointer : u.pointer = st.pointer := congrArg (·.2.2.2.2.2.1) hb
  refine ⟨⟨hdebt ▸ h.debt, hpointer ▸ h.pointer, hc, ?_, ?_⟩, fun hs => harray.trans hs⟩
  · rw [hurgent, hdebt]
    exact h.urgent
  · rw [harray, hdebt, hurgent, hwork]
    exact h.asleep

theorem settleBanks_refreshes {st : Store} (h : st.RefreshSound) : st.Refreshes st.settleBanks :=
  refreshes_of_background h (store_settleBanks_background st) (settleBanks_counts h.counts)

theorem startUrgent_refreshes {st : Store} (h : st.RefreshSound) : st.Refreshes st.startUrgent := by
  unfold Store.startUrgent
  split
  · rename_i hc
    refine ⟨⟨h.debt, h.pointer, h.counts, h.urgent, nofun⟩, fun hs => ?_⟩
    rw [hc.2.1] at hs
    cases hs
  · exact ⟨h, id⟩

theorem enterSelfRefresh_refreshes {st : Store} (h : st.RefreshSound) : st.Refreshes st.enterSelfRefresh := by
  unfold Store.enterSelfRefresh
  split
  · exact ⟨⟨Nat.zero_le _, h.pointer, h.counts, nofun, fun _ => ⟨rfl, rfl, rfl⟩⟩, fun _ => rfl⟩
  · exact ⟨h, id⟩

theorem settle_refreshes {st : Store} (h : st.RefreshSound) : st.Refreshes st.settle := by
  have entered := enterSelfRefresh_refreshes h
  have urgent := entered.trans (startUrgent_refreshes entered.sound)
  exact urgent.trans (settleBanks_refreshes urgent.sound)

/-- The array comes to READY from a refresh, not from self-refresh (R7). -/
theorem toReady_sound {st : Store} (debt : st.debt ≤ 8) (pointer : st.pointer < 2048) (counts : st.CountsBounded)
    (urgent : st.urgent = true → 1 ≤ st.debt) : st.toReady.RefreshSound :=
  (settle_refreshes (st := { st with array := .ready, work := .none }) ⟨debt, pointer, counts, urgent, nofun⟩).sound

theorem tick_refreshes {st : Store} (h : st.RefreshSound) : st.Refreshes st.tick := by
  unfold Store.tick
  split
  · exact ⟨h, id⟩
  · exact ⟨h, id⟩
  · rename_i hn _
    refine ⟨⟨Nat.min_le_left _ _, h.pointer, h.counts, fun _ => ?_, fun hs => absurd hs hn⟩, id⟩
    exact Nat.le_min.mpr ⟨by decide, Nat.le_add_left 1 st.debt⟩

theorem startRefresh_refreshes {st : Store} (h : st.RefreshSound) : st.Refreshes st.startRefresh := by
  unfold Store.startRefresh
  split
  · exact startUrgent_refreshes h
  · split
    · rename_i hc
      refine ⟨⟨h.debt, h.pointer, h.counts, h.urgent, nofun⟩, fun hs => ?_⟩
      rw [hc.1] at hs
      cases hs
    · exact ⟨h, id⟩

theorem nextPointer_lt (p : Nat) : nextPointer p < 2048 := by
  unfold nextPointer
  split
  · assumption
  · decide

/-- The end of a refresh keeps the counts sound; in self-refresh no refresh is under way (R8, R19, R20, R21). -/
theorem refreshed_refreshes {s : State} (h : s.store.RefreshSound) : s.store.Refreshes s.refreshed.store := by
  have pointer := nextPointer_lt s.store.pointer
  have busy : ∀ {work : RefreshWork} {u : Store}, s.store.work = work → work ≠ .none → u.RefreshSound →
      s.store.Refreshes u := by
    intro work u hw hne hu
    refine ⟨hu, fun hs => ?_⟩
    exact absurd (hw.symm.trans (h.asleep hs).2.2) hne
  have awake : s.store.work ≠ .none → s.store.array ≠ .selfRefresh := fun hw hs => hw (h.asleep hs).2.2
  unfold State.refreshed
  simp only
  split
  · exact ⟨h, id⟩
  · exact ⟨h, id⟩
  · rename_i hw
    refine busy hw nofun ?_
    unfold Store.debtRefreshed
    simp only
    split
    · rename_i hu
      refine ⟨(Nat.sub_le _ _).trans h.debt, pointer, h.counts, fun _ => ?_, fun hs => ?_⟩
      · have hd : s.store.debt - 1 ≠ 0 := of_decide_eq_true (Bool.and_eq_true_iff.mp hu).2
        exact Nat.pos_of_ne_zero hd
      · exact absurd hs (awake (by rw [hw]; nofun))
    · rename_i hu
      exact toReady_sound ((Nat.sub_le _ _).trans h.debt) pointer h.counts (fun ht => absurd ht hu)
  · rename_i left hw
    split
    · exact busy hw nofun ⟨h.debt, pointer, h.counts, h.urgent, fun hs => absurd hs (awake (by rw [hw]; nofun))⟩
    · exact busy hw nofun (toReady_sound (st := { s.store with
        pointer := nextPointer s.store.pointer, ticking := true }) h.debt pointer h.counts h.urgent)
  · rename_i left hw
    refine busy hw nofun ?_
    split
    · exact ⟨h.debt, pointer, h.counts, h.urgent, fun hs => absurd hs (awake (by rw [hw]; nofun))⟩
    · exact toReady_sound h.debt pointer h.counts h.urgent

/-- The mode stays through the end of a refresh, or becomes QUIET (R21). -/
theorem refreshed_mode (s : State) :
    s.refreshed.modeCtl = s.modeCtl ∨ s.refreshed.modeCtl = { s.modeCtl with mode := .steady .quiet } := by
  rcases refreshed_cases s with ⟨st, he, -⟩ | ⟨left, st, -, -, he⟩ <;> rw [he]
  · exact .inl rfl
  · exact .inr rfl

-- The steps

theorem refreshSound_of_refreshes {s t : State} (hs : s.refreshSound) (h : s.store.Refreshes t.store)
    (hm : t.modeCtl = s.modeCtl) : t.refreshSound := by
  obtain ⟨-, retain, allowed⟩ := (refreshSound_iff s).mp hs
  exact (refreshSound_iff t).mpr ⟨h.sound, fun hr => h.sleeps (retain (hm ▸ hr)), fun a b hab => allowed a b (hm ▸ hab)⟩

theorem refreshSound_congr {s t : State} (hs : s.refreshSound) (h : t.store = s.store) (hm : t.modeCtl = s.modeCtl) :
    t.refreshSound := by
  refine refreshSound_of_refreshes hs ?_ hm
  rw [h]
  exact ⟨((refreshSound_iff s).mp hs).1, id⟩

theorem refreshSound_of_background {s t : State} (hs : s.refreshSound) (hb : t.background = s.background)
    (hc : t.store.CountsBounded) : t.refreshSound := by
  have hstore : t.store.background = s.store.background :=
    Prod.ext (congrArg Background.mem hb) (congrArg Background.array hb)
  exact refreshSound_of_refreshes hs (refreshes_of_background ((refreshSound_iff s).mp hs).1 hstore hc)
    (congrArg Background.modeCtl hb)

theorem presentAccess_counts {st : Store} (h : st.CountsBounded) (k : Claim) : (st.presentAccess k).CountsBounded :=
  admitAccess_counts (st := { st with accessReady := some k }) h

/-- The store work of an allowed change (R19, R20, R198). -/
theorem refreshSound_startChange {s : State} {source target : Steady} (hs : s.refreshSound)
    (passed : s.changeFailure source target = none) (other : target ≠ source) (t : Ticket) :
    (s.startChange source target t).refreshSound := by
  obtain ⟨sound, -, -⟩ := (refreshSound_iff s).mp hs
  have transition := (firstFailure_eq_none_iff _).mp passed _ List.mem_cons_self
  refine (refreshSound_iff _).mpr ⟨?_, nofun, ?_⟩
  · show (s.store.startChange source target).RefreshSound
    unfold Store.startChange
    split
    · exact (enterSelfRefresh_refreshes (st := { s.store with entryOrdered := true })
        ⟨sound.debt, sound.pointer, sound.counts, sound.urgent, sound.asleep⟩).sound
    · exact ⟨sound.debt, sound.pointer, sound.counts, sound.urgent, nofun⟩
    · exact sound
  · intro a b hab
    cases hab
    revert transition other
    cases source <;> cases target <;> decide

theorem refreshSound_served {u v : State} {r : Request} {c : Instr} (hu : u.refreshSound) (h : Served u r c v) :
    v.refreshSound := by
  have counts := ((refreshSound_iff u).mp hu).1.counts
  cases h with
  | restarted fields =>
    exact refreshSound_of_refreshes hu (refreshes_of_background ((refreshSound_iff u).mp hu).1 rfl
      (withdrawAll_counts counts)) rfl
  | changing source target mode other passed => exact refreshSound_startChange hu passed other _
  | clearing target free =>
    exact refreshSound_of_refreshes hu (refreshes_of_background ((refreshSound_iff u).mp hu).1
      ((store_settleBanks_background _).trans (admitAccess_background _))
      (settleBanks_counts (presentAccess_counts counts _))) rfl
  | reading first rest cursor wrapped wide =>
    exact refreshSound_of_refreshes hu (refreshes_of_background ((refreshSound_iff u).mp hu).1
      ((store_settleBanks_background _).trans (admitAccess_background _))
      (settleBanks_counts (presentAccess_counts counts _))) rfl
  | writing first rest cursor wrapped =>
    exact refreshSound_of_refreshes hu (refreshes_of_background ((refreshSound_iff u).mp hu).1
      ((store_settleBanks_background _).trans (admitAccess_background _))
      (settleBanks_counts (presentAccess_counts counts _))) rfl
  | installed c stack p ticket running between fewer =>
    have f := install_frame { u with run := { u.run with stack := stack, st := .draining, next := some p } }
    exact refreshSound_congr hu f.store (congrArg Background.modeCtl f.background)
  | stopping fields running =>
    obtain ⟨-, -, -, -, hm, -, hst, -⟩ := stopped_blocks u
    refine refreshSound_of_refreshes hu ?_ hm
    show u.store.Refreshes (u.abandonRun.stopRun.closeAll .runStopped).store
    rw [hst]
    exact refreshes_of_background ((refreshSound_iff u).mp hu).1 rfl (withdrawEngine_counts counts)
  | _ => exact refreshSound_congr hu rfl rfl

theorem accessMove_counts {s v : State} (hs : s.store.CountsBounded) (h : AccessMove s v) : v.store.CountsBounded := by
  cases h with
  | cleared w clear =>
    obtain ⟨payload, regions, he, -⟩ := clearDone_cases s w
    rw [he]
    exact hs
  | nextRow w next k clear ticket => exact presentAccess_counts hs k
  | nextRead x more wide sofar values k reading => exact presentAccess_counts hs k
  | nextWrite x more sofar count k writing => exact presentAccess_counts hs k
  | _ => exact hs

/-- Whoever receives an access's result, the pass-over counts keep to their range. -/
theorem giveResult_counts {s : State} (hs : s.store.CountsBounded) (use : ClaimUse) (r : AccessResult) :
    (s.giveResult use r).store.CountsBounded := by
  rcases giveResult_cases s use r with ⟨v, hv, he⟩ | hm
  · rw [he, (checkLine_frame v).store]
    intro i
    rw [hv.banks]
    exact hs i
  · exact accessMove_counts hs hm

theorem refreshSound_happens {s u : State} {c : Instr} (hs : s.refreshSound) (h : Happens s c u) : u.refreshSound := by
  obtain ⟨sound, retain, allowed⟩ := (refreshSound_iff s).mp hs
  have bank_set : ∀ (bank : Fin 4) (st : BankState), ({ s.store with
      banks := s.store.banks.set bank { s.store.banks.get bank with st := st } } : Store).RefreshSound := by
    intro bank st
    refine ⟨sound.debt, sound.pointer, countsBounded_set sound.counts ?_ rfl, sound.urgent, sound.asleep⟩
    exact sound.counts bank
  cases h with
  | holdOver array work =>
    refine refreshSound_of_refreshes hs ⟨⟨sound.debt, sound.pointer, sound.counts, sound.urgent, fun hr => ?_⟩, id⟩ rfl
    exact absurd (array.symm.trans hr) nofun
  | ticked =>
    have ticked := tick_refreshes sound
    exact refreshSound_of_refreshes hs (ticked.trans (startUrgent_refreshes ticked.sound)) rfl
  | refreshStarted => exact refreshSound_of_refreshes hs (startRefresh_refreshes sound) rfl
  | refreshed =>
    have done := refreshed_refreshes sound
    rcases refreshed_mode s with hm | hm
    · exact refreshSound_of_refreshes hs done hm
    · refine (refreshSound_iff _).mpr ⟨done.sound, ?_, ?_⟩ <;> rw [hm] <;> nofun
  | opened bank row opening => exact refreshSound_of_refreshes hs ⟨bank_set bank _, id⟩ rfl
  | closedForGrant bank k closing granted => exact refreshSound_of_refreshes hs ⟨bank_set bank _, id⟩ rfl
  | closed bank closing free =>
    have settled := settle_refreshes (bank_set bank .idle)
    exact refreshSound_of_refreshes hs ⟨settled.sound, settled.sleeps⟩ rfl
  | accessed bank row k opened granted inside =>
    have did : (s.performed bank k).store.CountsBounded := by
      refine countsBounded_set sound.counts ?_ rfl
      exact sound.counts bank
    have given := giveResult_counts did k.use (s.store.mem.perform s.store.coldEpoch k.row k.op).2
    have performed : (s.performed bank k).refreshSound := by
      refine refreshSound_of_refreshes hs ⟨⟨sound.debt, sound.pointer, did, sound.urgent, sound.asleep⟩, id⟩ rfl
    exact refreshSound_of_background performed ((background_decideAfter _ _ _).trans (background_giveResult _ _ _))
      (settleBanks_counts (decideDone_counts (present_counts (admitAccess_counts given) bank) bank row))
  | itemTaken item rest powered between queue =>
    obtain ⟨hb, hbanks, -⟩ := takeItem_frame { s with port := { s.port with queue := rest } } item
    refine refreshSound_of_background hs ((background_settleBanks _).trans hb) (settleBanks_counts fun i => ?_)
    rw [hbanks]
    exact sound.counts i
  | modeChanged source target mode done =>
    have hstore : (s.changed target).store = s.store := by
      unfold State.changed State.replyMode
      simp only
      split <;> rfl
    have hmode : (s.changed target).modeCtl.mode = .steady target := by
      unfold State.changed State.replyMode
      simp only
      split <;> rfl
    refine (refreshSound_iff _).mpr ⟨hstore ▸ sound, fun hr => ?_, fun a b hab => ?_⟩
    · rw [hmode] at hr
      cases hr
      rw [hstore]
      have := allowed source .retain mode
      cases source with
      | quiet => exact of_decide_eq_true done
      | active => cases this
      | retain => cases this
    · rw [hmode] at hab
      cases hab
  | committed n runs working =>
    refine refreshSound_of_background hs ((background_checkLine _).trans (background_commitLine s n runs)) ?_
    rw [(checkLine_frame _).store]
    exact sound.counts
  | requested c kind r rest u known takes served =>
    exact refreshSound_served (u := s.taken r rest) (refreshSound_congr hs rfl rfl) served
  | _ => exact refreshSound_congr hs rfl rfl

theorem countsBounded_cold (epoch draws : Nat) : (Store.cold epoch draws).CountsBounded := fun i => by
  fin_cases i <;> exact Nat.zero_le _

/-- Settles O55, over what each command can come to. -/
theorem everyStepKeepsRefreshSound : Obligations.EveryStepKeepsRefreshSound := by
  refine step_keeps (fun s q hs => refreshSound_congr hs rfl rfl) fun c s t hs h => ?_
  cases h with
  | coldReset =>
    exact (refreshSound_iff _).mpr
      ⟨⟨Nat.zero_le _, Nat.zero_lt_succ _, countsBounded_cold _ _, nofun, nofun⟩, nofun, nofun⟩
  | released bsel1 bsel0 held =>
    obtain ⟨sound, -, -⟩ := (refreshSound_iff s).mp hs
    exact (refreshSound_iff _).mpr
      ⟨⟨sound.debt, sound.pointer, sound.counts, sound.urgent, nofun⟩, nofun, nofun⟩
  | settled c u awake happens => exact refreshSound_congr (refreshSound_happens hs happens) rfl rfl
  | _ => exact refreshSound_congr hs rfl rfl

end Sys2Proof.Machine
end

section
/-! SUPPORT. The run state against the pending context, the port, the engine and the mode (R54, R57, R71, R85, R193). -/

namespace Sys2Proof.Machine

-- The parts of the invariant

/-- The run state against the pending context, the engine and the port (R54, R57, R71, R85). -/
structure RunForm (run : Run) (engine : EngineState) (port : PortState) : Prop where
  next : run.next.isSome = true ↔ run.st = .draining
  stopped : run.st = .stopped → engine = .idle ∧ port = .off ∧ run.phase = 0
  armed : run.st = .armed → engine = .idle
  waits : run.st = .armed ↔ port = .waitTrig

/-- The start-up refreshes are still to be done (R21). -/
def Store.startingUp (st : Store) : Prop := st.work = .startupHold ∨ ∃ n, st.work = .startup n

/-- What runSound says of the mode: outside ACTIVE no run, and STARTING until the start-up work is done (R193). -/
structure State.ModeForm (s : State) : Prop where
  powered : s.modeCtl.mode ≠ .steady .active → s.run.st = .stopped
  held : s.held = true → s.modeCtl.mode = .starting
  startUp : s.store.startingUp → s.modeCtl.mode = .starting

theorem runSound_iff (s : State) : s.runSound ↔ RunForm s.run s.engine.st s.port.st ∧ s.ModeForm :=
  ⟨fun ⟨next, stopped, armed, waits, powered, held, startUp⟩ => ⟨⟨next, stopped, armed, waits⟩, ⟨powered, held, startUp⟩⟩,
    fun ⟨⟨next, stopped, armed, waits⟩, ⟨powered, held, startUp⟩⟩ => ⟨next, stopped, armed, waits, powered, held, startUp⟩⟩

theorem runSound_congr {s t : State} (hs : s.runSound) (hb : t.background = s.background) (hr : t.run = s.run)
    (he : t.engine.st = s.engine.st) (hp : t.port.st = s.port.st) : t.runSound := by
  have hmode : t.modeCtl = s.modeCtl := congrArg Background.modeCtl hb
  have hheld : t.held = s.held := congrArg (fun b => b.pins.1) hb
  have hwork : t.store.work = s.store.work := congrArg (fun b => b.array.2.1) hb
  unfold State.runSound at hs ⊢
  rw [hmode, hheld, hwork, hr, he, hp]
  exact hs

-- A run under way

/-- A run under way, not waiting for its trigger: RUNNING, or DRAINING with a pending context (R54, R57). -/
structure State.UnderWay (s : State) : Prop where
  run : s.run.st = .running ∨ s.run.st = .draining
  next : s.run.next.isSome = true ↔ s.run.st = .draining
  port : s.port.st ≠ .waitTrig
  powered : s.modeCtl.mode = .steady .active

theorem State.UnderWay.form {s : State} (h : s.UnderWay) : RunForm s.run s.engine.st s.port.st := by
  have stopped : s.run.st ≠ .stopped := by
    rcases h.run with hr | hr <;> rw [hr] <;> nofun
  have armed : s.run.st ≠ .armed := by
    rcases h.run with hr | hr <;> rw [hr] <;> nofun
  exact ⟨h.next, fun hs => absurd hs stopped, fun ha => absurd ha armed, fun ha => absurd ha armed,
    fun hp => absurd hp h.port⟩

/-- A run that is neither STOPPED nor ARMED is under way. -/
theorem underWay_of_run {s : State} (hs : s.runSound) (stopped : s.run.st ≠ .stopped) (armed : s.run.st ≠ .armed) :
    s.UnderWay := by
  obtain ⟨form, mode⟩ := (runSound_iff s).mp hs
  refine ⟨?_, form.next, fun hp => armed (form.waits.mpr hp), Classical.byContradiction fun hm => stopped (mode.powered hm)⟩
  cases hr : s.run.st with
  | stopped => exact absurd hr stopped
  | armed => exact absurd hr armed
  | running => exact .inl rfl
  | draining => exact .inr rfl

/-- An engine that is not idle works on a run under way (R85). -/
theorem underWay_of_engine {s : State} (hs : s.runSound) (he : s.engine.st ≠ .idle) : s.UnderWay := by
  obtain ⟨form, -⟩ := (runSound_iff s).mp hs
  exact underWay_of_run hs (fun h => he (form.stopped h).1) (fun h => he (form.armed h))

/-- So does a port past its trigger (R71). -/
theorem underWay_of_port {s : State} (hs : s.runSound) (hoff : s.port.st ≠ .off) (hwait : s.port.st ≠ .waitTrig) :
    s.UnderWay := by
  obtain ⟨form, -⟩ := (runSound_iff s).mp hs
  exact underWay_of_run hs (fun h => hoff (form.stopped h).2.1) (fun h => hwait (form.waits.mp h))

-- The mode

theorem modeForm_of_background {s t : State} (hs : s.ModeForm) (hb : t.background = s.background)
    (hr : s.modeCtl.mode ≠ .steady .active → t.run.st = .stopped) : t.ModeForm := by
  have hmode : t.modeCtl = s.modeCtl := congrArg Background.modeCtl hb
  have hheld : t.held = s.held := congrArg (fun b => b.pins.1) hb
  have hwork : t.store.work = s.store.work := congrArg (fun b => b.array.2.1) hb
  refine ⟨hmode ▸ hr, ?_, ?_⟩
  · rw [hheld, hmode]
    exact hs.held
  · unfold Store.startingUp
    rw [hwork, hmode]
    exact hs.startUp

/-- With the background kept and the power on, only the run state against port and engine is in question. -/
theorem runSound_of_form {s t : State} (hs : s.runSound) (hb : t.background = s.background)
    (hm : s.modeCtl.mode = .steady .active) (hf : RunForm t.run t.engine.st t.port.st) : t.runSound :=
  (runSound_iff t).mpr ⟨hf, modeForm_of_background ((runSound_iff s).mp hs).2 hb fun hn => absurd hm hn⟩

-- The install and the end of a run

theorem install_next (s : State) : s.install.run.next = none := by
  unfold State.install
  split
  · assumption
  · rfl

/-- The install keeps a run under way (R60). -/
theorem install_underWay {s : State} (h : s.UnderWay) : s.install.UnderWay := by
  have hmode : s.install.modeCtl.mode = .steady .active :=
    (congrArg (fun b => b.modeCtl.mode) (background_install s)).trans h.powered
  refine ⟨?_, ?_, ?_, hmode⟩ <;> unfold State.install <;> split
  · exact h.run
  · exact .inl rfl
  · exact h.next
  · exact ⟨nofun, nofun⟩
  · exact h.port
  · exact h.port

/-- The end of a run leaves it STOPPED, the port OFF and the engine idle (R64). -/
theorem endRun_form (s : State) : RunForm s.endRun.run s.endRun.engine.st s.endRun.port.st := by
  have hnext : s.endRun.run.next = none := install_next s
  refine ⟨?_, fun _ => ⟨rfl, rfl, rfl⟩, nofun, ⟨nofun, nofun⟩⟩
  rw [hnext]
  exact ⟨nofun, nofun⟩

/-- Whatever follows a finished item, the run state fits the port and the engine (R86). -/
theorem finishItem_form {s : State} (h : s.UnderWay) (count : Nat) (last : Bool) :
    RunForm (s.finishItem count last).run (s.finishItem count last).engine.st (s.finishItem count last).port.st := by
  obtain ⟨v, hv, hc⟩ := finishItem_cases s count last
  have under : v.UnderWay := by
    rw [hv]
    exact ⟨h.run, h.next, h.port, h.powered⟩
  rcases hc with hc | hc | hc <;> rw [hc]
  · exact under.form
  · exact (install_underWay under).form
  · exact endRun_form v

theorem finishLine_form {s : State} (h : s.UnderWay) (w : LineWork) :
    RunForm (s.finishLine w).run (s.finishLine w).engine.st (s.finishLine w).port.st := by
  refine finishItem_form ?_ _ _
  exact ⟨h.run, h.next, h.port, h.powered⟩

theorem runSound_checkLine {s : State} (hs : s.runSound) : s.checkLine.runSound := by
  rcases checkLine_cases s with h | ⟨w, hw, h⟩ <;> rw [h]
  · exact hs
  · have under : s.UnderWay := underWay_of_engine hs (by rw [hw]; nofun)
    exact runSound_of_form hs (background_finishLine s w) under.powered (finishLine_form under w)

theorem takeItem_form {s : State} (h : s.UnderWay) (item : QueueItem) :
    RunForm (s.takeItem item).run (s.takeItem item).engine.st (s.takeItem item).port.st := by
  cases item with
  | line n slot =>
    show RunForm (s.takeLine n slot).run (s.takeLine n slot).engine.st (s.takeLine n slot).port.st
    rcases takeLine_cases s n slot with ⟨w, -, ht⟩ | ⟨e, w, -, -, ht⟩ <;> rw [ht]
    · exact finishLine_form h w
    · exact State.UnderWay.form ⟨h.run, h.next, h.port, h.powered⟩
  | loss first count reasons =>
    show RunForm (s.takeLoss first count reasons).run (s.takeLoss first count reasons).engine.st
      (s.takeLoss first count reasons).port.st
    obtain ⟨e, n, last, -, ht⟩ := takeLoss_cases s first count reasons
    rw [ht]
    refine finishItem_form ?_ count last
    exact ⟨h.run, h.next, h.port, h.powered⟩

/-- The line in hand stays in hand, so the run state fits as before. -/
theorem runSound_worked {s v : State} (hs : s.runSound) (hv : Worked s v) : v.runSound := by
  rcases hv.engine with he | ⟨w, w', hw, hw', -⟩
  · exact runSound_congr hs hv.background hv.run he (congrArg Port.st hv.port)
  · have under : s.UnderWay := underWay_of_engine hs (by rw [hw]; nofun)
    refine runSound_of_form hs hv.background under.powered (State.UnderWay.form ?_)
    refine ⟨?_, ?_, ?_, ?_⟩
    · exact hv.run ▸ under.run
    · exact hv.run ▸ under.next
    · exact hv.port ▸ under.port
    · exact (congrArg (fun b => b.modeCtl.mode) hv.background).trans under.powered

-- The port

/-- A sampling edge moves only a port past its trigger, and not back to it (R71, R74 to R78). -/
theorem portMove_st {limit : Word} {pixels : Nat} {p q : Port} (h : PortMove limit pixels p q) :
    q.st = p.st ∨ (p.st ≠ .off ∧ p.st ≠ .waitTrig ∧ q.st ≠ .waitTrig) := by
  have ended : ∀ n, afterLine limit n ≠ .waitTrig := by
    intro n
    unfold afterLine
    split <;> nofun
  have lost : ∀ n, (if lastLine limit n then PortState.off else .discarding) ≠ .waitTrig := by
    intro n
    split <;> nofun
  have long : (p.longLine limit pixels).st = p.st ∨
      (p.st ≠ .off ∧ p.st ≠ .waitTrig ∧ (p.longLine limit pixels).st ≠ .waitTrig) := by
    unfold Port.longLine
    split
    · rename_i n slot hp
      split
      · exact .inr ⟨by rw [hp]; nofun, by rw [hp]; nofun, lost n⟩
      · exact .inl rfl
    all_goals exact .inl rfl
  cases h with
  | still => exact .inl rfl
  | activated x =>
    unfold Port.activate
    split
    · rename_i hp
      refine .inr ⟨by rw [hp.1]; nofun, by rw [hp.1]; nofun, ?_⟩
      simp only
      split
      · nofun
      · exact lost _
    · exact .inl rfl
  | sampled x =>
    unfold Port.takeSample
    split
    · simp only
      split
      · exact .inl rfl
      · exact long
    all_goals exact .inl rfl
  | ended =>
    unfold Port.endLine
    split
    · rename_i n slot hp
      refine .inr ⟨by rw [hp]; nofun, by rw [hp]; nofun, ?_⟩
      split <;> exact ended n
    · rename_i hp
      exact .inr ⟨by rw [hp]; nofun, by rw [hp]; nofun, nofun⟩
    all_goals exact .inl rfl
  | overlong => exact long

-- The start-up work

theorem startUrgent_startingUp {st : Store} (h : st.startUrgent.startingUp) : st.startingUp := by
  revert h
  unfold Store.startUrgent
  split
  · rintro (h | ⟨n, h⟩) <;> cases h
  · exact id

theorem enterSelfRefresh_startingUp {st : Store} (h : st.enterSelfRefresh.startingUp) : st.startingUp := by
  revert h
  unfold Store.enterSelfRefresh
  split
  · rintro (h | ⟨n, h⟩) <;> cases h
  · exact id

theorem settle_startingUp {st : Store} (h : st.settle.startingUp) : st.startingUp := by
  have hwork : st.settle.work = st.enterSelfRefresh.startUrgent.work :=
    congrArg (·.2.2.1) (store_settleBanks_background _)
  have urgent : st.enterSelfRefresh.startUrgent.startingUp := by
    unfold Store.startingUp at h ⊢
    rwa [hwork] at h
  exact enterSelfRefresh_startingUp (startUrgent_startingUp urgent)

theorem tick_startingUp {st : Store} (h : st.tick.startingUp) : st.startingUp := by
  revert h
  unfold Store.tick
  split <;> exact id

theorem startRefresh_startingUp {st : Store} (h : st.startRefresh.startingUp) : st.startingUp := by
  revert h
  unfold Store.startRefresh
  split
  · exact startUrgent_startingUp
  · split
    · rintro (h | ⟨n, h⟩) <;> cases h
    · exact id

theorem toReady_not_startingUp (st : Store) : ¬ st.toReady.startingUp := fun h =>
  (settle_startingUp h).elim nofun fun ⟨_, hn⟩ => nomatch hn

theorem startChange_startingUp {source target : Steady} {st : Store} (h : (st.startChange source target).startingUp) :
    st.startingUp := by
  revert h
  unfold Store.startChange
  split
  · exact fun h => enterSelfRefresh_startingUp (st := { st with entryOrdered := true }) h
  · rintro (h | ⟨n, h⟩) <;> cases h
  · exact id

/-- The end of a refresh takes the store out of its start-up, never into it (R8, R20, R21). -/
theorem refreshed_startingUp {s : State} (h : s.refreshed.store.startingUp) : s.store.startingUp := by
  revert h
  unfold State.refreshed
  simp only
  split
  · exact id
  · exact id
  · rename_i hw
    intro h
    exfalso
    revert h
    unfold Store.debtRefreshed
    simp only
    split
    · intro h
      exact h.elim (fun hn => nomatch hw.symm.trans hn) fun ⟨_, hn⟩ => nomatch hw.symm.trans hn
    · exact toReady_not_startingUp _
  · rename_i left hw
    exact fun _ => .inr ⟨left, hw⟩
  · intro h
    exfalso
    revert h
    split
    · rintro (h | ⟨n, h⟩) <;> cases h
    · exact toReady_not_startingUp _

-- The steps

/-- Work of the store that does not begin a start-up leaves the rest of the invariant alone. -/
theorem runSound_store {s : State} (hs : s.runSound) (st : Store) (h : st.startingUp → s.store.startingUp) :
    ({ s with store := st } : State).runSound := by
  obtain ⟨form, mode⟩ := (runSound_iff s).mp hs
  exact (runSound_iff _).mpr ⟨form, mode.powered, mode.held, mode.startUp ∘ h⟩

theorem runSound_served {u v : State} {r : Request} {c : Instr} (hu : u.runSound) (h : Served u r c v) : v.runSound := by
  obtain ⟨form, mode⟩ := (runSound_iff u).mp hu
  cases h with
  | restarted fields =>
    exact (runSound_iff _).mpr ⟨⟨⟨nofun, nofun⟩, fun _ => ⟨rfl, rfl, rfl⟩, nofun, ⟨nofun, nofun⟩⟩,
      ⟨fun _ => rfl, mode.held, mode.startUp⟩⟩
  | changing source target steady other passed =>
    have stopped : u.run.st = .stopped := by
      refine Classical.byContradiction fun hn => ?_
      have active : source = .active := by
        have hm : u.modeCtl.mode = .steady .active := Classical.byContradiction fun hm => hn (mode.powered hm)
        rw [steady] at hm
        cases hm
        rfl
      have checks := (firstFailure_eq_none_iff _).mp passed
      have transition := checks _ List.mem_cons_self
      have state := checks _ (List.mem_cons_of_mem _ List.mem_cons_self)
      rw [active] at other transition state
      cases target with
      | active => exact other rfl
      | retain => exact absurd transition (by decide)
      | quiet => exact absurd state (by simp [hn])
    have awake : u.held = true → False := fun hheld => nomatch steady.symm.trans (mode.held hheld)
    have started : u.store.startingUp → False := fun hst => nomatch steady.symm.trans (mode.startUp hst)
    exact (runSound_iff _).mpr ⟨form, fun _ => stopped, fun hheld => (awake hheld).elim,
      fun hst => (started (startChange_startingUp hst)).elim⟩
  | clearing target free =>
    exact runSound_congr hu ((background_settleBanks _).trans (background_presentAccess _ _)) rfl rfl rfl
  | reading first rest cursor wrapped wide =>
    exact runSound_congr hu ((background_settleBanks _).trans (background_presentAccess _ _)) rfl rfl rfl
  | writing first rest cursor wrapped =>
    exact runSound_congr hu ((background_settleBanks _).trans (background_presentAccess _ _)) rfl rfl rfl
  | pended c stack p ticket running fewer =>
    have under := underWay_of_run hu (by rw [running]; nofun) (by rw [running]; nofun)
    refine (runSound_iff _).mpr ⟨State.UnderWay.form ⟨.inr rfl, ⟨fun _ => rfl, fun _ => rfl⟩, under.port, under.powered⟩,
      fun hm => absurd under.powered hm, mode.held, mode.startUp⟩
  | installed c stack p ticket running between fewer =>
    have under := underWay_of_run hu (by rw [running]; nofun) (by rw [running]; nofun)
    have pended : ({ u with run := { u.run with stack := stack, st := .draining, next := some p } } : State).UnderWay :=
      ⟨.inr rfl, ⟨fun _ => rfl, fun _ => rfl⟩, under.port, under.powered⟩
    have pendedSound : ({ u with run := { u.run with stack := stack, st := .draining, next := some p } } : State).runSound :=
      (runSound_iff _).mpr ⟨pended.form, fun hm => absurd under.powered hm, mode.held, mode.startUp⟩
    exact runSound_of_form pendedSound (background_install _) under.powered (install_underWay pended).form
  | started trigger limit fields powered stopped =>
    have hnext : u.run.next.isSome ≠ true := fun hn => nomatch stopped.symm.trans (form.next.mp hn)
    refine (runSound_iff _).mpr ⟨?_, fun hm => absurd powered hm, mode.held, mode.startUp⟩
    cases trigger with
    | now => exact ⟨⟨fun hn => absurd hn hnext, nofun⟩, nofun, nofun, ⟨nofun, nofun⟩⟩
    | atTrig => exact ⟨⟨fun hn => absurd hn hnext, nofun⟩, nofun, fun _ => rfl, ⟨fun _ => rfl, fun _ => rfl⟩⟩
  | stopping fields running =>
    obtain ⟨hheld, -, -, -, hmode, -, hstore, -, -, hport, hengine, -, -, -, hrun⟩ := stopped_blocks u
    refine (runSound_iff _).mpr ⟨?_, ?_, ?_, ?_⟩
    · show RunForm (u.abandonRun.stopRun.closeAll .runStopped).run (u.abandonRun.stopRun.closeAll .runStopped).engine.st
        (u.abandonRun.stopRun.closeAll .runStopped).port.st
      rw [hport, hengine, hrun]
      exact ⟨⟨nofun, nofun⟩, fun _ => ⟨rfl, rfl, rfl⟩, nofun, ⟨nofun, nofun⟩⟩
    · exact fun _ => congrArg Run.st hrun
    · show (u.abandonRun.stopRun.closeAll .runStopped).held = true →
        (u.abandonRun.stopRun.closeAll .runStopped).modeCtl.mode = .starting
      rw [hheld, hmode]
      exact mode.held
    · show (u.abandonRun.stopRun.closeAll .runStopped).store.startingUp →
        (u.abandonRun.stopRun.closeAll .runStopped).modeCtl.mode = .starting
      rw [hstore, hmode]
      exact mode.startUp
  | _ => exact (runSound_iff _).mpr ⟨⟨form.next, form.stopped, form.armed, form.waits⟩,
      mode.powered, mode.held, mode.startUp⟩

theorem runSound_accessMove {s v : State} (hs : s.runSound) (h : AccessMove s v) : v.runSound := by
  cases h with
  | cleared w clear =>
    obtain ⟨payload, regions, he, -⟩ := clearDone_cases s w
    rw [he]
    exact hs
  | nextRow w next k clear ticket => exact runSound_congr hs (background_presentAccess _ k) rfl rfl rfl
  | nextRead x more wide sofar values k reading => exact runSound_congr hs (background_presentAccess _ k) rfl rfl rfl
  | nextWrite x more sofar count k writing => exact runSound_congr hs (background_presentAccess _ k) rfl rfl rfl
  | _ => exact hs

theorem runSound_happens {s u : State} {c : Instr} (hs : s.runSound) (awake : s.held = false) (h : Happens s c u) :
    u.runSound := by
  obtain ⟨form, mode⟩ := (runSound_iff s).mp hs
  cases h with
  | holdOver array work => exact runSound_store hs _ fun _ => .inl work
  | ticked => exact runSound_store hs _ fun h => tick_startingUp (startUrgent_startingUp h)
  | refreshStarted => exact runSound_store hs _ startRefresh_startingUp
  | refreshed =>
    have hst := refreshed_startingUp (s := s)
    rcases refreshed_cases s with ⟨st, he, -⟩ | ⟨left, st, hwork, -, he⟩
    · rw [he] at hst ⊢
      exact runSound_store hs st hst
    · rw [he]
      have starting := mode.startUp (.inr ⟨left, hwork⟩)
      have stopped := mode.powered (by rw [starting]; nofun)
      exact (runSound_iff _).mpr ⟨form, fun _ => stopped, fun hheld => (nomatch awake.symm.trans hheld),
        fun hn => absurd hn (toReady_not_startingUp _)⟩
  | closed bank closing free => exact runSound_store hs _ settle_startingUp
  | edge c g p lval powered move =>
    rcases portMove_st move with hst | ⟨hoff, hwait, hst⟩
    · exact runSound_congr hs rfl rfl rfl hst
    · have under := underWay_of_port hs hoff hwait
      exact runSound_of_form hs rfl powered (State.UnderWay.form ⟨under.run, under.next, hst, powered⟩)
  | triggered powered port =>
    have armed := form.waits.mpr port
    have hnext : s.run.next.isSome ≠ true := fun hn => nomatch armed.symm.trans (form.next.mp hn)
    exact runSound_of_form hs rfl powered
      (State.UnderWay.form ⟨.inl rfl, ⟨fun hn => absurd hn hnext, nofun⟩, nofun, powered⟩)
  | accessed bank row k opened granted inside =>
    have did : (s.performed bank k).runSound := hs
    have given : ((s.performed bank k).giveResult k.use
        (s.store.mem.perform s.store.coldEpoch k.row k.op).2).runSound := by
      rcases giveResult_cases (s.performed bank k) k.use (s.store.mem.perform s.store.coldEpoch k.row k.op).2 with
        ⟨v, hv, he⟩ | hm
      · rw [he]
        exact runSound_checkLine (runSound_worked did hv)
      · exact runSound_accessMove did hm
    exact runSound_congr given (background_decideAfter _ _ _) rfl rfl rfl
  | itemTaken item rest powered between queue =>
    have under := underWay_of_engine hs (by rw [between]; nofun)
    have taken : ({ s with port := { s.port with queue := rest } } : State).UnderWay :=
      ⟨under.run, under.next, under.port, under.powered⟩
    exact runSound_of_form hs ((background_settleBanks _).trans (background_takeItem _ item)) powered
      (takeItem_form taken item)
  | modeChanged source target changing done =>
    have stopped := mode.powered (by rw [changing]; nofun)
    have started : s.store.startingUp → False := fun hst => nomatch changing.symm.trans (mode.startUp hst)
    have changed : (s.changed target).run = s.run ∧ (s.changed target).engine = s.engine ∧
        (s.changed target).port.st = s.port.st ∧ (s.changed target).held = s.held ∧
        (s.changed target).store = s.store := by
      unfold State.changed State.replyMode Port.powerUp
      simp only
      split <;> cases target <;> exact ⟨rfl, rfl, rfl, rfl, rfl⟩
    obtain ⟨hrun, hengine, hport, hheld, hstore⟩ := changed
    refine (runSound_iff _).mpr ⟨?_, fun _ => hrun ▸ stopped, fun hh => ?_, fun hst => ?_⟩
    · rw [hrun, hengine, hport]
      exact form
    · exact nomatch awake.symm.trans (hheld.symm.trans hh)
    · exact (started (hstore ▸ hst)).elim
  | committed n runs working =>
    have committed : (s.commitLine n runs).runSound := runSound_congr hs (background_commitLine s n runs) rfl rfl rfl
    exact runSound_checkLine committed
  | requested c kind r rest u known takes served =>
    exact runSound_served (u := s.taken r rest) ((runSound_iff _).mpr ⟨form, mode.powered, mode.held, mode.startUp⟩) served
  | _ => exact (runSound_iff _).mpr ⟨form, mode.powered, mode.held, mode.startUp⟩

theorem runSound_becomes {s t : State} {c : Instr} (hs : s.runSound) (h : Becomes s c t) : t.runSound := by
  obtain ⟨form, mode⟩ := (runSound_iff s).mp hs
  cases h with
  | coldReset =>
    exact (runSound_iff _).mpr ⟨⟨⟨nofun, nofun⟩, fun _ => ⟨rfl, rfl, rfl⟩, nofun, ⟨nofun, nofun⟩⟩,
      ⟨fun _ => rfl, fun _ => rfl, fun _ => rfl⟩⟩
  | released bsel1 bsel0 held =>
    have stopped := mode.powered (by rw [mode.held held]; nofun)
    exact (runSound_iff _).mpr ⟨form, fun _ => stopped, nofun, fun _ => rfl⟩
  | settled c u awake happens => exact runSound_congr (runSound_happens hs awake happens) (background_settleLink u) rfl rfl rfl
  | _ => exact (runSound_iff _).mpr ⟨form, mode.powered, mode.held, mode.startUp⟩

/-- Settles O58, over what each command can come to. -/
theorem everyStepKeepsRunSound : Obligations.EveryStepKeepsRunSound :=
  step_keeps (fun _ _ hs => hs) fun _ _ _ => runSound_becomes

end Sys2Proof.Machine
end

section
/-! SUPPORT. What the part's own work does to the command link: it offers notices and fills the reserved entries of the
requests it has finished, and nothing more (R138, R183, R184, R187). -/

namespace Sys2Proof.Machine

/-- The link with notices offered and the entries of some requests filled with their replies, in order (R184, R187). -/
inductive Link.Moves : Link → List Ticket → Link → Prop
  | still (l : Link) : Moves l [] l
  | offered {l m : Link} {ts : List Ticket} (n : Notice) (h : Moves (l.offer n) ts m) : Moves l ts m
  | replied {l m : Link} {ts : List Ticket} (t : Ticket) (p : List Byte) (h : Moves (l.reply t p) ts m) :
      Moves l (t :: ts) m

theorem Link.Moves.trans {l m n : Link} {ts us : List Ticket} (h : l.Moves ts m) (k : m.Moves us n) :
    l.Moves (ts ++ us) n := by
  induction h with
  | still l => exact k
  | offered n h ih => exact .offered n (ih k)
  | replied t p h ih => exact .replied t p (ih k)

/-- Work that only offers notices comes before work that also replies. -/
theorem Link.Moves.after {l m n : Link} {us : List Ticket} (h : l.Moves [] m) (k : m.Moves us n) : l.Moves us n := h.trans k

theorem offer_moves (l : Link) (n : Notice) : l.Moves [] (l.offer n) := .offered n (.still _)

theorem reply_moves (l : Link) (t : Ticket) (p : List Byte) : l.Moves [t] (l.reply t p) := .replied t p (.still _)

theorem offerAll_moves (ns : List Notice) : ∀ l : Link, l.Moves [] (l.offerAll ns) := by
  induction ns with
  | nil => exact .still
  | cons n rest ih => exact fun l => .offered n (ih (l.offer n))

-- What such work leaves alone, and what it keeps

theorem Link.Moves.background {l m : Link} {ts : List Ticket} (h : l.Moves ts m) : m.background = l.background := by
  induction h with
  | still l => rfl
  | offered n h ih => exact ih.trans (background_link_offer _ n)
  | replied t p h ih => exact ih

theorem offer_executor (l : Link) (n : Notice) : (l.offer n).executor = l.executor := by
  unfold Link.offer
  simp only
  split <;> split <;> rfl

theorem Link.Moves.executor {l m : Link} {ts : List Ticket} (h : l.Moves ts m) : m.executor = l.executor := by
  induction h with
  | still l => rfl
  | offered n h ih => exact ih.trans (offer_executor _ n)
  | replied t p h ih => exact ih

/-- The notice queue and the drop count keep to their ranges (R187). -/
def Link.NoticesBounded (l : Link) : Prop := l.notices.length ≤ 32 ∧ l.drops ≤ 65535

theorem noticesBounded_offer {l : Link} (h : l.NoticesBounded) (n : Notice) : (l.offer n).NoticesBounded := by
  obtain ⟨notices, drops⟩ := h
  have places : Config.noticePlaces = 32 := rfl
  unfold Link.offer
  simp only
  split
  · split
    · refine ⟨?_, drops⟩
      simp only [List.length_append, List.length_singleton]
      omega
    · exact ⟨notices, Nat.succ_le_succ (Nat.zero_le _)⟩
  · split
    · refine ⟨?_, Nat.zero_le _⟩
      simp only [List.length_append, List.length_cons, List.length_nil]
      omega
    · exact ⟨notices, Nat.min_le_left _ _⟩

theorem Link.Moves.noticesBounded {l m : Link} {ts : List Ticket} (h : l.Moves ts m) (hl : l.NoticesBounded) :
    m.NoticesBounded := by
  induction h with
  | still l => exact hl
  | offered n h ih => exact ih (noticesBounded_offer hl n)
  | replied t p h ih => exact ih hl

/-- The reserved entries are those of these requests, and no more than eight entries are in use (R184). -/
def Link.Owes (l : Link) (ts : List Ticket) : Prop := l.reserved.Perm ts ∧ l.replies.length + l.reserved.length ≤ 8

theorem owes_reply {l : Link} {t : Ticket} {ts : List Ticket} (h : l.Owes (t :: ts)) (p : List Byte) :
    (l.reply t p).Owes ts := by
  obtain ⟨reserved, fit⟩ := h
  have held : t ∈ l.reserved := reserved.symm.subset List.mem_cons_self
  refine ⟨(reserved.erase t).trans (by rw [List.erase_cons_head]), ?_⟩
  have shorter : (l.reserved.erase t).length = l.reserved.length - 1 := List.length_erase_of_mem held
  have some : 0 < l.reserved.length := List.length_pos_of_mem held
  show (l.replies ++ [_]).length + (l.reserved.erase t).length ≤ 8
  rw [List.length_append, List.length_singleton, shorter]
  omega

theorem owes_offer {l : Link} {ts : List Ticket} (h : l.Owes ts) (n : Notice) : (l.offer n).Owes ts := by
  obtain ⟨reserved, replies, -⟩ := offerAll_keeps [n] l
  unfold Link.Owes
  rw [show (l.offer n).reserved = l.reserved from reserved, show (l.offer n).replies = l.replies from replies]
  exact h

/-- Filled entries are no longer owed; the rest are (R184). -/
theorem Link.Moves.owes {l m : Link} {ts us : List Ticket} (h : l.Moves ts m) (hl : l.Owes (ts ++ us)) : m.Owes us := by
  induction h with
  | still l => exact hl
  | offered n h ih => exact ih (owes_offer hl n)
  | replied t p h ih => exact ih (owes_reply hl p)

-- The install and the end of an item

/-- The request of a pending context (R183). -/
def Run.owed (run : Run) : List Ticket :=
  match run.next with
  | some p => [p.ticket]
  | none => []

/-- Work on a run: notices, and the reply of a pending context that it installs. -/
def State.LinkWork (s t : State) : Prop := ∃ ts, s.link.Moves ts t.link ∧ s.run.owed = ts ++ t.run.owed

theorem linkWork_of_eq {s t : State} (hl : t.link = s.link) (hr : t.run.next = s.run.next) : s.LinkWork t := by
  refine ⟨[], hl ▸ .still _, ?_⟩
  unfold Run.owed
  rw [hr]
  rfl

theorem State.LinkWork.trans {s t u : State} (h : s.LinkWork t) (k : t.LinkWork u) : s.LinkWork u := by
  obtain ⟨ts, moves, owed⟩ := h
  obtain ⟨us, moves', owed'⟩ := k
  exact ⟨ts ++ us, moves.trans moves', by rw [owed, owed', List.append_assoc]⟩

theorem offer_linkWork (s : State) (n : Notice) : s.LinkWork (s.offer n) := ⟨[], offer_moves s.link n, rfl⟩

theorem closeAll_linkWork (s : State) (f : CloseFlag) : s.LinkWork (s.closeAll f) := ⟨[], offerAll_moves _ s.link, rfl⟩

/-- The install queues the reply of the pending context (R61). -/
theorem install_linkWork (s : State) : s.LinkWork s.install := by
  cases hp : s.run.next with
  | none =>
    have same : s.install = s := by
      unfold State.install
      rw [hp]
    rw [same]
    exact linkWork_of_eq rfl rfl
  | some p =>
    have owed : s.run.owed = [p.ticket] := by
      unfold Run.owed
      rw [hp]
    refine ⟨[p.ticket], ?_, ?_⟩
    · unfold State.install
      rw [hp]
      exact (offerAll_moves _ s.link).after (reply_moves _ _ _)
    · rw [owed]
      unfold Run.owed
      rw [install_next]
      rfl

theorem endRun_linkWork (s : State) : s.LinkWork s.endRun := by
  have closed := (install_linkWork s).trans (closeAll_linkWork s.install .runEnd)
  exact (closed.trans (offer_linkWork _ (.runEnd _ _ _))).trans (linkWork_of_eq rfl rfl)

theorem finishItem_linkWork (s : State) (count : Nat) (last : Bool) : s.LinkWork (s.finishItem count last) := by
  obtain ⟨v, hv, h⟩ := finishItem_cases s count last
  have between : s.LinkWork v := by
    rw [hv]
    exact linkWork_of_eq rfl rfl
  rcases h with h | h | h <;> rw [h]
  · exact between
  · exact between.trans (install_linkWork v)
  · exact between.trans (endRun_linkWork v)

theorem finishLine_linkWork (s : State) (w : LineWork) : s.LinkWork (s.finishLine w) := by
  refine State.LinkWork.trans ?_ (finishItem_linkWork _ _ _)
  exact linkWork_of_eq rfl rfl

theorem checkLine_linkWork (s : State) : s.LinkWork s.checkLine := by
  rcases checkLine_cases s with h | ⟨w, -, h⟩ <;> rw [h]
  · exact linkWork_of_eq rfl rfl
  · exact finishLine_linkWork s w

theorem takeItem_linkWork (s : State) (item : QueueItem) : s.LinkWork (s.takeItem item) := by
  cases item with
  | line n slot =>
    show s.LinkWork (s.takeLine n slot)
    rcases takeLine_cases s n slot with ⟨w, -, h⟩ | ⟨e, w, -, -, h⟩ <;> rw [h]
    · exact finishLine_linkWork s w
    · exact linkWork_of_eq rfl rfl
  | loss first count reasons =>
    show s.LinkWork (s.takeLoss first count reasons)
    obtain ⟨e, n, last, -, h⟩ := takeLoss_cases s first count reasons
    rw [h]
    refine State.LinkWork.trans ?_ ((offer_linkWork _ n).trans (finishItem_linkWork _ _ _))
    exact linkWork_of_eq rfl rfl

theorem commitLine_linkWork (s : State) (n : Word) (runs : List LaneRun) : s.LinkWork (s.commitLine n runs) :=
  ⟨[], (offerAll_moves _ s.link).after (offerAll_moves _ _), rfl⟩

theorem worked_linkWork {s v : State} (h : Worked s v) : s.LinkWork v := linkWork_of_eq h.link (congrArg Run.next h.run)

-- STOP

/-- A notice taken back shortens the queue of notices and changes nothing else (R67). -/
theorem takeBack_shortens (l : Link) (n : Notice) :
    ∃ notices, l.takeBack n = { l with notices := notices } ∧ notices.length ≤ l.notices.length := by
  refine ⟨_, rfl, ?_⟩
  simp only [List.length_append, List.length_reverse]
  have erased : ∀ sending, ((l.notices.drop sending).reverse.erase n).length ≤ (l.notices.drop sending).length := by
    intro sending
    refine List.length_erase_le.trans ?_
    rw [List.length_reverse]
  refine (Nat.add_le_add_left (erased _) _).trans ?_
  rw [← List.length_append, List.take_append_drop]

/-- STOP may take a notice back; then it replies to a pending context and offers the notices of the open records (R65,
R66, R67). -/
theorem stopped_linkWork (s : State) : ∃ notices, notices.length ≤ s.link.notices.length ∧
    ({ s with link := { s.link with notices := notices } } : State).LinkWork
      (s.abandonRun.stopRun.closeAll .runStopped) := by
  have back : ∃ notices, s.takeBackItem.link = { s.link with notices := notices } ∧
      notices.length ≤ s.link.notices.length := by
    unfold State.takeBackItem
    split
    any_goals exact ⟨s.link.notices, rfl, Nat.le_refl _⟩
    simp only
    split
    · exact ⟨s.link.notices, rfl, Nat.le_refl _⟩
    · exact takeBack_shortens _ _
  obtain ⟨notices, hlink, hlen⟩ := back
  refine ⟨notices, hlen, State.LinkWork.trans ?_ (closeAll_linkWork _ _)⟩
  have hrun : s.abandonRun.run = s.run := (takeBackItem_keeps s).2.1
  have hlink' : s.abandonRun.link = { s.link with notices := notices } := hlink
  unfold State.stopRun
  rw [hrun]
  cases hp : s.run.next with
  | none =>
    exact linkWork_of_eq hlink' rfl
  | some p =>
    have owed : s.run.owed = [p.ticket] := by
      unfold Run.owed
      rw [hp]
    refine ⟨[p.ticket], ?_, owed⟩
    rw [← hlink']
    exact reply_moves _ _ _

-- The receiver

/-- A byte received moves the receiver, and may have a rejection queued or a request join (R177 to R180). -/
theorem receiveByte_cases (l : Link) (b : Byte) : ∃ r : Receiver,
    l.receiveByte b = { l with receiver := r } ∨
      (∃ kind tag status, l.receiveByte b = ({ l with receiver := r } : Link).reject kind tag status) ∨
      ∃ q : Request, l.inbound.length < 4 ∧ l.receiveByte b = ({ l with receiver := r } : Link).join q := by
  unfold Link.receiveByte
  split
  · split
    · exact ⟨_, .inl rfl⟩
    · exact ⟨l.receiver, .inl rfl⟩
  · unfold Link.headerDone
    split
    · split
      · simp only
        split
        · exact ⟨_, .inr (.inl ⟨_, _, _, rfl⟩)⟩
        · split <;> exact ⟨_, .inl rfl⟩
      · exact ⟨_, .inl rfl⟩
    · exact ⟨_, .inl rfl⟩
  · split <;> exact ⟨_, .inl rfl⟩
  · split
    · exact ⟨_, .inl rfl⟩
    · refine ⟨.hunt, .inr ?_⟩
      unfold Link.frameDone
      simp only
      split
      · exact .inl ⟨_, _, _, rfl⟩
      · split
        · exact .inl ⟨_, _, _, rfl⟩
        · split
          · exact .inl ⟨_, _, _, rfl⟩
          · rename_i hfull
            exact .inr ⟨_, Nat.lt_of_not_le hfull, rfl⟩

/-- A property of the link that every byte keeps holds after the bytes of a frame. -/
theorem receive_keeps {P : Link → Prop} (h : ∀ l b, P l → P (l.receiveByte b)) (bytes : List Byte) :
    ∀ l, P l → P (l.receive bytes) := by
  induction bytes with
  | nil => exact fun _ hl => hl
  | cons b rest ih => exact fun l hl => ih _ (h l b hl)

theorem timeout_cases (l : Link) : ∃ r : Receiver,
    l.timeout = { l with receiver := r } ∨
      ∃ kind tag status, l.timeout = ({ l with receiver := r } : Link).reject kind tag status := by
  unfold Link.timeout
  split
  · exact ⟨l.receiver, .inl rfl⟩
  · exact ⟨_, .inl rfl⟩
  · exact ⟨_, .inr ⟨_, _, _, rfl⟩⟩
  · exact ⟨_, .inr ⟨_, _, _, rfl⟩⟩

/-- A rejection queues a reply or does nothing (R179). -/
theorem reject_cases (l : Link) (kind tag : Byte) (status : Status) :
    l.reject kind tag status = l ∨
      ∃ m, l.reject kind tag status = { l with replies := l.replies ++ [m] } ∧ l.replies.length + l.reserved.length < 8 := by
  unfold Link.reject
  split
  · rename_i h
    exact .inr ⟨_, rfl, of_decide_eq_true h⟩
  · exact .inl rfl

/-- A frame sent takes a reply or a notice away, or neither (R185, R191). -/
theorem sent_eq (l : Link) : ∃ x replies notices, l.sent = { l with
      transmitter := x, replies := replies, notices := notices } ∧
    replies.length ≤ l.replies.length ∧ notices.length ≤ l.notices.length := by
  have shorter : ∀ {α : Type} (flushed : Bool) (q : List α), (if flushed then q else q.drop 1).length ≤ q.length := by
    intro α flushed q
    split
    · exact Nat.le_refl _
    · rw [List.length_drop]
      exact Nat.sub_le _ _
  unfold Link.sent
  split
  · exact ⟨l.transmitter, l.replies, l.notices, rfl, Nat.le_refl _, Nat.le_refl _⟩
  · exact ⟨_, _, l.notices, rfl, shorter _ _, Nat.le_refl _⟩
  · exact ⟨_, l.replies, _, rfl, Nat.le_refl _, shorter _ _⟩

end Sys2Proof.Machine
end

section
/-! SUPPORT. The sizes of the link's queues, what drives HOLD, and the operating level against pin SVC (R181, R187,
R188). -/

namespace Sys2Proof.Machine

/-- At most four requests are queued, and HOLD follows their number (R181). -/
structure Link.InboundSound (l : Link) : Prop where
  places : l.inbound.length ≤ 4
  held : 3 ≤ l.inbound.length → l.holdOut = true
  free : l.inbound.length ≤ 1 → l.holdOut = false

/-- SERVICE needs SVC high and the part out of reset (R188). -/
structure State.LevelSound (s : State) : Prop where
  pin : s.link.level = .service → s.svc = true
  held : s.held = true → s.link.level = .operator

theorem linkSound_iff (s : State) : s.linkSound ↔ s.link.InboundSound ∧ s.link.NoticesBounded ∧ s.LevelSound :=
  ⟨fun ⟨places, notices, drops, held, free, pin, reset⟩ => ⟨⟨places, held, free⟩, ⟨notices, drops⟩, ⟨pin, reset⟩⟩,
    fun ⟨⟨places, held, free⟩, ⟨notices, drops⟩, ⟨pin, reset⟩⟩ => ⟨places, notices, drops, held, free, pin, reset⟩⟩

-- Kept with the background

theorem linkSound_of_background {s t : State} (hs : s.linkSound) (hb : t.background = s.background)
    (hn : t.link.NoticesBounded) : t.linkSound := by
  obtain ⟨inbound, -, level⟩ := (linkSound_iff s).mp hs
  have hin : t.link.inbound = s.link.inbound := congrArg (fun b => b.receiving.2.2.1) hb
  have hout : t.link.holdOut = s.link.holdOut := congrArg (fun b => b.receiving.2.2.2.1) hb
  have hlevel : t.link.level = s.link.level := congrArg (fun b => b.receiving.2.2.2.2) hb
  have hheld : t.held = s.held := congrArg (fun b => b.pins.1) hb
  have hsvc : t.svc = s.svc := congrArg (fun b => b.pins.2) hb
  refine (linkSound_iff t).mpr ⟨⟨?_, ?_, ?_⟩, hn, ⟨?_, ?_⟩⟩
  · rw [hin]
    exact inbound.places
  · rw [hin, hout]
    exact inbound.held
  · rw [hin, hout]
    exact inbound.free
  · rw [hlevel, hsvc]
    exact level.pin
  · rw [hheld, hlevel]
    exact level.held

/-- Work on a run, a line or an item keeps the link sound (R187). -/
theorem linkSound_of_work {s t : State} (hs : s.linkSound) (hb : t.background = s.background) (hw : s.LinkWork t) :
    t.linkSound := by
  obtain ⟨ts, moves, -⟩ := hw
  exact linkSound_of_background hs hb (moves.noticesBounded ((linkSound_iff s).mp hs).2.1)

/-- A reply touches nothing that is in question. -/
theorem linkSound_reply {s : State} (hs : s.linkSound) (t : Ticket) (p : List Byte) : (s.reply t p).linkSound := hs

-- The inbound queue

theorem inboundSound_join {l : Link} (h : l.InboundSound) (room : l.inbound.length < 4) (q : Request) :
    (l.join q).InboundSound := by
  have length : (l.join q).inbound.length = l.inbound.length + 1 := List.length_append
  have out : (l.join q).holdOut = if 3 ≤ l.inbound.length + 1 then true else l.holdOut := rfl
  refine ⟨by omega, fun many => ?_, fun few => ?_⟩
  · rw [out, if_pos (length ▸ many)]
  · rw [out, if_neg (by omega)]
    exact h.free (by omega)

theorem inboundSound_take {l : Link} (h : l.InboundSound) {r : Request} {rest : List Request}
    (queue : l.inbound = r :: rest) : (l.take r rest).InboundSound := by
  have length : l.inbound.length = rest.length + 1 := congrArg List.length queue
  have out : (l.take r rest).holdOut = if rest.length ≤ 1 then false else l.holdOut := rfl
  have places := h.places
  refine ⟨?_, fun many => ?_, fun few => ?_⟩
  · show rest.length ≤ 4
    omega
  · have many' : 3 ≤ rest.length := many
    rw [out, if_neg (by omega)]
    exact h.held (by omega)
  · have few' : rest.length ≤ 1 := few
    rw [out, if_pos few']

theorem linkSound_receiver {s : State} (hs : s.linkSound) (r : Receiver) :
    ({ s with link := { s.link with receiver := r } } : State).linkSound := hs

theorem linkSound_reject {s : State} (hs : s.linkSound) (kind tag : Byte) (status : Status) :
    ({ s with link := s.link.reject kind tag status } : State).linkSound := by
  rcases reject_cases s.link kind tag status with h | ⟨m, h, -⟩ <;> rw [h] <;> exact hs

theorem linkSound_receiveByte {s : State} (hs : s.linkSound) (b : Byte) :
    ({ s with link := s.link.receiveByte b } : State).linkSound := by
  obtain ⟨r, h | ⟨kind, tag, status, h⟩ | ⟨q, room, h⟩⟩ := receiveByte_cases s.link b <;> rw [h]
  · exact linkSound_receiver hs r
  · exact linkSound_reject (linkSound_receiver hs r) kind tag status
  · obtain ⟨inbound, notices, level⟩ := (linkSound_iff s).mp hs
    have ready : ({ s.link with receiver := r } : Link).InboundSound := ⟨inbound.places, inbound.held, inbound.free⟩
    exact (linkSound_iff _).mpr ⟨inboundSound_join ready room q, notices, level.pin, level.held⟩

-- The steps

theorem linkSound_served {u v : State} {r : Request} {c : Instr} (hu : u.linkSound) (awake : u.held = false)
    (h : Served u r c v) : v.linkSound := by
  obtain ⟨inbound, notices, level⟩ := (linkSound_iff u).mp hu
  have risen_pin : ∀ risen : Bool, u.link.level = .service → (u.svc || risen) = true := fun risen hl => by
    rw [level.pin hl]
    rfl
  have risen_sound : ∀ risen : Bool, ({ u with svc := u.svc || risen } : State).linkSound := fun risen =>
    (linkSound_iff _).mpr ⟨inbound, notices, risen_pin risen, level.held⟩
  cases h with
  | levelRefused risen status => exact linkSound_reply (risen_sound risen) _ _
  | levelSet risen lv pin =>
    have allowed : lv = .service → (u.svc || risen) = true := fun hl => (pin hl).elim id (risen_pin risen)
    exact (linkSound_iff _).mpr ⟨⟨inbound.places, inbound.held, inbound.free⟩, notices, allowed,
      fun hheld => absurd (awake.symm.trans hheld) nofun⟩
  | restarted fields =>
    exact (linkSound_iff _).mpr ⟨⟨Nat.zero_le _, nofun, fun _ => rfl⟩, ⟨Nat.zero_le _, Nat.zero_le _⟩, nofun, fun _ => rfl⟩
  | clearing target free =>
    exact linkSound_of_background hu ((background_settleBanks _).trans (background_presentAccess _ _)) notices
  | installed c stack p ticket running between fewer =>
    refine linkSound_of_work ?_ (background_install _) (install_linkWork _)
    exact hu
  | stopping fields running =>
    obtain ⟨hheld, hsvc, -⟩ := stopped_blocks u
    obtain ⟨taken, shorter, ts, moves, -⟩ := stopped_linkWork u
    have kept := moves.background
    have hin : (u.abandonRun.stopRun.closeAll .runStopped).link.inbound = u.link.inbound := congrArg (·.2.2.1) kept
    have hout : (u.abandonRun.stopRun.closeAll .runStopped).link.holdOut = u.link.holdOut := congrArg (·.2.2.2.1) kept
    have hlevel : (u.abandonRun.stopRun.closeAll .runStopped).link.level = u.link.level := congrArg (·.2.2.2.2) kept
    have bounded : (u.abandonRun.stopRun.closeAll .runStopped).link.NoticesBounded :=
      moves.noticesBounded ⟨shorter.trans notices.1, notices.2⟩
    refine linkSound_reply ((linkSound_iff _).mpr ⟨⟨?_, ?_, ?_⟩, bounded, ⟨?_, ?_⟩⟩) _ _
    · rw [hin]
      exact inbound.places
    · rw [hin, hout]
      exact inbound.held
    · rw [hin, hout]
      exact inbound.free
    · rw [hlevel, hsvc]
      exact level.pin
    · rw [hheld, hlevel]
      exact level.held
  | _ => exact hu

theorem linkSound_accessMove {s v : State} (hs : s.linkSound) (h : AccessMove s v) : v.linkSound := by
  cases h with
  | cleared w clear =>
    obtain ⟨payload, regions, he, -⟩ := clearDone_cases s w
    rw [he]
    exact hs
  | _ => exact hs

theorem linkSound_happens {s u : State} {c : Instr} (hs : s.linkSound) (awake : s.held = false) (h : Happens s c u) :
    u.linkSound := by
  obtain ⟨inbound, notices, level⟩ := (linkSound_iff s).mp hs
  cases h with
  | refreshed =>
    rcases refreshed_cases s with ⟨st, he, -⟩ | ⟨left, st, -, -, he⟩ <;> rw [he]
    · exact hs
    · have quiet : ({ s with
          store := st.toReady, modeCtl := { s.modeCtl with mode := .steady .quiet } } : State).linkSound := hs
      exact linkSound_of_work quiet (background_offer _ _) (offer_linkWork _ _)
  | accessed bank row k opened granted inside =>
    have did : (s.performed bank k).linkSound := hs
    have given : ((s.performed bank k).giveResult k.use
        (s.store.mem.perform s.store.coldEpoch k.row k.op).2).linkSound := by
      rcases giveResult_cases (s.performed bank k) k.use (s.store.mem.perform s.store.coldEpoch k.row k.op).2 with
        ⟨v, hv, he⟩ | hm
      · rw [he]
        exact linkSound_of_work did ((background_checkLine v).trans hv.background)
          ((worked_linkWork hv).trans (checkLine_linkWork v))
      · exact linkSound_accessMove did hm
    exact given
  | received c bytes =>
    exact receive_keeps (P := fun l => ({ s with link := l } : State).linkSound)
      (fun l b hl => linkSound_receiveByte (s := { s with link := l }) hl b) bytes s.link hs
  | timedOut =>
    obtain ⟨r, h | ⟨kind, tag, status, h⟩⟩ := timeout_cases s.link <;> rw [h]
    · exact linkSound_receiver hs r
    · exact linkSound_reject (linkSound_receiver hs r) kind tag status
  | sent =>
    obtain ⟨x, replies, queued, h, -, shorter⟩ := sent_eq s.link
    rw [h]
    exact (linkSound_iff _).mpr ⟨⟨inbound.places, inbound.held, inbound.free⟩, ⟨shorter.trans notices.1, notices.2⟩,
      level.pin, level.held⟩
  | pinFell operator =>
    refine (linkSound_iff _).mpr ⟨inbound, notices, fun hl => ?_, level.held⟩
    exact absurd (operator.symm.trans hl) nofun
  | levelFell service =>
    have fallen : ({ s with svc := false, link := { s.link with level := .operator } } : State).linkSound :=
      (linkSound_iff _).mpr ⟨⟨inbound.places, inbound.held, inbound.free⟩, notices, nofun, fun _ => rfl⟩
    have done := linkSound_of_work fallen (background_offer _ .levelDrop) (offer_linkWork _ .levelDrop)
    exact done
  | itemTaken item rest powered between queue =>
    have taken : ({ s with port := { s.port with queue := rest } } : State).linkSound := hs
    have done := linkSound_of_work taken (background_takeItem _ item) (takeItem_linkWork _ item)
    exact done
  | modeChanged source target mode done =>
    unfold State.changed State.replyMode
    simp only
    split <;> exact hs
  | committed n runs working =>
    exact linkSound_of_work hs ((background_checkLine _).trans (background_commitLine s n runs))
      ((commitLine_linkWork s n runs).trans (checkLine_linkWork _))
  | requested c kind r rest u known takes served =>
    obtain ⟨-, queue, -⟩ := takes
    have taken : (s.taken r rest).linkSound :=
      (linkSound_iff _).mpr ⟨inboundSound_take inbound queue, notices, level.pin, level.held⟩
    exact linkSound_served taken awake served
  | _ => exact hs

theorem linkSound_becomes {s t : State} {c : Instr} (hs : s.linkSound) (h : Becomes s c t) : t.linkSound := by
  obtain ⟨inbound, notices, level⟩ := (linkSound_iff s).mp hs
  cases h with
  | coldReset =>
    exact (linkSound_iff _).mpr ⟨⟨Nat.zero_le _, nofun, fun _ => rfl⟩, ⟨Nat.zero_le _, Nat.zero_le _⟩, nofun, fun _ => rfl⟩
  | released bsel1 bsel0 held =>
    exact (linkSound_iff _).mpr ⟨⟨inbound.places, inbound.held, inbound.free⟩, notices, level.pin, nofun⟩
  | pinFell held =>
    refine (linkSound_iff _).mpr ⟨inbound, notices, fun hl => ?_, level.held⟩
    exact absurd ((level.held held).symm.trans hl) nofun
  | settled c u awake happens =>
    have done := linkSound_happens hs awake happens
    refine linkSound_of_background done (background_settleLink u) ?_
    obtain ⟨-, -, -, -, -, -, hnotices, hdrops, -⟩ := settleLink_link_keeps u
    unfold Link.NoticesBounded
    rw [hnotices, hdrops]
    exact ((linkSound_iff u).mp done).2.1
  | _ => exact hs

/-- Settles O56, over what each command can come to. -/
theorem everyStepKeepsLinkSound : Obligations.EveryStepKeepsLinkSound :=
  step_keeps (fun _ _ hs => hs) fun _ _ _ => linkSound_becomes

end Sys2Proof.Machine
end

section
/-! SUPPORT. The reserved reply entries against the requests under way (R182, R183, R184). -/

namespace Sys2Proof.Machine

-- The requests under way

/-- The request of a mode change in flight (R196). -/
def ModeCtl.owed (m : ModeCtl) : List Ticket :=
  match m.ticket with
  | some t => [t]
  | none => []

/-- The requests of the access unit: a CLEAR's, a READ's or WRITE's (R39, R166, R169). -/
def Access.owed (a : Access) : List Ticket :=
  (match a.clear with | some w => [w.ticket] | none => [])
    ++ (match a.st with | .reading t _ _ => [t.ticket] | .writing t _ => [t.ticket] | .idle => [])

theorem tickets_eq (s : State) : s.tickets = s.run.owed ++ s.modeCtl.owed ++ s.access.owed :=
  List.append_assoc _ _ _

/-- What entriesSound says, with some requests accepted and not yet answered or under way (R182, R184). -/
structure State.Entries (extra : List Ticket) (s : State) : Prop where
  owes : s.link.Owes (extra ++ s.tickets)
  executing : s.link.executor = .executing ↔ s.access.st ≠ .idle
  changing : s.modeCtl.mode.isChanging = true ↔ s.modeCtl.ticket.isSome = true

theorem entriesSound_iff (s : State) : s.entriesSound ↔ s.Entries [] :=
  ⟨fun ⟨reserved, fit, executing, changing⟩ => ⟨⟨reserved, fit⟩, executing, changing⟩,
    fun ⟨⟨reserved, fit⟩, executing, changing⟩ => ⟨reserved, fit, executing, changing⟩⟩

theorem owes_perm {l : Link} {ts us : List Ticket} (h : l.Owes ts) (p : ts.Perm us) : l.Owes us := ⟨h.1.trans p, h.2⟩

theorem tickets_congr {s t : State} (hr : t.run.next = s.run.next) (hm : t.modeCtl.ticket = s.modeCtl.ticket)
    (ha : t.access.owed = s.access.owed) : t.tickets = s.tickets := by
  rw [tickets_eq, tickets_eq, ha]
  unfold Run.owed ModeCtl.owed
  rw [hr, hm]

theorem entries_congr {extra : List Ticket} {s t : State} (hs : s.Entries extra) (hl : t.link = s.link)
    (hr : t.run.next = s.run.next) (hm : t.modeCtl = s.modeCtl) (ha : t.access = s.access) : t.Entries extra := by
  refine ⟨?_, ?_, ?_⟩
  · rw [hl, tickets_congr hr (congrArg ModeCtl.ticket hm) (congrArg Access.owed ha)]
    exact hs.owes
  · rw [hl, ha]
    exact hs.executing
  · rw [hm]
    exact hs.changing

/-- The entries stay as they are while the rest of the link moves (R184). -/
theorem entries_link {extra : List Ticket} {s : State} (hs : s.Entries extra) {l : Link}
    (hr : l.reserved = s.link.reserved) (hf : l.replies.length ≤ s.link.replies.length)
    (hx : l.executor = .executing ↔ s.link.executor = .executing) : ({ s with link := l } : State).Entries extra := by
  obtain ⟨⟨reserved, fit⟩, executing, changing⟩ := hs
  refine ⟨⟨hr.symm ▸ reserved, ?_⟩, hx.trans executing, changing⟩
  show l.replies.length + l.reserved.length ≤ 8
  rw [hr]
  omega

/-- The reply of an accepted request fills its entry (R184). -/
theorem entries_reply {extra : List Ticket} {s : State} {t : Ticket} (hs : s.Entries (t :: extra)) (p : List Byte) :
    (s.reply t p).Entries extra := ⟨owes_reply hs.owes p, hs.executing, hs.changing⟩

/-- Work on a run or an item answers a pending context's request where it installs it (R61). -/
theorem entries_of_work {extra : List Ticket} {s t : State} (hs : s.Entries extra) (hw : s.LinkWork t)
    (hm : t.modeCtl = s.modeCtl) (ha : t.access = s.access) : t.Entries extra := by
  obtain ⟨ts, moves, owed⟩ := hw
  obtain ⟨owes, executing, changing⟩ := hs
  refine ⟨moves.owes (owes_perm owes ?_), ?_, ?_⟩
  · rw [tickets_eq, tickets_eq, owed, hm, ha]
    simp only [List.append_assoc]
    rw [← List.append_assoc, ← List.append_assoc ts]
    exact List.perm_append_comm.append_right _
  · rw [moves.executor, ha]
    exact executing
  · rw [hm]
    exact changing

-- The access unit

theorem access_owed_of_st {a : Access} (hst : a.st = .idle) :
    a.owed = match a.clear with | some w => [w.ticket] | none => [] := by
  unfold Access.owed
  rw [hst]
  exact List.append_nil _

theorem entries_accessMove {s v : State} (hs : s.Entries []) (h : AccessMove s v) : v.Entries [] := by
  have done : ∀ (x : Transfer) (payload : List Byte), s.access.st ≠ .idle →
      s.tickets.Perm (x.ticket :: (s.transferDone x payload).tickets) → (s.transferDone x payload).Entries [] := by
    intro x payload busy fewer
    have idle : ({ s with
        access := { s.access with st := .idle, selection := s.access.selection.map (Selection.moveTo x.cursor) }
        link := { s.link with executor := .idle } } : State).Entries [x.ticket] :=
      ⟨owes_perm hs.owes fewer, ⟨nofun, fun h => absurd rfl h⟩, hs.changing⟩
    exact entries_reply idle _
  have last : ∀ (x : Transfer) (payload : List Byte), s.access.owed = (match s.access.clear with
      | some w => [w.ticket] | none => []) ++ [x.ticket] →
        s.tickets.Perm (x.ticket :: (s.transferDone x payload).tickets) := by
    intro x payload owed
    rw [tickets_eq s, tickets_eq (s.transferDone x payload),
      access_owed_of_st (a := (s.transferDone x payload).access) rfl, owed, ← List.append_assoc]
    exact List.perm_append_singleton _ _
  cases h with
  | none => exact hs
  | nextRow w next k clear ticket =>
    refine ⟨?_, hs.executing, hs.changing⟩
    have same : ({ s.access with clear := some next } : Access).owed = s.access.owed := by
      unfold Access.owed
      rw [clear]
      simp only [ticket]
    have tickets : (({ s with access := { s.access with clear := some next } } : State).presentAccess k).tickets
        = s.tickets := tickets_congr rfl rfl same
    rw [tickets]
    exact hs.owes
  | cleared w clear =>
    obtain ⟨payload, regions, he, -⟩ := clearDone_cases s w
    rw [he]
    have free : ({ s with access := { s.access with clear := none }, regions := regions } : State).Entries [w.ticket] := by
      refine ⟨owes_perm hs.owes ?_, hs.executing, hs.changing⟩
      show s.tickets.Perm ([w.ticket] ++ State.tickets _)
      rw [tickets_eq, tickets_eq]
      unfold Access.owed
      rw [clear]
      exact List.perm_middle
    exact entries_reply free payload
  | nextRead x more wide sofar values k reading =>
    have same : ({ s.access with st := .reading { x with claims := more } wide values } : Access).owed = s.access.owed := by
      unfold Access.owed
      rw [reading]
    have tickets : (({ s with access := { s.access with
        st := .reading { x with claims := more } wide values } } : State).presentAccess k).tickets = s.tickets :=
      tickets_congr rfl rfl same
    refine ⟨?_, ⟨fun _ => nofun, fun _ => hs.executing.mpr (by rw [reading]; nofun)⟩, hs.changing⟩
    rw [tickets]
    exact hs.owes
  | nextWrite x more sofar count k writing =>
    have same : ({ s.access with st := .writing { x with claims := more } count } : Access).owed = s.access.owed := by
      unfold Access.owed
      rw [writing]
    have tickets : (({ s with access := { s.access with
        st := .writing { x with claims := more } count } } : State).presentAccess k).tickets = s.tickets :=
      tickets_congr rfl rfl same
    refine ⟨?_, ⟨fun _ => nofun, fun _ => hs.executing.mpr (by rw [writing]; nofun)⟩, hs.changing⟩
    rw [tickets]
    exact hs.owes
  | wasRead x wide sofar payload reading =>
    refine done x payload (by rw [reading]; nofun) (last x payload ?_)
    unfold Access.owed
    rw [reading]
  | wasWritten x sofar payload writing =>
    refine done x payload (by rw [writing]; nofun) (last x payload ?_)
    unfold Access.owed
    rw [writing]

-- The requests

theorem install_modeCtl (s : State) : s.install.modeCtl = s.modeCtl := congrArg Background.modeCtl (background_install s)

/-- An accepted request has an entry of its own, and the access unit is at rest (R182). -/
theorem entries_taken {s : State} {kind : Byte} {r : Request} {rest : List Request} (hs : s.Entries [])
    (h : s.Takes kind r rest) : (s.taken r rest).Entries [r.ticket] ∧ s.access.st = .idle := by
  obtain ⟨-, -, -, waits, -, free⟩ := h
  obtain ⟨⟨reserved, -⟩, executing, changing⟩ := hs
  refine ⟨⟨⟨?_, ?_⟩, executing, changing⟩, Classical.byContradiction fun busy => waits (executing.mpr busy)⟩
  · exact (reserved.append_right [r.ticket]).trans List.perm_append_comm
  · have room : s.link.replies.length + s.link.reserved.length < 8 := of_decide_eq_true free
    show s.link.replies.length + (s.link.reserved ++ [r.ticket]).length ≤ 8
    rw [List.length_append, List.length_singleton]
    omega

/-- A mode that is not changing has no change's request (R196). -/
theorem modeCtl_owed_nil {extra : List Ticket} {s : State} (hs : s.Entries extra)
    (still : s.modeCtl.mode.isChanging = false) : s.modeCtl.owed = [] := by
  unfold ModeCtl.owed
  cases ht : s.modeCtl.ticket with
  | none => rfl
  | some t =>
    have := hs.changing.mpr (by rw [ht]; rfl)
    rw [still] at this
    cases this

/-- A run that is not DRAINING has no pending context (R54). -/
theorem run_owed_nil {s : State} (hs : s.runSound) (h : s.run.st ≠ .draining) : s.run.owed = [] := by
  unfold Run.owed
  cases hn : s.run.next with
  | none => rfl
  | some p => exact absurd (hs.1.mp (by rw [hn]; rfl)) h

/-- The request that pends a context becomes its request (R58). -/
theorem entries_pended {u : State} {r : Request} (hu : u.Entries [r.ticket]) (sound : u.runSound)
    (running : u.run.st = .running) (stack : List Context) {p : PendingContext} (ticket : p.ticket = r.ticket) :
    ({ u with run := { u.run with stack := stack, st := .draining, next := some p } } : State).Entries [] := by
  have nothing := run_owed_nil sound (by rw [running]; nofun)
  have same : ({ u with run := { u.run with stack := stack, st := .draining, next := some p } } : State).tickets
      = [r.ticket] ++ u.tickets := by
    rw [tickets_eq, tickets_eq u, nothing, ← ticket]
    rfl
  refine ⟨?_, hu.executing, hu.changing⟩
  rw [same]
  exact hu.owes

theorem entries_transfer {u v : State} {r : Request} {x : Transfer} {st : AccessState} (hu : u.Entries [r.ticket])
    (idle : u.access.st = .idle) (hst : (∃ wide values, st = .reading x wide values) ∨ ∃ n, st = .writing x n)
    (ticket : x.ticket = r.ticket) (hv : v.access = { u.access with st := st }) (hr : v.run = u.run)
    (hm : v.modeCtl = u.modeCtl) (hl : v.link = { u.link with executor := .executing }) : v.Entries [] := by
  have owed : v.access.owed = u.access.owed ++ [r.ticket] := by
    rw [hv, access_owed_of_st idle, ← ticket]
    rcases hst with ⟨wide, values, rfl⟩ | ⟨n, rfl⟩ <;> rfl
  have busy : v.access.st ≠ .idle := by
    rw [hv]
    rcases hst with ⟨wide, values, rfl⟩ | ⟨n, rfl⟩ <;> nofun
  have tickets : v.tickets = u.tickets ++ [r.ticket] := by
    rw [tickets_eq v, tickets_eq u, hr, hm, owed, List.append_assoc _ u.access.owed]
  refine ⟨?_, ?_, ?_⟩
  · rw [hl, tickets]
    exact owes_perm hu.owes List.perm_append_comm
  · rw [hl]
    exact ⟨fun _ => busy, fun _ => rfl⟩
  · rw [hm]
    exact hu.changing

theorem entries_served {u v : State} {r : Request} {c : Instr} (hu : u.Entries [r.ticket]) (sound : u.runSound)
    (idle : u.access.st = .idle) (still : c = .restart → u.modeCtl.mode.isChanging = false) (h : Served u r c v) :
    v.Entries [] := by
  have answered : ∀ {w : State} {p : List Byte}, w.Entries [r.ticket] → (w.reply r.ticket p).Entries [] :=
    fun hw => entries_reply hw _
  cases h with
  | refused c status => exact answered hu
  | reported c fields => exact answered hu
  | levelRefused risen status => exact answered ⟨hu.owes, hu.executing, hu.changing⟩
  | levelSet risen level pin => exact answered ⟨hu.owes, hu.executing, hu.changing⟩
  | restarted fields =>
    refine answered ⟨⟨?_, ?_⟩, ⟨nofun, fun h => absurd rfl h⟩, hu.changing⟩
    · have rest : (u.restarted r.ticket).tickets = [] ++ u.modeCtl.owed ++ [] := tickets_eq _
      rw [rest, modeCtl_owed_nil hu (still rfl)]
      exact List.Perm.refl _
    · show 0 + 1 ≤ 8
      decide
  | changing source target mode other passed =>
    have nothing := modeCtl_owed_nil hu (by rw [mode]; rfl)
    refine ⟨owes_perm hu.owes ?_, hu.executing, ⟨fun _ => rfl, fun _ => rfl⟩⟩
    have started : (u.startChange source target r.ticket).tickets = u.run.owed ++ [r.ticket] ++ u.access.owed :=
      tickets_eq _
    rw [started, tickets_eq u, nothing, List.nil_append, List.append_nil, List.append_assoc]
    exact (List.perm_middle (a := r.ticket) (l₁ := u.run.owed)).symm
  | geometryFixed g fields free => exact answered ⟨hu.owes, hu.executing, hu.changing⟩
  | defined index n fields range rows fixed free inside whole apart => exact answered ⟨hu.owes, hu.executing, hu.changing⟩
  | removed index selection fields => exact answered ⟨hu.owes, hu.executing, hu.changing⟩
  | clearing target free =>
    have before : u.access.owed = [] := by
      rw [access_owed_of_st idle, free]
    have after : ({ u.access with clear := some (u.clearWork r target) } : Access).owed = [r.ticket] :=
      access_owed_of_st idle
    refine ⟨owes_perm hu.owes ?_, hu.executing, hu.changing⟩
    have started : (u.startClear (u.clearWork r target)).tickets
        = u.run.owed ++ u.modeCtl.owed ++ ({ u.access with clear := some (u.clearWork r target) } : Access).owed :=
      tickets_eq _
    rw [started, tickets_eq u, before, after, List.append_nil]
    exact List.perm_append_comm
  | selected c selection fields => exact answered ⟨hu.owes, hu.executing, hu.changing⟩
  | reading first rest cursor wrapped wide =>
    exact entries_transfer hu idle (.inl ⟨wide, [], rfl⟩) rfl rfl rfl rfl rfl
  | writing first rest cursor wrapped => exact entries_transfer hu idle (.inr ⟨0, rfl⟩) rfl rfl rfl rfl rfl
  | adopted c stack context fields fewer => exact answered ⟨hu.owes, hu.executing, hu.changing⟩
  | pended c stack p ticket running fewer => exact entries_pended hu sound running stack ticket
  | installed c stack p ticket running between fewer =>
    have pended := entries_pended hu sound running stack ticket
    exact entries_of_work pended (install_linkWork _) (install_modeCtl _) (install_frame _).access
  | pushed fields room => exact answered ⟨hu.owes, hu.executing, hu.changing⟩
  | started trigger limit fields powered stopped => exact answered ⟨hu.owes, hu.executing, hu.changing⟩
  | stopping fields running =>
    obtain ⟨-, -, -, -, hmode, haccess, -⟩ := stopped_blocks u
    obtain ⟨notices, -, work⟩ := stopped_linkWork u
    have taken : ({ u with link := { u.link with notices := notices } } : State).Entries [r.ticket] :=
      ⟨hu.owes, hu.executing, hu.changing⟩
    exact answered (entries_of_work taken work hmode haccess)
  | historyMarked c hold unstored fields => exact answered ⟨hu.owes, hu.executing, hu.changing⟩

-- The receiver

theorem entries_receiver {s : State} (hs : s.Entries []) (r : Receiver) :
    ({ s with link := { s.link with receiver := r } } : State).Entries [] := ⟨hs.owes, hs.executing, hs.changing⟩

theorem entries_reject {s : State} (hs : s.Entries []) (kind tag : Byte) (status : Status) :
    ({ s with link := s.link.reject kind tag status } : State).Entries [] := by
  rcases reject_cases s.link kind tag status with h | ⟨m, h, room⟩ <;> rw [h]
  · exact hs
  · refine ⟨⟨hs.owes.1, ?_⟩, hs.executing, hs.changing⟩
    show (s.link.replies ++ [m]).length + s.link.reserved.length ≤ 8
    rw [List.length_append, List.length_singleton]
    omega

theorem entries_receiveByte {s : State} (hs : s.Entries []) (b : Byte) :
    ({ s with link := s.link.receiveByte b } : State).Entries [] := by
  obtain ⟨r, h | ⟨kind, tag, status, h⟩ | ⟨q, -, h⟩⟩ := receiveByte_cases s.link b <;> rw [h]
  · exact entries_receiver hs r
  · exact entries_reject (entries_receiver hs r) kind tag status
  · exact ⟨hs.owes, hs.executing, hs.changing⟩

-- The steps

theorem entries_happens {s u : State} {c : Instr} (sound : s.runSound) (hs : s.Entries []) (h : Happens s c u) :
    u.Entries [] := by
  cases h with
  | refreshed =>
    rcases refreshed_cases s with ⟨st, he, -⟩ | ⟨left, st, work, -, he⟩ <;> rw [he]
    · exact ⟨hs.owes, hs.executing, hs.changing⟩
    · have starting : s.modeCtl.mode = .starting := ((runSound_iff s).mp sound).2.startUp (.inr ⟨left, work⟩)
      have quiet : ({ s with
          store := st.toReady, modeCtl := { s.modeCtl with mode := .steady .quiet } } : State).Entries [] := by
        refine ⟨hs.owes, hs.executing, ⟨nofun, fun ht => ?_⟩⟩
        have := hs.changing.mpr ht
        rw [starting] at this
        cases this
      exact entries_of_work quiet (offer_linkWork _ _) rfl rfl
  | accessed bank row k opened granted inside =>
    have did : (s.performed bank k).Entries [] := ⟨hs.owes, hs.executing, hs.changing⟩
    have given : ((s.performed bank k).giveResult k.use
        (s.store.mem.perform s.store.coldEpoch k.row k.op).2).Entries [] := by
      rcases giveResult_cases (s.performed bank k) k.use (s.store.mem.perform s.store.coldEpoch k.row k.op).2 with
        ⟨v, hv, he⟩ | hm
      · rw [he]
        exact entries_of_work did ((worked_linkWork hv).trans (checkLine_linkWork v))
          (congrArg Background.modeCtl ((background_checkLine v).trans hv.background))
          ((checkLine_frame v).access.trans hv.access)
      · exact entries_accessMove did hm
    exact entries_congr given rfl rfl rfl rfl
  | received c bytes =>
    exact receive_keeps (P := fun l => ({ s with link := l } : State).Entries [])
      (fun l b hl => entries_receiveByte (s := { s with link := l }) hl b) bytes s.link hs
  | timedOut =>
    obtain ⟨r, h | ⟨kind, tag, status, h⟩⟩ := timeout_cases s.link <;> rw [h]
    · exact entries_receiver hs r
    · exact entries_reject (entries_receiver hs r) kind tag status
  | sent =>
    obtain ⟨x, replies, queued, h, fewer, -⟩ := sent_eq s.link
    rw [h]
    exact entries_link hs rfl fewer Iff.rfl
  | levelFell service =>
    have fallen : ({ s with svc := false, link := { s.link with level := .operator } } : State).Entries [] :=
      ⟨hs.owes, hs.executing, hs.changing⟩
    have done := entries_of_work fallen (offer_linkWork _ .levelDrop) rfl rfl
    exact done
  | itemTaken item rest powered between queue =>
    obtain ⟨hb, -, -, -, -, ha⟩ := takeItem_frame { s with port := { s.port with queue := rest } } item
    have taken : ({ s with port := { s.port with queue := rest } } : State).Entries [] :=
      ⟨hs.owes, hs.executing, hs.changing⟩
    have done := entries_of_work taken (takeItem_linkWork _ item) (congrArg Background.modeCtl hb) ha
    exact entries_congr done rfl rfl rfl rfl
  | modeChanged source target mode done =>
    have pending : s.modeCtl.ticket.isSome = true := hs.changing.mp (by rw [mode]; rfl)
    obtain ⟨t, ht⟩ := Option.isSome_iff_exists.mp pending
    have changed : s.changed target = ({ s with
        modeCtl := ⟨.steady target, none⟩, port := s.port.powerUp target } : State).reply t
          [Status.ok.code, (Mode.steady target).code] := by
      unfold State.changed State.replyMode
      simp only [ht]
      rfl
    have owed : s.modeCtl.owed = [t] := by
      unfold ModeCtl.owed
      rw [ht]
    have steady : ({ s with
        modeCtl := ⟨.steady target, none⟩, port := s.port.powerUp target } : State).Entries [t] := by
      refine ⟨owes_perm hs.owes ?_, hs.executing, ⟨nofun, nofun⟩⟩
      rw [tickets_eq s, owed, tickets_eq]
      show (s.run.owed ++ [t] ++ s.access.owed).Perm ([t] ++ (s.run.owed ++ [] ++ s.access.owed))
      rw [List.append_nil, List.append_assoc]
      exact List.perm_middle
    rw [changed]
    exact entries_reply steady _
  | committed n runs working =>
    have modeCtl : (s.commitLine n runs).checkLine.modeCtl = s.modeCtl :=
      congrArg Background.modeCtl ((background_checkLine _).trans (background_commitLine s n runs))
    exact entries_of_work hs ((commitLine_linkWork s n runs).trans (checkLine_linkWork _)) modeCtl (checkLine_frame _).access
  | requested c kind r rest u known takes served =>
    obtain ⟨taken, idle⟩ := entries_taken hs takes
    have runs : (s.taken r rest).runSound := sound
    refine entries_served taken runs idle (fun hc => ?_) served
    have still : exemptKind kind = false := by
      subst hc
      cases known
      decide
    have changing : s.modeCtl.mode.isChanging = false := not_changing_of_takes takes still
    exact changing
  | _ => exact ⟨hs.owes, hs.executing, hs.changing⟩

theorem settleLink_executing (s : State) :
    s.settleLink.link.executor = .executing ↔ s.link.executor = .executing := by
  constructor
  · exact fun h => Classical.byContradiction fun hn => settleLink_not_executing hn h
  · intro h
    obtain ⟨x, hx⟩ := startSending_eq s.link
    show (s.link.consider s.modeCtl.mode).startSending.executor = _
    rw [consider_executing h, hx]
    exact h

theorem entries_becomes {s t : State} {c : Instr} (sound : s.runSound) (hs : s.Entries []) (h : Becomes s c t) :
    t.Entries [] := by
  cases h with
  | coldReset => exact ⟨⟨List.Perm.refl _, Nat.zero_le _⟩, ⟨nofun, fun h => absurd rfl h⟩, ⟨nofun, nofun⟩⟩
  | released bsel1 bsel0 held =>
    have starting : s.modeCtl.mode = .starting := ((runSound_iff s).mp sound).2.held held
    exact ⟨hs.owes, hs.executing, starting ▸ hs.changing⟩
  | settled c u awake happens =>
    have done := entries_happens sound hs happens
    obtain ⟨-, -, -, -, hreserved, hreplies, -⟩ := settleLink_link_keeps u
    exact entries_link done hreserved (Nat.le_of_eq (congrArg List.length hreplies)) (settleLink_executing u)
  | _ => exact ⟨hs.owes, hs.executing, hs.changing⟩

/-- Settles O60, over what each command can come to; that the run stays sound is O58. -/
theorem everyStepKeepsEntriesSound : Obligations.EveryStepKeepsEntriesSound := by
  intro s t sound entries h
  have kept := step_keeps (P := fun s => s.runSound ∧ s.Entries []) (fun _ _ ⟨sound, hs⟩ =>
      ⟨sound, hs.owes, hs.executing, hs.changing⟩) (fun c s t ⟨sound, entries⟩ h => ⟨runSound_becomes sound h, entries_becomes sound entries h⟩)
    s t ⟨sound, (entriesSound_iff s).mp entries⟩ h
  exact (entriesSound_iff t).mpr kept.2

end Sys2Proof.Machine
end

section
/-! SUPPORT. The line slots that the filling line, the queued LINE items and the LINE item in hand name (R75, R81). -/

namespace Sys2Proof.Machine

-- What names a slot

/-- The slot of the filling line (R75). -/
def PortState.named : PortState → List (Fin 4)
  | .filling _ slot => [slot]
  | .off | .waitTrig | .ready | .discarding => []

/-- The slot of a LINE item (R81). -/
def QueueItem.named : QueueItem → List (Fin 4)
  | .line _ slot => [slot]
  | .loss _ _ _ => []

/-- The slot of the LINE item in hand (R86). -/
def EngineState.named : EngineState → List (Fin 4)
  | .line w => [w.slot]
  | .idle | .between | .loss _ _ _ => []

/-- The slots named by the filling line, by these items and by the item in hand. -/
def slotsNamed (port : PortState) (queue : List QueueItem) (engine : EngineState) : List (Fin 4) :=
  port.named ++ queue.flatMap QueueItem.named ++ engine.named

theorem slotsInUse_eq (s : State) : s.slotsInUse = slotsNamed s.port.st s.port.queue s.engine.st := by
  unfold State.slotsInUse slotsNamed
  refine congrArg₂ _ (congrArg₂ _ ?_ (congrArg (fun f => s.port.queue.flatMap f) (funext fun i => ?_))) ?_
  · cases s.port.st <;> rfl
  · cases i <;> rfl
  · cases s.engine.st <;> rfl

theorem placeLoss_named (n : Word) (reason : Reasons) (queue : List QueueItem) :
    (placeLoss n reason queue).flatMap QueueItem.named = queue.flatMap QueueItem.named := by
  fun_induction placeLoss n reason queue with
  | case1 => rfl
  | case2 => rfl
  | case3 => rfl
  | case4 item rest last ih => rw [List.flatMap_cons, List.flatMap_cons, ih]

theorem SameItem.named {a b : EngineState} (h : a.SameItem b) : b.named = a.named := by
  rcases h with rfl | ⟨w, w', rfl, rfl, slot⟩
  · rfl
  · exact congrArg (fun i => [i]) slot

-- Slots that are named once and held

/-- No slot is named twice, and every one is held (R75). -/
def SlotsHeld (slots : Four (Option (List Sample))) (l : List (Fin 4)) : Prop :=
  l.Nodup ∧ ∀ i ∈ l, (slots.get i).isSome = true

theorem slotsSound_iff (s : State) :
    s.slotsSound ↔ SlotsHeld s.port.slots (slotsNamed s.port.st s.port.queue s.engine.st) := by
  unfold State.slotsSound
  rw [slotsInUse_eq]
  rfl

theorem slotsHeld_nil (slots : Four (Option (List Sample))) : SlotsHeld slots [] := ⟨List.nodup_nil, nofun⟩

theorem slotsHeld_perm {slots : Four (Option (List Sample))} {l m : List (Fin 4)} (h : SlotsHeld slots l)
    (p : l.Perm m) : SlotsHeld slots m := ⟨p.nodup_iff.mp h.1, fun i hi => h.2 i (p.mem_iff.mpr hi)⟩

theorem slotsHeld_sublist {slots : Four (Option (List Sample))} {l m : List (Fin 4)} (h : SlotsHeld slots l)
    (p : m.Sublist l) : SlotsHeld slots m := ⟨h.1.sublist p, fun i hi => h.2 i (p.subset hi)⟩

/-- A slot that is freed is named no more (R77, R78, R81). -/
theorem slotsHeld_free {slots : Four (Option (List Sample))} {l : List (Fin 4)} {i : Fin 4} (h : SlotsHeld slots (i :: l)) :
    SlotsHeld (slots.set i none) l := by
  obtain ⟨fresh, nodup⟩ := List.nodup_cons.mp h.1
  refine ⟨nodup, fun j hj => ?_⟩
  have other : j ≠ i := fun hji => fresh (hji ▸ hj)
  rw [Four.get_set, if_neg other]
  exact h.2 j (List.mem_cons_of_mem _ hj)

/-- Samples stored in a slot leave every named slot held (R76). -/
theorem slotsHeld_store {slots : Four (Option (List Sample))} {l : List (Fin 4)} (h : SlotsHeld slots l) (i : Fin 4)
    (samples : List Sample) : SlotsHeld (slots.set i (some samples)) l := by
  refine ⟨h.1, fun j hj => ?_⟩
  rw [Four.get_set]
  split
  · rfl
  · exact h.2 j hj

/-- A line fills a free slot (R75). -/
theorem slotsHeld_fill {slots : Four (Option (List Sample))} {l : List (Fin 4)} {i : Fin 4} (h : SlotsHeld slots l)
    (free : slots.get i = none) (samples : List Sample) : SlotsHeld (slots.set i (some samples)) (i :: l) := by
  have fresh : i ∉ l := fun hi => by
    have := h.2 i hi
    rw [free] at this
    cases this
  obtain ⟨nodup, held⟩ := slotsHeld_store h i samples
  refine ⟨List.nodup_cons.mpr ⟨fresh, nodup⟩, fun j hj => ?_⟩
  rcases List.mem_cons.mp hj with rfl | hj
  · rw [Four.get_set, if_pos rfl]
    rfl
  · exact held j hj

theorem slotsSound_congr {s t : State} (hs : s.slotsSound) (hp : t.port.st = s.port.st)
    (hl : t.port.slots = s.port.slots) (hq : t.port.queue = s.port.queue) (he : t.engine.st.named = s.engine.st.named) :
    t.slotsSound := by
  rw [slotsSound_iff] at hs ⊢
  unfold slotsNamed at hs ⊢
  rw [hp, hl, hq, he]
  exact hs

/-- With the port at rest and no item in hand no slot is named. -/
theorem slotsSound_cleared {t : State} (hp : t.port.st.named = []) (hq : t.port.queue = [])
    (he : t.engine.st.named = []) : t.slotsSound := by
  rw [slotsSound_iff]
  unfold slotsNamed
  rw [hp, hq, he]
  exact slotsHeld_nil _

-- The port

theorem get_lowestFree {slots : Four (Option (List Sample))} {i : Fin 4} (h : lowestFree slots = some i) :
    slots.get i = none := by
  unfold lowestFree at h
  split at h
  · cases h
    assumption
  · split at h
    · cases h
      assumption
    · split at h
      · cases h
        assumption
      · split at h
        · cases h
          assumption
        · cases h

/-- A sampling edge moves the slot of the line it begins, ends or loses (R74 to R78). -/
theorem portMove_slots {limit : Word} {pixels : Nat} {p q : Port} (engine : EngineState) (h : PortMove limit pixels p q)
    (hp : SlotsHeld p.slots (slotsNamed p.st p.queue engine)) : SlotsHeld q.slots (slotsNamed q.st q.queue engine) := by
  have lost : ∀ {n : Word} {slot : Fin 4} {reason : Reasons} {st : PortState}, p.st = .filling n slot → st.named = [] →
      SlotsHeld (p.slots.set slot none) (slotsNamed st (placeLoss n reason p.queue) engine) := by
    intro n slot reason st filling rest
    unfold slotsNamed at hp ⊢
    rw [filling] at hp
    rw [rest, placeLoss_named]
    exact slotsHeld_free hp
  have ended : ∀ n, (afterLine limit n).named = [] := by
    intro n
    unfold afterLine
    split <;> rfl
  have dropped : ∀ n, (if lastLine limit n then PortState.off else .discarding).named = [] := by
    intro n
    split <;> rfl
  have long : SlotsHeld (p.longLine limit pixels).slots
      (slotsNamed (p.longLine limit pixels).st (p.longLine limit pixels).queue engine) := by
    unfold Port.longLine
    split
    · rename_i n slot filling
      split
      · exact lost filling (dropped n)
      · exact hp
    all_goals exact hp
  cases h with
  | still => exact hp
  | activated x =>
    unfold Port.activate
    split
    · rename_i guard
      obtain ⟨ready, -⟩ := guard
      unfold slotsNamed at hp
      rw [ready] at hp
      simp only
      split
      · rename_i slot free
        exact slotsHeld_fill hp (get_lowestFree free) [x]
      · unfold slotsNamed
        simp only [dropped, placeLoss_named]
        exact hp
    · exact hp
  | sampled x =>
    unfold Port.takeSample
    split
    · simp only
      split
      · exact slotsHeld_store hp _ _
      · exact long
    all_goals exact hp
  | ended =>
    unfold Port.endLine
    split
    · rename_i n slot filling
      split
      · unfold slotsNamed at hp ⊢
        rw [filling] at hp
        simp only [ended, List.flatMap_append]
        refine slotsHeld_perm hp ?_
        exact List.perm_append_comm.append_right _
      · exact lost filling (ended n)
    · rename_i discarding
      unfold slotsNamed at hp ⊢
      rw [discarding] at hp
      exact hp
    all_goals exact hp
  | overlong => exact long

-- The end of an item

/-- A finished item leaves the slots and the queue, and no item in hand; at the end of the run the port goes OFF (R64,
R86). -/
theorem finishItem_slots (s : State) (count : Nat) (last : Bool) :
    (s.finishItem count last).port.slots = s.port.slots ∧ (s.finishItem count last).port.queue = s.port.queue ∧
      ((s.finishItem count last).port.st = s.port.st ∨ (s.finishItem count last).port.st = .off) ∧
      (s.finishItem count last).engine.st.named = [] := by
  have install : ∀ v : State, v.install.port = v.port ∧ v.install.engine.st = v.engine.st := by
    intro v
    unfold State.install
    split <;> exact ⟨rfl, rfl⟩
  obtain ⟨v, hv, h⟩ := finishItem_cases s count last
  have hport : v.port = s.port := by rw [hv]
  have hengine : v.engine.st = .between := by rw [hv]
  obtain ⟨iport, iengine⟩ := install v
  rcases h with h | h | h <;> rw [h]
  · rw [hport, hengine]
    exact ⟨rfl, rfl, .inl rfl, rfl⟩
  · rw [iport, iengine, hport, hengine]
    exact ⟨rfl, rfl, .inl rfl, rfl⟩
  · refine ⟨?_, ?_, .inr rfl, rfl⟩
    · show v.install.port.slots = s.port.slots
      rw [iport, hport]
    · show v.install.port.queue = s.port.queue
      rw [iport, hport]

/-- A finished item names no slot any more. -/
theorem slotsSound_finishItem {s : State} (hs : SlotsHeld s.port.slots (slotsNamed s.port.st s.port.queue .between))
    (count : Nat) (last : Bool) : (s.finishItem count last).slotsSound := by
  obtain ⟨slots, queue, st, engine⟩ := finishItem_slots s count last
  rw [slotsSound_iff]
  unfold slotsNamed at hs ⊢
  rw [slots, queue, engine]
  rcases st with st | st <;> rw [st]
  · exact hs
  · exact slotsHeld_sublist hs ((List.sublist_append_right _ _).append_right _)

/-- A finished line's slot is freed (R81). -/
theorem slotsSound_finishLine {s : State} {w : LineWork}
    (hs : SlotsHeld s.port.slots (slotsNamed s.port.st s.port.queue (.line w))) : (s.finishLine w).slotsSound := by
  refine slotsSound_finishItem ?_ _ _
  refine slotsHeld_free (slotsHeld_perm hs ?_)
  unfold slotsNamed
  rw [show EngineState.named .between = [] from rfl, List.append_nil]
  exact List.perm_append_singleton _ _

theorem slotsSound_checkLine {s : State} (hs : s.slotsSound) : s.checkLine.slotsSound := by
  rcases checkLine_cases s with h | ⟨w, hw, h⟩ <;> rw [h]
  · exact hs
  · rw [slotsSound_iff, hw] at hs
    exact slotsSound_finishLine hs

/-- A LINE item goes from the head of the queue into hand, with its slot (R86). -/
theorem slotsSound_takeItem {s : State} {item : QueueItem} {rest : List QueueItem} (hs : s.slotsSound)
    (between : s.engine.st = .between) (queue : s.port.queue = item :: rest) :
    (({ s with port := { s.port with queue := rest } } : State).takeItem item).slotsSound := by
  rw [slotsSound_iff, between, queue] at hs
  cases item with
  | line n slot =>
    have moved : ∀ w : LineWork, w.slot = slot → SlotsHeld s.port.slots (slotsNamed s.port.st rest (.line w)) := by
      intro w hw
      refine slotsHeld_perm hs ?_
      unfold slotsNamed
      show (s.port.st.named ++ (slot :: rest.flatMap QueueItem.named) ++ []).Perm
        (s.port.st.named ++ rest.flatMap QueueItem.named ++ [w.slot])
      rw [hw, List.append_nil, List.append_assoc]
      exact (List.perm_append_singleton _ _).symm.append_left _
    show (State.takeLine n slot _).slotsSound
    rcases takeLine_cases { s with port := { s.port with queue := rest } } n slot with
      ⟨w, hw, h⟩ | ⟨e, w, hw, he, h⟩ <;> rw [h]
    · exact slotsSound_finishLine (moved w hw)
    · rw [slotsSound_iff, he]
      exact moved w hw
  | loss first count reasons =>
    show (State.takeLoss first count reasons _).slotsSound
    obtain ⟨e, n, last, he, h⟩ := takeLoss_cases { s with port := { s.port with queue := rest } } first count reasons
    rw [h]
    exact slotsSound_finishItem hs count last

-- The steps

theorem slotsSound_served {u v : State} {r : Request} {c : Instr} (hu : u.slotsSound) (h : Served u r c v) :
    v.slotsSound := by
  cases h with
  | restarted fields => exact slotsSound_cleared rfl rfl rfl
  | installed c stack p ticket running between fewer =>
    refine slotsSound_congr hu ?_ ?_ ?_ ?_ <;> rfl
  | started trigger limit fields powered stopped =>
    cases trigger <;> exact slotsSound_cleared rfl rfl rfl
  | stopping fields running =>
    obtain ⟨-, -, -, -, -, -, -, -, -, hport, hengine, -⟩ := stopped_blocks u
    have cleared : (u.abandonRun.stopRun.closeAll .runStopped).slotsSound := by
      refine slotsSound_cleared ?_ ?_ ?_
      · rw [hport]
        rfl
      · rw [hport]
        rfl
      · rw [hengine]
        rfl
    exact cleared
  | _ => exact hu

theorem slotsSound_accessMove {s v : State} (hs : s.slotsSound) (h : AccessMove s v) : v.slotsSound := by
  cases h with
  | cleared w clear =>
    obtain ⟨payload, regions, he, -⟩ := clearDone_cases s w
    rw [he]
    exact hs
  | _ => exact hs

theorem slotsSound_happens {s u : State} {c : Instr} (hs : s.slotsSound) (h : Happens s c u) : u.slotsSound := by
  cases h with
  | refreshed =>
    rcases refreshed_cases s with ⟨st, he, -⟩ | ⟨left, st, -, -, he⟩ <;> rw [he] <;> exact hs
  | accessed bank row k opened granted inside =>
    have did : (s.performed bank k).slotsSound := hs
    have given : ((s.performed bank k).giveResult k.use
        (s.store.mem.perform s.store.coldEpoch k.row k.op).2).slotsSound := by
      rcases giveResult_cases (s.performed bank k) k.use (s.store.mem.perform s.store.coldEpoch k.row k.op).2 with
        ⟨v, hv, he⟩ | hm
      · rw [he]
        exact slotsSound_checkLine (slotsSound_congr did (congrArg Port.st hv.port) (congrArg Port.slots hv.port)
          (congrArg Port.queue hv.port) (SameItem.named hv.engine))
      · exact slotsSound_accessMove did hm
    exact given
  | edge c g p lval powered move =>
    rw [slotsSound_iff] at hs ⊢
    have moved := portMove_slots s.engine.st move hs
    exact moved
  | triggered powered port =>
    rw [slotsSound_iff, port] at hs
    rw [slotsSound_iff]
    exact slotsHeld_sublist hs ((List.Sublist.refl _).append (List.nil_sublist _))
  | itemTaken item rest powered between queue =>
    have taken := slotsSound_takeItem hs between queue
    exact taken
  | modeChanged source target mode done =>
    unfold State.changed State.replyMode Port.powerUp
    simp only
    split <;> cases target <;> exact hs
  | committed n runs working =>
    have committed : (s.commitLine n runs).slotsSound := hs
    exact slotsSound_checkLine committed
  | requested c kind r rest u known takes served => exact slotsSound_served (u := s.taken r rest) hs served
  | _ => exact hs

theorem slotsSound_becomes {s t : State} {c : Instr} (hs : s.slotsSound) (h : Becomes s c t) : t.slotsSound := by
  cases h with
  | coldReset => exact slotsSound_cleared rfl rfl rfl
  | settled c u awake happens => exact (slotsSound_happens hs happens : u.slotsSound)
  | _ => exact hs

/-- Settles O59, over what each command can come to. -/
theorem everyStepKeepsSlotsSound : Obligations.EveryStepKeepsSlotsSound :=
  step_keeps (fun _ _ hs => hs) fun _ _ _ => slotsSound_becomes

end Sys2Proof.Machine
end

section
/-! SUPPORT. The queue of commands, reset and start-up, and the refresh events (R7 to R11, R19 to R21, R199, R200). -/

namespace Sys2Proof.Machine

-- The queue of commands

/-- Settles O1: both clauses are the two cases of step. -/
theorem stepRunsTheFrontCommandOrIdles : Obligations.StepRunsTheFrontCommandOrIdles := by
  refine ⟨fun c rest s => rfl, fun s idle => ?_⟩
  unfold step
  rw [idle]

/-- Every request's command has a next state, for its acceptance is an event of the awake part (R182). -/
theorem request_next {c : Instr} {kind : Byte} (hk : requestKind c = some kind) (s : State) : ∃ t, exec c s = .next t := by
  obtain ⟨body, h⟩ := exec_request hk
  exact ⟨_, h s⟩

/-- Settles O5: every other command than ACCESS_COMPLETE is an event or a request, and these always come to a next
state. -/
theorem onlyAnAccessOutsideTheStoreStops : Obligations.OnlyAnAccessOutsideTheStoreStops := by
  intro c s
  cases c
  case coldReset => exact .inl ⟨_, rfl⟩
  case resetRelease bsel1 bsel0 =>
    refine .inl ?_
    show ∃ t, execResetRelease bsel1 bsel0 s = .next t
    unfold execResetRelease
    split <;> exact ⟨_, rfl⟩
  case svcFall =>
    refine .inl ?_
    show ∃ t, execSvcFall s = .next t
    unfold execSvcFall
    split <;> exact ⟨_, rfl⟩
  case accessComplete bank =>
    show (∃ t, execAccessComplete bank s = .next t) ∨ ∃ bank' row k, Instr.accessComplete bank = .accessComplete bank' ∧
      (s.store.banks.get bank').st = .opened row ∧ (s.store.banks.get bank').granted = some k ∧ k.inStore = false ∧
        execAccessComplete bank s = .fault .noSuchLane
    unfold execAccessComplete
    simp only
    split
    · rename_i row k opened granted
      split
      · exact .inl ⟨_, rfl⟩
      · rename_i outside
        refine .inr ⟨bank, row, k, rfl, opened, granted, Bool.eq_false_iff.mpr outside, ?_⟩
        rfl
    · exact .inl ⟨_, rfl⟩
  all_goals exact .inl ⟨_, rfl⟩

-- Reset and start-up

theorem store_cold_isCold (epoch draws : Nat) : (Store.cold epoch draws).isCold := by
  refine ⟨rfl, fun i => ?_, rfl, rfl, rfl, rfl, rfl, rfl, rfl, rfl, rfl⟩
  fin_cases i <;> exact ⟨rfl, rfl, rfl, rfl, rfl⟩

/-- The cold values are those that the rules give (R22, R43, R68, R84, R107, R124, R148, R159, R173, R192, R203). -/
theorem state_cold_isCold (svc : Bool) (rate : BitRate) (epoch draws : Nat) (pending : List Instr) :
    (State.cold svc rate epoch draws pending).isCold := by
  refine ⟨store_cold_isCold epoch draws, ⟨rfl, rfl, rfl, rfl, rfl, rfl, rfl, rfl, rfl⟩,
    ⟨rfl, rfl, fun i => ?_, rfl, rfl, rfl, rfl, rfl, rfl, rfl⟩,
    ⟨rfl, rfl, rfl, rfl, rfl, rfl, rfl, rfl, rfl, rfl, rfl, rfl, rfl, rfl, rfl, rfl⟩,
    ⟨rfl, rfl, rfl, rfl, rfl, rfl, rfl, rfl, rfl, rfl, rfl, rfl, rfl, rfl, rfl⟩⟩
  fin_cases i <;> rfl

/-- Settles O2: the machine right after reset is a cold state, and a cold state satisfies every invariant. -/
theorem resetIsColdAndSound : Obligations.ResetIsColdAndSound := by
  refine ⟨⟨rfl, state_cold_isCold _ _ _ _ _, rfl, ⟨?_, ?_, ?_⟩, ?_, ?_, regionsSound_cold _ _ _ _ _, ?_, ?_, ?_, ?_⟩, ?_⟩
  · exact List.Pairwise.nil
  · exact List.Pairwise.nil
  · exact List.Pairwise.nil
  · exact (refreshSound_iff _).mpr
      ⟨⟨Nat.zero_le _, Nat.zero_lt_succ _, countsBounded_cold _ _, nofun, nofun⟩, nofun, nofun⟩
  · exact (linkSound_iff _).mpr
      ⟨⟨Nat.zero_le _, nofun, fun _ => rfl⟩, ⟨Nat.zero_le _, Nat.zero_le _⟩, nofun, fun _ => rfl⟩
  · exact (runSound_iff _).mpr ⟨⟨⟨nofun, nofun⟩, fun _ => ⟨rfl, rfl, rfl⟩, nofun, ⟨nofun, nofun⟩⟩,
      ⟨fun _ => rfl, fun _ => rfl, fun _ => rfl⟩⟩
  · exact slotsSound_cleared rfl rfl rfl
  · exact (entriesSound_iff _).mpr
      ⟨⟨List.Perm.refl _, Nat.zero_le _⟩, ⟨nofun, fun h => absurd rfl h⟩, ⟨nofun, nofun⟩⟩
  · exact ⟨Nat.zero_le _, Nat.zero_le _, Nat.zero_le _⟩
  · exact fun s => ⟨_, rfl, rfl, state_cold_isCold _ _ _ _ _, rfl, rfl⟩

/-- Settles O3. -/
theorem startUpBeginsAtTheRelease : Obligations.StartUpBeginsAtTheRelease := by
  refine ⟨fun s bsel1 bsel0 held => ?_, fun s awake starting hold => ?_⟩
  · show execResetRelease bsel1 bsel0 s = _
    unfold execResetRelease
    rw [if_pos held]
    cases bsel1 <;> cases bsel0 <;> rfl
  · refine event_spec (f := fun s => { s with store := s.store.holdOver })
      { s with store := { s.store with work := .startup 8 } } awake ?_
    unfold Store.holdOver
    rw [if_pos ⟨starting, hold⟩]

/-- A run ends in a next state that passes a test. -/
def endsIn (o : Host.Outcome State Fault Refusal) (test : State → Bool) : Bool :=
  match o with
  | .next t => test t
  | .fault _ | .refused _ => false

theorem next_of_endsIn {o : Host.Outcome State Fault Refusal} {test : State → Bool} (h : endsIn o test = true) :
    ∃ t, o = .next t ∧ test t = true := by
  cases o with
  | next t => exact ⟨t, rfl, h⟩
  | fault f => cases h
  | refused r => cases h

-- Ticks and the start of a refresh

/-- A tick that counts: not in self-refresh and not in the exit burst (R9, R10, R20). -/
theorem tick_counts {st : Store} (asleep : st.array ≠ .selfRefresh) (burst : ∀ n, st.work ≠ .burst n) (room : st.debt < 8) :
    st.tick = { st with debt := st.debt + 1, urgent := st.urgent || decide (st.debt = 5) } := by
  have max : min Config.maxDebt (st.debt + 1) = st.debt + 1 := Nat.min_eq_right room
  have six : decide (st.debt + 1 = Config.urgentDebt) = decide (st.debt = 5) :=
    decide_eq_decide.mpr (by show st.debt + 1 = 6 ↔ st.debt = 5; omega)
  unfold Store.tick
  split
  · rename_i h
    exact absurd h asleep
  · rename_i h _
    exact absurd h (burst _)
  · rw [max, six]

/-- A tick in self-refresh or in the exit burst does nothing (R9, R20). -/
theorem tick_asleep {st : Store} (h : st.array = .selfRefresh ∨ ∃ n, st.work = .burst n) : st.tick = st := by
  unfold Store.tick
  split
  · rfl
  · rfl
  · rename_i asleep burst
    rcases h with h | ⟨n, h⟩
    · exact absurd h asleep
    · exact absurd h (burst n)

theorem startUrgent_none {st : Store} (h : st.urgent = false) : st.startUrgent = st := by
  unfold Store.startUrgent
  rw [if_neg]
  rw [h]
  simp

/-- Settles O6, by whether the tick counts and whether the urgent run begins at it. -/
theorem tickRaisesTheDebt : Obligations.TickRaisesTheDebt := by
  intro s awake ticking
  refine ⟨fun asleep calm => ?_, fun notAsleep notBurst room => ?_⟩
  · refine event_spec s awake ?_
    rw [if_pos ticking, tick_asleep asleep, startUrgent_none calm]
  · have urgent_iff : (s.store.urgent || decide (s.store.debt = 5)) = true ↔
        (s.store.urgent = true ∨ s.store.debt = 5) := by
      rw [Bool.or_eq_true, decide_eq_true_eq]
    have idle_eq : ({ s.store with debt := s.store.debt + 1, urgent := s.store.urgent || decide (s.store.debt = 5) }
      : Store).allIdle = s.store.allIdle := rfl
    by_cases starts : (s.store.urgent = true ∨ s.store.debt = 5) ∧ s.store.array = .ready ∧ s.store.allIdle = true ∧
        s.store.entryOrdered = false
    · obtain ⟨urgent, ready, idle, entry⟩ := starts
      have next : (if s.store.ticking then { s with store := s.store.tick.startUrgent } else s) = { s with
          store := { s.store with
            debt := s.store.debt + 1
            urgent := s.store.urgent || decide (s.store.debt = 5)
            array := .refreshing
            work := .debt } } := by
        rw [if_pos ticking, tick_counts notAsleep notBurst room]
        unfold Store.startUrgent
        rw [if_pos ⟨urgent_iff.mpr urgent, ready, idle_eq.trans idle, entry⟩]
      obtain ⟨l', h, settled⟩ := event_spec _ awake next
      exact ⟨l', .refreshing, .debt, h, settled, fun _ _ _ _ => ⟨rfl, rfl⟩,
        fun none => absurd ⟨urgent, ready, idle, entry⟩ none⟩
    · have next : (if s.store.ticking then { s with store := s.store.tick.startUrgent } else s) = { s with
          store := { s.store with
            debt := s.store.debt + 1
            urgent := s.store.urgent || decide (s.store.debt = 5) } } := by
        rw [if_pos ticking, tick_counts notAsleep notBurst room]
        unfold Store.startUrgent
        rw [if_neg]
        rintro ⟨urgent, ready, idle, entry⟩
        exact starts ⟨urgent_iff.mp urgent, ready, idle, entry⟩
      obtain ⟨l', h, settled⟩ := event_spec _ awake next
      exact ⟨l', s.store.array, s.store.work, h, settled, fun urgent ready idle entry =>
        absurd ⟨urgent, ready, idle, entry⟩ starts, fun _ => ⟨rfl, rfl⟩⟩

/-- Settles O7. -/
theorem refreshStartsUnderTheFourConditions : Obligations.RefreshStartsUnderTheFourConditions := by
  intro s awake calm entry
  have start : s.store.startRefresh = if s.store.array = .ready ∧ s.store.allIdle = true ∧ s.store.noClaimWaits = true ∧
      1 ≤ s.store.debt then { s.store with array := .refreshing, work := .debt } else s.store := by
    unfold Store.startRefresh
    rw [if_neg (by rw [calm]; nofun)]
    simp only [entry, and_true]
  have event : ∀ st, s.store.startRefresh = st → ∃ l', exec .refreshStart s = .next { s with store := st, link := l' } ∧
      Link.Settled s.link l' := fun st h =>
    event_spec (f := fun s => { s with store := s.store.startRefresh }) { s with store := st } awake (by rw [h])
  refine ⟨fun conditions => event _ ?_, fun conditions => event s.store ?_⟩
  · rw [start, if_pos conditions]
  · rw [start, if_neg conditions]

-- The end of a refresh

theorem enterSelfRefresh_none {st : Store} (h : st.entryOrdered = false) : st.enterSelfRefresh = st := by
  unfold Store.enterSelfRefresh
  rw [if_neg]
  rw [h]
  simp

/-- With no urgency and no entry ordered, the array that comes to READY stays there (R6, R7). -/
theorem toReady_calm {st : Store} (entry : st.entryOrdered = false) (calm : st.urgent = false) :
    st.toReady.background = ({ st with array := .ready, work := .none } : Store).background := by
  unfold Store.toReady
  rw [settle_noEntry (st := { st with array := .ready, work := .none }) entry calm]
  exact store_settleBanks_background _

/-- An ordered entry is made as the array comes to READY with the banks IDLE (R19). -/
theorem toReady_enters {st : Store} (entry : st.entryOrdered = true) (idle : st.allIdle = true) :
    st.toReady.background = ({ st with
      array := .selfRefresh, work := .none, debt := 0, urgent := false, entryOrdered := false } : Store).background := by
  have enters : ({ st with array := .ready, work := .none } : Store).enterSelfRefresh = { st with
      array := .selfRefresh, work := .none, debt := 0, urgent := false, entryOrdered := false } := by
    unfold Store.enterSelfRefresh
    rw [if_pos ⟨entry, rfl, idle⟩]
  unfold Store.toReady Store.settle
  rw [enters, startUrgent_none rfl]
  exact store_settleBanks_background _

/-- The parts of the store that its background holds. -/
theorem store_fields {a b : Store} (h : a.background = b.background) :
    a.mem = b.mem ∧ a.array = b.array ∧ a.work = b.work ∧ a.debt = b.debt ∧ a.urgent = b.urgent ∧
      a.pointer = b.pointer ∧ a.ticking = b.ticking ∧ a.entryOrdered = b.entryOrdered :=
  ⟨congrArg (·.1.1) h, congrArg (·.2.1) h, congrArg (·.2.2.1) h, congrArg (·.2.2.2.1) h, congrArg (·.2.2.2.2.1) h,
    congrArg (·.2.2.2.2.2.1) h, congrArg (·.2.2.2.2.2.2.1) h, congrArg (·.2.2.2.2.2.2.2) h⟩

/-- Without an entry ordered, the coming to READY keeps debt, pointer and contents (R8). -/
theorem toReady_keeps {st : Store} (entry : st.entryOrdered = false) :
    st.toReady.debt = st.debt ∧ st.toReady.pointer = st.pointer ∧ st.toReady.mem = st.mem := by
  have urgent : ∀ u : Store, u.startUrgent.debt = u.debt ∧ u.startUrgent.pointer = u.pointer ∧ u.startUrgent.mem = u.mem := by
    intro u
    unfold Store.startUrgent
    split <;> exact ⟨rfl, rfl, rfl⟩
  obtain ⟨mem, -, -, debt, -, pointer, -⟩ :=
    store_fields (store_settleBanks_background ({ st with array := .ready, work := .none } : Store).startUrgent)
  obtain ⟨debt', pointer', mem'⟩ := urgent { st with array := .ready, work := .none }
  unfold Store.toReady Store.settle
  rw [enterSelfRefresh_none (st := { st with array := .ready, work := .none }) entry]
  exact ⟨debt.trans debt', pointer.trans pointer', mem.trans mem'⟩

/-- The end of a refresh event, with the link settled. -/
theorem refreshComplete_next {s : State} (awake : s.held = false) : exec .refreshComplete s = .next s.refreshed.settleLink :=
  awake_of_awake awake State.refreshed

theorem refreshed_debt {s : State} (h : s.store.work = .debt) : s.refreshed = { s with
    store := ({ s.store with pointer := nextPointer s.store.pointer } : Store).debtRefreshed } := by
  unfold State.refreshed
  rw [h]

theorem refreshed_burst {s : State} {left : Nat} (h : s.store.work = .burst left) : s.refreshed = { s with
    store := if 1 < left then { s.store with pointer := nextPointer s.store.pointer, work := .burst (left - 1) }
      else ({ s.store with pointer := nextPointer s.store.pointer } : Store).toReady } := by
  unfold State.refreshed
  rw [h]

theorem refreshed_startup {s : State} {left : Nat} (h : s.store.work = .startup left) : s.refreshed =
    if 1 < left then { s with
      store := { s.store with pointer := nextPointer s.store.pointer, work := .startup (left - 1) } }
    else ({ s with
      store := ({ s.store with pointer := nextPointer s.store.pointer, ticking := true } : Store).toReady
      modeCtl := { s.modeCtl with mode := .steady .quiet } } : State).offer (.ready Config.partRevision) := by
  unfold State.refreshed
  rw [h]
  rfl

/-- A refresh of the debt goes on with the next one while urgency stays, and else brings the array to READY (R8, R11). -/
theorem debtRefreshed_eq {st : Store} (owed : 1 ≤ st.debt) : st.debtRefreshed =
    if st.urgent = true ∧ st.debt ≠ 1 then { st with debt := st.debt - 1, urgent := true }
    else ({ st with debt := st.debt - 1, urgent := false } : Store).toReady := by
  have more : decide (st.debt - 1 ≠ 0) = decide (st.debt ≠ 1) := decide_eq_decide.mpr (by omega)
  unfold Store.debtRefreshed
  simp only [more]
  by_cases h : st.urgent = true ∧ st.debt ≠ 1
  · have on : (st.urgent && decide (st.debt ≠ 1)) = true := Bool.and_eq_true_iff.mpr ⟨h.1, decide_eq_true h.2⟩
    rw [if_pos h, on]
    rfl
  · have off : (st.urgent && decide (st.debt ≠ 1)) = false := by
      refine Bool.eq_false_iff.mpr fun on => h ?_
      obtain ⟨urgent, other⟩ := Bool.and_eq_true_iff.mp on
      exact ⟨urgent, of_decide_eq_true other⟩
    rw [if_neg h, off]
    rfl

/-- Settles O8, by the refresh work under way. -/
theorem refreshCompleteAdvancesPointerAndDebt : Obligations.RefreshCompleteAdvancesPointerAndDebt := by
  intro s awake pointer
  have next := refreshComplete_next awake
  refine ⟨fun work entry owed => ?_, fun left work entry => ?_, fun left work entry calm => ?_, fun entry idle work => ?_⟩
  · refine ⟨_, next, ?_⟩
    show (s.refreshed.store.debt = _ ∧ s.refreshed.store.pointer = _ ∧ s.refreshed.store.mem = _ ∧
      s.refreshed.store.urgent = _ ∧ (_ → s.refreshed.store.array = _ ∧ s.refreshed.store.work = _ ∧
        s.refreshed.store.banks = _) ∧ (_ → s.refreshed.store.array = _ ∧ s.refreshed.store.work = _))
    have store : s.refreshed.store = _ := (congrArg State.store (refreshed_debt work)).trans
      (debtRefreshed_eq (st := { s.store with pointer := nextPointer s.store.pointer }) owed)
    by_cases h : s.store.urgent = true ∧ s.store.debt ≠ 1
    · rw [store.trans (if_pos h)]
      refine ⟨rfl, rfl, rfl, ?_, fun _ => ⟨rfl, work, rfl⟩, fun hn => absurd h hn⟩
      rw [h.1, Bool.true_and]
      exact (bne_iff_ne.mpr h.2).symm
    · rw [store.trans (if_neg h)]
      obtain ⟨mem, array, work', debt, urgent, ptr, -⟩ := store_fields (toReady_calm (st := { s.store with
        pointer := nextPointer s.store.pointer, debt := s.store.debt - 1, urgent := false }) entry rfl)
      refine ⟨debt, ptr, mem, urgent.trans ?_, fun hp => absurd hp h, fun _ => ⟨array, work'⟩⟩
      refine (Bool.eq_false_iff.mpr fun on => h ?_).symm
      obtain ⟨urgent, other⟩ := Bool.and_eq_true_iff.mp on
      exact ⟨urgent, bne_iff_ne.mp other⟩
  · refine ⟨_, next, ?_⟩
    show (s.refreshed.store.debt = _ ∧ s.refreshed.store.pointer = _ ∧ s.refreshed.store.mem = _ ∧
      (_ → s.refreshed.store = _) ∧ (_ → _ → s.refreshed.store.array = _ ∧ s.refreshed.store.work = _))
    have store : s.refreshed.store = _ := congrArg State.store (refreshed_burst work)
    by_cases more : 1 < left
    · rw [store.trans (if_pos more)]
      exact ⟨rfl, rfl, rfl, fun _ => rfl, fun one => absurd more (by omega)⟩
    · rw [store.trans (if_neg more)]
      obtain ⟨debt, ptr, mem⟩ := toReady_keeps (st := { s.store with pointer := nextPointer s.store.pointer }) entry
      refine ⟨debt, ptr, mem, fun two => absurd two more, fun _ calm => ?_⟩
      obtain ⟨-, array, work', -⟩ :=
        store_fields (toReady_calm (st := { s.store with pointer := nextPointer s.store.pointer }) entry calm)
      exact ⟨array, work'⟩
  · by_cases more : 1 < left
    · have going : s.refreshed = { s with
          store := { s.store with pointer := nextPointer s.store.pointer, work := .startup (left - 1) } } := by
        rw [refreshed_startup work, if_pos more]
      rw [going] at next
      exact ⟨_, next, rfl, rfl, rfl, fun _ => ⟨rfl, rfl, settled_settleLink _⟩, fun last => absurd more (by omega)⟩
    · have done : s.refreshed = ({ s with
          store := ({ s.store with pointer := nextPointer s.store.pointer, ticking := true } : Store).toReady
          modeCtl := { s.modeCtl with mode := .steady .quiet } } : State).offer (.ready Config.partRevision) := by
        rw [refreshed_startup work, if_neg more]
      rw [done] at next
      obtain ⟨mem, array, work', debt, -, ptr, ticking, -⟩ := store_fields (toReady_calm (st := { s.store with
        pointer := nextPointer s.store.pointer, ticking := true }) entry calm)
      exact ⟨_, next, debt, ptr, mem, fun two => absurd two more,
        fun _ => ⟨array, work', ticking, rfl, settled_settleLink (State.offer _ _)⟩⟩
  · have enters : ∃ st : Store, s.refreshed.store = st.toReady ∧ st.entryOrdered = true ∧ st.allIdle = true ∧
        st.pointer = pointer ∧ st.mem = s.store.mem := by
      rcases work with work | ⟨work, calm⟩
      · rw [refreshed_burst work]
        exact ⟨{ s.store with pointer := nextPointer s.store.pointer }, rfl, entry, idle, rfl, rfl⟩
      · rw [refreshed_debt work]
        unfold Store.debtRefreshed
        simp only
        rw [if_neg]
        · exact ⟨_, rfl, entry, idle, rfl, rfl⟩
        · intro on
          obtain ⟨urgent, more⟩ := Bool.and_eq_true_iff.mp on
          have more' : s.store.debt - 1 ≠ 0 := of_decide_eq_true more
          exact calm ⟨urgent, by omega⟩
    obtain ⟨st, hst, entry, idle, ptr, mem⟩ := enters
    obtain ⟨mem', array, work', debt, urgent, ptr', -, entry'⟩ := store_fields (toReady_enters entry idle)
    refine ⟨_, next, ?_⟩
    show (s.refreshed.store.array = _ ∧ s.refreshed.store.work = _ ∧ s.refreshed.store.debt = _ ∧
      s.refreshed.store.urgent = _ ∧ s.refreshed.store.entryOrdered = _ ∧ s.refreshed.store.pointer = _ ∧
      s.refreshed.store.mem = _)
    rw [hst]
    exact ⟨array, work', debt, urgent, entry', ptr'.trans ptr, mem'.trans mem⟩

-- The cold start

/-- A run that takes one step more. -/
theorem run_succ (M : Host.Core) (n : Nat) : ∀ {s t : M.State}, M.run n s = .next t → M.run (n + 1) s = M.step t := by
  induction n with
  | zero =>
    intro s t h
    cases h
    unfold Host.Core.run
    cases M.step s <;> rfl
  | succ n ih =>
    intro s t h
    unfold Host.Core.run at h ⊢
    cases hs : M.step s with
    | next u =>
      rw [hs] at h
      exact ih h
    | fault f =>
      rw [hs] at h
      cases h
    | refused r =>
      rw [hs] at h
      cases h

/-- The last of the start-up refreshes is under way, and nothing else has happened (R21). -/
def State.lastStartup (s : State) : Bool :=
  decide (s.held = false ∧ s.store.work = .startup 1 ∧ s.store.pointer = 7 ∧ s.store.debt = 0 ∧ s.store.urgent = false ∧
    s.store.entryOrdered = false ∧ s.link.notices = [] ∧ s.link.drops = 0 ∧ s.pending = [.refreshComplete])

/-- Settles O4: nine commands are run, and the tenth is the end of the last start-up refresh. -/
theorem coldStartEndsInQuietWithReady : Obligations.ColdStartEndsInQuietWithReady := by
  intro bsel1 bsel0
  have ends : ∀ bsel1 bsel0 : Bool, endsIn (Host.Core.run core 9 { State.reset with
      pending := [.resetRelease bsel1 bsel0, .startupHoldExpire] ++ List.replicate 8 .refreshComplete })
        State.lastStartup = true := by decide +kernel
  obtain ⟨s, hs, last⟩ := next_of_endsIn (ends bsel1 bsel0)
  obtain ⟨awake, work, pointer, debt, calm, entry, notices, drops, pending⟩ := of_decide_eq_true last
  have done := refreshed_startup (s := { s with pending := [] }) work
  rw [if_neg (by decide)] at done
  have tenth : step s = .next ({ s with pending := [] } : State).refreshed.settleLink := by
    unfold step
    rw [pending]
    exact refreshComplete_next (s := { s with pending := [] }) awake
  refine ⟨_, (run_succ core 9 hs).trans tenth, ?_⟩
  obtain ⟨mem, array, -, debt', urgent, ptr, ticking, -⟩ := store_fields (toReady_calm (st := { s.store with
    pointer := nextPointer s.store.pointer, ticking := true }) entry calm)
  have queued : (s.link.offer (.ready Config.partRevision)).notices = [.ready Config.partRevision] ∧
      (s.link.offer (.ready Config.partRevision)).drops = 0 := by
    unfold Link.offer
    simp only [notices, drops]
    exact ⟨rfl, rfl⟩
  obtain ⟨-, -, -, -, -, -, hnotices, hdrops, -⟩ := settleLink_link_keeps ({ s with pending := [] } : State).refreshed
  rw [hnotices, hdrops, done]
  refine ⟨rfl, array, ptr.trans ?_, debt'.trans debt, urgent.trans calm, ticking, queued.1, queued.2, rfl⟩
  show nextPointer s.store.pointer = 8
  rw [pointer]
  rfl

end Sys2Proof.Machine
end

section
/-! SUPPORT. The receiver, the transmitter and the executor of the command link (R175 to R187, R191). -/

namespace Sys2Proof.Machine

/-- An event that works on the link alone (R177, R179, R185). -/
theorem linkEvent_next {s : State} {f : Link → Link} {l : Link} (on : s.held = false) (h : f s.link = l) :
    ∃ l', awake s (fun s => { s with link := f s.link }) = .next { s with link := l' } ∧ Link.Settled l l' :=
  event_spec (f := fun s => { s with link := f s.link }) { s with link := l } on (by rw [h])

theorem holdOnJoin_eq (count : Nat) (out : Bool) :
    holdOnJoin (count + 1) out = if 2 ≤ count then true else out := by
  unfold holdOnJoin
  by_cases h : 2 ≤ count
  · rw [if_pos h, if_pos (by omega)]
  · rw [if_neg h, if_neg (by omega)]

theorem join_eq (l : Link) (r : Request) : l.join r = { l with
    inbound := l.inbound ++ [r], holdOut := if 2 ≤ l.inbound.length then true else l.holdOut } := by
  unfold Link.join
  rw [holdOnJoin_eq]

theorem assignedKind_iff (kind : Byte) : assignedKind kind = true ↔ 1 ≤ kind.toNat ∧ kind.toNat ≤ 24 := decide_eq_true_iff

-- A whole frame

theorem receive_append (p q : List Byte) (l : Link) : l.receive (p ++ q) = (l.receive p).receive q := List.foldl_append

/-- The start byte and the four header bytes (R177). -/
theorem receive_header {l : Link} (hunt : l.receiver = .hunt) (kind tag lo hi : Byte) :
    l.receive [0xD3, kind, tag, lo, hi] = { l with receiver := .header [kind, tag, lo, hi] } := by
  simp only [Link.receive, List.foldl_cons, List.foldl_nil, Link.receiveByte, hunt, if_true, Link.headerDone,
    List.nil_append, List.cons_append]

/-- The header check passed, with a length in range (R177, R178). -/
theorem receive_headerCheck {l : Link} {kind tag lo hi : Byte} (header : l.receiver = .header [kind, tag, lo, hi])
    (range : u16of lo hi ≤ 1024) : l.receive [crc8 [kind, tag, lo, hi]] = { l with
      receiver := if u16of lo hi = 0 then .check kind tag [] [] else .payload kind tag (u16of lo hi) [] } := by
  simp only [Link.receive, List.foldl_cons, List.foldl_nil, Link.receiveByte, header, Link.headerDone,
    List.cons_append, List.nil_append, if_true]
  rw [if_neg (by omega)]
  split <;> rfl

/-- The two bytes of the payload check (R175, R180). -/
theorem receive_check {l : Link} {kind tag : Byte} {payload : List Byte} (check : l.receiver = .check kind tag payload [])
    (lo hi : Byte) : l.receive [lo, hi] = l.frameDone kind tag payload (u16of lo hi) := by
  simp only [Link.receive, List.foldl_cons, List.foldl_nil, Link.receiveByte, check]
  rfl

/-- A whole frame brings the receiver to its payload check and through it (R175, R177, R180). -/
theorem receive_frame {l : Link} (hunt : l.receiver = .hunt) (kind tag : Byte) {payload : List Byte}
    (range : payload.length ≤ 1024) :
    l.receive (Msg.bytes ⟨kind, tag, payload⟩) = l.frameDone kind tag payload (crc16 payload).toNat := by
  have length : u16of (BitVec.ofNat 8 payload.length) (BitVec.ofNat 8 (payload.length / 256)) = payload.length :=
    u16of_le16 (by omega)
  have check : u16of (BitVec.ofNat 8 (crc16 payload).toNat) (BitVec.ofNat 8 ((crc16 payload).toNat / 256))
      = (crc16 payload).toNat := u16of_le16 (crc16 payload).isLt
  have spelled : Msg.bytes ⟨kind, tag, payload⟩ =
      [0xD3, kind, tag, BitVec.ofNat 8 payload.length, BitVec.ofNat 8 (payload.length / 256)] ++
        ([crc8 [kind, tag, BitVec.ofNat 8 payload.length, BitVec.ofNat 8 (payload.length / 256)]] ++
          (payload ++ [BitVec.ofNat 8 (crc16 payload).toNat, BitVec.ofNat 8 ((crc16 payload).toNat / 256)])) := by
    simp only [Msg.bytes, headerBytes, le16, List.cons_append, List.nil_append]
  have atCheck : ∀ m : Link, m.receiver = (if payload.length = 0 then .check kind tag [] []
      else .payload kind tag payload.length []) → m.receive payload = { m with receiver := .check kind tag payload [] } := by
    intro m hm
    by_cases empty : payload = []
    · subst empty
      have check : m.receiver = .check kind tag [] [] := hm
      show m = { m with receiver := .check kind tag [] [] }
      rw [← check]
    · rw [if_neg (fun h => empty (List.length_eq_zero_iff.mp h))] at hm
      exact receive_payload hm (Nat.zero_add _) empty
  rw [spelled, receive_append, receive_header hunt, receive_append, receive_headerCheck rfl (by omega), receive_append,
    atCheck _ (by rw [length]), receive_check rfl, check]
  rfl

/-- A rejection with a status code, as the obligations write it (R176, R179). -/
theorem reject_code (kind tag : Byte) (st : Status) {code : Byte} (h : st.code = code) (l : Link) :
    l.reject kind tag st = { l with
      replies :=
        if l.replies.length + l.reserved.length < 8
        then l.replies ++ [⟨if kind.toNat < 128 then kind + 0x80 else kind, tag, [code]⟩]
        else l.replies } := by
  rw [reject_eq, h]

section
variable {l : Link} {kind : Byte} (tag : Byte) {payload : List Byte} {check : Nat}

theorem frameDone_badCheck (bad : (crc16 payload).toNat ≠ check) :
    l.frameDone kind tag payload check = ({ l with receiver := .hunt } : Link).reject kind tag .badCheck := if_pos bad

theorem frameDone_unknownKind (good : (crc16 payload).toNat = check) (unknown : ¬(1 ≤ kind.toNat ∧ kind.toNat ≤ 24)) :
    l.frameDone kind tag payload check = ({ l with receiver := .hunt } : Link).reject kind tag .unknownKind := by
  have unassigned : assignedKind kind = false := Bool.eq_false_iff.mpr (mt (assignedKind_iff kind).mp unknown)
  refine (if_neg (fun bad => bad good)).trans (if_pos ?_)
  rw [unassigned]
  rfl

theorem frameDone_full (good : (crc16 payload).toNat = check) (known : 1 ≤ kind.toNat ∧ kind.toNat ≤ 24)
    (full : 4 ≤ l.inbound.length) :
    l.frameDone kind tag payload check = ({ l with receiver := .hunt } : Link).reject kind tag .full := by
  have assigned : assignedKind kind = true := (assignedKind_iff kind).mpr known
  refine (if_neg (fun bad => bad good)).trans ((if_neg ?_).trans (if_pos full))
  rw [assigned]
  nofun

theorem frameDone_joins (good : (crc16 payload).toNat = check) (known : 1 ≤ kind.toNat ∧ kind.toNat ≤ 24)
    (room : l.inbound.length < 4) : l.frameDone kind tag payload check = { l with
      receiver := .hunt
      inbound := l.inbound ++ [⟨kind, tag, payload⟩]
      holdOut := if 2 ≤ l.inbound.length then true else l.holdOut } := by
  have assigned : assignedKind kind = true := (assignedKind_iff kind).mpr known
  refine (if_neg (fun bad => bad good)).trans ((if_neg ?_).trans ((if_neg (Nat.not_le.mpr room)).trans (join_eq _ _)))
  rw [assigned]
  nofun

end

/-- Settles O14: the frame is read byte by byte, and its payload check and kind hold. -/
theorem wholeFrameIsReceivedAsItWasSent : Obligations.WholeFrameIsReceivedAsItWasSent := by
  intro s kind tag payload on hunt low high range room
  refine linkEvent_next on ?_
  rw [receive_frame hunt kind tag range, frameDone_joins tag rfl ⟨low, high⟩ room, ← hunt]

-- The fate of a frame

/-- Settles O15, in the order of the checks. -/
theorem frameFateIsDecidedInOrder : Obligations.FrameFateIsDecidedInOrder := by
  intro s kind tag lo hi payload on receiver status
  have last : s.link.receive [hi] = s.link.frameDone kind tag payload (lo.toNat + 256 * hi.toNat) := by
    show s.link.receiveByte hi = _
    unfold Link.receiveByte
    rw [receiver]
    rfl
  by_cases check : (crc16 payload).toNat ≠ lo.toNat + 256 * hi.toNat
  · have h : status = some 0x04 := if_pos check
    rw [h]
    exact linkEvent_next on (last.trans ((frameDone_badCheck tag check).trans (reject_code kind tag .badCheck rfl _)))
  · have good := not_not.mp check
    by_cases unknown : ¬(1 ≤ kind.toNat ∧ kind.toNat ≤ 24)
    · have h : status = some 0x01 := (if_neg check).trans (if_pos unknown)
      rw [h]
      exact linkEvent_next on (last.trans ((frameDone_unknownKind tag good unknown).trans (reject_code kind tag .unknownKind rfl _)))
    · have known := not_not.mp unknown
      by_cases full : 4 ≤ s.link.inbound.length
      · have h : status = some 0x07 := (if_neg check).trans ((if_neg unknown).trans (if_pos full))
        rw [h]
        exact linkEvent_next on (last.trans ((frameDone_full tag good known full).trans (reject_code kind tag .full rfl _)))
      · have h : status = none := (if_neg check).trans ((if_neg unknown).trans (if_neg full))
        rw [h]
        exact linkEvent_next on (last.trans (frameDone_joins tag good known (Nat.not_le.mp full)))

theorem rescan_start (before after : List Byte) (h : 0xD3 ∉ before) : rescan (before ++ 0xD3 :: after) = .header after := by
  induction before with
  | nil => exact if_pos rfl
  | cons b rest ih =>
    obtain ⟨hb, hrest⟩ := not_or.mp (mt List.mem_cons.mpr h)
    exact (if_neg fun he => hb he.symm).trans (ih hrest)

theorem rescan_none (bytes : List Byte) (h : 0xD3 ∉ bytes) : rescan bytes = .hunt := by
  induction bytes with
  | nil => rfl
  | cons b rest ih =>
    obtain ⟨hb, hrest⟩ := not_or.mp (mt List.mem_cons.mpr h)
    exact (if_neg fun he => hb he.symm).trans (ih hrest)

section
variable {l : Link} {kind tag lo hi check : Byte}

theorem headerDone_failed (failed : crc8 [kind, tag, lo, hi] ≠ check) :
    l.headerDone [kind, tag, lo, hi, check] = { l with receiver := rescan [kind, tag, lo, hi, check] } := if_neg failed

theorem headerDone_tooLong (passed : crc8 [kind, tag, lo, hi] = check) (long : 1024 < u16of lo hi) :
    l.headerDone [kind, tag, lo, hi, check] = ({ l with receiver := .hunt } : Link).reject kind tag .tooLong :=
  (if_pos passed).trans (if_pos long)

theorem headerDone_passed (passed : crc8 [kind, tag, lo, hi] = check) (range : u16of lo hi ≤ 1024) :
    l.headerDone [kind, tag, lo, hi, check] = { l with
      receiver := if u16of lo hi = 0 then .check kind tag [] [] else .payload kind tag (u16of lo hi) [] } := by
  refine (if_pos passed).trans ((if_neg (Nat.not_lt.mpr range)).trans ?_)
  split <;> rfl

end

/-- Settles O16, by the header check and the length. -/
theorem headerIsCheckedAtTheFifthByte : Obligations.HeaderIsCheckedAtTheFifthByte := by
  refine ⟨?_, rescan_start, rescan_none⟩
  intro s kind tag lo hi check on receiver length
  have fifth : s.link.receive [check] = s.link.headerDone [kind, tag, lo, hi, check] := by
    show s.link.receiveByte check = _
    unfold Link.receiveByte
    rw [receiver]
    rfl
  have comes : ∀ {l : Link}, s.link.headerDone [kind, tag, lo, hi, check] = l → ∃ l',
      exec (.headerReceived [check]) s = .next { s with link := l' } ∧ Link.Settled l l' :=
    fun h => linkEvent_next on (fifth.trans h)
  by_cases passed : crc8 [kind, tag, lo, hi] = check
  · by_cases long : 1024 < length
    · obtain ⟨l', h, settled⟩ := comes ((headerDone_tooLong passed long).trans (reject_code kind tag .tooLong rfl _))
      exact ⟨l', h, fun hn => absurd passed hn, fun _ _ => settled, fun _ hr => absurd long (Nat.not_lt.mpr hr)⟩
    · obtain ⟨l', h, settled⟩ := comes (headerDone_passed passed (Nat.not_lt.mp long))
      exact ⟨l', h, fun hn => absurd passed hn, fun _ hl => absurd hl long, fun _ _ => settled⟩
  · obtain ⟨l', h, settled⟩ := comes (headerDone_failed passed)
    exact ⟨l', h, fun _ => settled, fun hp => absurd hp passed, fun hp => absurd hp passed⟩

/-- Settles O17, by the receiver's state. -/
theorem interByteTimeoutEndsTheFrame : Obligations.InterByteTimeoutEndsTheFrame := by
  intro s on
  have comes : ∀ {l : Link}, s.link.timeout = l → ∃ l',
      exec .interByteTimeout s = .next { s with link := l' } ∧ Link.Settled l l' := fun h => linkEvent_next on h
  have cut : ∀ kind tag : Byte, ({ s.link with receiver := .hunt } : Link).reject kind tag .truncated = { s.link with
      receiver := .hunt
      replies :=
        if s.link.replies.length + s.link.reserved.length < 8
        then s.link.replies ++ [⟨if kind.toNat < 128 then kind + 0x80 else kind, tag, [0x05]⟩]
        else s.link.replies } := fun kind tag => reject_code kind tag .truncated rfl _
  cases receiver : s.link.receiver with
  | hunt =>
    obtain ⟨l', h, settled⟩ := comes (l := { s.link with receiver := .hunt }) (by
      unfold Link.timeout
      simp only [receiver]
      rw [← receiver])
    exact ⟨l', h, fun _ => settled, fun kind tag hk => hk.elim nofun nofun⟩
  | header bytes =>
    obtain ⟨l', h, settled⟩ := comes (l := { s.link with receiver := .hunt }) (by
      unfold Link.timeout
      simp only [receiver])
    exact ⟨l', h, fun _ => settled, fun kind tag hk => hk.elim nofun nofun⟩
  | payload kind tag length bytes =>
    obtain ⟨l', h, settled⟩ := comes (by
      unfold Link.timeout
      simp only [receiver]
      exact cut kind tag)
    refine ⟨l', h, fun hh => hh.elim nofun nofun, fun kind' tag' hk => ?_⟩
    rcases hk with ⟨n, p, hk⟩ | ⟨p, q, hk⟩ <;> cases hk
    exact settled
  | check kind tag payload bytes =>
    obtain ⟨l', h, settled⟩ := comes (by
      unfold Link.timeout
      simp only [receiver]
      exact cut kind tag)
    refine ⟨l', h, fun hh => hh.elim nofun nofun, fun kind' tag' hk => ?_⟩
    rcases hk with ⟨n, p, hk⟩ | ⟨p, q, hk⟩ <;> cases hk
    exact settled

-- The notices

/-- Settles O19, by the drop count and the free places. -/
theorem noticeIsQueuedOrCounted : Obligations.NoticeIsQueuedOrCounted := by
  intro l n _
  have places : Config.noticePlaces = 32 := rfl
  unfold Link.offer
  refine ⟨fun none room => ?_, fun none full => ?_, fun some room => ?_, fun some full => ?_⟩ <;> simp only
  · rw [if_pos none, if_pos (by omega)]
  · rw [if_pos none, if_neg (by omega)]
  · rw [if_neg (by omega), if_pos (by omega)]
  · rw [if_neg (by omega), if_neg (by omega)]

end Sys2Proof.Machine
end

section
/-! SUPPORT. What every command leaves: the geometry, the store's contents, the frame in transmission, the request in
execution (R16, R22, R25, R182 to R186, R191). -/

namespace Sys2Proof.Machine

-- The geometry and the contents of the store

theorem settleBanks_presentAccess_background (s : State) (k : Claim) :
    (s.presentAccess k).settleBanks.background = s.background :=
  (background_settleBanks _).trans (background_presentAccess _ _)

theorem geometry_served {u v : State} {r : Request} {c : Instr} (h : Served u r c v) :
    v.geometry = u.geometry ∨ u.geometry = none := by
  cases h with
  | geometryFixed g fields free => exact .inr free
  | installed c stack p ticket running between fewer =>
    have kept := congrArg Background.geometry (background_install
      { u with run := { u.run with stack := stack, st := .draining, next := some p } })
    exact .inl kept
  | stopping fields running =>
    obtain ⟨-, -, geometry, -⟩ := stopped_blocks u
    exact .inl geometry
  | _ => exact .inl rfl

theorem geometry_happens {s u : State} {c : Instr} (h : Happens s c u) : u.geometry = s.geometry ∨ s.geometry = none := by
  cases h with
  | refreshed =>
    rcases refreshed_cases s with ⟨st, he, -⟩ | ⟨left, st, -, -, he⟩ <;> rw [he] <;> exact .inl rfl
  | accessed bank row k opened granted inside =>
    exact .inl (congrArg Background.geometry
      ((background_decideAfter _ bank row).trans (background_giveResult (s.performed bank k) k.use _)))
  | itemTaken item rest powered between queue =>
    exact .inl (congrArg Background.geometry ((background_settleBanks _).trans (background_takeItem _ item)))
  | modeChanged source target mode done =>
    refine .inl ?_
    unfold State.changed State.replyMode
    simp only
    split <;> rfl
  | committed n runs working =>
    exact .inl (congrArg Background.geometry ((background_checkLine _).trans (background_commitLine s n runs)))
  | requested c kind r rest u known takes served => exact geometry_served (u := s.taken r rest) served
  | _ => exact .inl rfl

theorem contents_served {u v : State} {r : Request} {c : Instr} (h : Served u r c v) :
    v.store.contents = u.store.contents := by
  cases h with
  | changing source target mode other passed => exact startChange_contents source target u.store
  | clearing target free => exact contents_of_state_background (settleBanks_presentAccess_background _ _)
  | reading first rest cursor wrapped wide => exact contents_of_state_background (settleBanks_presentAccess_background _ _)
  | writing first rest cursor wrapped => exact contents_of_state_background (settleBanks_presentAccess_background _ _)
  | installed c stack p ticket running between fewer =>
    refine (congrArg Store.contents (install_frame _).store).trans ?_
    rfl
  | stopping fields running =>
    obtain ⟨-, -, -, -, -, -, store, -⟩ := stopped_blocks u
    have kept := congrArg Store.contents store
    exact kept
  | _ => rfl

theorem contents_happens {s u : State} {c : Instr} (h : Happens s c u) (other : ∀ bank, c ≠ .accessComplete bank) :
    u.store.contents = s.store.contents := by
  cases h with
  | ticked => exact (startUrgent_contents _).trans (tick_contents _)
  | refreshStarted => exact startRefresh_contents _
  | refreshed =>
    rcases refreshed_cases s with ⟨st, he, hc⟩ | ⟨left, st, -, hc, he⟩ <;> rw [he]
    · exact hc
    · exact (toReady_contents st).trans hc
  | closed bank closing free => exact settle_contents _
  | accessed bank row k opened granted inside => exact absurd rfl (other bank)
  | itemTaken item rest powered between queue =>
    exact contents_of_state_background ((background_settleBanks _).trans (background_takeItem _ item))
  | modeChanged source target mode done =>
    unfold State.changed State.replyMode
    simp only
    split <;> rfl
  | committed n runs working =>
    exact contents_of_state_background ((background_checkLine _).trans (background_commitLine s n runs))
  | requested c kind r rest u known takes served => exact contents_served (u := s.taken r rest) served
  | _ => rfl

/-- Settles O53, over what each command can come to. -/
theorem geometryAndStoreContentsStay : Obligations.GeometryAndStoreContentsStay := by
  refine ⟨fun c s t g other fixed h => ?_, fun c s t other access h a => ?_⟩
  · cases becomes_of_exec h with
    | coldReset => exact absurd rfl other
    | settled c u on happens =>
      have kept : u.geometry = some g := by
        rcases geometry_happens happens with hg | hg
        · exact hg.trans fixed
        · exact nomatch hg.symm.trans fixed
      exact kept
    | _ => exact fixed
  · have contents : t.store.contents = s.store.contents := by
      cases becomes_of_exec h with
      | coldReset => exact absurd rfl other
      | settled c u on happens =>
        have kept := contents_happens happens access
        exact kept
      | _ => rfl
    have mem : t.store.mem = s.store.mem := congrArg Prod.fst contents
    have epoch : t.store.coldEpoch = s.store.coldEpoch := congrArg Prod.snd contents
    rw [mem, epoch]

-- The transmitter and the executor

/-- The frame in transmission and the state of the executor. -/
def Link.line (l : Link) : Transmitter × ExecutorState := (l.transmitter, l.executor)

/-- What a command makes of them before the link settles: RESTART flushes the frame, a completed access can end the request
in execution, READ and WRITE begin one (R166, R169, R182, R183, R191). -/
inductive LineMove (l : Link) : Instr → Transmitter × ExecutorState → Prop
  | still (c : Instr) : LineMove l c l.line
  | sent : LineMove l .frameSent (.idle, l.executor)
  | flushed (free : l.executor ≠ .executing) : LineMove l .restart (l.transmitter.flush, .idle)
  | ended (bank : Fin 4) : LineMove l (.accessComplete bank) (l.transmitter, .idle)
  | read : LineMove l .read (l.transmitter, .executing)
  | write : LineMove l .write (l.transmitter, .executing)

theorem offer_line (l : Link) (n : Notice) : (l.offer n).line = l.line := by
  unfold Link.offer
  simp only
  split <;> split <;> rfl

theorem Link.Moves.line {l m : Link} {ts : List Ticket} (h : l.Moves ts m) : m.line = l.line := by
  induction h with
  | still l => rfl
  | offered n h ih => exact ih.trans (offer_line _ n)
  | replied t p h ih => exact ih

theorem State.LinkWork.line {s t : State} (h : s.LinkWork t) : t.link.line = s.link.line := by
  obtain ⟨ts, moves, -⟩ := h
  exact moves.line

theorem reject_line (l : Link) (kind tag : Byte) (status : Status) : (l.reject kind tag status).line = l.line := by
  rcases reject_cases l kind tag status with h | ⟨m, h, -⟩ <;> rw [h]
  rfl

theorem receiveByte_line (l : Link) (b : Byte) : (l.receiveByte b).line = l.line := by
  obtain ⟨r, h | ⟨kind, tag, status, h⟩ | ⟨q, -, h⟩⟩ := receiveByte_cases l b <;> rw [h]
  · rfl
  · exact reject_line _ _ _ _
  · rfl

theorem line_accessMove {s v : State} (h : AccessMove s v) :
    v.link.line = s.link.line ∨ v.link.line = (s.link.transmitter, .idle) := by
  cases h with
  | cleared w clear =>
    obtain ⟨payload, regions, he, -⟩ := clearDone_cases s w
    rw [he]
    exact .inl rfl
  | wasRead x wide sofar payload reading => exact .inr rfl
  | wasWritten x sofar payload writing => exact .inr rfl
  | _ => exact .inl rfl

theorem line_served {u v : State} {r : Request} {c : Instr} (free : u.link.executor ≠ .executing) (h : Served u r c v) :
    LineMove u.link c v.link.line := by
  cases h with
  | restarted fields => exact .flushed free
  | reading first rest cursor wrapped wide => exact .read
  | writing first rest cursor wrapped => exact .write
  | installed c stack p ticket running between fewer =>
    have kept := (install_linkWork { u with run := { u.run with stack := stack, st := .draining, next := some p } }).line
    rw [kept]
    exact .still c
  | stopping fields running =>
    obtain ⟨notices, -, work⟩ := stopped_linkWork u
    have kept : (u.abandonRun.stopRun.closeAll .runStopped).link.line = u.link.line := work.line
    have move : LineMove u.link .stop (u.abandonRun.stopRun.closeAll .runStopped).link.line := by
      rw [kept]
      exact .still .stop
    exact move
  | _ => exact .still _

theorem lineMove_congr {l m : Link} {c : Instr} {x : Transmitter × ExecutorState} (h : m.line = l.line)
    (k : LineMove l c x) : LineMove m c x := by
  have transmitter : m.transmitter = l.transmitter := congrArg Prod.fst h
  have executor : m.executor = l.executor := congrArg Prod.snd h
  cases k with
  | still c => exact h ▸ .still c
  | sent => exact executor ▸ .sent
  | flushed free => exact transmitter ▸ .flushed (executor ▸ free)
  | ended bank => exact transmitter ▸ .ended bank
  | read => exact transmitter ▸ .read
  | write => exact transmitter ▸ .write

/-- An idle transmitter stays idle until the link settles. -/
theorem LineMove.idle {l : Link} {c : Instr} {x : Transmitter × ExecutorState} (h : LineMove l c x)
    (idle : l.transmitter = .idle) : x.1 = .idle := by
  cases h with
  | sent => rfl
  | flushed free =>
    show l.transmitter.flush = .idle
    rw [idle]
    rfl
  | _ => exact idle

/-- The frame in transmission stays the same until it is sent, but for the mark of RESTART (R185, R191). -/
theorem LineMove.frame {l : Link} {c : Instr} {x : Transmitter × ExecutorState} (h : LineMove l c x)
    (other : c ≠ .frameSent) : x.1 = l.transmitter ∨ (c = .restart ∧ x.1 = l.transmitter.flush) := by
  cases h with
  | sent => exact absurd rfl other
  | flushed free => exact .inr ⟨rfl, rfl⟩
  | _ => exact .inl rfl

/-- The request in execution goes on until an access completes (R183). -/
theorem LineMove.executing {l : Link} {c : Instr} {x : Transmitter × ExecutorState} (h : LineMove l c x)
    (executing : l.executor = .executing) (other : ∀ bank, c ≠ .accessComplete bank) : x.2 = .executing := by
  cases h with
  | still c => exact executing
  | sent => exact executing
  | flushed free => exact absurd executing free
  | ended bank => exact absurd rfl (other bank)
  | read => rfl
  | write => rfl

/-- Only READ and WRITE begin one (R183). -/
theorem LineMove.not_executing {l : Link} {c : Instr} {x : Transmitter × ExecutorState} (h : LineMove l c x)
    (free : l.executor ≠ .executing) (notRead : c ≠ .read) (notWrite : c ≠ .write) : x.2 ≠ .executing := by
  cases h with
  | still c => exact free
  | sent => exact free
  | flushed free => nofun
  | ended bank => nofun
  | read => exact absurd rfl notRead
  | write => exact absurd rfl notWrite

theorem line_happens {s u : State} {c : Instr} (h : Happens s c u) : LineMove s.link c u.link.line := by
  have same : ∀ {c : Instr} {l : Link}, l.line = s.link.line → LineMove s.link c l.line := by
    intro c l hl
    rw [hl]
    exact .still c
  cases h with
  | refreshed =>
    rcases refreshed_cases s with ⟨st, he, -⟩ | ⟨left, st, -, -, he⟩ <;> rw [he]
    · exact .still _
    · exact same (offer_line _ _)
  | accessed bank row k opened granted inside =>
    have given : ((s.performed bank k).giveResult k.use
        (s.store.mem.perform s.store.coldEpoch k.row k.op).2).link.line = s.link.line ∨
        ((s.performed bank k).giveResult k.use
          (s.store.mem.perform s.store.coldEpoch k.row k.op).2).link.line = (s.link.transmitter, .idle) := by
      rcases giveResult_cases (s.performed bank k) k.use (s.store.mem.perform s.store.coldEpoch k.row k.op).2 with
        ⟨v, hv, he⟩ | hm
      · rw [he]
        exact .inl ((worked_linkWork hv).trans (checkLine_linkWork v)).line
      · have moved := line_accessMove hm
        exact moved
    show LineMove s.link (.accessComplete bank) ((s.performed bank k).giveResult k.use
        (s.store.mem.perform s.store.coldEpoch k.row k.op).2).link.line
    rcases given with hg | hg <;> rw [hg]
    · exact .still _
    · exact .ended bank
  | received c bytes =>
    exact same (receive_keeps (P := fun l => l.line = s.link.line)
      (fun l b hl => (receiveByte_line l b).trans hl) bytes s.link rfl)
  | timedOut =>
    obtain ⟨r, h | ⟨kind, tag, status, h⟩⟩ := timeout_cases s.link <;> rw [h]
    · exact .still _
    · exact same (reject_line _ _ _ _)
  | sent =>
    unfold Link.sent
    split
    · exact .still _
    · exact .sent
    · exact .sent
  | levelFell service => exact same (offer_line _ _)
  | itemTaken item rest powered between queue => exact same (takeItem_linkWork _ item).line
  | modeChanged source target mode done =>
    unfold State.changed State.replyMode
    simp only
    split <;> exact .still _
  | committed n runs working => exact same ((commitLine_linkWork s n runs).trans (checkLine_linkWork _)).line
  | requested c kind r rest u known takes served =>
    obtain ⟨-, -, -, free, -⟩ := takes
    have moved := line_served (u := s.taken r rest) free served
    exact lineMove_congr (l := (s.taken r rest).link) rfl moved
  | _ => exact .still _

-- The settling of the link

theorem consider_transmitter (mode : Mode) (l : Link) : (l.consider mode).transmitter = l.transmitter := by
  obtain ⟨x, h⟩ := consider_eq mode l
  rw [h]

/-- An idle transmitter chooses as the link settles (R185). -/
theorem settleLink_starts {u : State} (idle : u.link.transmitter = .idle) :
    (∀ r rs, u.settleLink.link.replies = r :: rs → u.settleLink.link.transmitter = .sendingReply r false) ∧
      (∀ n ns, u.settleLink.link.replies = [] → u.settleLink.link.notices = n :: ns →
        u.settleLink.link.transmitter = .sendingNotice n.msg false) ∧
      (u.settleLink.link.replies = [] → u.settleLink.link.notices = [] → u.settleLink.link.transmitter = .idle) := by
  obtain ⟨x, hx⟩ := consider_eq u.modeCtl.mode u.link
  obtain ⟨-, -, -, -, -, replies, notices, -⟩ := settleLink_link_keeps u
  have starts := startSending_spec ((consider_transmitter u.modeCtl.mode u.link).trans idle)
  rw [hx] at starts
  rw [replies, notices]
  show (∀ r rs, _ → (u.link.consider u.modeCtl.mode).startSending.transmitter = _) ∧
    (∀ n ns, _ → _ → (u.link.consider u.modeCtl.mode).startSending.transmitter = _) ∧
    (_ → _ → (u.link.consider u.modeCtl.mode).startSending.transmitter = _)
  rw [hx]
  exact starts

/-- A busy transmitter goes on as the link settles (R185). -/
theorem settleLink_busy {u : State} (busy : u.link.transmitter ≠ .idle) :
    u.settleLink.link.transmitter = u.link.transmitter := by
  have busy' : (u.link.consider u.modeCtl.mode).transmitter ≠ .idle := by
    rw [consider_transmitter]
    exact busy
  show (u.link.consider u.modeCtl.mode).startSending.transmitter = _
  rw [startSending_busy busy', consider_transmitter]

/-- An executor not in execution considers the head request as the link settles (R182, R186). -/
theorem settleLink_considers {u : State} (free : u.link.executor ≠ .executing) :
    (u.link.inbound = [] → u.settleLink.link.executor = .idle) ∧
      ∀ r rest, u.link.inbound = r :: rest →
        ((u.modeCtl.mode.isChanging && !exemptKind r.kind) = true → u.settleLink.link.executor = .held) ∧
          ((u.modeCtl.mode.isChanging && !exemptKind r.kind) = false →
            u.settleLink.link.executor = if u.link.hasFreeEntry then .idle else .waitEntry) := by
  have executor : u.settleLink.link.executor = (u.link.consider u.modeCtl.mode).executor := by
    obtain ⟨x, h⟩ := startSending_eq (u.link.consider u.modeCtl.mode)
    show (u.link.consider u.modeCtl.mode).startSending.executor = _
    rw [h]
  rw [executor]
  exact consider_spec free

theorem exemptKind_iff (kind : Byte) :
    exemptKind kind = true ↔ kind = 0x01 ∨ kind = 0x02 ∨ kind = 0x03 ∨ kind = 0x09 := by
  unfold exemptKind
  simp only [Bool.or_eq_true, beq_iff_eq, or_assoc]

/-- A request is held by a mode change (R186). -/
theorem held_iff (mode : Mode) (kind : Byte) : (mode.isChanging && !exemptKind kind) = true ↔
    mode.isChanging = true ∧ ¬(kind = 0x01 ∨ kind = 0x02 ∨ kind = 0x03 ∨ kind = 0x09) := by
  rw [Bool.and_eq_true, Bool.not_eq_true', ← Bool.not_eq_true, exemptKind_iff]

/-- Once its frame is sent the transmitter is idle, until the link settles (R185). -/
theorem sent_idle (l : Link) : l.sent.transmitter = .idle := by
  unfold Link.sent
  split
  · assumption
  · rfl
  · rfl

theorem frameSent_next {s : State} (on : s.held = false) :
    exec .frameSent s = .next ({ s with link := s.link.sent } : State).settleLink :=
  awake_of_awake on fun s => { s with link := s.link.sent }

/-- Settles O18: FRAME_SENT by the frame, every command by what it makes of transmitter and executor. -/
theorem frameSentFreesItsPlaceAndChoosesAgain : Obligations.FrameSentFreesItsPlaceAndChoosesAgain := by
  refine ⟨fun s frame flushed on sending => ?_, fun c s t on notCold notRelease h => ?_, fun s bsel1 bsel0 on => ?_⟩
  · obtain ⟨-, -, -, -, -, replies, notices, -⟩ := settleLink_link_keeps { s with link := s.link.sent }
    obtain ⟨x, y, settled⟩ := settleLink_eq { s with link := s.link.sent }
    refine ⟨_, frameSent_next on, ?_, fun reply => ?_, fun notice => ?_, settleLink_starts (sent_idle s.link)⟩
    · rw [settled]
      unfold Link.sent
      rcases sending with h | h <;> simp only [h]
    · rw [replies, notices]
      unfold Link.sent
      simp only [reply]
      exact ⟨trivial, trivial⟩
    · rw [replies, notices]
      unfold Link.sent
      simp only [notice]
      exact ⟨trivial, trivial⟩
  · cases becomes_of_exec h with
    | coldReset => exact absurd rfl notCold
    | released bsel1 bsel0 held => exact absurd rfl (notRelease bsel1 bsel0)
    | releasedBefore bsel1 bsel0 on' => exact absurd rfl (notRelease bsel1 bsel0)
    | deaf c held => exact absurd (on.symm.trans held) nofun
    | pinFell held => exact absurd (on.symm.trans held) nofun
    | settled c u on' happens =>
      have move := line_happens happens
      obtain ⟨-, -, inbound, -, reserved, replies, -⟩ := settleLink_link_keeps u
      refine ⟨fun free => ?_, fun frame flushed other => ⟨fun sending => ?_, fun sending => ?_⟩, fun free => ?_,
        fun executing other => ?_, fun free notRead notWrite => ?_⟩
      · rcases free with idle | sent
        · exact settleLink_starts (move.idle idle)
        · subst sent
          have next := h.symm.trans (frameSent_next on)
          injection next with next
          rw [next]
          exact settleLink_starts (sent_idle s.link)
      · rcases move.frame other with same | ⟨restart, flush⟩
        · have kept : u.link.transmitter = .sendingReply frame flushed := same.trans sending
          exact ⟨flushed, (settleLink_busy (by rw [kept]; nofun)).trans kept, fun _ => rfl⟩
        · have kept : u.link.transmitter = .sendingReply frame true := by
            refine flush.trans ?_
            rw [sending]
            rfl
          exact ⟨true, (settleLink_busy (by rw [kept]; nofun)).trans kept, fun hn => absurd restart hn⟩
      · rcases move.frame other with same | ⟨restart, flush⟩
        · have kept : u.link.transmitter = .sendingNotice frame flushed := same.trans sending
          exact ⟨flushed, (settleLink_busy (by rw [kept]; nofun)).trans kept, fun _ => rfl⟩
        · have kept : u.link.transmitter = .sendingNotice frame true := by
            refine flush.trans ?_
            rw [sending]
            rfl
          exact ⟨true, (settleLink_busy (by rw [kept]; nofun)).trans kept, fun hn => absurd restart hn⟩
      · intro held room
        obtain ⟨empty, head⟩ := settleLink_considers (mt (settleLink_executing u).mpr free)
        have room_iff : u.link.hasFreeEntry = true ↔ room := by
          show u.link.hasFreeEntry = true ↔ u.settleLink.link.replies.length + u.settleLink.link.reserved.length < 8
          rw [replies, reserved]
          exact decide_eq_true_iff
        rw [inbound]
        refine ⟨empty, fun r rest hr => ⟨fun hh => ?_, fun hh full => ?_, fun hh hfree => ?_⟩⟩
        · exact (head r rest hr).1 ((held_iff _ _).mpr hh)
        · rw [(head r rest hr).2 (Bool.eq_false_iff.mpr (mt (held_iff _ _).mp hh)), if_neg (mt room_iff.mp full)]
        · rw [(head r rest hr).2 (Bool.eq_false_iff.mpr (mt (held_iff _ _).mp hh)), if_pos (room_iff.mpr hfree)]
      · exact (settleLink_executing u).mpr (move.executing executing other)
      · exact settleLink_not_executing (move.not_executing free notRead notWrite)
  · show execResetRelease bsel1 bsel0 s = .next s
    unfold execResetRelease
    rw [if_neg (by rw [on]; nofun)]

end Sys2Proof.Machine
end

section
/-! SUPPORT. Accepted requests in general, and the requests that report (R182, R205). -/

namespace Sys2Proof.Machine

-- An accepted request

section
variable {s : State} {kind : Byte} {r : Request} {rest : List Request} {body : Request → State → State}
  {o : Host.Outcome State Fault Refusal}

/-- An accepted request answered at once, with whatever else it does to the part (R182, R184). -/
theorem answers (he : o = accept kind body s) (h : s.Accepts kind r rest) (t : State) {payload : List Byte}
    (hb : body r (s.taken r rest) = ({ t with link := (s.taken r rest).link } : State).reply r.ticket payload) :
    ∃ l', o = .next { t with link := l' } ∧ s.link.Answered l' r rest payload := by
  rw [he, accept_of_accepts h]
  exact answer_spec t hb

/-- The same, with anything done to the link besides that leaves requests and replies alone. -/
theorem answers_link (he : o = accept kind body s) (h : s.Accepts kind r rest) (t : State) (b : Link) {payload : List Byte}
    (keeps : b.reserved = s.link.reserved ∧ b.replies = s.link.replies ∧ b.holdOut = s.link.holdOut)
    (hb : body r (s.taken r rest) = ({ t with link := { b with
      inbound := rest
      holdOut := holdOnLeave rest.length s.link.holdOut
      reserved := s.link.reserved ++ [r.ticket] } } : State).reply r.ticket payload) :
    ∃ l', o = .next { t with link := l' } ∧ b.Answered l' r rest payload := by
  rw [he, accept_of_accepts h, hb]
  exact ⟨_, rfl, answered_of_reply keeps (settled_settleLink (State.reply r.ticket payload { t with link := { b with
    inbound := rest
    holdOut := holdOnLeave rest.length s.link.holdOut
    reserved := s.link.reserved ++ [r.ticket] } }))⟩

/-- An accepted request whose reply is deferred (R183). -/
theorem defers (he : o = accept kind body s) (h : s.Accepts kind r rest) (t : State)
    (hb : body r (s.taken r rest) = { t with link := (s.taken r rest).link }) :
    ∃ l', o = .next { t with link := l' } ∧ s.link.Deferred l' r rest := by
  rw [he, accept_of_accepts h]
  exact defer_spec t hb

/-- An accepted request that is refused (R205). -/
theorem refuses (he : o = accept kind body s) (h : s.Accepts kind r rest) (h3 : kind ≠ 0x03) (h5 : kind ≠ 0x05) {st : Status} {code : Byte}
    (hc : st.code = code) (hb : body r (s.taken r rest) = (s.taken r rest).refuse r st) :
    ∃ l', o = .next { s with link := l' } ∧ s.link.Answered l' r rest [code] := by
  have hk : r.kind = kind := h.1.2.2.1
  rw [he, accept_of_accepts h, hb, ← hc]
  exact refuse_spec st (hk ▸ h3) (hk ▸ h5)

/-- An accepted request that fails one of its own checks is refused with the status of the first that fails (R205). -/
theorem refuses_checked (he : o = accept kind body s) (h : s.Accepts kind r rest) (h3 : kind ≠ 0x03) (h5 : kind ≠ 0x05) {checks : List (Bool × Status)}
    {effect : State → State} {x : Option Byte} {code : Byte}
    (hb : body r (s.taken r rest) = (s.taken r rest).checked r checks effect)
    (hx : (firstFailure checks).map Status.code = x) (hc : x = some code) :
    ∃ l', o = .next { s with link := l' } ∧ s.link.Answered l' r rest [code] := by
  rw [hc] at hx
  obtain ⟨st, first, hst⟩ := Option.map_eq_some_iff.mp hx
  exact refuses he h h3 h5 hst (hb.trans (checked_some first))

end

/-- A request that passes its own checks takes effect (R205). -/
theorem passes_checked {s : State} {r : Request} {checks : List (Bool × Status)} {effect : State → State}
    {x : Option Byte} (hx : (firstFailure checks).map Status.code = x) (hn : x = none) :
    s.checked r checks effect = effect s := by
  rw [hn] at hx
  exact checked_none (Option.map_eq_none_iff.mp hx)

-- Bytes of flags

theorem flagByte_one (a : Bool) : flagByte [a] = if a then 0x01 else 0x00 := by cases a <;> rfl

theorem flagByte_two (a b : Bool) :
    flagByte [a, b] = BitVec.ofNat 8 ((if a then 1 else 0) + (if b then 2 else 0)) := by
  cases a <;> cases b <;> rfl

theorem flagByte_three (a b c : Bool) :
    flagByte [a, b, c] = BitVec.ofNat 8 ((if a then 1 else 0) + (if b then 2 else 0) + (if c then 4 else 0)) := by
  cases a <;> cases b <;> cases c <;> rfl

theorem flagByte_four (a b c d : Bool) : flagByte [a, b, c, d] = BitVec.ofNat 8
    ((if a then 1 else 0) + (if b then 2 else 0) + (if c then 4 else 0) + (if d then 8 else 0)) := by
  cases a <;> cases b <;> cases c <;> cases d <;> rfl

-- A request that is not accepted

/-- The first of the checks common to all that fails (R205). -/
theorem commonFailure_code {s : State} {kind : Byte} {r : Request} {rest : List Request} (h : s.Takes kind r rest) :
    ((s.taken r rest).commonFailure r).map Status.code =
      if lengthOk kind r.payload = false then some 0x02
      else if s.modeCtl.mode = .starting then some 0x0B
      else if serviceKind kind = true ∧ s.link.level = .operator then some 0x0A
      else none := by
  obtain ⟨-, -, hk, -⟩ := h
  subst hk
  have level : (serviceKind r.kind && decide (s.link.level = .operator)) = true ↔
      serviceKind r.kind = true ∧ s.link.level = .operator := by
    rw [Bool.and_eq_true, decide_eq_true_iff]
  have length : (!lengthOk r.kind r.payload) = true ↔ lengthOk r.kind r.payload = false := by
    rw [Bool.not_eq_true']
  exact firstFailure_cons length (firstFailure_cons decide_eq_true_iff (firstFailure_cons level rfl))

/-- Settles O35: a request taken and refused by a common check, or not taken at all. -/
theorem refusedRequestHasNoOtherEffect : Obligations.RefusedRequestHasNoOtherEffect := by
  refine ⟨?_, fun c kind s known on cannot => ?_⟩
  · intro c kind s r rest known takes status code failed
    obtain ⟨body, hbody⟩ := exec_request known
    have failure := commonFailure_code takes
    rw [show (if lengthOk kind r.payload = false then some 0x02
      else if s.modeCtl.mode = .starting then some 0x0B
      else if serviceKind kind = true ∧ s.link.level = .operator then some 0x0A
      else none) = some code from failed] at failure
    obtain ⟨st, first, hst⟩ := Option.map_eq_some_iff.mp failure
    have hk : r.kind = kind := takes.2.2.1
    rw [hbody, accept_of_takes takes, first]
    refine answer_spec s ?_
    show (s.taken r rest).reply r.ticket ((s.taken r rest).refusalBytes r.kind st) = _
    unfold State.refusalBytes
    rw [hst, hk]
    rfl
  · obtain ⟨body, hbody⟩ := exec_request known
    have none : s.link.acceptable s.modeCtl.mode kind = none := by
      refine acceptable_none ?_
      rcases cannot with h | h | h | ⟨changing, other⟩ | full
      · exact .inl h
      · exact .inr (.inl h)
      · exact .inr (.inr (.inl h))
      · exact .inr (.inr (.inr (.inl ⟨changing, Bool.eq_false_iff.mpr (mt (exemptKind_iff kind).mp other)⟩)))
      · exact .inr (.inr (.inr (.inr (decide_eq_false (Nat.not_lt.mpr full)))))
    rw [hbody, accept_of_not on none]
    exact settled_next s rfl

-- The requests that report

theorem statusFields_eq (s : State) : s.statusFields =
    [s.modeCtl.mode.code, s.modeCtl.mode.sourceCode, s.modeCtl.mode.targetCode, s.run.st.code, s.link.level.code,
      BitVec.ofNat 8 ((if s.geometry.isSome then 1 else 0) + (if s.history.hold then 2 else 0)
        + (if s.run.next.isSome then 4 else 0) + (if s.access.clear.isSome then 8 else 0)),
      BitVec.ofNat 8 s.store.debt]
      ++ le32 s.port.counter.toNat ++ le32 s.engine.counter.toNat
      ++ [BitVec.ofNat 8 s.engine.ring.length, BitVec.ofNat 8 (lineItems s.port.queue),
        BitVec.ofNat 8 (lossItems s.port.queue), BitVec.ofNat 8 s.tracker.table.length,
        BitVec.ofNat 8 s.link.notices.length]
      ++ le16 s.link.drops ++ le32 s.history.unstored ++ le32 s.tester.teachCount.toNat := by
  unfold State.statusFields
  rw [flagByte_four]
  rfl

theorem regionBytes_eq (s : State) (index : Nat) (q : Region) : s.regionBytes index q =
    [BitVec.ofNat 8 index, q.kind.code] ++ le16 q.first ++ le16 q.rows
      ++ [q.writeLevel.code, BitVec.ofNat 8 (q.rowsPerEntry s.slot)] ++ le16 (q.entries s.slot)
      ++ [BitVec.ofNat 8 ((if q.loaded then 1 else 0) + (if s.bound index then 2 else 0)
        + (if s.clearTarget index then 4 else 0))] := by
  unfold State.regionBytes
  rw [flagByte_three]
  rfl

theorem geometryBytes_eq (s : State) : geometryBytes s.geometry =
    match s.geometry with
    | none => List.replicate 10 0x00
    | some g => [0x01] ++ le16 g.pixels ++ [g.binning.code, g.sampleEdge.code, g.lvalLevel.code, g.trigEdge.code]
        ++ le16 s.lanes ++ [BitVec.ofNat 8 s.slot] := by
  unfold State.slot State.lanes
  cases s.geometry <;> rfl

/-- Settles O36: each of the four replies is its fields, in the words of section 12.4. -/
theorem reportsAnswerAndChangeNothing : Obligations.ReportsAnswerAndChangeNothing := by
  intro s r rest
  refine ⟨fun h => answers (rfl : execPing s = accept _ _ s) h s rfl,
    fun h => answers (rfl : execStatus s = accept _ _ s) h s ?_,
    fun h => answers (rfl : execGet s = accept _ _ s) h s ?_,
    fun h => answers (rfl : execRegions s = accept _ _ s) h s ?_⟩
  · have fields : (s.taken r rest).statusFields = _ := statusFields_eq s
    show (s.taken r rest).replyOk r (s.taken r rest).statusFields = _
    rw [fields]
    rfl
  · show (s.taken r rest).replyOk r s.getFields = _
    unfold State.getFields
    cases s.run.next <;> rfl
  · have regions : s.regions.flatMap (fun p => s.regionBytes p.1 p.2) = _ :=
      congrArg (fun f => s.regions.flatMap f) (funext fun p => regionBytes_eq s p.1 p.2)
    show (s.taken r rest).replyOk r (geometryBytes s.geometry ++ [byte s.regions.length]
      ++ s.regions.flatMap (fun p => s.regionBytes p.1 p.2)) = _
    rw [regions, geometryBytes_eq]
    rfl

/-- The page of the history index from a start position (R157). -/
theorem historyFields_eq (s : State) (start : Nat) : s.historyFields start =
    le32 s.history.written.toNat ++ le16 s.history.writePos ++ [if s.history.hold then 1 else 0]
      ++ le32 s.history.unstored ++ [regionCode s.run.active.history]
      ++ le16 (s.entriesOf .history s.run.active.history) ++ le16 start ++ [BitVec.ofNat 8 (min 64 (1024 - start))]
      ++ (List.range (min 64 (1024 - start))).flatMap (fun i => indexBytes (Table.find s.history.index (start + i))) := by
  have positions : (positionsFrom start).length = min 64 (1024 - start) := by
    unfold positionsFrom
    rw [List.length_map, List.length_range]
  have entries : (positionsFrom start).flatMap (fun k => indexBytes (Table.find s.history.index k)) =
      (List.range (min 64 (1024 - start))).flatMap (fun i => indexBytes (Table.find s.history.index (start + i))) :=
    List.flatMap_map _ _ _
  unfold State.historyFields
  rw [positions, entries, flagByte_one]
  rfl

/-- Settles O52, request by request. -/
theorem historyAndDefectRequestsAnswer : Obligations.HistoryAndDefectRequestsAnswer := by
  intro s r rest
  refine ⟨fun h => answers (rfl : execHold s = accept _ _ s) h { s with history := { s.history with hold := true } } ?_,
    fun h => answers (rfl : execRelease s = accept _ _ s) h
      { s with history := { s.history with hold := false, unstored := 0 } } rfl, fun h => ?_, fun h => ?_⟩
  · show ({ s.taken r rest with history := { s.history with hold := true } } : State).replyOk r
      (le32 s.history.unstored ++ s.history.inHand) = _
    unfold History.inHand
    cases s.history.st <;> rfl
  · intro start count
    by_cases past : 1023 < start
    · obtain ⟨l', next, answered⟩ := refuses_checked (rfl : execHistoryInfo s = accept _ _ s) h (by decide) (by decide) rfl
        (firstFailure_cons (p := 1023 < start) decide_eq_true_iff rfl) (if_pos past)
      exact ⟨l', next, fun _ => answered, fun hn => absurd past (Nat.not_lt.mpr hn)⟩
    · obtain ⟨l', next, answered⟩ := answers (rfl : execHistoryInfo s = accept _ _ s) h s ((passes_checked
        (firstFailure_cons (p := 1023 < start) decide_eq_true_iff rfl) (if_neg past)).trans rfl)
      refine ⟨l', next, fun hn => absurd hn past, fun _ => ?_⟩
      have fields : (s.taken r rest).historyFields (u16At r.payload 0) = _ := historyFields_eq s _
      rw [fields] at answered
      exact answered
  · intro start page
    by_cases past : 63 < start
    · obtain ⟨l', next, answered⟩ := refuses_checked (rfl : execDefects s = accept _ _ s) h (by decide) (by decide) rfl
        (firstFailure_cons (p := 63 < start) decide_eq_true_iff rfl) (if_pos past)
      exact ⟨l', next, fun _ => answered, fun hn => absurd past (Nat.not_lt.mpr hn)⟩
    · obtain ⟨l', next, answered⟩ := answers (rfl : execDefects s = accept _ _ s) h s ((passes_checked
        (firstFailure_cons (p := 63 < start) decide_eq_true_iff rfl) (if_neg past)).trans rfl)
      exact ⟨l', next, fun hn => absurd hn past, fun _ => answered⟩

end Sys2Proof.Machine
end

section
/-! SUPPORT. The requests of the link and the mode controller, and the events of the mode, the trigger and pin SVC (R57,
R73, R188, R191, R195 to R202). -/

namespace Sys2Proof.Machine

-- Small facts

/-- Settles O32: differences modulo 2^32. -/
theorem integratedNumbersCompareInWrappedOrder : Obligations.IntegratedNumbersCompareInWrappedOrder := by
  intro a b
  have difference : (b - a).toNat = (b.toNat + 2 ^ 32 - a.toNat) % 2 ^ 32 := by
    rw [BitVec.toNat_sub]
    congr 1
    omega
  refine ⟨?_, ?_, ?_⟩
  · unfold earlier
    rw [decide_eq_true_iff, difference]
  · unfold notLater
    rw [Bool.or_eq_true, decide_eq_true_iff]
  · unfold earlier
    rw [decide_eq_true_iff, decide_eq_false_iff_not]
    bv_omega

/-- Settles O20, by the port's state. -/
theorem trigEdgeStartsAnArmedRun : Obligations.TrigEdgeStartsAnArmedRun := by
  intro s on active
  have powered : s.powered = true := decide_eq_true active
  refine ⟨fun waits => ?_, fun other => ?_⟩
  · have triggered : s.triggered = { s with
        port := { s.port with st := .ready }
        run := { s.run with st := .running }
        engine := { s.engine with st := .between } } := if_pos ⟨powered, waits⟩
    exact event_spec _ on triggered
  · have triggered : s.triggered = s := if_neg (fun h => other h.2)
    exact event_spec _ on triggered

-- LEVEL and SVC_FALL

/-- LEVEL's reply carries the level after the request (R188). -/
theorem levelRequest_eq (s : State) {r : Request} (hk : r.kind = 0x03) :
    s.levelRequest r =
      let code := u8At r.payload 0
      let level : Level :=
        if code = 0 then .operator
        else if code = 1 ∧ s.svc = true then .service
        else s.link.level
      let status : Byte :=
        if 1 < code then 0x03
        else if code = 1 ∧ s.link.level = .operator ∧ s.svc = false then 0x0A
        else 0x00
      ({ s with link := { s.link with level := level } } : State).reply r.ticket [status, level.code] := by
  have refused : ∀ st, s.refuse r st = s.reply r.ticket [st.code, s.link.level.code] := by
    intro st
    unfold State.refuse State.refusalBytes
    rw [if_pos hk]
  have kept : ∀ l, s.link.level = l → ({ s with link := { s.link with level := l } } : State) = s := by
    intro l hl
    subst hl
    rfl
  unfold State.levelRequest State.setLevel
  rcases u8At r.payload 0 with _ | _ | n
  · rfl
  · cases hl : s.link.level with
    | service =>
      simp [levelOf, State.replyOk, kept _ hl]
      rfl
    | operator =>
      by_cases high : s.svc = true
      · simp [levelOf, State.replyOk, high]
        rfl
      · have low : s.svc = false := Bool.eq_false_iff.mpr high
        have same := kept _ hl
        rw [low] at same
        simp [levelOf, refused, same, hl, low, Status.code]
  · simp [levelOf, refused, kept, Status.code]

/-- What a fall of pin SVC does to the link (R188). -/
def State.svcFallen (s : State) : State :=
  match s.link.level with
  | .operator => s
  | .service => { s with link := { s.link with level := .operator }.offer .levelDrop }

theorem exec_svcFall_of_awake {s : State} (on : s.held = false) :
    exec .svcFall s = awake { s with svc := false } State.svcFallen := by
  show execSvcFall s = _
  unfold execSvcFall
  rw [on]
  rfl

theorem svcFallen_operator {s : State} (h : s.link.level = .operator) : s.svcFallen = s := by
  unfold State.svcFallen
  rw [h]

theorem svcFallen_service {s : State} (h : s.link.level = .service) :
    s.svcFallen = { s with link := { s.link with level := .operator }.offer .levelDrop } := by
  unfold State.svcFallen
  rw [h]

/-- Settles O37. The pin's level is what the model held of it or what it has done since. -/
theorem levelFollowsTheRequestAndThePin : Obligations.LevelFollowsTheRequestAndThePin := by
  refine ⟨fun s risen r rest h => ?_, fun s on => ?_⟩
  · intro code high level status
    have hk : r.kind = 0x03 := h.1.2.2.1
    exact answers_link (rfl : execLevel risen s = accept _ _ s) h { s with svc := high } { s.link with level := level }
      ⟨rfl, rfl, rfl⟩ (levelRequest_eq ({ s.taken r rest with svc := high } : State) hk)
  · rw [exec_svcFall_of_awake on]
    cases hl : s.link.level with
    | operator =>
      obtain ⟨l', next, settled⟩ := event_spec (s := { s with svc := false }) _ on (svcFallen_operator hl)
      exact ⟨l', next, (fun x => nomatch x), fun _ => settled⟩
    | service =>
      obtain ⟨l', next, settled⟩ := event_spec (s := { s with svc := false }) _ on (svcFallen_service hl)
      exact ⟨l', next, fun _ => settled, fun x => nomatch x⟩

end Sys2Proof.Machine
end

section
/-! SUPPORT. RESTART and the requests of the mode controller (R191, R195 to R202). -/

namespace Sys2Proof.Machine

-- RESTART

/-- The region table after RESTART, entry by entry (R31, R42). -/
theorem find_abortedRegions (s : State) (i : Nat) : Table.find s.abortedRegions i = (s.region i).map (fun q =>
    if s.clearTarget i = true ∧ q.kind = .profile then { q with loaded := false } else q) := by
  have same : (∀ q, s.region i = some q → ¬(s.clearTarget i = true ∧ q.kind = .profile)) →
      Table.find s.regions i = (s.region i).map (fun q =>
        if s.clearTarget i = true ∧ q.kind = .profile then { q with loaded := false } else q) := by
    intro no
    show s.region i = _
    cases hq : s.region i with
    | none => rfl
    | some q => exact (congrArg some (if_neg (no q hq))).symm
  unfold State.abortedRegions
  cases hc : s.access.clear with
  | none =>
    simp only
    exact same (fun _ _ h => by simp [State.clearTarget, hc] at h)
  | some w =>
    have target : s.clearTarget i = true ↔ w.region = i := by
      unfold State.clearTarget
      rw [hc]
      exact decide_eq_true_iff
    cases hw : s.region w.region with
    | none =>
      simp only [hw]
      refine same (fun q hq h => ?_)
      rw [target.mp h.1, hq] at hw
      cases hw
    | some p =>
      by_cases profile : p.kind = .profile
      · simp only [hw, if_pos profile]
        rw [Table.find_put]
        by_cases here : w.region = i
        · rw [if_pos here.symm, ← here, hw]
          refine congrArg some (if_pos ⟨?_, profile⟩).symm
          rw [here]
          exact target.mpr here
        · rw [if_neg (Ne.symm here)]
          exact same (fun q _ h => here (target.mp h.1))
      · simp only [hw, if_neg profile]
        refine same (fun q hq h => profile ?_)
        rw [target.mp h.1, hq] at hw
        cases hw
        exact h.2

/-- No claim waits once RESTART has withdrawn them (R16). -/
theorem withdrawAll_noClaimWaits (st : Store) : st.withdrawEngine.withdrawAccess.noClaimWaits = true := rfl

/-- Settles O38. -/
theorem restartReturnsTheBlocksToTheirRestartValues : Obligations.RestartReturnsTheBlocksToTheirRestartValues := by
  intro s r rest h
  have retain : (firstFailure [(s.inRetain, Status.state)]).map Status.code =
      if s.modeCtl.mode = .steady .retain then some 0x09 else none :=
    firstFailure_cons (p := s.modeCtl.mode = .steady .retain) decide_eq_true_iff rfl
  refine ⟨fun inRetain => refuses_checked (rfl : execRestart s = accept _ _ s) h (by decide) (by decide) rfl retain
    (if_pos inRetain), fun other => ?_⟩
  let u := (((s.taken r rest).restarted r.ticket).replyOk r
    [s.modeCtl.mode.code, flagByte [decide (s.run.st ≠ .stopped), s.access.clear.isSome]])
  have next : exec .restart s = .next u.settleLink := by
    show execRestart s = _
    unfold execRestart
    rw [accept_of_accepts h]
    have passed := passes_checked (s := s.taken r rest) (r := r) retain (if_neg other) (effect := fun s =>
      (s.restarted r.ticket).replyOk r [s.modeCtl.mode.code, flagByte [decide (s.run.st ≠ .stopped), s.access.clear.isSome]])
    exact congrArg (fun t => Host.Outcome.next (State.settleLink t)) passed
  have on : s.held = false := h.1.1
  have kind : r.kind = 0x04 := h.1.2.2.1
  have busy : ∀ x, s.link.transmitter.flush = x → x ≠ .idle → u.settleLink.link.transmitter = x := by
    intro x hx ne
    have hu : u.link.transmitter = x := hx
    rw [settleLink_busy (hu ▸ ne), hu]
  have flags : flagByte [decide (s.run.st ≠ .stopped), s.access.clear.isSome] =
      BitVec.ofNat 8 ((if s.run.st = .stopped then 0 else 1) + (if s.access.clear.isSome then 2 else 0)) := by
    rw [flagByte_two]
    by_cases stopped : s.run.st = .stopped <;> simp [stopped]
  have replied : u.link.replies = [⟨0x84, r.tag, [0x00, s.modeCtl.mode.code,
      BitVec.ofNat 8 ((if s.run.st = .stopped then 0 else 1) + (if s.access.clear.isSome then 2 else 0))]⟩] := by
    rw [← flags]
    show [Msg.mk (r.kind + 0x80) r.tag _] = _
    rw [kind]
    rfl
  have reserved : u.link.reserved = [] := List.erase_cons_head _ _
  obtain ⟨rate, receiver, inbound, holdOut, reserved', replies, notices, drops, level⟩ := settleLink_link_keeps u
  refine ⟨u.settleLink, next, on, rfl, rfl, rfl, rfl, rfl, rfl, rfl, rfl, rfl, rfl, rfl, rfl,
    find_abortedRegions s, rfl, rfl, rfl, rfl, rfl, withdrawAll_noClaimWaits s.store, rfl, withdrawAll_get s.store, ?_,
    receiver, rate, inbound, holdOut, reserved'.trans reserved, notices, drops, level, replies.trans replied⟩
  intro frame flushed
  refine ⟨fun sending => busy _ ?_ (fun x => nomatch x), fun sending => busy _ ?_ (fun x => nomatch x)⟩ <;>
    rw [sending] <;> rfl

-- MODE

theorem targetOf_code (m : Steady) : targetOf m.code.toNat = some m := by cases m <;> rfl

/-- A MODE target is the code of a mode (R195). -/
theorem targetOf_eq_some {n : Nat} {m : Steady} : targetOf n = some m ↔ m.code.toNat = n := by
  refine ⟨fun h => ?_, fun h => h ▸ targetOf_code m⟩
  rcases n with _ | _ | _ | _ | n <;> cases h <;> rfl

theorem targetOf_eq_none {n : Nat} : targetOf n = none ↔ ¬(1 ≤ n ∧ n ≤ 3) := by
  rcases n with _ | _ | _ | _ | n <;> simp [targetOf]

theorem Steady.code_inj {a b : Steady} : a.code.toNat = b.code.toNat ↔ a = b := by
  refine ⟨fun h => ?_, fun h => h ▸ rfl⟩
  have := targetOf_code a
  rw [h, targetOf_code] at this
  exact (Option.some.inj this).symm

/-- A refused MODE answers the mode too (R195). -/
theorem refuse_mode {s : State} {r : Request} (hk : r.kind = 0x05) (st : Status) :
    s.refuse r st = s.reply r.ticket [st.code, s.modeCtl.mode.code] := by
  unfold State.refuse State.refusalBytes
  rw [hk]
  rfl

/-- The checks on a change between two modes (R195). -/
theorem changeFailure_code (s : State) (source goal : Steady) : (s.changeFailure source goal).map Status.code =
    if (source = .active ∧ goal = .retain) ∨ (source = .retain ∧ goal = .active) then some 0x16
    else if source = .active ∧ goal = .quiet ∧ s.run.st ≠ .stopped then some 0x09
    else if source = .quiet ∧ goal = .retain ∧ s.access.clear.isSome = true then some 0x08
    else none := by
  have busy : (decide (source = .quiet ∧ goal = .retain) && s.access.clear.isSome) = true ↔
      source = .quiet ∧ goal = .retain ∧ s.access.clear.isSome = true := by
    rw [Bool.and_eq_true, decide_eq_true_iff, and_assoc]
  exact firstFailure_cons decide_eq_true_iff (firstFailure_cons decide_eq_true_iff (firstFailure_cons busy rfl))

/-- What MODE does with the code of a mode, in a steady mode (R195, R196). -/
theorem modeRequest_of_target {s : State} {r : Request} {source goal : Steady} (hm : s.modeCtl.mode = .steady source)
    (ht : goal.code.toNat = u8At r.payload 0) :
    s.modeRequest r =
      if goal = source then s.replyOk r [source.code]
      else
        match s.changeFailure source goal with
        | some status => s.refuse r status
        | none => s.startChange source goal r.ticket := by
  unfold State.modeRequest
  rw [targetOf_eq_some.mpr ht, hm]
  rfl

/-- The store work of a change, by its pair (R195, R198). -/
theorem startChange_spec {source goal : Steady} (st : Store) (other : goal ≠ source)
    (way : ¬((source = .active ∧ goal = .retain) ∨ (source = .retain ∧ goal = .active))) :
    (st.startChange source goal).mem = st.mem ∧
      ((source = .active ∨ goal = .active) → st.startChange source goal = st) ∧
      (source = .retain → st.startChange source goal = { st with array := .refreshing, work := .burst 64 }) ∧
      (goal = .retain → st.startChange source goal = st.orderEntry) := by
  cases source <;> cases goal
  case quiet.quiet | active.active | retain.retain => exact absurd rfl other
  case active.retain => exact absurd (.inl ⟨rfl, rfl⟩) way
  case retain.active => exact absurd (.inr ⟨rfl, rfl⟩) way
  case quiet.active | active.quiet =>
    exact ⟨rfl, fun _ => rfl, (fun h => nomatch h), (fun h => nomatch h)⟩
  case retain.quiet => exact ⟨rfl, fun h => (by simp at h), fun _ => rfl, (fun h => nomatch h)⟩
  case quiet.retain =>
    refine ⟨?_, fun h => (by simp at h), (fun h => nomatch h), fun _ => rfl⟩
    show st.orderEntry.mem = st.mem
    by_cases made : st.array = .ready ∧ st.allIdle = true
    · rw [orderEntry_made made.1 made.2]
    · rw [orderEntry_waits made]

/-- Settles O39: a target that is no mode, the mode in force, or a change that its checks refuse or start. -/
theorem modeIsRefusedAnsweredOrStarted : Obligations.ModeIsRefusedAnsweredOrStarted := by
  intro s r rest source h hm target status
  have hk : r.kind = 0x05 := h.1.2.2.1
  have answer : ∀ code, (s.taken r rest).modeRequest r = (s.taken r rest).reply r.ticket [code, source.code] →
      ∃ l', exec .mode s = .next { s with link := l' } ∧ s.link.Answered l' r rest [code, source.code] :=
    fun code hb => answers (rfl : execMode s = accept _ _ s) h s hb
  have refused : ∀ st, (s.taken r rest).modeRequest r = (s.taken r rest).refuse r st →
      (s.taken r rest).modeRequest r = (s.taken r rest).reply r.ticket [st.code, source.code] := by
    intro st hb
    rw [hb, refuse_mode hk]
    show (s.taken r rest).reply r.ticket [st.code, s.modeCtl.mode.code] = _
    rw [hm]
    rfl
  by_cases noMode : ¬(1 ≤ target ∧ target ≤ 3)
  · have bad : status = some 0x03 := if_pos noMode
    refine ⟨fun code hs => ?_, fun goal hs => by rw [bad] at hs; cases hs⟩
    rw [bad] at hs
    cases hs
    refine answer _ (refused .badField ?_)
    unfold State.modeRequest
    rw [targetOf_eq_none.mpr noMode]
  · obtain ⟨goal, hg⟩ := Option.ne_none_iff_exists'.mp (mt targetOf_eq_none.mp noMode)
    have code : goal.code.toNat = target := targetOf_eq_some.mp hg
    have isSource : target = source.code.toNat ↔ goal = source := by rw [← code, Steady.code_inj]
    have isQuiet : target = 1 ↔ goal = .quiet := by rw [← code, ← Steady.code_inj]; rfl
    have isActive : target = 2 ↔ goal = .active := by rw [← code, ← Steady.code_inj]; rfl
    have isRetain : target = 3 ↔ goal = .retain := by rw [← code, ← Steady.code_inj]; rfl
    have status_eq : status = if goal = source then some 0x00 else (s.changeFailure source goal).map Status.code := by
      rw [changeFailure_code]
      simp only [status, if_neg noMode, isSource, isQuiet, isActive, isRetain]
    have body := modeRequest_of_target (s := s.taken r rest) (r := r) hm code
    refine ⟨fun c hs => ?_, fun goal' hs code' => ?_⟩
    · rw [status_eq] at hs
      by_cases same : goal = source
      · rw [if_pos same] at hs
        cases hs
        exact answer _ (body.trans (if_pos same))
      · rw [if_neg same] at hs
        obtain ⟨st, failed, hst⟩ := Option.map_eq_some_iff.mp hs
        rw [if_neg same, show (s.taken r rest).changeFailure source goal = some st from failed] at body
        rw [← hst]
        exact answer _ (refused st body)
    · have : goal' = goal := Steady.code_inj.mp (code'.trans code.symm)
      subst this
      rw [status_eq] at hs
      by_cases same : goal' = source
      · rw [if_pos same] at hs
        cases hs
      · rw [if_neg same] at hs
        have passed := Option.map_eq_none_iff.mp hs
        rw [if_neg same, show (s.taken r rest).changeFailure source goal' = none from passed] at body
        obtain ⟨l', next, deferred⟩ := defers (rfl : execMode s = accept _ _ s) h
          (s.startChange source goal' r.ticket) body
        have way : ¬((source = .active ∧ goal' = .retain) ∨ (source = .retain ∧ goal' = .active)) := by
          intro no
          rw [changeFailure_code, if_pos no] at hs
          cases hs
        obtain ⟨mem, unchanged, exits, enters⟩ := startChange_spec s.store same way
        refine ⟨l', s.store.startChange source goal', next, deferred, mem, unchanged, exits,
          fun hr ready => ?_, fun hr waits => ?_⟩
        · rw [enters hr, orderEntry_made ready.1 ready.2]
        · rw [enters hr, orderEntry_waits waits]

/-- The store work of a change is done (R195, R198). -/
theorem changeDone_of {source target : Steady} {st : Store} (entered : target = .retain → st.array = .selfRefresh)
    (left : source = .retain → st.array = .ready ∧ st.work = .none) : st.changeDone source target = true := by
  unfold Store.changeDone
  cases source <;> cases target <;> try rfl
  case quiet.retain => exact decide_eq_true (entered rfl)
  case retain.quiet =>
    obtain ⟨ready, none⟩ := left rfl
    simp only [ready, none]

/-- Settles O40. -/
theorem modeChangeCompletes : Obligations.ModeChangeCompletes := by
  intro s source target t on changing entered left
  have port : s.port.powerUp target = if target = .active then { s.port with lval := none } else s.port := by
    cases target <;> rfl
  show ∃ l', execModeChangeComplete s = _ ∧ _
  rw [← port]
  unfold execModeChangeComplete
  refine event_spec { s with
    modeCtl := ⟨.steady target, none⟩
    port := s.port.powerUp target
    link := s.link.reply t [Status.ok.code, target.code] } on ?_
  simp only [changing, changeDone_of entered left, if_true]
  unfold State.changed State.replyMode
  simp only [changing]
  rfl

end Sys2Proof.Machine
end

section
/-! SUPPORT. The requests of the region manager: GEOMETRY, DEFINE and REMOVE (R23 to R36). -/

namespace Sys2Proof.Machine

-- Codes of a payload

theorem binningOf_le {n : Nat} {b : Binning} (h : binningOf n = some b) : n ≤ 1 := by
  rcases n with _ | _ | n <;> first | omega | cases h

theorem edgeOf_le {n : Nat} {e : Edge} (h : edgeOf n = some e) : n ≤ 1 := by
  rcases n with _ | _ | n <;> first | omega | cases h

theorem pinLevelOf_le {n : Nat} {l : PinLevel} (h : pinLevelOf n = some l) : n ≤ 1 := by
  rcases n with _ | _ | n <;> first | omega | cases h

theorem binningOf_code (b : Binning) : binningOf b.code.toNat = some b := by cases b <;> rfl

theorem edgeOf_code (e : Edge) : edgeOf e.code.toNat = some e := by cases e <;> rfl

theorem pinLevelOf_code (l : PinLevel) : pinLevelOf l.code.toNat = some l := by cases l <;> rfl

theorem kindOf_code (k : RegionKind) : kindOf k.code.toNat = some k := by cases k <;> rfl

theorem levelOf_code (l : Level) : levelOf l.code.toNat = some l := by cases l <;> rfl

theorem kindOf_none {n : Nat} (h : 3 < n) : kindOf n = none := by
  obtain ⟨m, rfl⟩ : ∃ m, n = m + 4 := ⟨n - 4, by omega⟩
  rfl

theorem levelOf_none {n : Nat} (h : 1 < n) : levelOf n = none := by
  obtain ⟨m, rfl⟩ : ∃ m, n = m + 2 := ⟨n - 2, by omega⟩
  rfl

theorem inRetain_iff (s : State) : s.inRetain = true ↔ s.modeCtl.mode = .steady .retain := decide_eq_true_iff

-- GEOMETRY

/-- The fields of a payload that names a geometry lie in their lists (R23). -/
theorem geometryOf_fields {p : List Byte} {g : Geometry} (h : geometryOf p = some g) :
    256 ≤ u16At p 0 ∧ u16At p 0 ≤ 4096 ∧ u16At p 0 % 256 = 0 ∧ u8At p 2 ≤ 1 ∧ u8At p 3 ≤ 1 ∧ u8At p 4 ≤ 1 ∧ u8At p 5 ≤ 1 := by
  unfold geometryOf at h
  split at h
  next b e l t hb he hl ht =>
    split at h
    next ok =>
      obtain ⟨least, most, whole⟩ := of_decide_eq_true ok
      exact ⟨least, most, whole, binningOf_le hb, edgeOf_le he, pinLevelOf_le hl, edgeOf_le ht⟩
    next => cases h
  next => cases h

/-- The payload laid out for a geometry of R23 names it. -/
theorem geometryOf_bytes {g : Geometry} (least : 256 ≤ g.pixels) (most : g.pixels ≤ 4096) (whole : g.pixels % 256 = 0) :
    geometryOf (le16 g.pixels ++ [g.binning.code, g.sampleEdge.code, g.lvalLevel.code, g.trigEdge.code]) = some g := by
  let p := le16 g.pixels ++ [g.binning.code, g.sampleEdge.code, g.lvalLevel.code, g.trigEdge.code]
  have number : u16At p 0 = g.pixels := u16of_le16 (by omega)
  have binning : binningOf (u8At p 2) = some g.binning := binningOf_code g.binning
  have sampleEdge : edgeOf (u8At p 3) = some g.sampleEdge := edgeOf_code g.sampleEdge
  have lvalLevel : pinLevelOf (u8At p 4) = some g.lvalLevel := pinLevelOf_code g.lvalLevel
  have trigEdge : edgeOf (u8At p 5) = some g.trigEdge := edgeOf_code g.trigEdge
  have ok : pixelsOk g.pixels = true := decide_eq_true ⟨least, most, whole⟩
  show geometryOf p = _
  unfold geometryOf
  rw [number, binning, sampleEdge, lvalLevel, trigEdge]
  exact if_pos ok

theorem lanes_eq (g : Geometry) : g.lanes = if g.binning = .pair then g.pixels / 2 else g.pixels := by
  unfold Geometry.lanes
  cases g.binning <;> rfl

/-- What GEOMETRY does with a payload that names a geometry (R23). -/
theorem geometryRequest_eq {s : State} {r : Request} {g : Geometry} (named : geometryOf r.payload = some g) :
    s.geometryRequest r = s.checked r [(s.geometry.isSome, .fixed)] fun s =>
      ({ s with geometry := some g }).replyOk r (le16 g.lanes ++ [byte (slotSize g.lanes)]) := by
  unfold State.geometryRequest
  rw [named]

/-- Settles O41. -/
theorem geometryIsFixedOnce : Obligations.GeometryIsFixedOnce := by
  intro s r rest h
  refine ⟨fun bad => ?_, fun g payload least most whole => ?_⟩
  · have none : geometryOf r.payload = none := by
      by_contra named
      obtain ⟨g, hg⟩ := Option.ne_none_iff_exists'.mp named
      have fields := geometryOf_fields hg
      omega
    refine refuses (rfl : execGeometry s = accept _ _ s) h (by decide) (by decide) (st := .badField) rfl ?_
    unfold State.geometryRequest
    rw [none]
  · have named : geometryOf r.payload = some g := payload ▸ geometryOf_bytes least most whole
    have body := geometryRequest_eq (s := s.taken r rest) named
    have fixed : (firstFailure [(s.geometry.isSome, Status.fixed)]).map Status.code =
        if s.geometry ≠ none then some 0x0D else none := firstFailure_cons Option.isSome_iff_ne_none rfl
    refine ⟨fun unfixed => ?_, fun already => ?_⟩
    · rw [← lanes_eq]
      exact answers (rfl : execGeometry s = accept _ _ s) h { s with geometry := some g }
        (body.trans ((passes_checked fixed (if_neg (not_not_intro unfixed))).trans rfl))
    · exact refuses_checked (rfl : execGeometry s = accept _ _ s) h (by decide) (by decide) body fixed (if_pos already)

-- DEFINE

theorem rowsPerEntry_eq (kind : RegionKind) (slot : Nat) :
    kind.rowsPerEntry slot = (match kind with | .profile => 3 | .accum => 2 | .history => 1 | .scratch => 1) * slot := by
  cases kind
  case profile | accum => rfl
  case history | scratch => exact (Nat.one_mul slot).symm

/-- The limit on the entries of a kind; a SCRATCH region that fits the store keeps to its own (R27). -/
theorem entryLimitOk_iff (kind : RegionKind) {entries : Nat} (fits : entries ≤ 8192) :
    kind.entryLimitOk entries = true ↔
      1 ≤ entries ∧ entries ≤ match kind with | .profile => 32 | .accum => 16 | .history => 1024 | .scratch => 8192 := by
  cases kind <;> simp [RegionKind.entryLimitOk, fits]

theorem overlaps_iff (s : State) (n : Region) :
    s.overlaps n = true ↔ ∃ p ∈ s.regions, n.first < p.2.first + p.2.rows ∧ p.2.first < n.first + n.rows := by
  unfold State.overlaps rowsMeet
  simp only [List.any_eq_true, decide_eq_true_iff]

/-- The checks of DEFINE on a record (R34). -/
def State.defineChecks (s : State) (index : Nat) (n : Region) : List (Bool × Status) :=
  [(decide (15 < index ∨ n.rows = 0), .badField),
   (s.geometry.isNone, .noGeometry),
   ((s.region index).isSome, .region),
   (decide (8191 < n.first ∨ 8191 < n.first + n.rows - 1), .size),
   (n.badEntries s.slot, .size),
   (s.overlaps n, .overlap)]

/-- The first failing check of DEFINE after its codes (R34). -/
theorem defineChecks_code (s : State) (index : Nat) (n : Region) :
    let per := (match n.kind with | .profile => 3 | .accum => 2 | .history => 1 | .scratch => 1) * s.slot
    let most := match n.kind with | .profile => 32 | .accum => 16 | .history => 1024 | .scratch => 8192
    (firstFailure (s.defineChecks index n)).map Status.code =
      if 15 < index ∨ n.rows = 0 then some 0x03
      else if s.geometry = none then some 0x0C
      else if (s.region index).isSome then some 0x0E
      else if 8191 < n.first ∨ 8191 < n.first + n.rows - 1 then some 0x10
      else if n.rows % per ≠ 0 ∨ ¬(1 ≤ n.rows / per ∧ n.rows / per ≤ most) then some 0x10
      else if ∃ p ∈ s.regions, n.first < p.2.first + p.2.rows ∧ p.2.first < n.first + n.rows then some 0x0F
      else none := by
  intro per most
  have hper : n.rowsPerEntry s.slot = per := rowsPerEntry_eq n.kind s.slot
  refine firstFailure_cons decide_eq_true_iff (firstFailure_cons Option.isNone_iff_eq_none (firstFailure_cons Iff.rfl ?_))
  by_cases past : 8191 < n.first ∨ 8191 < n.first + n.rows - 1
  · have first : firstFailure ((decide (8191 < n.first ∨ 8191 < n.first + n.rows - 1), Status.size)
        :: [(n.badEntries s.slot, .size), (s.overlaps n, .overlap)]) = some .size := by
      simp only [firstFailure, past, decide_true]
      rfl
    rw [first, if_pos past]
    rfl
  · have fits : n.rows / per ≤ 8192 := (Nat.div_le_self _ _).trans (by omega)
    have entries : n.badEntries s.slot = true ↔ n.rows % per ≠ 0 ∨ ¬(1 ≤ n.rows / per ∧ n.rows / per ≤ most) := by
      unfold Region.badEntries Region.entries
      rw [hper, Bool.or_eq_true, decide_eq_true_iff, Bool.not_eq_true', ← Bool.not_eq_true, entryLimitOk_iff n.kind fits]
    exact firstFailure_cons decide_eq_true_iff (firstFailure_cons entries (firstFailure_cons (overlaps_iff s n) rfl))

/-- What DEFINE does with the codes of a kind and a level, outside RETAIN (R34, R35). -/
theorem defineRequest_eq {s : State} {r : Request} {kind : RegionKind} {level : Level} (awake : s.inRetain = false)
    (hk : u8At r.payload 1 = kind.code.toNat) (hl : u8At r.payload 6 = level.code.toNat) :
    s.defineRequest r =
      let n : Region := ⟨kind, u16At r.payload 2, u16At r.payload 4, level, false⟩
      s.checked r (s.defineChecks (u8At r.payload 0) n) fun s =>
        ({ s with regions := Table.put s.regions (u8At r.payload 0) n }).replyOk r
          ([byte (n.rowsPerEntry s.slot)] ++ le16 (n.entries s.slot)) := by
  have defined : definedOf r.payload = some ⟨kind, u16At r.payload 2, u16At r.payload 4, level, false⟩ := by
    unfold definedOf
    rw [hk, hl, kindOf_code, levelOf_code]
  unfold State.defineRequest
  rw [awake, defined]
  rfl

/-- In RETAIN every DEFINE is refused with STATE (R34). -/
theorem defineRequest_retain {s : State} {r : Request} (retain : s.inRetain = true) :
    s.defineRequest r = s.refuse r .state := by
  unfold State.defineRequest
  rw [retain]

/-- Settles O42. -/
theorem defineWritesTheRecordOrIsRefusedInOrder : Obligations.DefineWritesTheRecordOrIsRefusedInOrder := by
  intro s r rest h
  have refused : ∀ {st : Status} {code : Byte}, st.code = code →
      (s.taken r rest).defineRequest r = (s.taken r rest).refuse r st →
      ∃ l', exec .define s = .next { s with link := l' } ∧ s.link.Answered l' r rest [code] :=
    fun hc hb => refuses (rfl : execDefine s = accept _ _ s) h (by decide) (by decide) hc hb
  by_cases retain : s.modeCtl.mode = .steady .retain
  · have answer := refused (st := .state) rfl (defineRequest_retain (decide_eq_true retain))
    refine ⟨fun _ => ?_, fun kind level _ _ => ?_⟩
    · rw [if_pos retain]
      exact answer
    · intro index first rows per most status
      have state : status = some 0x09 := if_pos retain
      refine ⟨fun code hs => ?_, fun hs => ?_⟩
      · rw [state] at hs
        cases hs
        exact answer
      · rw [state] at hs
        cases hs
  · have awake : (s.taken r rest).inRetain = false := decide_eq_false retain
    refine ⟨fun bad => ?_, fun kind level hk hl => ?_⟩
    · rw [if_neg retain]
      refine refused (st := .badField) rfl ?_
      have none : definedOf r.payload = none := by
        unfold definedOf
        rcases bad with kind | level
        · rw [kindOf_none kind]
        · rw [levelOf_none level]
          cases kindOf (u8At r.payload 1) <;> rfl
      unfold State.defineRequest
      rw [awake, none]
    · intro index first rows per most status
      let n : Region := ⟨kind, first, rows, level, false⟩
      have body := defineRequest_eq (s := s.taken r rest) awake hk hl
      have checks : (firstFailure (s.defineChecks index n)).map Status.code = status :=
        (defineChecks_code s index n).trans (if_neg retain).symm
      refine ⟨fun code hs => refuses_checked (rfl : execDefine s = accept _ _ s) h (by decide) (by decide) body checks hs,
        fun hs => ?_⟩
      have hper : n.rowsPerEntry s.slot = per := rowsPerEntry_eq kind s.slot
      have hentries : n.entries s.slot = rows / per := congrArg (rows / ·) hper
      rw [← hentries, ← hper]
      exact answers (rfl : execDefine s = accept _ _ s) h { s with regions := Table.put s.regions index n }
        (body.trans ((passes_checked checks hs).trans rfl))

-- REMOVE

theorem bound_iff (s : State) (index : Nat) : s.bound index = true ↔ s.run.st ≠ .stopped ∧
    (s.run.active.names index = true ∨ ∃ p, s.run.next = some p ∧ p.context.names index = true) := by
  unfold State.bound
  rw [Bool.and_eq_true, Bool.or_eq_true, decide_eq_true_iff]
  cases s.run.next <;> simp

theorem clearTarget_iff (s : State) (index : Nat) :
    s.clearTarget index = true ↔ ∃ w, s.access.clear = some w ∧ w.region = index := by
  unfold State.clearTarget
  cases s.access.clear <;> simp

theorem isSelected_iff (s : State) (index : Nat) :
    s.isSelected index = true ↔ ∃ k, s.access.selection = some k ∧ k.region = index := by
  unfold State.isSelected
  cases s.access.selection <;> simp

/-- The checks of REMOVE (R36). -/
def State.removeChecks (s : State) (index : Nat) : List (Bool × Status) :=
  [(s.inRetain, .state), (decide (15 < index), .badField), ((s.region index).isNone, .region), (s.bound index, .bound),
    (s.clearTarget index, .busy)]

/-- What REMOVE does (R36, R172). -/
theorem removeRequest_eq (s : State) (r : Request) :
    s.removeRequest r = s.checked r (s.removeChecks (u8At r.payload 0)) fun s =>
      ({ s with
        regions := Table.drop s.regions (u8At r.payload 0)
        access := { s.access with
          selection := if s.isSelected (u8At r.payload 0) then none else s.access.selection } }).replyOk r
        [flagByte [s.isSelected (u8At r.payload 0)]] := rfl

/-- Settles O43. -/
theorem removeFreesTheEntryOrIsRefusedInOrder : Obligations.RemoveFreesTheEntryOrIsRefusedInOrder := by
  intro s r rest h index bound selected status
  have checks : (firstFailure (s.removeChecks index)).map Status.code = status :=
    firstFailure_cons (inRetain_iff s) (firstFailure_cons decide_eq_true_iff (firstFailure_cons Option.isNone_iff_eq_none
      (firstFailure_cons (bound_iff s index) (firstFailure_cons (clearTarget_iff s index) rfl))))
  have body := removeRequest_eq (s.taken r rest) r
  refine ⟨fun code hs => refuses_checked (rfl : execRemove s = accept _ _ s) h (by decide) (by decide) body checks hs,
    fun hs => ?_⟩
  have flag : (if selected then (0x01 : Byte) else 0x00) = flagByte [s.isSelected index] := by
    rw [flagByte_one]
    simp only [isSelected_iff, selected]
  have kept : (if selected then none else s.access.selection) = if s.isSelected index then none else s.access.selection := by
    simp only [isSelected_iff, selected]
  rw [flag, kept]
  exact answers (rfl : execRemove s = accept _ _ s) h { s with
    regions := Table.drop s.regions index
    access := { s.access with selection := if s.isSelected index then none else s.access.selection } }
    (body.trans ((passes_checked checks hs).trans rfl))

end Sys2Proof.Machine
end

section
/-! SUPPORT. The requests SELECT and WINDOW, and the cursor walk (R160 to R164). -/

namespace Sys2Proof.Machine

-- Checks in turn

theorem firstFailure_append (first rest : List (Bool × Status)) :
    firstFailure (first ++ rest) = (firstFailure first).or (firstFailure rest) := by
  induction first with
  | nil => rfl
  | cons check first ih =>
    obtain ⟨bad, status⟩ := check
    cases bad
    · exact ih
    · rfl

/-- An effect that refuses is one more check (R205). -/
theorem checked_append {s : State} {r : Request} {first : List (Bool × Status)} {bad : Bool} {status : Status}
    {effect : State → State} (refuses : firstFailure first = none → bad = true → effect s = s.refuse r status) :
    s.checked r first effect = s.checked r (first ++ [(bad, status)]) effect := by
  unfold State.checked
  rw [firstFailure_append]
  cases passed : firstFailure first with
  | some st => rfl
  | none =>
    cases hb : bad with
    | false => rfl
    | true => exact refuses passed hb

/-- Checks made after others are one list of checks (R205). -/
theorem checked_checked {s : State} {r : Request} {first rest : List (Bool × Status)} {effect : State → State} :
    s.checked r first (fun _ => s.checked r rest effect) = s.checked r (first ++ rest) effect := by
  unfold State.checked
  rw [firstFailure_append]
  cases firstFailure first <;> rfl

-- SELECT

theorem planeOf_code (p : Plane) : planeOf p.code.toNat = some p := by cases p <;> rfl

theorem planeOf_eq_some {n : Nat} {p : Plane} (h : planeOf n = some p) : n = p.code.toNat := by
  rcases n with _ | _ | _ | _ | n <;> cases h <;> rfl

theorem planeOf_eq_none {n : Nat} : planeOf n = none ↔ 3 < n := by
  rcases n with _ | _ | _ | _ | n <;> simp [planeOf]

/-- The codes of the planes of a PROFILE region are the three lowest (R207). -/
theorem single_iff (p : Plane) : p ≠ .single ↔ p.code.toNat ≤ 2 := by cases p <;> decide

theorem planeFits_iff (kind : RegionKind) (plane : Plane) :
    planeFits kind plane = true ↔ (kind = .profile ↔ plane ≠ .single) := decide_eq_true_iff

theorem laneBits_eq (kind : RegionKind) : byte kind.laneBits = if kind = .accum then 32 else 16 := by
  cases kind <;> rfl

/-- What SELECT does outside RETAIN with an index and a plane in their ranges (R161). -/
theorem selectRequest_eq {s : State} {r : Request} {plane : Plane} (awake : s.inRetain = false)
    (hp : planeOf (u8At r.payload 1) = some plane) (hi : ¬15 < u8At r.payload 0) :
    s.selectRequest r =
      match s.region (u8At r.payload 0) with
      | none => s.refuse r .region
      | some target =>
        s.checked r [(!planeFits target.kind plane, .region)] fun s =>
          let k := wholePlane (u8At r.payload 0) plane (target.entries s.slot) s.lanes
          ({ s with access := { s.access with selection := some k } }).replyOk r
            (selectBytes k target.kind (target.entries s.slot) s.lanes) := by
  unfold State.selectRequest
  rw [awake, hp]
  exact if_neg hi

/-- The refusals of SELECT, in the order of R161. -/
theorem select_refuses {s : State} {r : Request} {rest : List Request} (h : s.Accepts 0x0B r rest) {status : Byte}
    (hs : (if s.modeCtl.mode = .steady .retain then some (0x09 : Byte)
      else if 15 < u8At r.payload 0 ∨ 3 < u8At r.payload 1 then some 0x03
      else if ∀ q, s.region (u8At r.payload 0) = some q → ¬(q.kind = .profile ↔ u8At r.payload 1 ≤ 2) then some 0x0E
      else none) = some status) :
    ∃ l', exec .select s = .next { s with link := l' } ∧ s.link.Answered l' r rest [status] := by
  have refused : ∀ {st : Status} {code : Byte}, st.code = code →
      (s.taken r rest).selectRequest r = (s.taken r rest).refuse r st →
      ∃ l', exec .select s = .next { s with link := l' } ∧ s.link.Answered l' r rest [code] :=
    fun hc hb => refuses (rfl : execSelect s = accept _ _ s) h (by decide) (by decide) hc hb
  by_cases retain : s.modeCtl.mode = .steady .retain
  · rw [if_pos retain] at hs
    cases hs
    have asleep : (s.taken r rest).inRetain = true := decide_eq_true retain
    refine refused (st := .state) rfl ?_
    unfold State.selectRequest
    rw [asleep]
  rw [if_neg retain] at hs
  have awake : (s.taken r rest).inRetain = false := decide_eq_false retain
  cases hp : planeOf (u8At r.payload 1) with
  | none =>
    rw [if_pos (.inr (planeOf_eq_none.mp hp))] at hs
    cases hs
    refine refused (st := .badField) rfl ?_
    unfold State.selectRequest
    rw [awake, hp]
  | some plane =>
    have inList : ¬3 < u8At r.payload 1 := fun past => by rw [planeOf_eq_none.mpr past] at hp; cases hp
    by_cases past : 15 < u8At r.payload 0
    · rw [if_pos (.inl past)] at hs
      cases hs
      refine refused (st := .badField) rfl ?_
      unfold State.selectRequest
      rw [awake, hp]
      exact if_pos past
    rw [if_neg (fun c => c.elim past inList)] at hs
    have body := selectRequest_eq (s := s.taken r rest) awake hp past
    split at hs
    next unfit =>
      cases hs
      cases hq : s.region (u8At r.payload 0) with
      | none =>
        rw [show (s.taken r rest).region (u8At r.payload 0) = none from hq] at body
        exact refused (st := .region) rfl body
      | some q =>
        rw [show (s.taken r rest).region (u8At r.payload 0) = some q from hq] at body
        have notFit : planeFits q.kind plane = false := by
          rw [← Bool.not_eq_true, planeFits_iff, single_iff, ← planeOf_eq_some hp]
          exact unfit q hq
        refine refused (st := .region) rfl (body.trans (checked_some ?_))
        rw [notFit]
        rfl
    next => cases hs

/-- A SELECT that passes its checks (R161). -/
theorem select_answers {s : State} {r : Request} {rest : List Request} (h : s.Accepts 0x0B r rest) {q : Region}
    {plane : Plane} (awake : s.modeCtl.mode ≠ .steady .retain) (hi : u8At r.payload 0 ≤ 15)
    (hc : u8At r.payload 1 = plane.code.toNat) (hq : s.region (u8At r.payload 0) = some q)
    (fits : q.kind = .profile ↔ plane ≠ .single) :
    let k : Selection := ⟨u8At r.payload 0, plane, ⟨0, q.entries s.slot - 1, 0, s.lanes - 1⟩, ⟨0, 0⟩⟩
    ∃ l', exec .select s = .next { s with access := { s.access with selection := some k }, link := l' } ∧
      s.link.Answered l' r rest
        ([0x00, BitVec.ofNat 8 (u8At r.payload 0), q.kind.code, plane.code] ++ le16 (q.entries s.slot) ++ le16 s.lanes
          ++ [if q.kind = .accum then 32 else 16] ++ k.window.bytes ++ k.cursor.bytes) := by
  intro k
  have body := selectRequest_eq (s := s.taken r rest) (decide_eq_false awake) (hc ▸ planeOf_code plane) (Nat.not_lt.mpr hi)
  rw [show (s.taken r rest).region (u8At r.payload 0) = some q from hq] at body
  have passes : firstFailure [(!planeFits q.kind plane, Status.region)] = none := by
    rw [(planeFits_iff q.kind plane).mpr fits]
    rfl
  rw [← laneBits_eq]
  exact answers (rfl : execSelect s = accept _ _ s) h { s with access := { s.access with selection := some k } }
    (body.trans ((checked_none passes).trans rfl))

-- WINDOW

theorem fieldsOk_iff (w : Window) : (!w.fieldsOk) = true ↔ 8191 < w.firstEntry ∨ 8191 < w.lastEntry ∨ 4095 < w.firstLane ∨
    4095 < w.lastLane ∨ w.lastEntry < w.firstEntry ∨ w.lastLane < w.firstLane := by
  unfold Window.fieldsOk
  rw [Bool.not_eq_true', decide_eq_false_iff_not]
  omega

theorem selected_of_none {s : State} (h : s.access.selection = none) : s.selected = none := by
  unfold State.selected
  rw [h]

theorem selected_of_some {s : State} {k : Selection} {q : Region} (h : s.access.selection = some k)
    (hq : s.region k.region = some q) : s.selected = some (k, q) := by
  unfold State.selected
  rw [h]
  simp only [hq, Option.map_some]

/-- The checks of WINDOW before those on the selected region (R162). -/
def State.windowChecks (s : State) (w : Window) : List (Bool × Status) :=
  [(s.inRetain, .state), (!w.fieldsOk, .badField), (s.access.selection.isNone, .noSelection)]

theorem windowChecks_code (s : State) (w : Window) : (firstFailure (s.windowChecks w)).map Status.code =
    if s.modeCtl.mode = .steady .retain then some 0x09
    else if 8191 < w.firstEntry ∨ 8191 < w.lastEntry ∨ 4095 < w.firstLane ∨ 4095 < w.lastLane ∨
      w.lastEntry < w.firstEntry ∨ w.lastLane < w.firstLane then some 0x03
    else if s.access.selection = none then some 0x15
    else none :=
  firstFailure_cons (inRetain_iff s) (firstFailure_cons (fieldsOk_iff w) (firstFailure_cons Option.isNone_iff_eq_none rfl))

/-- What a request does with the selected region, refused where there is none (R160). -/
def State.onSelection (r : Request) (f : Selection → Region → State → State) (s : State) : State :=
  match s.selected with
  | none => s.refuse r .noSelection
  | some (k, q) => f k q s

theorem onSelection_some {s : State} {r : Request} {f : Selection → Region → State → State} {k : Selection} {q : Region}
    (hk : s.access.selection = some k) (hq : s.region k.region = some q) : s.onSelection r f = f k q s := by
  unfold State.onSelection
  rw [selected_of_some hk hq]

/-- A request on the selection has the check that there is one after its first ones (R205). -/
theorem checked_onSelection {s : State} {r : Request} {first : List (Bool × Status)}
    {f : Selection → Region → State → State} :
    s.checked r first (State.onSelection r f) =
      s.checked r (first ++ [(s.access.selection.isNone, .noSelection)]) (State.onSelection r f) := by
  refine checked_append (fun _ none => ?_)
  unfold State.onSelection
  rw [selected_of_none (Option.isNone_iff_eq_none.mp none)]

/-- What WINDOW does with the selected region (R162). -/
def State.windowOn (r : Request) (k : Selection) (q : Region) (s : State) : State :=
  s.checked r
    [(decide (q.entries s.slot ≤ (windowOf r.payload).lastEntry ∨ s.lanes ≤ (windowOf r.payload).lastLane), .badField)]
    fun s => ({ s with access := { s.access with
      selection := some { k with window := windowOf r.payload, cursor := (windowOf r.payload).start } } }).replyOk r
      ((windowOf r.payload).bytes ++ (windowOf r.payload).start.bytes)

/-- What WINDOW does (R162). -/
theorem windowRequest_eq (s : State) (r : Request) : s.windowRequest r =
    s.checked r (s.windowChecks (windowOf r.payload)) (State.onSelection r (State.windowOn r)) := by
  have first : s.windowRequest r = s.checked r [(s.inRetain, .state), (!(windowOf r.payload).fieldsOk, .badField)]
      (State.onSelection r (State.windowOn r)) := rfl
  exact first.trans checked_onSelection

/-- Settles O45. -/
theorem selectAndWindowSetTheSelection : Obligations.SelectAndWindowSetTheSelection := by
  refine ⟨fun s r rest h => ⟨fun status hs => select_refuses h hs,
    fun q plane awake hi hc hq fits => select_answers h awake hi hc hq fits⟩, fun s r rest h => ?_⟩
  intro w early
  have body := windowRequest_eq (s.taken r rest) r
  refine ⟨fun status hs => refuses_checked (rfl : execWindow s = accept _ _ s) h (by decide) (by decide) body
    (windowChecks_code s w) hs, fun k q he hk hq => ?_⟩
  have late : (firstFailure [(decide (q.entries s.slot ≤ w.lastEntry ∨ s.lanes ≤ w.lastLane), Status.badField)]).map
      Status.code = if q.entries s.slot ≤ w.lastEntry ∨ s.lanes ≤ w.lastLane then some 0x03 else none :=
    firstFailure_cons decide_eq_true_iff rfl
  have passed := (body.trans (passes_checked (windowChecks_code s w) he)).trans
    (onSelection_some (s := s.taken r rest) hk hq)
  refine ⟨fun past => refuses_checked (rfl : execWindow s = accept _ _ s) h (by decide) (by decide) passed late
    (if_pos past), fun entry lane => ?_⟩
  have within : ¬(q.entries s.slot ≤ w.lastEntry ∨ s.lanes ≤ w.lastLane) := by omega
  exact answers (rfl : execWindow s = accept _ _ s) h { s with access := { s.access with
    selection := some { k with window := w, cursor := ⟨w.firstEntry, w.firstLane⟩ } } }
    (passed.trans ((passes_checked late (if_neg within)).trans rfl))

-- The cursor walk

/-- The position after a position (R163). -/
theorem advance_eq (w : Window) (p : Cursor) :
    (w.advance p).1 = (if p.lane < w.lastLane then (⟨p.entry, p.lane + 1⟩ : Cursor)
      else if p.entry < w.lastEntry then ⟨p.entry + 1, w.firstLane⟩
      else ⟨w.firstEntry, w.firstLane⟩) ∧
      ((w.advance p).2 = true ↔ w.lastLane ≤ p.lane ∧ w.lastEntry ≤ p.entry) := by
  unfold Window.advance
  by_cases lane : p.lane < w.lastLane
  · simp [Nat.succ_le_of_lt lane, lane]
  · by_cases entry : p.entry < w.lastEntry
    · simp [lane, entry, Nat.succ_le_of_lt entry]
    · simp [lane, entry, Nat.not_lt.mp lane, Nat.not_lt.mp entry]

/-- The positions of a walk, the cursor after it and its wrap, by the step from a position to the next (R163). -/
theorem walk_spec (w : Window) (count : Nat) : ∀ c : Cursor,
    (∀ i p, (w.walk count c).visits[i]? = some p → p = (fun q => (w.advance q).1)^[i] c) ∧
      (w.walk count c).cursor = (fun q => (w.advance q).1)^[count] c ∧
      ((w.walk count c).wrapped = true ↔ ∃ p ∈ (w.walk count c).visits, (w.advance p).2 = true) := by
  induction count with
  | zero => exact fun c => ⟨fun i p h => by simp [Window.walk] at h, rfl, by simp [Window.walk]⟩
  | succ count ih =>
    intro c
    obtain ⟨visits, cursor, wrapped⟩ := ih (w.advance c).1
    refine ⟨fun i p h => ?_, cursor, ?_⟩
    · cases i with
      | zero => exact (Option.some.inj h).symm
      | succ i => exact visits i p h
    · show ((w.advance c).2 || (w.walk count (w.advance c).1).wrapped) = true ↔
        ∃ p ∈ c :: (w.walk count (w.advance c).1).visits, _
      rw [Bool.or_eq_true, wrapped, List.exists_mem_cons_iff]

/-- A visit continues the segment of the visit before it (R164). -/
theorem joinsSegment_iff (unit : Nat) (a b : Cursor) : joinsSegment unit a b = true ↔
    b.entry = a.entry ∧ b.lane = a.lane + 1 ∧ b.lane / unit = a.lane / unit := decide_eq_true_iff

/-- The segments are the walk in order, none empty, each a chain of joined visits, and none joined to the next (R164). -/
theorem segments_spec {α : Type} (unit : Nat) (visits : List (Cursor × α)) :
    (segments unit visits).flatten = visits ∧ [] ∉ segments unit visits ∧
      (∀ piece ∈ segments unit visits, List.IsChain (fun a b => joinsSegment unit a.1 b.1 = true) piece) ∧
      List.IsChain (fun p q => ∀ a ∈ p.getLast?, ∀ b ∈ q.head?, ¬joinsSegment unit a.1 b.1 = true)
        (segments unit visits) := by
  induction visits with
  | nil => exact ⟨rfl, List.not_mem_nil, fun _ h => absurd h List.not_mem_nil, List.isChain_nil⟩
  | cons v rest ih =>
    obtain ⟨whole, nonempty, chains, apart⟩ := ih
    unfold segments
    split
    next u us others hcut =>
      rw [hcut] at whole nonempty chains apart
      obtain ⟨-, noEmpty⟩ := not_or.mp (List.mem_cons.not.mp nonempty)
      split
      next joins =>
        refine ⟨congrArg (v :: ·) whole, ?_, fun piece hp => ?_, ?_⟩
        · exact List.mem_cons.not.mpr (not_or.mpr ⟨(fun h => nomatch h), noEmpty⟩)
        · rcases List.mem_cons.mp hp with rfl | hp
          · exact List.isChain_cons_cons.mpr ⟨joins, chains _ List.mem_cons_self⟩
          · exact chains piece (List.mem_cons_of_mem _ hp)
        · cases others with
          | nil => exact List.isChain_singleton _
          | cons next others =>
            obtain ⟨first, after⟩ := List.isChain_cons_cons.mp apart
            exact List.isChain_cons_cons.mpr ⟨fun a ha => first a (by simpa using ha), after⟩
      next notJoined =>
        refine ⟨congrArg (v :: ·) whole, ?_, fun piece hp => ?_, ?_⟩
        · exact List.mem_cons.not.mpr (not_or.mpr ⟨(fun h => nomatch h), nonempty⟩)
        · rcases List.mem_cons.mp hp with rfl | hp
          · exact List.isChain_singleton _
          · exact chains piece hp
        · refine List.isChain_cons_cons.mpr ⟨fun a ha b hb => ?_, apart⟩
          cases ha
          cases hb
          exact notJoined
    next others notCons =>
      have empty : segments unit rest = [] := by
        rcases hcut : segments unit rest with _ | ⟨piece, others⟩
        · rfl
        · cases piece with
          | nil =>
            rw [hcut] at nonempty
            exact absurd List.mem_cons_self nonempty
          | cons u us => exact absurd hcut (notCons u us others)
      rw [empty] at whole ⊢
      refine ⟨congrArg (v :: ·) whole, ?_, fun piece hp => ?_, List.isChain_singleton _⟩
      · simp
      · rw [List.mem_singleton.mp hp]
        exact List.isChain_singleton _

/-- Settles O46. -/
theorem walkVisitsTheWindowInOrder : Obligations.WalkVisitsTheWindowInOrder := by
  refine ⟨fun w count c => ?_, fun α unit visits => ?_⟩
  · intro walk next
    have step : (fun q => (w.advance q).1) = next := funext fun p => (advance_eq w p).1
    obtain ⟨visits, cursor, wrapped⟩ := walk_spec w count c
    rw [step] at visits cursor
    refine ⟨walk_visits_length w count c, visits, cursor, wrapped.trans ?_⟩
    simp only [(advance_eq w _).2]
    rfl
  · intro cut follows
    have joins : follows = fun a b => joinsSegment unit a.1 b.1 = true :=
      funext fun a => funext fun b => propext (joinsSegment_iff unit a.1 b.1).symm
    rw [joins]
    exact segments_spec unit visits

end Sys2Proof.Machine
end

section
/-! SUPPORT. The requests CLEAR, READ and WRITE (R38, R39, R164 to R171). -/

namespace Sys2Proof.Machine

/-- A presented claim and the claims that start with it leave the memory alone. -/
theorem asked_mem (s : State) (c : Claim) : (s.store.presentAccess c).settleBanks.mem = s.store.mem :=
  congrArg (fun b => b.mem.1) (settleBanks_presentAccess_background s c)

-- CLEAR

/-- The rows of an entry are its planes, each of the slot's rows (R27). -/
theorem rowsPerEntry_planes {kind : RegionKind} (h : kind ≠ .accum) (slot : Nat) :
    kind.rowsPerEntry slot = (if kind = .profile then 3 else 1) * slot := by
  cases kind with
  | profile => rfl
  | accum => exact absurd rfl h
  | history | scratch => exact (Nat.one_mul slot).symm

/-- A store row of a run of entries is a row of a plane of one of them (R27). -/
theorem row_place {first from_ to_ planes slot row : Nat} (least : first + from_ * (planes * slot) ≤ row)
    (most : row ≤ first + (to_ + 1) * (planes * slot) - 1) (hs : 0 < planes * slot) :
    ∃ entry place t, from_ ≤ entry ∧ entry ≤ to_ ∧ place < planes ∧ t < slot ∧
      row = first + entry * (planes * slot) + place * slot + t := by
  have slots : 0 < slot := Nat.pos_of_mul_pos_left hs
  obtain ⟨d, rfl⟩ : ∃ d, row = first + d := ⟨row - first, by omega⟩
  have lower : from_ * (planes * slot) ≤ d := by omega
  have upper : d < (to_ + 1) * (planes * slot) := by
    have : 0 < (to_ + 1) * (planes * slot) := Nat.mul_pos (Nat.succ_pos _) hs
    omega
  have inEntry : d % (planes * slot) < planes * slot := Nat.mod_lt _ hs
  refine ⟨d / (planes * slot), d % (planes * slot) / slot, d % (planes * slot) % slot, (Nat.le_div_iff_mul_le hs).mpr lower,
    Nat.lt_succ_iff.mp ((Nat.div_lt_iff_lt_mul hs).mpr upper), (Nat.div_lt_iff_lt_mul slots).mpr inEntry,
    Nat.mod_lt _ slots, ?_⟩
  have e1 := Nat.div_add_mod' d (planes * slot)
  have e2 := Nat.div_add_mod' (d % (planes * slot)) slot
  omega

/-- The checks of CLEAR before those on its target, with the one that there is a target (R38). -/
theorem clearEarly_code (s : State) (r : Request) :
    (firstFailure (s.clearFields r ++ [((s.region (u8At r.payload 0)).isNone, Status.region)])).map Status.code =
      if s.modeCtl.mode = .steady .retain then some 0x09
      else if s.access.clear.isSome then some 0x08
      else if 15 < u8At r.payload 0 ∨ 8191 < u16At r.payload 1 ∨ 8191 < u16At r.payload 3
        ∨ u16At r.payload 3 < u16At r.payload 1 then some 0x03
      else if s.region (u8At r.payload 0) = none then some 0x0E
      else none :=
  firstFailure_cons (inRetain_iff s) (firstFailure_cons Iff.rfl (firstFailure_cons decide_eq_true_iff
    (firstFailure_cons Option.isNone_iff_eq_none rfl)))

/-- The checks of CLEAR on its target (R38). -/
def State.clearLate (s : State) (r : Request) (q : Region) : List (Bool × Status) :=
  [(decide (q.kind = .accum), .region),
   (decide (q.entries s.slot ≤ u16At r.payload 3), .badField),
   (s.bound (u8At r.payload 0), .bound),
   (decide (q.writeLevel = .service ∧ s.link.level = .operator), .level)]

theorem clearLate_code (s : State) (r : Request) (q : Region) : (firstFailure (s.clearLate r q)).map Status.code =
    if q.kind = .accum then some 0x0E
    else if q.entries s.slot ≤ u16At r.payload 3 then some 0x03
    else if s.bound (u8At r.payload 0) then some 0x11
    else if q.writeLevel = .service ∧ s.link.level = .operator then some 0x0A
    else none :=
  firstFailure_cons decide_eq_true_iff (firstFailure_cons decide_eq_true_iff (firstFailure_cons Iff.rfl
    (firstFailure_cons decide_eq_true_iff rfl)))

/-- What CLEAR does with its target (R38, R39). -/
def State.clearOn (r : Request) (s : State) : State :=
  match s.region (u8At r.payload 0) with
  | none => s.refuse r .region
  | some q => s.checked r (s.clearLate r q) fun s => s.startClear (s.clearWork r q)

/-- What CLEAR does (R38, R39). -/
theorem clearRequest_eq (s : State) (r : Request) : s.clearRequest r =
    s.checked r (s.clearFields r ++ [((s.region (u8At r.payload 0)).isNone, .region)]) (State.clearOn r) := by
  have first : s.clearRequest r = s.checked r (s.clearFields r) (State.clearOn r) := rfl
  refine first.trans (checked_append fun _ none => ?_)
  unfold State.clearOn
  rw [Option.isNone_iff_eq_none.mp none]

theorem clearOn_some {s : State} {r : Request} {q : Region} (hq : s.region (u8At r.payload 0) = some q) :
    s.clearOn r = s.checked r (s.clearLate r q) fun s => s.startClear (s.clearWork r q) := by
  unfold State.clearOn
  rw [hq]

/-- Settles O44. -/
theorem clearStartsOrIsRefusedInOrder : Obligations.ClearStartsOrIsRefusedInOrder := by
  intro s r rest h index fromEntry toEntry early
  have body := clearRequest_eq (s.taken r rest) r
  refine ⟨fun code hs => refuses_checked (rfl : execClear s = accept _ _ s) h (by decide) (by decide) body
    (clearEarly_code s r) hs, fun q he hq => ?_⟩
  intro late work
  have passed := (body.trans (passes_checked (clearEarly_code s r) he)).trans (clearOn_some (s := s.taken r rest) hq)
  refine ⟨fun code hs => refuses_checked (rfl : execClear s = accept _ _ s) h (by decide) (by decide) passed
    (clearLate_code s r q) hs, fun hl => ?_⟩
  intro asked
  have starts := passed.trans (passes_checked (s := s.taken r rest) (clearLate_code s r q) hl)
  obtain ⟨l', next, deferred⟩ := defers (rfl : execClear s = accept _ _ s) h
    { s with access := { s.access with clear := some work }, store := asked } starts
  have single : q.kind ≠ .accum := fun accum => by
    have : late = some 0x0E := if_pos accum
    rw [this] at hl
    cases hl
  have entries : toEntry < q.entries s.slot := by
    by_contra past
    have : late = some 0x03 := (if_neg single).trans (if_pos (Nat.not_lt.mp past))
    rw [this] at hl
    cases hl
  have hper : q.rowsPerEntry s.slot = (if q.kind = .profile then 3 else 1) * s.slot := rowsPerEntry_planes single s.slot
  have rows : 0 < q.rowsPerEntry s.slot := by
    by_contra zero
    have : q.entries s.slot = 0 := by
      unfold Region.entries
      rw [Nat.eq_zero_of_not_pos zero, Nat.div_zero]
    omega
  have slots : 0 < s.slot := Nat.pos_of_mul_pos_left (hper ▸ rows)
  have planes : 0 < if q.kind = .profile then 3 else 1 := by split <;> omega
  refine ⟨l', next, deferred, asked_mem s _, ?_, fun row least most => ?_⟩
  · exact clearClaim_row (w := work) hq fromEntry 0 0 single planes slots (by simp [work])
  · have least' : q.first + fromEntry * q.rowsPerEntry s.slot ≤ row := least
    have most' : row ≤ q.first + (toEntry + 1) * q.rowsPerEntry s.slot - 1 := most
    obtain ⟨entry, place, t, h1, h2, hp, ht, hr⟩ := row_place (hper ▸ least') (hper ▸ most') (hper ▸ rows)
    rw [← hper] at hr
    exact ⟨entry, place, t, h1, h2, hp, ht, hr,
      clearClaim_row (w := { work with nextRow := row }) hq entry place t single hp ht hr⟩

-- READ and WRITE

/-- A transfer starts: its first claim is presented and the executor carries the request out (R166, R169, R171). -/
theorem startTransfer_cons (s : State) (claim : Claim) (claims : List Claim) (st : List Claim → AccessState) :
    s.startTransfer (claim :: claims) st = { s with
      access := { s.access with st := st claims }
      store := (s.store.presentAccess claim).settleBanks
      link := { s.link with executor := .executing } } := rfl

theorem deferred_executing {s u : State} {r : Request} {rest : List Request}
    (h : u.link = { (s.taken r rest).link with executor := .executing }) : Link.Deferred s.link u.settleLink.link r rest := by
  obtain ⟨x, y, hl⟩ := settleLink_link u
  unfold Link.Deferred
  rw [hl, h]
  rfl

/-- An accepted request that starts a transfer: its reply is deferred, and the executor executes it (R182, R183). -/
theorem starts_transfer {s : State} {kind : Byte} {r : Request} {rest : List Request} {body : Request → State → State}
    {o : Host.Outcome State Fault Refusal} (he : o = accept kind body s) (h : s.Accepts kind r rest) {claims : List Claim}
    {st : List Claim → AccessState} (hne : claims ≠ [])
    (hb : body r (s.taken r rest) = (s.taken r rest).startTransfer claims st) :
    ∃ l' first others, claims = first :: others ∧
      o = .next { s with
        access := { s.access with st := st others }
        store := (s.store.presentAccess first).settleBanks
        link := l' } ∧
      s.link.Deferred l' r rest ∧ l'.executor = .executing ∧ (s.store.presentAccess first).settleBanks.mem = s.store.mem := by
  obtain ⟨first, others, rfl⟩ := List.exists_cons_of_ne_nil hne
  rw [startTransfer_cons] at hb
  rw [he, accept_of_accepts h, hb]
  exact ⟨_, first, others, rfl, rfl, deferred_executing rfl, (settleLink_executing _).mpr rfl, asked_mem s first⟩

-- READ

/-- The first checks of READ, with the one that there is a selection (R165). -/
theorem readEarly_code (s : State) (count : Nat) :
    (firstFailure ([(s.inRetain, Status.state), (s.access.clear.isSome, .busy), (decide (count = 0 ∨ 512 < count), .badField)]
      ++ [(s.access.selection.isNone, .noSelection)])).map Status.code =
      if s.modeCtl.mode = .steady .retain then some 0x09
      else if s.access.clear.isSome then some 0x08
      else if count = 0 ∨ 512 < count then some 0x03
      else if s.access.selection = none then some 0x15
      else none :=
  firstFailure_cons (inRetain_iff s) (firstFailure_cons Iff.rfl (firstFailure_cons decide_eq_true_iff
    (firstFailure_cons Option.isNone_iff_eq_none rfl)))

/-- What READ does with the selected region (R165, R166). -/
def State.readOn (r : Request) (k : Selection) (q : Region) (s : State) : State :=
  let count := u16At r.payload 0
  s.checked r [(decide (q.kind = .accum ∧ 256 < count), .badField)] fun s =>
    let walk := k.window.walk count k.cursor
    s.startTransfer (readClaims s.slot q k.plane walk.visits) fun rest =>
      .reading ⟨r.ticket, rest, walk.cursor, walk.wrapped⟩ (decide (q.kind = .accum)) []

/-- What READ does (R165, R166). -/
theorem readRequest_eq (s : State) (r : Request) : s.readRequest r =
    s.checked r ([(s.inRetain, .state), (s.access.clear.isSome, .busy),
        (decide (u16At r.payload 0 = 0 ∨ 512 < u16At r.payload 0), .badField)]
      ++ [(s.access.selection.isNone, .noSelection)]) (State.onSelection r (State.readOn r)) := by
  have first : s.readRequest r = s.checked r [(s.inRetain, .state), (s.access.clear.isSome, .busy),
      (decide (u16At r.payload 0 = 0 ∨ 512 < u16At r.payload 0), .badField)] (State.onSelection r (State.readOn r)) := rfl
  exact first.trans checked_onSelection

theorem readOn_eq (s : State) (r : Request) (k : Selection) (q : Region) : s.readOn r k q =
    s.checked r [(decide (q.kind = .accum ∧ 256 < u16At r.payload 0), .badField)] fun s =>
      s.startTransfer (readClaims s.slot q k.plane (k.window.walk (u16At r.payload 0) k.cursor).visits) fun rest =>
        .reading ⟨r.ticket, rest, (k.window.walk (u16At r.payload 0) k.cursor).cursor,
          (k.window.walk (u16At r.payload 0) k.cursor).wrapped⟩ (decide (q.kind = .accum)) [] := rfl

/-- The claim of a READ segment, with the storage lanes of R164. -/
theorem readClaim_eq (slot : Nat) (q : Region) (plane : Plane) (segment : List (Cursor × Unit)) :
    readClaim slot q plane segment = ⟨q.rowOf slot plane (segment.headD (⟨0, 0⟩, ())).1,
      .read (segment.flatMap (fun v =>
        if q.kind = .accum then [2 * (v.1.lane % 256), 2 * (v.1.lane % 256) + 1] else [v.1.lane % 512])), .hostRead⟩ := by
  unfold readClaim
  simp only [lanesOf_eq]

-- WRITE

/-- A write condition by its code (R207). -/
theorem condOf_eq (n : Nat) :
    condOf n = if 2 < n then none else some (if n = 0 then .always else if n = 1 then .ifGreater else .ifLess) := by
  rcases n with _ | _ | _ | n <;> simp [condOf]

theorem writeValues_length (p : List Byte) : (writeValues p).length = u16At p 1 := by
  unfold writeValues
  rw [List.length_map, List.length_range]

/-- The first checks of WRITE, with those of the condition and of the selection (R168). -/
def State.writeEarly (s : State) (p : List Byte) : List (Bool × Status) :=
  [(s.inRetain, .state), (s.access.clear.isSome, .busy), (decide ((writeValues p).length = 0), .badField)]
    ++ [((condOf (u8At p 0)).isNone, .badField)] ++ [(s.access.selection.isNone, .noSelection)]

theorem writeEarly_code (s : State) (p : List Byte) : (firstFailure (s.writeEarly p)).map Status.code =
    if s.modeCtl.mode = .steady .retain then some 0x09
    else if s.access.clear.isSome then some 0x08
    else if u16At p 1 = 0 ∨ 2 < u8At p 0 then some 0x03
    else if s.access.selection = none then some 0x15
    else none := by
  have count : decide ((writeValues p).length = 0) = true ↔ u16At p 1 = 0 := by
    rw [decide_eq_true_iff, writeValues_length]
  have cond : (condOf (u8At p 0)).isNone = true ↔ 2 < u8At p 0 := by
    rw [condOf_eq]
    split <;> simp_all
  rw [ite_or]
  exact firstFailure_cons (inRetain_iff s) (firstFailure_cons Iff.rfl (firstFailure_cons count (firstFailure_cons cond
    (firstFailure_cons Option.isNone_iff_eq_none rfl))))

/-- What WRITE does under a condition with the selected region (R168, R169). -/
def State.writeOn (r : Request) (cond : WriteCond) (k : Selection) (q : Region) (s : State) : State :=
  let values := writeValues r.payload
  s.checked r (s.writeChecks k q) fun s =>
    let walk := k.window.walk values.length k.cursor
    s.startTransfer (writeClaims s.slot q k.plane cond walk.visits values) fun rest =>
      .writing ⟨r.ticket, rest, walk.cursor, walk.wrapped⟩ 0

/-- What WRITE does with its condition (R168, R169). -/
def State.writeUnder (r : Request) (s : State) : State :=
  match condOf (u8At r.payload 0) with
  | none => s.refuse r .badField
  | some cond => s.onSelection r (State.writeOn r cond)

/-- What WRITE does (R168, R169). -/
theorem writeRequest_eq (s : State) (r : Request) :
    s.writeRequest r = s.checked r (s.writeEarly r.payload) (State.writeUnder r) := by
  have first : s.writeRequest r = s.checked r [(s.inRetain, .state), (s.access.clear.isSome, .busy),
      (decide ((writeValues r.payload).length = 0), .badField)] (State.writeUnder r) := rfl
  refine first.trans ((checked_append (bad := (condOf (u8At r.payload 0)).isNone) (status := .badField) fun _ none => ?_).trans
    (checked_append fun passed none => ?_))
  · unfold State.writeUnder
    rw [Option.isNone_iff_eq_none.mp none]
  · unfold State.writeUnder
    cases hc : condOf (u8At r.payload 0) with
    | none =>
      rw [hc, firstFailure_append] at passed
      simp [firstFailure] at passed
    | some cond =>
      unfold State.onSelection
      simp only [selected_of_none (Option.isNone_iff_eq_none.mp none)]

theorem writeChecks_code (s : State) (k : Selection) (q : Region) : (firstFailure (s.writeChecks k q)).map Status.code =
    if q.kind = .accum then some 0x0E
    else if q.kind = .history ∧ s.bound k.region = true then some 0x11
    else if q.writeLevel = .service ∧ s.link.level = .operator then some 0x0A
    else none := by
  have history : (decide (q.kind = .history) && s.bound k.region) = true ↔ q.kind = .history ∧ s.bound k.region = true := by
    rw [Bool.and_eq_true, decide_eq_true_iff]
  exact firstFailure_cons decide_eq_true_iff (firstFailure_cons history (firstFailure_cons decide_eq_true_iff rfl))

theorem writeOn_eq (s : State) (r : Request) (cond : WriteCond) (k : Selection) (q : Region) : s.writeOn r cond k q =
    s.checked r (s.writeChecks k q) fun s =>
      s.startTransfer
        (writeClaims s.slot q k.plane cond (k.window.walk (writeValues r.payload).length k.cursor).visits
          (writeValues r.payload)) fun rest =>
        .writing ⟨r.ticket, rest, (k.window.walk (writeValues r.payload).length k.cursor).cursor,
          (k.window.walk (writeValues r.payload).length k.cursor).wrapped⟩ 0 := rfl

/-- What WRITE does with a condition in its list and a selection (R168, R169). -/
theorem writeUnder_some {s : State} {r : Request} {k : Selection} {q : Region} (inList : ¬2 < u8At r.payload 0)
    (hk : s.access.selection = some k) (hq : s.region k.region = some q) : s.writeUnder r =
    s.writeOn r (if u8At r.payload 0 = 0 then .always else if u8At r.payload 0 = 1 then .ifGreater else .ifLess) k q := by
  unfold State.writeUnder
  rw [condOf_eq, if_neg inList]
  exact onSelection_some hk hq

/-- A transfer that passes the check of its count moves some lanes (R165, R168). -/
theorem badCount_of {retain clear none bad : Prop} [Decidable retain] [Decidable clear] [Decidable none] [Decidable bad]
    {state busy field noSelection : Byte} (h : (if retain then some state else if clear then some busy
      else if bad then some field else if none then some noSelection else Option.none) = Option.none) : ¬bad := by
  intro hb
  rw [if_pos hb] at h
  split at h
  · cases h
  · split at h <;> cases h

/-- Settles O47. -/
theorem readAndWriteStartTheirTransfer : Obligations.ReadAndWriteStartTheirTransfer := by
  intro s r rest unit rowOf
  have row : ∀ q plane c, q.rowOf s.slot plane c = rowOf q plane c := fun q plane c => rowOf_eq s.slot q plane c
  refine ⟨fun h => ?_, fun h => ?_⟩
  · intro count early
    have body := readRequest_eq (s.taken r rest) r
    refine ⟨fun status hs => refuses_checked (rfl : execRead s = accept _ _ s) h (by decide) (by decide) body
      (readEarly_code s count) hs, fun k q he hk hq => ?_⟩
    have passed := ((body.trans (passes_checked (readEarly_code s count) he)).trans
      (onSelection_some (s := s.taken r rest) hk hq)).trans (readOn_eq _ _ _ _)
    have late : (firstFailure [(decide (q.kind = .accum ∧ 256 < count), Status.badField)]).map Status.code =
        if q.kind = .accum ∧ 256 < count then some 0x03 else none := firstFailure_cons decide_eq_true_iff rfl
    refine ⟨fun accum many => refuses_checked (rfl : execRead s = accept _ _ s) h (by decide) (by decide) passed late
      (if_pos ⟨accum, many⟩), fun few => ?_⟩
    intro walk readOf
    have starts := passed.trans (passes_checked late (if_neg fun c => absurd (few c.1) (Nat.not_le.mpr c.2)))
    have some : count ≠ 0 := fun zero => badCount_of he (.inl zero)
    have claims : (segments (unit q) (walk.visits.map (fun c => (c, ())))).map readOf =
        readClaims s.slot q k.plane walk.visits := by
      have claim : readOf = readClaim s.slot q k.plane := by
        funext segment
        rw [readClaim_eq, row]
      unfold readClaims
      rw [laneUnit_eq, claim]
    obtain ⟨l', first, others, split, next, deferred, executing, mem⟩ := starts_transfer
      (rfl : execRead s = accept _ _ s) h (readClaims_ne_nil (walk_visits_ne_nil k.window k.cursor some)) starts
    exact ⟨l', first, others, claims.trans split, next, deferred, executing, mem⟩
  · intro count early
    have body := writeRequest_eq (s.taken r rest) r
    refine ⟨fun status hs => refuses_checked (rfl : execWrite s = accept _ _ s) h (by decide) (by decide) body
      (writeEarly_code s r.payload) hs, fun k q he hk hq => ?_⟩
    intro late
    have fields := not_or.mp (badCount_of he)
    have passed := ((body.trans (passes_checked (writeEarly_code s r.payload) he)).trans
      (writeUnder_some (s := s.taken r rest) fields.2 hk hq)).trans (writeOn_eq _ _ _ _ _)
    refine ⟨fun status hs => refuses_checked (rfl : execWrite s = accept _ _ s) h (by decide) (by decide) passed
      (writeChecks_code s k q) hs, fun hl => ?_⟩
    intro walk cond values writeOf
    have starts := passed.trans (passes_checked (s := s.taken r rest) (writeChecks_code s k q) hl)
    have length : (writeValues r.payload).length = count := writeValues_length r.payload
    have some : values ≠ [] := List.ne_nil_of_length_pos (by
      show 0 < (writeValues r.payload).length
      omega)
    have claims : (segments (unit q) (walk.visits.zip values)).map writeOf =
        writeClaims s.slot q k.plane cond walk.visits values := by
      have claim : writeOf = writeClaim s.slot q k.plane cond := by
        funext segment
        unfold writeClaim
        rw [row]
      unfold writeClaims
      rw [laneUnit_eq, claim]
    rw [length] at starts
    obtain ⟨l', first, others, split, next, deferred, executing, mem⟩ := starts_transfer
      (rfl : execWrite s = accept _ _ s) h (writeClaims_ne_nil (walk_visits_ne_nil k.window k.cursor fields.1) some) starts
    exact ⟨l', first, others, claims.trans split, next, deferred, executing, mem⟩

end Sys2Proof.Machine
end

section
/-! SUPPORT. The requests SET, PUSH and POP (R47 to R61). -/

namespace Sys2Proof.Machine

-- A record that has passed its checks

/-- What a POP's reply carries after the fields of a SET's: the number of records it left (R53). -/
def popTail : Option Nat → List Byte
  | none => []
  | some left => [BitVec.ofNat 8 left]

/-- The record becomes the active context at once in STOPPED and ARMED (R50). -/
theorem useContext_atOnce {u : State} {r : Request} {c : Context} {retained : List Retained} {pop : Option Nat}
    (st : u.run.st = .stopped ∨ u.run.st = .armed) : u.useContext r c retained pop =
      ({ u with run := { u.run with active := c } } : State).reply r.ticket
        ([0x00, retainedCode retained] ++ le32 u.run.phase.toNat ++ le32 u.engine.counter.toNat ++ [u.run.st.code]
          ++ popTail pop) := by
  have replied : u.useContext r c retained pop = ({ u with run := { u.run with active := c } } : State).replyOk r
      (({ u with run := { u.run with active := c } } : State).setFields retained pop) := by
    unfold State.useContext
    rcases st with st | st <;> rw [st]
  rw [replied]
  cases pop <;> rfl

/-- The record becomes the pending context in RUNNING with an item in hand or a line in the ring (R58). -/
theorem useContext_waits {u : State} {r : Request} {c : Context} {retained : List Retained} {pop : Option Nat}
    (running : u.run.st = .running) (busy : u.engine.st ≠ .between ∨ u.engine.ring ≠ []) :
    u.useContext r c retained pop =
      { u with run := { u.run with st := .draining, next := some ⟨c, r.ticket, retained, pop⟩ } } := by
  unfold State.useContext State.tryInstall
  rw [running]
  exact if_neg fun h => busy.elim (fun k => k h.1) (fun k => k h.2)

/-- The record is installed at once in RUNNING with neither (R58, R60, R61). -/
theorem useContext_installs {u : State} {r : Request} {c : Context} {retained : List Retained} {pop : Option Nat}
    (running : u.run.st = .running) (between : u.engine.st = .between) (empty : u.engine.ring = [])
    (left : ∀ n, pop = some n → n = u.run.stack.length) : u.useContext r c retained pop =
      ({ u with
        run := { u.run with active := c, next := none, phase := u.engine.nextLine }
        engine := { u.engine with stride := 0 }
        tracker := u.tracker.closeAll .contextChange
        link := u.link.offerAll (u.tracker.closeNotices .contextChange) } : State).reply r.ticket
        ([0x00, retainedCode retained] ++ le32 u.engine.nextLine.toNat ++ le32 u.engine.counter.toNat ++ [0x02]
          ++ popTail pop) := by
  have keeps : ({ u.run with active := c, next := none, phase := u.engine.nextLine } : Run) =
      { u.run with st := .running, active := c, next := none, phase := u.engine.nextLine } := by
    rw [← running]
  have tail : popTail pop = match pop.map (fun n => popCount n u.run.stack.length) with
      | none => []
      | some n => [byte n] := by
    cases pop with
    | none => rfl
    | some n =>
      rw [left n rfl]
      exact congrArg (fun n => [byte n]) (if_pos rfl).symm
  rw [keeps, tail]
  unfold State.useContext State.tryInstall
  rw [running]
  exact if_pos ⟨between, empty⟩

section
variable {s : State} {kind : Byte} {r : Request} {rest : List Request} {body : Request → State → State}
  {o : Host.Outcome State Fault Refusal} {c : Context} {retained : List Retained} {pop : Option Nat} {stack : List Context}

/-- A record used by an accepted request (R50, R53, R58, R60, R61). -/
theorem uses_context (he : o = accept kind body s) (h : s.Accepts kind r rest)
    (hb : body r (s.taken r rest) =
      ({ s.taken r rest with run := { s.run with stack := stack } } : State).useContext r c retained pop)
    (left : ∀ n, pop = some n → n = stack.length) :
    ((s.run.st = .stopped ∨ s.run.st = .armed) →
      ∃ l', o = .next { s with run := { s.run with active := c, stack := stack }, link := l' } ∧
        s.link.Answered l' r rest ([0x00, retainedCode retained] ++ le32 s.run.phase.toNat ++ le32 s.engine.counter.toNat
          ++ [s.run.st.code] ++ popTail pop)) ∧
    (s.run.st = .running → (s.engine.st ≠ .between ∨ s.engine.ring ≠ []) →
      ∃ l', o = .next { s with
          run := { s.run with st := .draining, stack := stack, next := some ⟨c, ⟨r.kind, r.tag⟩, retained, pop⟩ }
          link := l' } ∧ s.link.Deferred l' r rest) ∧
    (s.run.st = .running → s.engine.st = .between → s.engine.ring = [] →
      ∃ l', o = .next { s with
          run := { s.run with active := c, next := none, phase := s.engine.nextLine, stack := stack }
          engine := { s.engine with stride := 0 }
          tracker := s.tracker.closeAll .contextChange
          link := l' } ∧
        Link.Answered (s.link.offerAll (s.tracker.closeNotices .contextChange)) l' r rest
          ([0x00, retainedCode retained] ++ le32 s.engine.nextLine.toNat ++ le32 s.engine.counter.toNat ++ [0x02]
            ++ popTail pop)) := by
  refine ⟨fun st => ?_, fun running busy => ?_, fun running between empty => ?_⟩
  · exact answers he h { s with run := { s.run with active := c, stack := stack } }
      (hb.trans (useContext_atOnce (u := { s.taken r rest with run := { s.run with stack := stack } }) st))
  · exact defers he h { s with run := { s.run with
      st := .draining, stack := stack, next := some ⟨c, ⟨r.kind, r.tag⟩, retained, pop⟩ } }
      (hb.trans (useContext_waits (u := { s.taken r rest with run := { s.run with stack := stack } }) running busy))
  · refine answers_link he h { s with
      run := { s.run with active := c, next := none, phase := s.engine.nextLine, stack := stack }
      engine := { s.engine with stride := 0 }
      tracker := s.tracker.closeAll .contextChange } _ (offerAll_keeps _ _) (hb.trans
        ((useContext_installs (u := { s.taken r rest with run := { s.run with stack := stack } }) running between empty
          left).trans ?_))
    have link : (s.taken r rest).link.offerAll (s.tracker.closeNotices .contextChange) = _ :=
      offerAll_taken (s.tracker.closeNotices .contextChange) s.link rest (holdOnLeave rest.length s.link.holdOut)
        (s.link.reserved ++ [r.ticket])
    rw [← link]
    rfl

end

-- Level filtering

/-- A service-only field that differs is named in the list (R47). -/
theorem retain_eq {α : Type} [DecidableEq α] (name : Retained) (given active : α) :
    retain name given active = if given ≠ active then [name] else [] := (ite_not _ _ _).symm

/-- Level filtering (R47). -/
theorem filterContext_spec (active c : Context) :
    filterContext .service active c = (c, []) ∧
    (filterContext .operator active c).1 = { c with
      w0 := active.w0, w1 := active.w1, profile := active.profile, accum := active.accum, history := active.history,
      excluded := active.excluded } ∧
    (filterContext .operator active c).2 =
      (if c.w0 ≠ active.w0 then [Retained.w0] else []) ++ (if c.w1 ≠ active.w1 then [.w1] else [])
        ++ (if c.profile ≠ active.profile then [.profileRegion] else [])
        ++ (if c.accum ≠ active.accum then [.accumRegion] else [])
        ++ (if c.history ≠ active.history then [.historyRegion] else [])
        ++ (if c.excluded ≠ active.excluded then [.excluded] else []) := by
  refine ⟨rfl, rfl, ?_⟩
  simp only [← retain_eq]
  rfl

-- SET

/-- The first check of SET and POP (R50, R53). -/
theorem draining_code (s : State) : (firstFailure [(decide (s.run.st = .draining), Status.busy)]).map Status.code =
    if s.run.st = .draining then some 0x08 else none := firstFailure_cons decide_eq_true_iff rfl

/-- What SET does with its record (R50). -/
def State.setRecord (r : Request) (s : State) : State :=
  match contextOf r.payload with
  | none => s.refuse r .badField
  | some given =>
    let f := filterContext s.link.level s.run.active given
    s.checked r (s.contextChecks f.1) fun s => s.useContext r f.1 f.2 none

theorem setRequest_eq (s : State) (r : Request) :
    s.setRequest r = s.checked r [(decide (s.run.st = .draining), .busy)] (State.setRecord r) := rfl

theorem setRecord_carried {s : State} {r : Request} (inRange : Context.InRange r.payload) :
    s.setRecord r = s.checked r (s.contextChecks (filterContext s.link.level s.run.active (Context.Carried r.payload)).1)
      fun s' => s'.useContext r (filterContext s.link.level s.run.active (Context.Carried r.payload)).1
        (filterContext s.link.level s.run.active (Context.Carried r.payload)).2 none := by
  unfold State.setRecord
  rw [contextOf_eq, if_pos inRange]

/-- Settles O48. -/
theorem setInstallsOrMakesPending : Obligations.SetInstallsOrMakesPending := by
  refine ⟨filterContext_spec, fun s r rest h => ?_⟩
  have body := setRequest_eq (s.taken r rest) r
  have record : s.run.st ≠ .draining → (s.taken r rest).setRequest r = (s.taken r rest).setRecord r :=
    fun other => body.trans (passes_checked (draining_code s) (if_neg other))
  refine ⟨fun draining => refuses_checked (rfl : execSet s = accept _ _ s) h (by decide) (by decide) body (draining_code s)
    (if_pos draining), fun other outside => ?_, fun other inRange => ?_⟩
  · refine refuses (rfl : execSet s = accept _ _ s) h (by decide) (by decide) (st := .badField) rfl ((record other).trans ?_)
    unfold State.setRecord
    rw [contextOf_eq, if_neg outside]
  · intro f
    have checks := (record other).trans (setRecord_carried (s := s.taken r rest) inRange)
    have uses : s.ContextStatus f.1 = none → _ := fun hs =>
      uses_context (rfl : execSet s = accept _ _ s) h (stack := s.run.stack)
        (checks.trans (passes_checked (contextChecks_eq s f.1) hs)) (fun n hn => nomatch hn)
    exact ⟨fun code hs => refuses_checked (rfl : execSet s = accept _ _ s) h (by decide) (by decide) checks
      (contextChecks_eq s f.1) hs, fun hs => (uses hs).1, fun hs => (uses hs).2.1, fun hs => (uses hs).2.2⟩

-- PUSH and POP

/-- What POP does with the stack (R53). -/
def State.popRecord (r : Request) (s : State) : State :=
  match s.run.stack with
  | [] => s.refuse r .empty
  | top :: rest =>
    let f := filterContext s.link.level s.run.active top
    s.checked r (s.contextChecks f.1) fun s =>
      ({ s with run := { s.run with stack := rest } }).useContext r f.1 f.2 (some rest.length)

theorem popRequest_eq (s : State) (r : Request) :
    s.popRequest r = s.checked r [(decide (s.run.st = .draining), .busy)] (State.popRecord r) := rfl

theorem popRecord_nil {s : State} {r : Request} (empty : s.run.stack = []) : s.popRecord r = s.refuse r .empty := by
  unfold State.popRecord
  rw [empty]

theorem popRecord_cons {s : State} {r : Request} {top : Context} {left : List Context} (stack : s.run.stack = top :: left) :
    s.popRecord r = s.checked r (s.contextChecks (filterContext s.link.level s.run.active top).1) fun s' =>
      ({ s' with run := { s'.run with stack := left } }).useContext r (filterContext s.link.level s.run.active top).1
        (filterContext s.link.level s.run.active top).2 (some left.length) := by
  unfold State.popRecord
  rw [stack]

theorem pushRequest_eq (s : State) (r : Request) :
    s.pushRequest r = s.checked r [(decide (4 ≤ s.run.stack.length), .stackFull)] fun s =>
      ({ s with run := { s.run with stack := s.run.active :: s.run.stack } }).replyOk r [byte (s.run.stack.length + 1)] := rfl

theorem stackFull_code (s : State) : (firstFailure [(decide (4 ≤ s.run.stack.length), Status.stackFull)]).map Status.code =
    if 4 ≤ s.run.stack.length then some 0x14 else none := firstFailure_cons decide_eq_true_iff rfl

/-- Settles O49. -/
theorem pushAndPopMoveTheTopRecord : Obligations.PushAndPopMoveTheTopRecord := by
  intro s r rest
  refine ⟨fun h => ?_, fun h => ?_⟩
  · have body := pushRequest_eq (s.taken r rest) r
    refine ⟨fun few => ?_, fun full => refuses_checked (rfl : execPush s = accept _ _ s) h (by decide) (by decide) body
      (stackFull_code s) (if_pos full)⟩
    exact answers (rfl : execPush s = accept _ _ s) h
      { s with run := { s.run with stack := s.run.active :: s.run.stack } }
      (body.trans ((passes_checked (stackFull_code s) (if_neg (Nat.not_le.mpr few))).trans rfl))
  · have body := popRequest_eq (s.taken r rest) r
    have record : s.run.st ≠ .draining → (s.taken r rest).popRequest r = (s.taken r rest).popRecord r :=
      fun other => body.trans (passes_checked (draining_code s) (if_neg other))
    refine ⟨fun draining => refuses_checked (rfl : execPop s = accept _ _ s) h (by decide) (by decide) body
      (draining_code s) (if_pos draining), fun other empty => ?_, fun top left other stack => ?_⟩
    · exact refuses (rfl : execPop s = accept _ _ s) h (by decide) (by decide) (st := .empty) rfl
        ((record other).trans (popRecord_nil (s := s.taken r rest) empty))
    · intro f
      have checks := (record other).trans (popRecord_cons (s := s.taken r rest) stack)
      have uses : s.ContextStatus f.1 = none → _ := fun hs =>
        uses_context (rfl : execPop s = accept _ _ s) h (stack := left)
          (checks.trans (passes_checked (contextChecks_eq s f.1) hs)) (fun n hn => (Option.some.inj hn).symm)
      exact ⟨fun code hs => refuses_checked (rfl : execPop s = accept _ _ s) h (by decide) (by decide) checks
        (contextChecks_eq s f.1) hs, fun hs => (uses hs).1, fun hs => (uses hs).2.1, fun hs => (uses hs).2.2⟩

end Sys2Proof.Machine
end

section
/-! SUPPORT. The requests START and STOP (R55, R56, R65 to R67). -/

namespace Sys2Proof.Machine

-- START

theorem powered_iff (s : State) : s.powered = true ↔ s.modeCtl.mode = .steady .active := decide_eq_true_iff

theorem badRegion_iff (s : State) (kind : RegionKind) (field : Option Nat) :
    s.badRegion kind field = true ↔ field ≠ none ∧ s.regionOfKind kind field = none := by
  unfold State.badRegion
  rw [Bool.and_eq_true, Option.isSome_iff_ne_none, Option.isNone_iff_eq_none]

theorem notLoaded_iff (s : State) (c : Context) :
    s.notLoaded c = true ↔ ∀ q, s.regionOfKind .profile c.profile = some q → q.loaded = false := by
  unfold State.notLoaded
  cases s.regionOfKind .profile c.profile <;> simp

theorem namesClearTarget_iff (s : State) (c : Context) :
    s.namesClearTarget c = true ↔ ∃ w, s.access.clear = some w ∧ c.names w.region = true := by
  unfold State.namesClearTarget
  cases s.access.clear <;> simp

/-- The trigger of a code (R207). -/
def triggerNamed (code : Nat) : Trigger := if code = 0 then .now else .atTrig

theorem triggerOf_eq (n : Nat) : triggerOf n = if 1 < n then none else some (triggerNamed n) := by
  rcases n with _ | _ | n <;> simp [triggerOf, triggerNamed]

/-- The first checks of START, with that of its trigger (R55). -/
def State.startEarly (s : State) (p : List Byte) : List (Bool × Status) :=
  [(!s.powered, .state), (decide (s.run.st ≠ .stopped), .state)] ++ [((triggerOf (u8At p 0)).isNone, .badField)]

/-- What START does with its trigger (R55, R56). -/
def State.startOn (r : Request) (s : State) : State :=
  match triggerOf (u8At r.payload 0) with
  | none => s.refuse r .badField
  | some trigger =>
    s.checked r s.startChecks fun s =>
      (s.beginRun trigger (BitVec.ofNat 32 (u32At r.payload 1))).replyOk r
        ([byte s.run.active.ringCapacity] ++ le16 s.lanes)

/-- What START does: its checks are one list (R55). -/
theorem startRequest_eq (s : State) (r : Request) : s.startRequest r =
    s.checked r (s.startEarly r.payload ++ s.startChecks) fun s =>
      (s.beginRun (triggerNamed (u8At r.payload 0)) (BitVec.ofNat 32 (u32At r.payload 1))).replyOk r
        ([byte s.run.active.ringCapacity] ++ le16 s.lanes) := by
  have first : s.startRequest r = s.checked r [(!s.powered, .state), (decide (s.run.st ≠ .stopped), .state)]
      (State.startOn r) := rfl
  have early : s.startRequest r = s.checked r (s.startEarly r.payload) (State.startOn r) := by
    refine first.trans (checked_append fun _ none => ?_)
    unfold State.startOn
    rw [Option.isNone_iff_eq_none.mp none]
  rw [early]
  unfold State.checked
  rw [firstFailure_append]
  cases passed : firstFailure (s.startEarly r.payload) with
  | some status => rfl
  | none =>
    by_cases past : 1 < u8At r.payload 0
    · unfold State.startEarly at passed
      rw [firstFailure_append, triggerOf_eq, if_pos past] at passed
      simp [firstFailure] at passed
    · show s.startOn r = _
      unfold State.startOn
      rw [triggerOf_eq, if_neg past]
      rfl

/-- The checks of START in their order (R55). -/
theorem startChecks_code (s : State) (p : List Byte) :
    let c := s.run.active
    (firstFailure (s.startEarly p ++ s.startChecks)).map Status.code =
      if s.modeCtl.mode ≠ .steady .active then some 0x09
      else if s.run.st ≠ .stopped then some 0x09
      else if 1 < u8At p 0 then some 0x03
      else if s.geometry = none then some 0x0C
      else if s.regionOfKind .profile c.profile = none then some 0x0E
      else if s.regionOfKind .accum c.accum = none then some 0x0E
      else if c.history ≠ none ∧ s.regionOfKind .history c.history = none then some 0x0E
      else if s.entriesOf .profile c.profile ≤ c.entry then some 0x03
      else if s.entriesOf .accum c.accum < (c.depth + c.stride - 1) / c.stride then some 0x10
      else if ∀ q, s.regionOfKind .profile c.profile = some q → q.loaded = false then some 0x12
      else if ∃ w, s.access.clear = some w ∧ c.names w.region = true then some 0x08
      else none := by
  intro c
  have off : (!s.powered) = true ↔ s.modeCtl.mode ≠ .steady .active := by
    rw [Bool.not_eq_true', ← Bool.not_eq_true, powered_iff]
  have trigger : (triggerOf (u8At p 0)).isNone = true ↔ 1 < u8At p 0 := by
    rw [triggerOf_eq]
    split <;> simp_all
  have absent : ∀ o : Option Region, o.isNone = true ↔ o = none := fun _ => Option.isNone_iff_eq_none
  have unfixed : s.geometry.isNone = true ↔ s.geometry = none := Option.isNone_iff_eq_none
  exact firstFailure_cons off (firstFailure_cons decide_eq_true_iff (firstFailure_cons trigger (firstFailure_cons unfixed
    (firstFailure_cons (absent _) (firstFailure_cons (absent _) (firstFailure_cons (badRegion_iff s _ _)
    (firstFailure_cons decide_eq_true_iff (firstFailure_cons decide_eq_true_iff (firstFailure_cons (notLoaded_iff s c)
    (firstFailure_cons (namesClearTarget_iff s c) rfl))))))))))

/-- Settles O50. -/
theorem startBeginsARunOrIsRefusedInOrder : Obligations.StartBeginsARunOrIsRefusedInOrder := by
  intro s r rest h c trigger status
  have body := startRequest_eq (s.taken r rest) r
  refine ⟨fun code hs => refuses_checked (rfl : execStart s = accept _ _ s) h (by decide) (by decide) body
    (startChecks_code s r.payload) hs, fun hs => ?_⟩
  have run : (triggerNamed trigger).runState = if trigger = 0 then .running else .armed := apply_ite Trigger.runState _ _ _
  have port : (triggerNamed trigger).portState = if trigger = 0 then .ready else .waitTrig := apply_ite Trigger.portState _ _ _
  have engine : (triggerNamed trigger).engineState = if trigger = 0 then .between else .idle :=
    apply_ite Trigger.engineState _ _ _
  rw [← run, ← port, ← engine]
  exact answers (rfl : execStart s = accept _ _ s) h
    (s.beginRun (triggerNamed trigger) (BitVec.ofNat 32 (u32At r.payload 1)))
    (body.trans ((passes_checked (startChecks_code s r.payload) hs).trans rfl))

-- STOP

/-- The state with what a discarded LINE item has committed taken back (R67). -/
theorem takeBackItem_form (s : State) : s.takeBackItem = { s with
    tracker := { s.tracker with table := s.TakenBack.tracker.table }, link := s.TakenBack.link } := by
  rw [takeBackItem_eq]
  unfold State.TakenBack
  cases s.engine.st <;> rfl

/-- The link with a pending context's deferred reply queued (R66). -/
def State.stopLink (s : State) : Link :=
  match s.run.next with
  | none => s.TakenBack.link
  | some p => s.TakenBack.link.Filled p.ticket (p.answer 0 s.engine.counter 0x00 s.run.stack.length)

theorem stopRun_none {u : State} (none : u.run.next = .none) :
    u.stopRun = { u with run := { u.run with st := .stopped, next := .none, phase := 0 } } := by
  have run : ({ u.run with st := .stopped, next := .none, phase := 0 } : Run) = { u.run with st := .stopped, phase := 0 } := by
    rw [← none]
  unfold State.stopRun
  rw [run, none]

theorem stopRun_some {u : State} {p : PendingContext} (some : u.run.next = .some p) : u.stopRun = { u with
    run := { u.run with active := p.context, next := none, st := .stopped, phase := 0 }
    link := u.link.Filled p.ticket (p.answer 0 u.engine.counter 0x00 u.run.stack.length) } := by
  unfold State.stopRun
  rw [some]
  simp only [replyPending_eq]
  rfl

/-- The state with everything of the run's work discarded (R65, R67). -/
theorem abandonRun_eq (s : State) : s.abandonRun = { s with
    store := s.store.withdrawEngine
    port := { Port.cold with counter := s.port.counter, lval := s.port.lval }
    engine := { s.engine with st := .idle, ring := [], mean := none }
    tester := { s.tester with st := .idle, runs := [], overflow := 0 }
    tracker := { s.tracker with st := .idle, table := s.TakenBack.tracker.table }
    history := s.history.abandon
    link := s.TakenBack.link } := by
  unfold State.abandonRun
  rw [takeBackItem_form]

/-- What STOP does to a run that is not STOPPED, before its reply (R65, R66, R67). -/
theorem stopEffect_eq (s : State) : s.abandonRun.stopRun.closeAll .runStopped = { s with
    store := s.store.withdrawEngine
    run := { s.run with
      st := .stopped, active := match s.run.next with | some p => p.context | none => s.run.active, next := none, phase := 0 }
    port := { Port.cold with counter := s.port.counter, lval := s.port.lval }
    engine := { s.engine with st := .idle, ring := [], mean := none }
    tester := { s.tester with st := .idle, runs := [], overflow := 0 }
    tracker := { s.tracker with
      st := .idle, table := []
      reported := s.tracker.reported + BitVec.ofNat 32 (s.TakenBack.tracker.closeNotices .runStopped).length }
    history := s.history.abandon
    link := s.stopLink.offerAll (s.TakenBack.tracker.closeNotices .runStopped) } := by
  have abandoned := abandonRun_eq s
  have next : s.abandonRun.run.next = s.run.next := congrArg (fun u => u.run.next) abandoned
  unfold State.stopLink
  cases hn : s.run.next with
  | none =>
    rw [stopRun_none (next.trans hn), abandoned]
    rfl
  | some p =>
    rw [stopRun_some (next.trans hn), abandoned]
    rfl

/-- Taking a request and answering it at once, where what was done to the link in between has changed the reserved entries
and the replies too. -/
theorem answered_of_reserved {b l' : Link} {r : Request} {rest : List Request} {payload : List Byte}
    {reserved : List Ticket} (perm : (reserved.erase r.ticket).Perm b.reserved)
    (h : Link.Settled (({ b with
        inbound := rest, holdOut := holdOnLeave rest.length b.holdOut, reserved := reserved } : Link).reply r.ticket payload)
      l') : Link.Answered b l' r rest payload := by
  have reserved' : l'.reserved = reserved.erase r.ticket := by
    rw [h]
    rfl
  refine ⟨reserved' ▸ perm, ?_⟩
  rw [h]
  rfl

/-- The link with a discarded item's notice taken back, as the request that is taken leaves it. -/
theorem takenBack_taken (s : State) (r : Request) (rest : List Request) :
    (s.taken r rest).TakenBack.tracker = s.TakenBack.tracker ∧
      (s.taken r rest).TakenBack.link = { s.TakenBack.link with
        inbound := rest, holdOut := holdOnLeave rest.length s.TakenBack.link.holdOut
        reserved := s.TakenBack.link.reserved ++ [r.ticket] } := by
  have engine : (s.taken r rest).engine = s.engine := rfl
  have before : (s.taken r rest).before = s.before := rfl
  unfold State.TakenBack
  rw [engine, before]
  cases s.engine.st with
  | line w => cases s.before.warned <;> exact ⟨rfl, rfl⟩
  | idle | between | loss first count reasons => exact ⟨rfl, rfl⟩

/-- A ticket appended and erased leaves the tickets that an erased one leaves. -/
theorem erase_append_erase_perm (l : List Ticket) (p t : Ticket) : (((l ++ [t]).erase p).erase t).Perm (l.erase p) := by
  rw [List.erase_comm]
  exact (erase_append_perm l t).erase p

/-- The link that STOP leaves before its notices, as the request that is taken leaves it. -/
theorem stopLink_taken (s : State) (r : Request) (rest : List Request) :
    ∃ reserved, (s.taken r rest).stopLink = { s.stopLink with
        inbound := rest, holdOut := holdOnLeave rest.length s.stopLink.holdOut, reserved := reserved } ∧
      (reserved.erase r.ticket).Perm s.stopLink.reserved := by
  have next : (s.taken r rest).run.next = s.run.next := rfl
  unfold State.stopLink
  rw [(takenBack_taken s r rest).2, next]
  cases s.run.next with
  | none => exact ⟨_, rfl, erase_append_perm _ _⟩
  | some p => exact ⟨_, rfl, erase_append_erase_perm _ _ _⟩

/-- What STOP does with a run that is STOPPED, and with any other (R65). -/
theorem stopRequest_stopped {s : State} {r : Request} (stopped : s.run.st = .stopped) :
    s.stopRequest r = s.replyOk r (s.stopFields ⟨0, 0, 0⟩ 0) := if_pos stopped

theorem stopRequest_running {s : State} {r : Request} (going : s.run.st ≠ .stopped) : s.stopRequest r =
    (s.abandonRun.stopRun.closeAll .runStopped).replyOk r
      (s.stopFields s.discards (s.takeBackItem.tracker.closeNotices .runStopped).length) := if_neg going

/-- The history writer abandons its line (R158). -/
theorem abandon_spec (h : History) :
    h.abandon.st = .idle ∧ h.abandon.hold = h.hold ∧ h.abandon.unstored = h.unstored ∧ h.abandon.written = h.written ∧
      h.abandon.writePos = h.writePos ∧ (h.st = .idle → h.abandon = h) ∧
      ∀ line, (h.st = .filing line ∨ ∃ left, h.st = .storing line left) →
        h.abandon.result = none ∧ h.abandon.index = Table.drop h.index line.entry := by
  unfold History.abandon
  cases hst : h.st with
  | idle => exact ⟨hst, rfl, rfl, rfl, rfl, fun _ => rfl, fun line hl => by simp at hl⟩
  | storing line left =>
    refine ⟨rfl, rfl, rfl, rfl, rfl, (fun x => nomatch x), fun line' hl => ?_⟩
    rcases hl with hl | ⟨left', hl⟩ <;> cases hl
    exact ⟨rfl, rfl⟩
  | filing line =>
    refine ⟨rfl, rfl, rfl, rfl, rfl, (fun x => nomatch x), fun line' hl => ?_⟩
    rcases hl with hl | ⟨left', hl⟩ <;> cases hl
    exact ⟨rfl, rfl⟩

/-- A bank after the withdrawal of its ENGINE claims (R16). -/
theorem withdrawEngine_spec (st : Store) (i : Fin 4) :
    let b := st.banks.get i
    let b' := st.withdrawEngine.banks.get i
    b' = { b with granted := b'.granted, engineClaim := none } ∧ (b.granted = none → b'.granted = none) ∧
      ∀ g, b.granted = some g →
        b'.granted = some (if g.use.claimant = .engine then { g with use := .discarded .engine } else g) := by
  intro b b'
  have get : b' = b.withdrawEngine := withdrawEngine_get st i
  rw [get]
  exact ⟨rfl, fun h => congrArg (Option.map _) h, fun g h => congrArg (Option.map _) h⟩

/-- Settles O51. -/
theorem stopEndsTheRun : Obligations.StopEndsTheRun := by
  intro s r rest h
  refine ⟨fun stopped => answers (rfl : execStop s = accept _ _ s) h s
    ((stopRequest_stopped (s := s.taken r rest) stopped).trans rfl), fun going => ?_⟩
  intro u reports active
  obtain ⟨reserved, link, perm⟩ := stopLink_taken s r rest
  obtain ⟨tracker, -⟩ := takenBack_taken s r rest
  have discarded : (s.taken r rest).takeBackItem.tracker.closeNotices .runStopped = reports := by
    rw [takeBackItem_eq, tracker]
  have offered : (s.taken r rest).stopLink.offerAll reports = { s.stopLink.offerAll reports with
      inbound := rest, holdOut := holdOnLeave rest.length (s.stopLink.offerAll reports).holdOut, reserved := reserved } := by
    rw [link, offerAll_taken, (offerAll_keeps reports s.stopLink).2.2]
  have body : (s.taken r rest).stopRequest r = _ := stopRequest_running (s := s.taken r rest) going
  rw [stopEffect_eq, discarded, tracker, offered] at body
  obtain ⟨idle, hold, unstored, written, writePos, kept, dropped⟩ := abandon_spec s.history
  refine ⟨_, s.store.withdrawEngine, s.history.abandon, s.stopLink,
    (accept_of_accepts h _).trans (congrArg (fun t => Host.Outcome.next (State.settleLink t)) body), rfl,
    withdrawEngine_spec s.store, idle, hold, unstored, written, writePos, kept, dropped, fun none => ?_, fun p some => ?_, ?_⟩
  · unfold State.stopLink
    rw [none]
  · unfold State.stopLink
    rw [some]
  · have perm' : (reserved.erase r.ticket).Perm (s.stopLink.offerAll reports).reserved := by
      rw [(offerAll_keeps reports s.stopLink).1]
      exact perm
    exact answered_of_reserved perm' (settled_settleLink _)

end Sys2Proof.Machine
end

section
/-! SUPPORT. The activation of a line, its samples, its end, and a line too long (R74 to R78, R82). -/

namespace Sys2Proof.Machine

-- The port at a sampling edge

/-- An activation edge begins a line (R70, R74). -/
theorem edge_begins_line {p : Port} {g : Geometry} (limit : Word) (x : Sample) (h : p.wasActive g = false) :
    p.edge limit g (g.lvalLevel == .high) x = { p.activate limit x with lval := some (g.lvalLevel == .high) } := by
  simp only [Port.edge, h, (isActive_eq g).1]

/-- An active edge after an active one is a further sample (R70, R76). -/
theorem edge_takes_sample {p : Port} {g : Geometry} (limit : Word) (x : Sample) (h : p.wasActive g = true) :
    p.edge limit g (g.lvalLevel == .high) x =
      { p.takeSample limit g.pixels x with lval := some (g.lvalLevel == .high) } := by
  simp only [Port.edge, h, (isActive_eq g).1]

theorem takeSample_stores {p : Port} {n : Word} {slot : Fin 4} {stored : List Sample} {pixels : Nat} (limit : Word)
    (x : Sample) (hst : p.st = .filling n slot) (hslot : p.slots.get slot = some stored) (room : stored.length < pixels) :
    p.takeSample limit pixels x = { p with slots := p.slots.set slot (some (stored ++ [x])) } := by
  simp only [Port.takeSample, hst, hslot, Option.getD_some, if_pos room]

theorem takeSample_discards {p : Port} (limit : Word) (pixels : Nat) (x : Sample) (hst : p.st = .discarding) :
    p.takeSample limit pixels x = p := by
  simp only [Port.takeSample, hst]

/-- Sample P + 1 is taken as LONG (R78; log 14). -/
theorem takeSample_full {p : Port} {n : Word} {slot : Fin 4} {stored : List Sample} {pixels : Nat} (limit : Word)
    (x : Sample) (hst : p.st = .filling n slot) (hslot : p.slots.get slot = some stored) (full : stored.length = pixels) :
    p.takeSample limit pixels x = p.longLine limit pixels := by
  simp only [Port.takeSample, hst, hslot, Option.getD_some, if_neg (Nat.not_lt.mpr full.ge)]

theorem longLine_full {p : Port} {n : Word} {slot : Fin 4} {stored : List Sample} {pixels : Nat} (limit : Word)
    (hst : p.st = .filling n slot) (hslot : p.slots.get slot = some stored) (full : stored.length = pixels) :
    p.longLine limit pixels = { p.lose n slot .ofLong with
      st := if limit ≠ 0 ∧ n + 1 = limit then .off else .discarding } := by
  simp only [Port.longLine, hst, hslot, Option.getD_some, if_pos full, lastLine, decide_eq_true_eq]

theorem isFull_of {p : Port} {n : Word} {slot : Fin 4} {stored : List Sample} {pixels : Nat}
    (hst : p.st = .filling n slot) (hslot : p.slots.get slot = some stored) (full : stored.length = pixels) :
    p.isFull pixels = true := by
  simp only [Port.isFull, hst, hslot, Option.getD_some, full, decide_true]

/-- A filling line that ends with exactly P samples is a LINE item (R76). -/
theorem endLine_full {p : Port} {n : Word} {slot : Fin 4} {stored : List Sample} {pixels : Nat} (limit : Word)
    (hst : p.st = .filling n slot) (hslot : p.slots.get slot = some stored) (full : stored.length = pixels) :
    p.endLine limit pixels = { p with st := afterLine limit n, queue := p.queue ++ [.line n slot] } := by
  simp only [Port.endLine, hst, hslot, Option.getD_some, if_pos full]

/-- A discarding line only ends (R78). -/
theorem endLine_discarding {p : Port} (limit : Word) (pixels : Nat) (hst : p.st = .discarding) :
    p.endLine limit pixels = { p with st := .ready } := by
  simp only [Port.endLine, hst]

/-- A level of LVAL that stays is recorded as it was. -/
theorem port_same_level {p : Port} {level : Option Bool} (h : p.lval = level) : { p with lval := level } = p := by
  subst h
  rfl

-- The events

section
variable {s : State} {g : Geometry} (hs : s.held = false) (hm : s.modeCtl.mode = .steady .active) (hg : s.geometry = some g)
include hs hm hg

/-- ACTIVATION in ACTIVE, with LVAL inactive before (R74). -/
theorem activation_next (first : Sample) (hl : s.port.lval = some (g.lvalLevel == .low)) :
    ∃ l', exec (.activation first) s = .next { s with
        port := { s.port.activate s.run.limit first with lval := some (g.lvalLevel == .high) }
        link := l' } ∧ Link.Settled s.link l' := by
  refine event_spec { s with
    port := { s.port.activate s.run.limit first with lval := some (g.lvalLevel == .high) } } hs ?_
  have was := wasActive_low hl
  rw [atEdge_eq hm hg, if_neg (Bool.eq_false_iff.mp was), (level_eq g).1, edge_begins_line s.run.limit first was]

/-- SAMPLE in ACTIVE, with LVAL active before and at it (R76). -/
theorem sample_next (x : Sample) (hl : s.port.lval = some (g.lvalLevel == .high)) :
    ∃ l', exec (.sample (g.lvalLevel == .high) x) s = .next { s with
        port := { s.port.takeSample s.run.limit g.pixels x with lval := some (g.lvalLevel == .high) }
        link := l' } ∧ Link.Settled s.link l' := by
  refine event_spec { s with
    port := { s.port.takeSample s.run.limit g.pixels x with lval := some (g.lvalLevel == .high) } } hs ?_
  rw [atEdge_eq hm hg, edge_takes_sample s.run.limit x (wasActive_high hl)]

end

/-- Settles O21, by whether a slot is free. -/
theorem activationNumbersTheLine : Obligations.ActivationNumbersTheLine := by
  intro s g first hs hm hg hl hr below active
  obtain ⟨l', next, settled⟩ := activation_next hs hm hg first hl
  rw [activate_eq first hr below] at next
  refine ⟨fun slot free lower => ⟨l', ?_, settled⟩, fun taken => ⟨l', ?_, settled⟩⟩
  · rw [next, lowestFree_some free lower]
  · rw [next, lowestFree_none taken]
    simp only [lastLine, decide_eq_true_eq]
    rfl

/-- Settles O22, by the port's state. -/
theorem samplesFillALineToItsEnd : Obligations.SamplesFillALineToItsEnd := by
  intro s g hs hm hg hl
  refine ⟨fun n slot stored x hst hslot room => ?_, fun n slot stored hst hslot full => ?_, fun hst => ⟨fun x => ?_, ?_⟩⟩
  · obtain ⟨l', next, settled⟩ := sample_next hs hm hg x hl
    refine ⟨l', ?_, settled⟩
    have same := port_same_level (p := { s.port with slots := s.port.slots.set slot (some (stored ++ [x])) }) hl
    rw [next, takeSample_stores s.run.limit x hst hslot room, same]
  · obtain ⟨l', next, settled⟩ := lineEnd_next hs hm hg hl
    refine ⟨l', ?_, settled⟩
    rw [next, endLine_full s.run.limit hst hslot full, afterLine_eq]
  · obtain ⟨l', next, settled⟩ := sample_next hs hm hg x hl
    refine ⟨l', ?_, settled⟩
    rw [next, takeSample_discards s.run.limit g.pixels x hst, port_same_level hl]
  · obtain ⟨l', next, settled⟩ := lineEnd_next hs hm hg hl
    refine ⟨l', ?_, settled⟩
    rw [next, endLine_discarding s.run.limit g.pixels hst]

/-- Settles O24: LONG and a SAMPLE there find the same full line. -/
theorem longLineIsLost : Obligations.LongLineIsLost := by
  intro s g n slot stored x hs hm hg hl hst hslot full
  have was := wasActive_high hl
  let lost : Port := { s.port with
    st := if s.run.limit ≠ 0 ∧ n + 1 = s.run.limit then .off else .discarding
    slots := s.port.slots.set slot none
    queue := placeLoss n .ofLong s.port.queue }
  have line : s.port.longLine s.run.limit g.pixels = lost := longLine_full s.run.limit hst hslot full
  have level : { lost with lval := some (g.lvalLevel == .high) } = lost := port_same_level hl
  have long : exec .long s = .next ({ s with port := lost } : State).settleLink := by
    show execLong s = _
    unfold execLong
    rw [awake_of_awake hs, atEdge_eq hm hg, was, isFull_of hst hslot full, (level_eq g).1, line, level]
    rfl
  have sample : exec (.sample (g.lvalLevel == .high) x) s = .next ({ s with port := lost } : State).settleLink := by
    show execSample _ x s = _
    unfold execSample
    rw [awake_of_awake hs, atEdge_eq hm hg, edge_takes_sample s.run.limit x was,
      takeSample_full s.run.limit x hst hslot full, line, level]
  obtain ⟨l', next, settled⟩ := settled_next { s with port := lost } rfl
  exact ⟨l', long.trans next, settled, sample.trans long.symm⟩

end Sys2Proof.Machine
end

section
/-! SUPPORT. The banks: opens, closes, the arrival of claims, the arbiter under load, and one access on the lanes (R3 to
R19). -/

namespace Sys2Proof.Machine

/-- Settles O11, by the specifications of the two kinds of access. -/
theorem writeAndAddChangeTheirLanes : Obligations.WriteAndAddChangeTheirLanes := by
  refine ⟨fun epoch row m cond values once => ?_, fun epoch row m addends once k w hk =>
    addLanes_spec epoch row addends once m k w hk⟩
  obtain ⟨lanes, written⟩ := writeLanes_spec epoch row cond values once m
  refine ⟨fun l v hl => (lanes l v hl).trans ?_, written⟩
  simp only [holds_iff]

-- The arbiter under load

/-- Below a count of 8 an ENGINE claim is served first, and the ACCESS claim is passed over (R14, R15). -/
theorem serve_passes {b : Bank} {a : Claim} (ha : b.accessClaim = some a) (below : b.passOver < 8) (e : Claim) :
    (b.serve e).accessClaim = some a ∧ (b.serve e).passOver = b.passOver + 1 := by
  unfold Bank.serve
  rw [grant_engine_of_passOver_lt (b := { b with granted := none, engineClaim := some e }) rfl ha below]
  exact ⟨ha, rfl⟩

/-- At a count of 8 the ACCESS claim is granted (R15). -/
theorem serve_grants {b : Bank} {a : Claim} (ha : b.accessClaim = some a) (full : b.passOver = 8) (e : Claim) :
    (b.serve e).granted = some a ∧ (b.serve e).passOver = 0 := by
  unfold Bank.serve Bank.grant
  simp [ha, full, Config.maxPassOver]

/-- As many ENGINE grants as are left to 8 bring the count to 8, the ACCESS claim still waiting (R13, R14). -/
theorem serve_all_passes {a : Claim} (engine : List Claim) : ∀ b : Bank, b.accessClaim = some a → b.passOver ≤ 8 →
    engine.length = 8 - b.passOver →
    (engine.foldl Bank.serve b).accessClaim = some a ∧ (engine.foldl Bank.serve b).passOver = 8 := by
  induction engine with
  | nil =>
    intro b ha most length
    exact ⟨ha, by simp only [List.length_nil] at length; simp only [List.foldl_nil]; omega⟩
  | cons e rest ih =>
    intro b ha most length
    simp only [List.length_cons] at length
    obtain ⟨waits, counted⟩ := serve_passes ha (by omega) e
    exact ih (b.serve e) waits (by omega) (by omega)

/-- Settles O13. -/
theorem accessWaitsForAtMostEightEngineGrants : Obligations.AccessWaitsForAtMostEightEngineGrants := by
  refine ⟨fun b a engine last ha most length => ?_, fun st c => ?_⟩
  · obtain ⟨waits, full⟩ := serve_all_passes engine b ha most length
    exact serve_grants waits full last
  · intro inStore
    refine ⟨fun free => presentAccess_free c ?_, fun busy => presentAccess_busy c ((accessUnderWay_iff st).mpr busy),
      fun none => ?_, fun some => ?_⟩
    · rw [← Bool.not_eq_true, accessUnderWay_iff]
      exact free
    · unfold Store.admitAccess
      rw [none]
    · have same : ({ st with accessReady := .some c } : Store) = st := by rw [← some]
      unfold Store.presentAccess
      rw [same]

-- The arrival of an ENGINE claim

/-- A bank's free ENGINE place, by the claims that are ready for the bank (R4; log 6). -/
theorem present_takes (st : Store) (bank : Fin 4) :
    let here := List.filter (fun k : Claim => decide (k.row % 4 = bank.val))
    let takes := fun (k : Claim) => st.banks.set bank { st.banks.get bank with engineClaim := some k }
    ((st.banks.get bank).engineClaim ≠ none → st.present bank = st) ∧
    ((st.banks.get bank).engineClaim = none →
      (here st.engineReady ≠ [] → ∃ k ∈ here st.engineReady, ∃ d, st.present bank = { st with
        engineReady := st.engineReady.erase k, draws := d, banks := takes k }) ∧
      (here st.engineReady = [] → here st.testerReady ≠ [] → ∃ k ∈ here st.testerReady, ∃ d, st.present bank = { st with
        testerReady := st.testerReady.erase k, draws := d, banks := takes k }) ∧
      (here st.engineReady = [] → here st.testerReady = [] → here st.historyReady ≠ [] →
        ∃ k ∈ here st.historyReady, ∃ d, st.present bank = { st with
          historyReady := st.historyReady.erase k, draws := d, banks := takes k }) ∧
      (here st.engineReady = [] → here st.testerReady = [] → here st.historyReady = [] → st.present bank = st)) := by
  intro here takes
  have empty : ∀ l : List Claim, here l = [] ↔ ∀ k ∈ l, k.row % 4 ≠ bank.val := by
    intro l
    simp only [here, List.filter_eq_nil_iff, decide_eq_true_eq]
  have member : ∀ {l : List Claim} {k : Claim}, k ∈ l → k.row % 4 = bank.val → k ∈ here l :=
    fun hk hr => List.mem_filter.mpr ⟨hk, decide_eq_true hr⟩
  refine ⟨fun taken => present_stays (.inl taken), fun free => ?_⟩
  rcases present_spec st bank with ⟨same, h | none⟩ | ⟨-, k, d, hr, h⟩
  · exact absurd free h
  · have ready : ∀ l, (∀ k ∈ l, k ∈ st.engineReady ++ st.testerReady ++ st.historyReady) → here l = [] :=
      fun l sub => (empty l).mpr fun k hk => none k (sub k hk)
    have engine := ready st.engineReady (fun k hk => by simp [hk])
    have tester := ready st.testerReady (fun k hk => by simp [hk])
    have history := ready st.historyReady (fun k hk => by simp [hk])
    exact ⟨fun h => absurd engine h, fun _ h => absurd tester h, fun _ _ h => absurd history h, fun _ _ _ => same⟩
  · rcases h with ⟨hk, next⟩ | ⟨hk, none, next⟩ | ⟨hk, none, next⟩
    · have some := List.ne_nil_of_mem (member hk hr)
      exact ⟨fun _ => ⟨k, member hk hr, d, next⟩, fun h => absurd h some, fun h => absurd h some, fun h => absurd h some⟩
    · have engine := (empty st.engineReady).mpr none
      have some := List.ne_nil_of_mem (member hk hr)
      exact ⟨fun h => absurd engine h, fun _ _ => ⟨k, member hk hr, d, next⟩, fun _ h => absurd h some,
        fun _ h => absurd h some⟩
    · have engine := (empty st.engineReady).mpr fun j hj => none j (List.mem_append_left _ hj)
      have tester := (empty st.testerReady).mpr fun j hj => none j (List.mem_append_right _ hj)
      have some := List.ne_nil_of_mem (member hk hr)
      exact ⟨fun h => absurd engine h, fun _ h => absurd tester h, fun _ _ _ => ⟨k, member hk hr, d, next⟩,
        fun _ _ h => absurd h some⟩

-- The end of an open and of a close

theorem bankOpenComplete_opens {s : State} {bank : Fin 4} {row : Nat} (on : s.held = false)
    (opening : (s.store.banks.get bank).st = .opening row) :
    ∃ l', exec (.bankOpenComplete bank) s = .next { s with
        store := { s.store with banks := s.store.banks.set bank { s.store.banks.get bank with st := .opened row } }
        link := l' } ∧ Link.Settled s.link l' := by
  show ∃ l', execBankOpenComplete bank s = _ ∧ _
  unfold execBankOpenComplete
  refine event_spec { s with store := { s.store with
    banks := s.store.banks.set bank { s.store.banks.get bank with st := .opened row } } } on ?_
  simp only [opening]

theorem bankCloseComplete_opens {s : State} {bank : Fin 4} {c : Claim} (on : s.held = false)
    (closing : (s.store.banks.get bank).st = .closing) (granted : (s.store.banks.get bank).granted = some c) :
    ∃ l', exec (.bankCloseComplete bank) s = .next { s with
        store := { s.store with banks := s.store.banks.set bank { s.store.banks.get bank with st := .opening (c.row / 4) } }
        link := l' } ∧ Link.Settled s.link l' := by
  show ∃ l', execBankCloseComplete bank s = _ ∧ _
  unfold execBankCloseComplete
  refine event_spec { s with store := { s.store with
    banks := s.store.banks.set bank { s.store.banks.get bank with st := .opening (c.row / 4) } } } on ?_
  simp only [closing, granted]
  rfl

/-- The store with a bank come to IDLE (R5). -/
def Store.closed (st : Store) (bank : Fin 4) : Store :=
  { st with banks := st.banks.set bank { st.banks.get bank with st := .idle } }

theorem closed_get (st : Store) (bank : Fin 4) :
    (st.closed bank).banks.get bank = { st.banks.get bank with st := .idle } := Four.get_set_self _ _ _

theorem closed_get_ne (st : Store) {bank i : Fin 4} (h : i ≠ bank) : (st.closed bank).banks.get i = st.banks.get i :=
  Four.get_set_ne _ _ h

/-- The banks are all IDLE after a close where the other banks are (R8). -/
theorem closed_allIdle (st : Store) (bank : Fin 4) :
    (st.closed bank).allIdle = true ↔ ∀ i, i ≠ bank → (st.banks.get i).st = .idle := by
  unfold Store.allIdle
  simp only [Four.all_iff, decide_eq_true_eq]
  refine ⟨fun h i hi => by rw [← closed_get_ne st hi]; exact h i, fun h i => ?_⟩
  by_cases hi : i = bank
  · rw [hi, closed_get]
  · rw [closed_get_ne st hi]
    exact h i hi

theorem bankCloseComplete_settles {s : State} {bank : Fin 4} (on : s.held = false)
    (closing : (s.store.banks.get bank).st = .closing) (granted : (s.store.banks.get bank).granted = none) :
    ∃ l', exec (.bankCloseComplete bank) s = .next { s with store := (s.store.closed bank).settle, link := l' } ∧
      Link.Settled s.link l' := by
  show ∃ l', execBankCloseComplete bank s = _ ∧ _
  unfold execBankCloseComplete
  refine event_spec { s with store := (s.store.closed bank).settle } on ?_
  simp only [closing, granted]
  rw [← granted]
  rfl

/-- Self-refresh entry and the urgent run wait for the array to be READY and all banks IDLE (R11, R19). -/
theorem settle_grants {st : Store} (entry : ¬(st.entryOrdered = true ∧ st.array = .ready ∧ st.allIdle = true))
    (urgent : ¬(st.urgent = true ∧ st.array = .ready ∧ st.allIdle = true)) : st.settle = st.settleBanks := by
  unfold Store.settle Store.enterSelfRefresh Store.startUrgent
  rw [if_neg entry, if_neg (fun h => urgent ⟨h.1, h.2.1, h.2.2.1⟩)]

/-- The urgent run in force starts where all banks are IDLE (R11). -/
theorem settle_urgent {st : Store} (urgent : st.urgent = true) (entry : st.entryOrdered = false)
    (ready : st.array = .ready) (idle : st.allIdle = true) :
    st.settle = ({ st with array := .refreshing, work := .debt } : Store).settleBanks := by
  unfold Store.settle
  rw [enterSelfRefresh_none entry]
  unfold Store.startUrgent
  rw [if_pos ⟨urgent, ready, idle, entry⟩]

/-- An ordered self-refresh entry is made where all banks are IDLE (R19). -/
theorem settle_enters {st : Store} (entry : st.entryOrdered = true) (ready : st.array = .ready)
    (idle : st.allIdle = true) :
    st.settle = ({ st with
      array := .selfRefresh, work := .none, debt := 0, urgent := false, entryOrdered := false } : Store).settleBanks := by
  unfold Store.settle Store.enterSelfRefresh
  rw [if_pos ⟨entry, ready, idle⟩, startUrgent_none rfl]

/-- The close that leaves all banks IDLE (R11, R19; log 27). -/
theorem bankCloseComplete_allIdle {s : State} {bank : Fin 4} (on : s.held = false)
    (closing : (s.store.banks.get bank).st = .closing) (granted : (s.store.banks.get bank).granted = none)
    (ready : s.store.array = .ready) (others : ∀ i, i ≠ bank → (s.store.banks.get i).st = .idle) :
    (s.store.urgent = true → s.store.entryOrdered = false →
      ∃ t, exec (.bankCloseComplete bank) s = .next t ∧ t.store.array = .refreshing ∧ t.store.work = .debt ∧
        t.store.debt = s.store.debt ∧ t.store.pointer = s.store.pointer ∧ t.store.mem = s.store.mem ∧
        ∀ i, (t.store.banks.get i).st = .idle) ∧
    (s.store.entryOrdered = true →
      ∃ t, exec (.bankCloseComplete bank) s = .next t ∧ t.store.array = .selfRefresh ∧ t.store.work = .none ∧
        t.store.debt = 0 ∧ t.store.urgent = false ∧ t.store.entryOrdered = false ∧
        t.store.pointer = s.store.pointer ∧ t.store.mem = s.store.mem ∧
        ∀ i, (t.store.banks.get i).st = .idle ∧
          (t.store.banks.get i).passOver = (s.store.banks.get i).passOver) := by
  have idle := (closed_allIdle s.store bank).mpr others
  have each : ∀ i, ((s.store.closed bank).banks.get i).st = .idle ∧
      ((s.store.closed bank).banks.get i).passOver = (s.store.banks.get i).passOver := by
    intro i
    by_cases hi : i = bank
    · rw [hi, closed_get]
      exact ⟨rfl, rfl⟩
    · rw [closed_get_ne s.store hi]
      exact ⟨others i hi, rfl⟩
  obtain ⟨l', next, -⟩ := bankCloseComplete_settles on closing granted
  refine ⟨fun urgent entry => ?_, fun entry => ?_⟩
  · rw [settle_urgent (st := s.store.closed bank) urgent entry ready idle] at next
    obtain ⟨mem, array, work, debt, -, pointer, -⟩ := store_fields (store_settleBanks_background
      ({ s.store.closed bank with array := .refreshing, work := .debt } : Store))
    exact ⟨_, next, array, work, debt, pointer, mem, fun i => (settleBanks_forbidden rfl i).1.trans (each i).1⟩
  · rw [settle_enters (st := s.store.closed bank) entry ready idle] at next
    obtain ⟨mem, array, work, debt, urgent, pointer, -, ordered⟩ := store_fields (store_settleBanks_background
      ({ s.store.closed bank with
        array := .selfRefresh, work := .none, debt := 0, urgent := false, entryOrdered := false } : Store))
    refine ⟨_, next, array, work, debt, urgent, ordered, pointer, mem, fun i => ?_⟩
    obtain ⟨st, -, passOver⟩ := settleBanks_forbidden (st := { s.store.closed bank with
      array := .selfRefresh, work := .none, debt := 0, urgent := false, entryOrdered := false }) rfl i
    exact ⟨st.trans (each i).1, passOver.trans (each i).2⟩

/-- The close of a bank to which no access is granted, where it leaves the rest to grant decisions (R5, R14, R15; log 7). -/
theorem bankCloseComplete_decides {s : State} {bank : Fin 4} (on : s.held = false)
    (closing : (s.store.banks.get bank).st = .closing) (granted : (s.store.banks.get bank).granted = none) :
    let b := s.store.banks.get bank
    let otherBusy := ∃ i, i ≠ bank ∧ (s.store.banks.get i).st ≠ .idle
    let decides := s.store.array = .ready ∧ s.store.urgent = false ∧ (s.store.entryOrdered = false ∨ otherBusy)
    let waits := s.store.array ≠ .ready ∨ (s.store.urgent = true ∧ otherBusy)
    (decides ∨ waits) →
    ∃ t, exec (.bankCloseComplete bank) s = .next t ∧ t = { s with store := t.store, link := t.link } ∧
      Link.Settled s.link t.link ∧
      t.store = { s.store with
        banks := t.store.banks, engineReady := t.store.engineReady, testerReady := t.store.testerReady,
        historyReady := t.store.historyReady, draws := t.store.draws } ∧
      (∀ e, decides → b.engineClaim = some e → b.accessClaim = none →
        (t.store.banks.get bank).granted = some e ∧ (t.store.banks.get bank).st = .opening (e.row / 4) ∧
          (t.store.banks.get bank).accessClaim = none ∧ (t.store.banks.get bank).passOver = b.passOver) ∧
      (∀ e a, decides → b.engineClaim = some e → b.accessClaim = some a → b.passOver < 8 →
        (t.store.banks.get bank).granted = some e ∧ (t.store.banks.get bank).st = .opening (e.row / 4) ∧
          (t.store.banks.get bank).accessClaim = some a ∧ (t.store.banks.get bank).passOver = b.passOver + 1) ∧
      (∀ a, decides → b.accessClaim = some a →
        ((b.engineClaim = none ∧ s.store.NoneReady bank) ∨ (b.engineClaim ≠ none ∧ 8 ≤ b.passOver)) →
        t.store.banks.get bank = { b with
          st := .opening (a.row / 4), granted := some a, accessClaim := none, passOver := 0 }) ∧
      (waits → (b.engineClaim ≠ none ∨ s.store.NoneReady bank) → t.store.banks.get bank = { b with st := .idle }) ∧
      (b.engineClaim = none → b.accessClaim = none → s.store.NoneReady bank →
        t.store.banks.get bank = { b with st := .idle }) ∧
      ∀ i, i ≠ bank →
        (((s.store.banks.get i).st ≠ .idle ∧ ((s.store.banks.get i).engineClaim ≠ none ∨ s.store.NoneReady i)) ∨
          ((s.store.banks.get i).engineClaim = none ∧ (s.store.banks.get i).accessClaim = none ∧ s.store.NoneReady i)) →
        t.store.banks.get i = s.store.banks.get i := by
  intro b otherBusy decides waits h
  have busy : otherBusy → ¬(s.store.closed bank).allIdle = true := fun ⟨i, hi, other⟩ idle =>
    other ((closed_allIdle s.store bank).mp idle i hi)
  have grants : (s.store.closed bank).settle = (s.store.closed bank).settleBanks := by
    refine settle_grants (fun ⟨entry, ready, idle⟩ => ?_) (fun ⟨urgent, ready, idle⟩ => ?_)
    · rcases h with ⟨-, -, no | other⟩ | notReady | ⟨-, other⟩
      · exact absurd (entry.symm.trans no) (by decide)
      · exact busy other idle
      · exact notReady ready
      · exact busy other idle
    · rcases h with ⟨-, calm, -⟩ | notReady | ⟨-, other⟩
      · exact absurd (urgent.symm.trans calm) (by decide)
      · exact notReady ready
      · exact busy other idle
  have permitted : decides → (s.store.closed bank).permitted = true := by
    rintro ⟨ready, calm, -⟩
    show (decide (s.store.array = .ready) && !s.store.urgent) = true
    rw [decide_eq_true ready, calm]
    rfl
  have forbidden : waits → (s.store.closed bank).permitted = false := by
    show _ → (decide (s.store.array = .ready) && !s.store.urgent) = false
    rintro (notReady | ⟨urgent, -⟩)
    · rw [decide_eq_false notReady]
      rfl
    · rw [urgent, Bool.not_true, Bool.and_false]
  have here := closed_get s.store bank
  have hereEngine : ((s.store.closed bank).banks.get bank).engineClaim = b.engineClaim := by rw [here]
  have hereAccess : ((s.store.closed bank).banks.get bank).accessClaim = b.accessClaim := by rw [here]
  have herePassOver : ((s.store.closed bank).banks.get bank).passOver = b.passOver := by rw [here]
  have grant : decides → _ := fun d => settleBanks_grants (permitted d) (congrArg Bank.st here)
  obtain ⟨l', next, settled⟩ := bankCloseComplete_settles on closing granted
  rw [grants] at next
  refine ⟨_, next, rfl, settled, ?_, fun e d he ha => ?_, fun e a d he ha below => ?_, fun a d ha hc => ?_, fun w arrive => ?_,
    fun he ha none => ?_, fun i hi stays => ?_⟩
  · exact settleBanks_frame (s.store.closed bank)
  · obtain ⟨granted, st, access, passOver⟩ := (grant d).1 e (hereEngine.trans he)
      (fun a ha' => by rw [hereAccess, ha] at ha'; cases ha')
    rw [hereAccess, if_pos ha, herePassOver] at passOver
    exact ⟨granted, st, access.trans (hereAccess.trans ha), passOver⟩
  · obtain ⟨granted, st, access, passOver⟩ := (grant d).1 e (hereEngine.trans he) (fun _ _ => herePassOver ▸ below)
    rw [hereAccess, if_neg (by rw [ha]; exact Option.some_ne_none a), herePassOver] at passOver
    exact ⟨granted, st, access.trans (hereAccess.trans ha), passOver⟩
  · have taken := (grant d).2 a (hereAccess.trans ha) (by rw [hereEngine, herePassOver]; exact hc)
    rw [here] at taken
    exact taken
  · exact (settleBanks_stays (.inl ⟨.inr (forbidden w), by rw [hereEngine]; exact arrive⟩)).trans here
  · exact (settleBanks_stays (.inr ⟨hereEngine.trans he, hereAccess.trans ha, none⟩)).trans here
  · have there := closed_get_ne s.store hi
    refine (settleBanks_stays (st := s.store.closed bank) ?_).trans there
    rw [there]
    exact stays.imp (fun h => ⟨.inl h.1, h.2⟩) id

/-- A bank of a store at which no claim waits (R9). -/
theorem noClaimWaits_closed (st : Store) (bank : Fin 4) : (st.closed bank).noClaimWaits = st.noClaimWaits := by
  have banks : (st.closed bank).banks.all (fun b => b.engineClaim.isNone && b.accessClaim.isNone) =
      st.banks.all (fun b => b.engineClaim.isNone && b.accessClaim.isNone) := by
    rw [Bool.eq_iff_iff, Four.all_iff, Four.all_iff]
    refine forall_congr' fun i => ?_
    by_cases hi : i = bank
    · rw [hi, closed_get]
    · rw [closed_get_ne st hi]
  unfold Store.noClaimWaits
  rw [banks]
  rfl

/-- Settles O9. -/
theorem banksOpenAndClose : Obligations.BanksOpenAndClose := by
  refine ⟨fun s bank row on opening => bankOpenComplete_opens on opening, fun s bank on closing =>
    ⟨fun c granted => bankCloseComplete_opens on closing granted, fun granted none calm entry => ?_,
      fun granted ready others => bankCloseComplete_allIdle on closing granted ready others,
      fun granted => bankCloseComplete_decides on closing granted⟩, fun st bank => present_takes st bank, fun st i => ?_⟩
  · have grants : (s.store.closed bank).settle = s.store.closed bank := by
      rw [settle_noEntry (st := s.store.closed bank) entry calm]
      exact settleBanks_noop _ ((noClaimWaits_closed s.store bank).trans none)
    obtain ⟨l', next, settled⟩ := bankCloseComplete_settles on closing granted
    rw [grants] at next
    exact ⟨l', next, settled⟩
  · intro b
    obtain ⟨place, decided⟩ := settleBanks_settles st i
    refine ⟨place, fun ready calm idle => decided ?_ idle⟩
    have fields := store_fields (store_settleBanks_background st)
    show (decide (st.settleBanks.array = .ready) && !st.settleBanks.urgent) = true
    rw [fields.2.1, fields.2.2.2.2.1, decide_eq_true ready, calm]
    rfl

end Sys2Proof.Machine
end

section
/-! SUPPORT. The engine takes an item (R86 to R102). -/

namespace Sys2Proof.Machine

-- LINE items

/-- A line is a start line when the engine reaches it (R87). -/
theorem startsAt_iff (run : Run) (n : Word) (e : Engine) : e.startsAt run n = true ↔
    run.next = none ∧ e.stride = 0 ∧ (run.limit = 0 ∨ n.toNat + run.active.depth - 1 < run.limit.toNat) := by
  unfold Engine.startsAt
  rw [Bool.and_eq_true, Bool.and_eq_true, Bool.or_eq_true, decide_eq_true_iff, decide_eq_true_iff, decide_eq_true_iff,
    Option.isNone_iff_eq_none]
  exact ⟨fun ⟨⟨stride, next⟩, limit⟩ => ⟨next, stride, limit⟩, fun ⟨next, stride, limit⟩ => ⟨⟨stride, next⟩, limit⟩⟩

/-- The reads of the GAIN plane of the bound entry (R28, R89). -/
theorem gainClaims_eq (s : State) : s.gainClaims = (List.range s.slot).map (fun t =>
    (⟨s.firstRow .profile s.run.active.profile + s.run.active.entry * (3 * s.slot) + t,
      .read (List.range (min 512 (s.lanes - 512 * t))), .gain t⟩ : Claim)) := by
  unfold State.gainClaims State.profileRow
  simp only [Plane.offset, Nat.zero_mul, Nat.add_zero]
  rfl

/-- A line that needs no corrected values is finished at once (R90). -/
theorem takeLine_finishes {s : State} {n : Word} {slot : Fin 4} (no : s.engine.startsAt s.run n = false)
    (empty : s.engine.ring = []) : s.takeLine n slot = s.LineEnd ⟨n, slot, s.run.active, 0, false⟩ := by
  unfold State.takeLine
  simp only [no, empty, and_self, if_true]
  exact finishLine_eq s _

/-- A line that is no start line is taken with the ring as it is (R86, R89). -/
theorem takeLine_corrects {s : State} {n : Word} {slot : Fin 4} (no : s.engine.startsAt s.run n = false)
    (some : s.engine.ring ≠ []) : s.takeLine n slot = { s with
      engine := { s.engine with st := .line ⟨n, slot, s.run.active, s.slot, false⟩ }
      store := { s.store with engineReady := s.store.engineReady ++ s.gainClaims }
      before := ⟨s.tracker.table, none⟩ } := by
  unfold State.takeLine
  simp only [no, some, and_false, if_false, Bool.false_eq_true]
  rfl

/-- A start line starts a record (R91). -/
theorem takeLine_starts {s : State} {n : Word} {slot : Fin 4} (yes : s.engine.startsAt s.run n = true) :
    s.takeLine n slot = { s with
      engine := { s.engine with
        st := .line ⟨n, slot, s.run.active, s.slot, false⟩
        ring := s.engine.ring ++ [⟨s.engine.counter, n, 0, freeEntry s.engine.ring⟩]
        counter := s.engine.counter + 1 }
      store := { s.store with engineReady := s.store.engineReady ++ s.gainClaims }
      before := ⟨s.tracker.table, none⟩ } := by
  unfold State.takeLine
  simp only [yes, Bool.true_eq_false, false_and, if_false, if_true]
  rfl

/-- The arrival of claims at the banks leaves the memory alone (R4). -/
theorem settleBanks_mem (st : Store) : st.settleBanks.mem = st.mem := (store_fields (store_settleBanks_background st)).1

/-- An item is taken, the claims it makes arrive at the banks, and the link settles (R4, R86). -/
theorem takeItem_spec {s : State} {item : QueueItem} {rest : List QueueItem} (on : s.held = false)
    (active : s.modeCtl.mode = .steady .active) (between : s.engine.st = .between) (queue : s.port.queue = item :: rest)
    {t : State} (taken : ({ s with port := { s.port with queue := rest } } : State).takeItem item = t) :
    ∃ l', exec .engineTakeItem s = .next { t with store := t.store.settleBanks, link := l' } ∧ Link.Settled t.link l' := by
  rw [engineTakeItem_next on (decide_eq_true active) between queue, taken]
  exact settled_next { t with store := t.store.settleBanks } rfl

/-- Settles O27, by whether the line is a start line and whether the ring is empty. -/
theorem lineItemIsTaken : Obligations.LineItemIsTaken := by
  intro s n slot rest on active between queue starts gain claims asked noted
  let u : State := { s with port := { s.port with queue := rest } }
  have isStart : u.engine.startsAt u.run n = true ↔ starts := startsAt_iff s.run n s.engine
  have noStart : ¬starts → u.engine.startsAt u.run n = false := fun no => by rw [← Bool.not_eq_true, isStart]; exact no
  have gains : u.gainClaims = claims := gainClaims_eq u
  have mem : asked.mem = s.store.mem := settleBanks_mem _
  refine ⟨fun yes => ?_, fun no some => ?_, fun no empty => ?_⟩
  · have taken := takeLine_starts (slot := slot) (isStart.mpr yes)
    rw [gains] at taken
    obtain ⟨l', next, settled⟩ := takeItem_spec on active between queue (item := .line n slot) taken
    obtain ⟨free, lowest, most⟩ := freeEntry_spec s.engine.ring
    exact ⟨l', freeEntry s.engine.ring, next, settled, mem, free, lowest, most⟩
  · have taken := takeLine_corrects (slot := slot) (noStart no) some
    rw [gains] at taken
    obtain ⟨l', next, settled⟩ := takeItem_spec on active between queue (item := .line n slot) taken
    exact ⟨l', next, settled, mem⟩
  · intro dealt done
    have taken : u.takeLine n slot = done := by
      rw [takeLine_finishes (noStart no) empty]
      unfold State.LineEnd
      rw [if_pos (.inr empty)]
      show State.ItemEnd _ _ = dealt.ItemEnd _
      rw [← between]
    obtain ⟨l', next, settled⟩ := takeItem_spec on active between queue (item := .line n slot) taken
    have store : done.store = s.store := itemEnd_store _ _
    rw [store] at next
    exact ⟨l', next, settled⟩

-- LOSS items

theorem nextStride_eq {stride position : Nat} (h : position < stride) :
    nextStride stride position = (position + 1) % stride := by
  unfold nextStride
  split
  · rename_i below
    exact (Nat.mod_eq_of_lt below).symm
  · rw [show position + 1 = stride by omega, Nat.mod_self]

/-- The number at a place of a LOSS item is a start line (R87, R98). -/
def Engine.startsIn (run : Run) (first : Word) (e : Engine) (i : Nat) : Bool :=
  decide (run.next = none ∧ (e.stride + i) % run.active.stride = 0 ∧
    (run.limit = 0 ∨ (first + BitVec.ofNat 32 i).toNat + run.active.depth - 1 < run.limit.toNat))

/-- How many integrated numbers a LOSS item uses up (R98). -/
def Engine.numbersUsed (run : Run) (first : Word) (count : Nat) (e : Engine) : Nat :=
  ((List.range count).filter (e.startsIn run first)).length

theorem startsIn_zero {run : Run} {e : Engine} (first : Word) (h : e.stride < run.active.stride) :
    e.startsIn run first 0 = e.startsAt run first := by
  rw [Bool.eq_iff_iff, startsAt_iff]
  unfold Engine.startsIn
  rw [decide_eq_true_iff, Nat.add_zero, Nat.mod_eq_of_lt h, BitVec.ofNat_eq_ofNat, BitVec.add_zero]

/-- The engine after one number of a LOSS item (R97, R98). -/
def Engine.lostOne (run : Run) (n : Word) (e : Engine) : Engine :=
  { e with
    ring := []
    counter := if e.startsAt run n then e.counter + 1 else e.counter
    stride := (e.stride + 1) % run.active.stride }

theorem startsIn_succ (run : Run) (first : Word) (e : Engine) (i : Nat) :
    e.startsIn run first (i + 1) = (e.lostOne run first).startsIn run (first + 1) i := by
  have number : first + BitVec.ofNat 32 (i + 1) = first + 1 + BitVec.ofNat 32 i := by
    rw [show (1 : Word) = BitVec.ofNat 32 1 from rfl, BitVec.add_assoc, ← BitVec.ofNat_add, Nat.add_comm]
  have stride : (e.stride + (i + 1)) % run.active.stride = ((e.stride + 1) % run.active.stride + i) % run.active.stride := by
    rw [Nat.mod_add_mod]
    congr 1
    omega
  unfold Engine.startsIn
  rw [number, stride]
  rfl

/-- The numbers used up are that of the first number and those of the others (R98). -/
theorem numbersUsed_succ {run : Run} {e : Engine} (first : Word) (count : Nat) (h : e.stride < run.active.stride) :
    e.numbersUsed run first (count + 1) =
      (e.lostOne run first).numbersUsed run (first + 1) count + if e.startsAt run first then 1 else 0 := by
  have rest : ((List.range count).map Nat.succ).filter (e.startsIn run first) =
      ((List.range count).filter ((e.lostOne run first).startsIn run (first + 1))).map Nat.succ := by
    rw [List.filter_map]
    exact congrArg (List.map Nat.succ) (List.filter_congr fun i _ => startsIn_succ run first e i)
  unfold Engine.numbersUsed
  rw [List.range_succ_eq_map, List.filter_cons, startsIn_zero first h, rest]
  split <;> simp

theorem loseNumbers_succ {run : Run} {e : Engine} (first : Word) (count : Nat) (h : e.stride < run.active.stride) :
    Engine.loseNumbers run (count + 1) first e =
      ((Engine.loseNumbers run count (first + 1) (e.lostOne run first)).1,
        (Engine.loseNumbers run count (first + 1) (e.lostOne run first)).2 + if e.startsAt run first then 1 else 0) := by
  unfold Engine.lostOne
  rw [← nextStride_eq h]
  rfl

/-- What the engine makes of the numbers of a LOSS item (R97, R98). -/
theorem loseNumbers_eq (run : Run) (count : Nat) : ∀ (first : Word) (e : Engine), e.stride < run.active.stride →
    Engine.loseNumbers run count first e = ({ e with
      ring := if count = 0 then e.ring else []
      counter := e.counter + BitVec.ofNat 32 (e.numbersUsed run first count)
      stride := (e.stride + count) % run.active.stride }, e.numbersUsed run first count) := by
  induction count with
  | zero =>
    intro first e h
    simp [Engine.loseNumbers, Engine.numbersUsed, Nat.mod_eq_of_lt h]
  | succ count ih =>
    intro first e h
    have stride : (e.lostOne run first).stride < run.active.stride := Nat.mod_lt _ (by omega)
    rw [loseNumbers_succ first count h, ih (first + 1) _ stride, ← numbersUsed_succ first count h]
    have counter : (e.lostOne run first).counter
        + BitVec.ofNat 32 ((e.lostOne run first).numbersUsed run (first + 1) count) =
        e.counter + BitVec.ofNat 32 (e.numbersUsed run first (count + 1)) := by
      rw [numbersUsed_succ first count h]
      unfold Engine.lostOne
      split
      · rw [BitVec.ofNat_add, BitVec.add_assoc]
        congr 1
        exact BitVec.add_comm _ _
      · rfl
    have stride' : ((e.lostOne run first).stride + count) % run.active.stride = (e.stride + (count + 1)) % run.active.stride := by
      show ((e.stride + 1) % run.active.stride + count) % run.active.stride = _
      rw [Nat.mod_add_mod]
      congr 1
      omega
    rw [counter, stride']
    simp [Engine.lostOne]

/-- Settles O28. -/
theorem lossItemCutsTheRing : Obligations.LossItemCutsTheRing := by
  intro s first count reasons rest on active between queue some _ stride starts used dealt done
  let u : State := { s with port := { s.port with queue := rest } }
  have numbers : Engine.loseNumbers s.run count first s.engine = _ := loseNumbers_eq s.run count first s.engine stride
  rw [if_neg (by omega : count ≠ 0)] at numbers
  have taken : u.takeLoss first count reasons = done := by
    unfold State.takeLoss
    simp only
    rw [show u.engine.loseNumbers u.run count first = _ from numbers, finishItem_eq _ _ _ rfl, ← Bool.decide_and]
    show State.ItemEnd _ _ = dealt.ItemEnd _
    rw [← between]
    rfl
  obtain ⟨l', next, settled⟩ := takeItem_spec on active between queue (item := .loss first count reasons) taken
  have store : done.store = s.store := itemEnd_store _ _
  rw [store] at next
  exact ⟨l', next, settled⟩

end Sys2Proof.Machine
end

section
/-! SUPPORT. The add of a line: corrected values, the operation on each ACCUM row, means (R89, R93, R94). -/

namespace Sys2Proof.Machine

/-- The corrected value of a lane of a GAIN row (R89). -/
theorem correctedRow_getElem? (s : State) (w : LineWork) (t k b : Nat) (gains : List Half) (g : Half)
    (hb : (binLanes s.binning w.context.w0 w.context.w1 (s.slotSamples w))[512 * t + k]? = some b)
    (hg : gains[k]? = some g) : (s.correctedRow w t gains)[k]? = some (min 65535 (b * g.toNat / 4096)) := by
  unfold State.correctedRow
  rw [List.getElem?_zipWith, List.getElem?_drop, hb, hg]
  rfl

-- The first line of a record

/-- The lanes that the first line of a record writes: c in the low half of a pair and 0 in the high one (R93). -/
theorem firstValues_nodup (cs : List Nat) : ∀ start : Nat, (((cs.zipIdx start).flatMap
    (fun p => [(2 * p.2, BitVec.ofNat 16 p.1), (2 * p.2 + 1, (0 : Half))])).map (·.1)).Nodup := by
  induction cs with
  | nil => exact fun _ => List.nodup_nil
  | cons c cs ih =>
    intro start
    have above : ∀ l ∈ ((cs.zipIdx (start + 1)).flatMap
        (fun p => [(2 * p.2, BitVec.ofNat 16 p.1), (2 * p.2 + 1, (0 : Half))])).map (·.1), 2 * start + 2 ≤ l := by
      intro l hl
      simp only [List.mem_map, List.mem_flatMap, List.mem_cons, List.not_mem_nil, or_false] at hl
      obtain ⟨q, ⟨p, hp, rfl | rfl⟩, rfl⟩ := hl <;>
        (have := List.le_snd_of_mem_zipIdx hp; simp only; omega)
    simp only [List.zipIdx_cons, List.flatMap_cons, List.map_cons, List.cons_append,
      List.nil_append, List.nodup_cons, List.mem_cons]
    refine ⟨?_, ?_, ih (start + 1)⟩
    · rintro (h | h)
      · omega
      · have := above _ h
        omega
    · intro h
      have := above _ h
      omega

theorem zero_append_ofNat {c : Nat} (h : c ≤ 65535) : ((0 : Half) ++ BitVec.ofNat 16 c : Word) = BitVec.ofNat 32 c := by
  apply BitVec.eq_of_toNat_eq
  rw [BitVec.toNat_append]
  simp
  omega

/-- After the first line of a record a wide lane is its corrected value (R93). -/
theorem addOp_first {epoch row : Nat} {m : Memory} {cs : List Nat} {k c : Nat} {depth : Nat} (deep : 2 ≤ depth)
    (least : c ≤ 65535) (hk : cs[k]? = some c) :
    Memory.wide epoch (m.perform epoch row (addOp depth 1 cs)).1 row k = BitVec.ofNat 32 c := by
  have op : addOp depth 1 cs = .write .always (cs.zipIdx.flatMap
      (fun p => [(2 * p.2, BitVec.ofNat 16 p.1), (2 * p.2 + 1, (0 : Half))])) := by
    unfold addOp
    rw [if_neg (by omega), if_pos rfl]
  obtain ⟨lanes, -⟩ := writeLanes_spec epoch row .always _ (firstValues_nodup cs 0) m
  have mem : (c, k) ∈ cs.zipIdx := List.mk_mem_zipIdx_iff_getElem?.mpr hk
  rw [op]
  have low : Memory.lane epoch (m.perform epoch row (.write .always _)).1 (laneAddr row (2 * k)) = BitVec.ofNat 16 c :=
    (lanes (2 * k) (BitVec.ofNat 16 c) (List.mem_flatMap.mpr ⟨_, mem, by simp⟩)).trans (if_pos rfl)
  have high : Memory.lane epoch (m.perform epoch row (.write .always _)).1 (laneAddr row (2 * k + 1)) = 0 :=
    (lanes (2 * k + 1) 0 (List.mem_flatMap.mpr ⟨_, mem, by simp⟩)).trans (if_pos rfl)
  unfold Memory.wide
  rw [low, high]
  exact zero_append_ofNat least

/-- After a further line a wide lane is raised by its corrected value (R93). -/
theorem addOp_next {epoch row : Nat} {m : Memory} {cs : List Nat} {k c : Nat} {depth added : Nat} (more : 2 ≤ added)
    (below : added < depth) (hk : cs[k]? = some c) :
    Memory.wide epoch (m.perform epoch row (addOp depth added cs)).1 row k = Memory.wide epoch m row k + BitVec.ofNat 32 c := by
  have op : addOp depth added cs = .add (cs.zipIdx.map (fun p => (p.2, BitVec.ofNat 32 p.1))) := by
    unfold addOp
    rw [if_neg (by omega), if_neg (by omega)]
  have once : ((cs.zipIdx.map (fun p => (p.2, BitVec.ofNat 32 p.1))).map (·.1)).Nodup := by
    rw [List.map_map, show ((fun q : Nat × Word => q.1) ∘ fun p : Nat × Nat => (p.2, BitVec.ofNat 32 p.1)) = Prod.snd from rfl,
      List.zipIdx_map_snd]
    exact List.nodup_range'
  rw [op]
  exact addLanes_spec epoch row _ once m k _
    (List.mem_map.mpr ⟨(c, k), List.mk_mem_zipIdx_iff_getElem?.mpr hk, rfl⟩)

/-- A row read as storage lanes gives its 32-bit values (R2). -/
theorem wideValues_getElem? : ∀ (l : List Half) (k : Nat) (lo hi : Half), l[2 * k]? = some lo → l[2 * k + 1]? = some hi →
    (wideValues l)[k]? = some (hi ++ lo)
  | [], _, _, _, h, _ => by simp at h
  | [_], _, _, _, _, h => by simp at h
  | a :: b :: rest, 0, lo, hi, h0, h1 => by
    cases h0
    cases h1
    rfl
  | a :: b :: rest, k + 1, lo, hi, h0, h1 => wideValues_getElem? rest k lo hi h0 h1

/-- With its D-th line a record is read (R94). -/
theorem addOp_last {epoch row : Nat} {m : Memory} {cs : List Nat} {k c : Nat} {depth : Nat} (hk : cs[k]? = some c) :
    (m.perform epoch row (addOp depth depth cs)).1 = m ∧
      (wideValues (m.perform epoch row (addOp depth depth cs)).2.values)[k]? = some (Memory.wide epoch m row k) := by
  have op : addOp depth depth cs = .read (List.range (2 * cs.length)) := if_pos le_rfl
  have length : k < cs.length := (List.getElem?_eq_some_iff.mp hk).1
  rw [op]
  refine ⟨rfl, wideValues_getElem? _ k _ _ ?_ ?_⟩
  · show ((List.range (2 * cs.length)).map _)[2 * k]? = _
    rw [List.getElem?_map, List.getElem?_range (by omega)]
    rfl
  · show ((List.range (2 * cs.length)).map _)[2 * k + 1]? = _
    rw [List.getElem?_map, List.getElem?_range (by omega)]
    rfl

-- The claims of a line

/-- The claim of one record on one ACCUM row (R93, R94). -/
theorem addClaim_eq {base slot depth u : Nat} (chunk : List Nat) (r : RingRecord) (deep : 2 ≤ depth) :
    addClaim base slot depth u chunk r =
      if chunk = [] then []
      else [⟨base + r.entry * (2 * slot) + u, addOp depth r.added chunk,
        if depth ≤ r.added then .complete u chunk else .accumulate⟩] := by
  unfold addClaim RingRecord.completes
  simp only [show depth ≠ 1 by omega, false_or, decide_eq_true_eq]

theorem addClaims_one {s : State} {w : LineWork} (ring : List RingRecord) (t : Nat) (cs : List Nat)
    (one : w.context.depth = 1) : s.addClaims w ring t cs = [] := by
  unfold State.addClaims addClaim
  simp [one]

theorem addClaims_deep {s : State} {w : LineWork} (ring : List RingRecord) (t : Nat) (cs : List Nat)
    (deep : 2 ≤ w.context.depth) : s.addClaims w ring t cs = ring.flatMap (fun r =>
      [(2 * t, cs.take 256), (2 * t + 1, cs.drop 256)].flatMap (fun p =>
        if p.2 = [] then []
        else [⟨s.firstRow .accum w.context.accum + r.entry * (2 * s.slot) + p.1, addOp w.context.depth r.added p.2,
          if w.context.depth ≤ r.added then .complete p.1 p.2 else .accumulate⟩])) := by
  unfold State.addClaims
  simp only [addClaim_eq _ _ deep, List.flatMap_cons, List.flatMap_nil, List.append_nil]

/-- The mean of values of 16 bits is one of 16 bits (R94). -/
theorem meanValue_le {depth c : Nat} {sum : Word} (some : 1 ≤ depth) (hs : sum.toNat ≤ 65535 * (depth - 1))
    (hc : c ≤ 65535) : meanValue depth sum c ≤ 65535 := by
  unfold meanValue
  refine Nat.div_le_of_le_mul ?_
  obtain ⟨d, rfl⟩ : ∃ d, depth = d + 1 := ⟨depth - 1, by omega⟩
  simp only [Nat.add_sub_cancel] at hs
  nlinarith

/-- Settles O29. -/
theorem addOperationFollowsTheLinesAdded : Obligations.AddOperationFollowsTheLinesAdded := by
  refine ⟨correctedRow_getElem?, fun epoch row depth added m cs deep some small k c hk => ⟨?_, ?_, ?_⟩,
    fun s w ring t cs => ⟨addClaims_one ring t cs, addClaims_deep ring t cs⟩,
    fun depth c sum => ⟨rfl, fun some hs hc => meanValue_le some hs hc⟩⟩
  · rintro rfl
    exact addOp_first deep (small c (List.mem_of_getElem? hk)) hk
  · exact fun more below => addOp_next more below hk
  · rintro rfl
    exact addOp_last hk

end Sys2Proof.Machine
end

section
/-! SUPPORT. TRACKER_COMMIT (R116, R138 to R141, R152). -/

namespace Sys2Proof.Machine

theorem offerAll_append (l : Link) (a b : List Notice) : l.offerAll (a ++ b) = (l.offerAll a).offerAll b :=
  List.foldl_append

/-- An offered notice finds its places (R187). -/
theorem hasRoom_iff (l : Link) : l.hasRoom = true ↔
    if l.drops = 0 then l.notices.length < 32 else l.notices.length + 2 ≤ 32 := by
  unfold Link.hasRoom
  rw [decide_eq_true_iff]
  show (if l.drops = 0 then 1 else 2) ≤ 32 - l.notices.length ↔ _
  split <;> omega

/-- The state with a line's result committed, and a test result taken by the history writer (R116, R138 to R141). -/
def State.committed (s : State) (n : Word) (runs : List LaneRun) (h : History) : State :=
  let result := trackLine s.lineContext n runs s.tester.overflow s.tracker
  let notices := defectNotices result.closed ++ trackFullNotices n result.untracked
  { s with
    before := { s.before with
      warned := if 0 < s.tester.overflow ∧ (s.link.offerAll notices).hasRoom = true then some (n, s.tester.overflow) else none }
    tracker := s.tracker.commit result
    tester := { s.tester with st := .idle, runs := [], overflow := 0 }
    history := h
    link := s.link.offerAll (notices ++ overflowNotices n s.tester.overflow) }

theorem commitLine_eq (s : State) (n : Word) (runs : List LaneRun) :
    s.commitLine n runs = s.committed n runs (s.history.Given s.tester.result) := by
  unfold State.committed
  simp only
  rw [offerAll_append _ (defectNotices _ ++ trackFullNotices _ _)]
  rfl

/-- TRACKER_COMMIT with a line at the tracker (R86, R141). -/
theorem trackerCommit_spec {s : State} {n : Word} {runs : List LaneRun} (on : s.held = false)
    (working : s.tracker.st = .working n runs) {h : History} (given : s.history.Given s.tester.result = h) {v : State}
    (hv : (s.committed n runs h).LineChecked = v) :
    ∃ l', exec .trackerCommit s = .next { v with link := l' } ∧ Link.Settled v.link l' := by
  show ∃ l', execTrackerCommit s = _ ∧ _
  unfold execTrackerCommit
  refine event_spec v on ?_
  simp only [working]
  rw [checkLine_eq, commitLine_eq, given, hv]

/-- A LINE item of which nothing is left is finished (R86). -/
theorem lineChecked_done {u : State} {w : LineWork} (line : u.engine.st = .line w) (none : w.outstanding = 0)
    (tester : u.tester.st = .idle) (history : u.history.st = .idle) : u.LineChecked = u.LineEnd w := by
  unfold State.LineChecked
  rw [line]
  exact if_pos ⟨none, tester, history⟩

/-- Settles O34, by the history writer's state. -/
theorem trackerCommitReportsTheLine : Obligations.TrackerCommitReportsTheLine := by
  intro s n runs on working result defects verdict filled finds committed answers
  have committed_eq : ∀ h, s.committed n runs h = committed h := by
    intro h
    have warned : (if 0 < s.tester.overflow ∧ filled.hasRoom = true then some (n, s.tester.overflow) else none) =
        if 0 < s.tester.overflow ∧ finds then some (n, s.tester.overflow) else none :=
      if_congr (and_congr_right fun _ => hasRoom_iff filled) rfl rfl
    unfold State.committed
    simp only [committed]
    rw [← warned]
    rfl
  have answer : ∀ {h : History} {v : State}, s.history.Given s.tester.result = h → (committed h).LineChecked = v →
      answers v := fun given hv => trackerCommit_spec on working given (committed_eq _ ▸ hv)
  have idle : s.history.st = .idle → s.history.Given s.tester.result = s.history := by
    intro idle
    unfold History.Given
    rw [idle]
  refine ⟨fun line left storing => ?_, fun line filing => ?_, fun hi => answer (idle hi) rfl, fun w hi line none =>
    answer (idle hi) (lineChecked_done line none rfl hi)⟩
  · have given : s.history.Given s.tester.result = { s.history with result := some verdict } := by
      unfold History.Given
      simp only [storing]
      rw [← storing]
      rfl
    refine answer given (lineChecked_busy (.inr ?_))
    show s.history.st ≠ .idle
    rw [storing]
    exact fun x => nomatch x
  · have given : s.history.Given s.tester.result = s.history.Recorded line verdict := by
      unfold History.Given
      rw [filing]
      rfl
    exact answer given rfl

end Sys2Proof.Machine
end

section
/-! SUPPORT. What a completed access gives to its claimant (R31, R39, R40, R89 to R95, R110 to R119, R152, R166, R169). -/

namespace Sys2Proof.Machine

-- The access unit

/-- A CLEAR's row is done and another is left (R39). -/
theorem rowCleared_next {u : State} {w : ClearWork} (clear : u.access.clear = some w) (more : w.nextRow < w.endRow) :
    u.rowCleared = ({ u with access := { u.access with clear := some { w with nextRow := w.nextRow + 1 } } } : State).presentAccess
      (u.clearClaim { w with nextRow := w.nextRow + 1 }) := by
  unfold State.rowCleared
  rw [clear]
  exact if_pos more

/-- A CLEAR's last row is done (R31, R40). -/
theorem rowCleared_done {u : State} {w : ClearWork} {q : Region} (clear : u.access.clear = some w)
    (last : w.endRow ≤ w.nextRow) (hq : u.region w.region = some q) :
    let done :=
      if q.kind = .profile ∧ w.firstEntry = 0 ∧ w.lastEntry + 1 = q.entries u.slot then { q with loaded := true } else q
    u.rowCleared = { u with
      access := { u.access with clear := none }
      regions := Table.put u.regions w.region done
      link := u.link.Filled w.ticket
        ([0x00] ++ le16 ((w.lastEntry + 1 - w.firstEntry) * q.rowsPerEntry u.slot)
          ++ [if done.loaded then 0x01 else 0x00]) } := by
  intro done
  have cleared : q.cleared u.slot w = done := by
    unfold Region.cleared ClearWork.covers
    simp only [decide_eq_true_eq]
    rfl
  have clearing : u.rowCleared = u.clearDone w := by
    unfold State.rowCleared
    rw [clear]
    exact if_neg (Nat.not_lt.mpr last)
  have target : ({ u with access := { u.access with clear := none } } : State).region w.region = some q := hq
  rw [clearing, ← flagByte_one, ← cleared]
  unfold State.clearDone
  simp only [target]
  rfl

/-- The end of a READ or WRITE: its reply, the cursor, the access unit IDLE (R166, R169). -/
theorem transferDone_eq (u : State) (x : Transfer) (payload : List Byte) : u.transferDone x payload = { u with
    access := { u.access with st := .idle, selection := u.access.selection.map (Selection.moveTo x.cursor) }
    link := { u.link.Filled x.ticket payload with executor := .idle } } := rfl

theorem segmentRead_next {u : State} {x : Transfer} {wide : Bool} {sofar values : List Half} {k : Claim} {more : List Claim}
    (reading : u.access.st = .reading x wide sofar) (claims : x.claims = k :: more) : u.segmentRead values =
      ({ u with access := { u.access with
        st := .reading { x with claims := more } wide (sofar ++ values) } } : State).presentAccess k := by
  unfold State.segmentRead
  rw [reading]
  simp only [claims]

theorem segmentRead_done {u : State} {x : Transfer} {wide : Bool} {sofar values : List Half}
    (reading : u.access.st = .reading x wide sofar) (claims : x.claims = []) : u.segmentRead values =
      u.transferDone x ([0x00] ++ le16 (if wide then (sofar ++ values).length / 2 else (sofar ++ values).length)
        ++ [if x.wrapped then 0x01 else 0x00] ++ le16 x.cursor.entry ++ le16 x.cursor.lane
        ++ (sofar ++ values).flatMap (fun v => le16 v.toNat)) := by
  rw [← flagByte_one]
  unfold State.segmentRead readBytes Cursor.bytes
  simp only [reading, claims, List.append_assoc]
  rfl

theorem segmentWritten_next {u : State} {x : Transfer} {sofar : Nat} {written : List Bool} {k : Claim} {more : List Claim}
    (writing : u.access.st = .writing x sofar) (claims : x.claims = k :: more) : u.segmentWritten written =
      ({ u with access := { u.access with
        st := .writing { x with claims := more } (sofar + written.count true) } } : State).presentAccess k := by
  unfold State.segmentWritten
  rw [writing]
  simp only [claims]

theorem segmentWritten_done {u : State} {x : Transfer} {sofar : Nat} {written : List Bool}
    (writing : u.access.st = .writing x sofar) (claims : x.claims = []) : u.segmentWritten written =
      u.transferDone x ([0x00] ++ le16 (sofar + written.count true) ++ [if x.wrapped then 0x01 else 0x00]
        ++ le16 x.cursor.entry ++ le16 x.cursor.lane) := by
  rw [← flagByte_one]
  unfold State.segmentWritten Cursor.bytes
  simp only [writing, claims, List.append_assoc]
  rfl

-- The engine

/-- The state after a GAIN row is corrected, under a mean line (R89, R93). -/
def State.corrected (u : State) (w : LineWork) (k : Nat) (gains : List Half) (mean : Option MeanLine) : State :=
  let ring := if w.added then u.engine.ring else u.engine.ring.map (fun r => { r with added := r.added + 1 })
  let claims := u.addClaims w ring k (u.correctedRow w k gains)
  { u with
    engine := { u.engine with
      st := .line { w with outstanding := w.outstanding - 1 + claims.length, added := true }
      ring := ring
      mean := mean }
    store := { u.store with engineReady := u.store.engineReady ++ claims } }

/-- A GAIN row of a line that is summed up (R89, R93). -/
theorem gainRead_deep {u : State} {w : LineWork} (k : Nat) (gains : List Half) (line : u.engine.st = .line w)
    (deep : 2 ≤ w.context.depth) : u.gainRead k gains = (u.corrected w k gains u.engine.mean).Formed w.context.depth := by
  unfold State.gainRead
  rw [line]
  simp only [if_neg (show w.context.depth ≠ 1 by omega)]
  exact checkMean_eq _ _

/-- A piece of a mean line (R94, R95). -/
theorem putMean_some {e : Engine} {depth lane : Nat} {values : List Nat} {m : RingRecord}
    (found : e.ring.find? (fun r => decide (depth ≤ r.added)) = some m) : e.putMean depth lane values = { e with
      mean := some ⟨m.number, Pieces.insert ((e.mean.map (·.pieces)).getD []) lane (values.map (BitVec.ofNat 16))⟩ } := by
  have found' : e.ring.find? (RingRecord.completes depth) = some m := found
  unfold Engine.putMean
  rw [found']

/-- A GAIN row of a line that is its own mean (R89, R94). -/
theorem gainRead_one {u : State} {w : LineWork} {m : RingRecord} (k : Nat) (gains : List Half)
    (line : u.engine.st = .line w) (one : w.context.depth = 1)
    (found : (if w.added then u.engine.ring else u.engine.ring.map (fun r => { r with added := r.added + 1 })).find?
      (fun r => decide (1 ≤ r.added)) = some m) :
    u.gainRead k gains = (u.corrected w k gains (some ⟨m.number, Pieces.insert ((u.engine.mean.map (·.pieces)).getD [])
      (512 * k) ((u.correctedRow w k gains).map (BitVec.ofNat 16))⟩)).Formed 1 := by
  have put := putMean_some (e := (u.corrected w k gains u.engine.mean).engine) (lane := 512 * k)
    (values := u.correctedRow w k gains) found
  unfold State.gainRead
  rw [line]
  simp only [one, if_true]
  rw [checkMean_eq]
  exact congrArg (fun e => State.Formed { u.corrected w k gains u.engine.mean with engine := e } 1) put

theorem accumulated_eq {u : State} {w : LineWork} (line : u.engine.st = .line w) : u.accumulated =
    ({ u with engine := { u.engine with
      st := .line { w with outstanding := w.outstanding - 1 } } } : State).Formed w.context.depth := by
  unfold State.accumulated
  rw [line]
  exact checkMean_eq _ _

/-- A row of the completing record is read (R94). -/
theorem completeRead_eq {u : State} {w : LineWork} {m : RingRecord} (k : Nat) (cs : List Nat) (values : List Half)
    (line : u.engine.st = .line w) (found : u.engine.ring.find? (fun r => decide (w.context.depth ≤ r.added)) = some m) :
    u.completeRead k cs values = ({ u with engine := { u.engine with
      st := .line { w with outstanding := w.outstanding - 1 }
      mean := some ⟨m.number, Pieces.insert ((u.engine.mean.map (·.pieces)).getD []) (256 * k)
        (((wideValues values).zipWith (fun sum x => (sum.toNat + x) / w.context.depth) cs).map (BitVec.ofNat 16))⟩ } }
      : State).Formed w.context.depth := by
  have put := putMean_some (e := { u.engine with st := .line { w with outstanding := w.outstanding - 1 } })
    (lane := 256 * k) (values := (wideValues values).zipWith (meanValue w.context.depth) cs) found
  unfold State.completeRead
  rw [line]
  simp only
  rw [put, checkMean_eq]
  rfl

-- The band tester and the history writer

/-- A bound row is read, and others are left (R110). -/
theorem boundsRead_next {u : State} {left : Nat} (lower upper : Pieces) (more : 2 ≤ left) :
    u.boundsRead lower upper left = { u with tester := { u.tester with st := .testing lower upper (left - 1) } } :=
  if_pos more

/-- The last bound row is read: the run list goes to the tracker (R112, R116). -/
theorem boundsRead_done {u : State} {w : LineWork} {m : MeanLine} {left : Nat} (lower upper : Pieces) (last : left ≤ 1)
    (line : u.engine.st = .line w) (mean : u.engine.mean = some m) :
    let scan := extractRuns w.context m.pieces.values lower.values upper.values
    u.boundsRead lower upper left = { u with
      tester := { u.tester with st := .tracking, runs := scan.runs, overflow := scan.overflow }
      tracker := { u.tracker with st := .working m.number scan.runs } } := by
  intro scan
  have context : u.lineContext = w.context := by
    unfold State.lineContext
    rw [line]
  have means : u.means = m.pieces.values := by
    unfold State.means
    rw [mean]
  have number : u.meanNumber = m.number := by
    unfold State.meanNumber
    rw [mean]
  unfold State.boundsRead
  rw [if_neg (Nat.not_lt.mpr last)]
  unfold State.extract
  rw [context, means, number]

/-- A read of a bound row at the band tester (R110). -/
theorem boundRow_read {u : State} {k left : Nat} {lo up lo' up' : Pieces} {use : ClaimUse} {r : AccessResult}
    (testing : u.tester.st = .testing lo up left)
    (row : (use = .lower k ∧ lo' = Pieces.insert lo (512 * k) r.values ∧ up' = up) ∨
      (use = .upper k ∧ lo' = lo ∧ up' = Pieces.insert up (512 * k) r.values)) :
    u.giveResult use r = (u.boundsRead lo' up' left).checkLine := by
  rcases row with ⟨rfl, rfl, rfl⟩ | ⟨rfl, rfl, rfl⟩
  · show (u.lowerRead k r.values).checkLine = _
    unfold State.lowerRead
    rw [testing]
  · show (u.upperRead k r.values).checkLine = _
    unfold State.upperRead
    rw [testing]

/-- An item whose line the band tester or the history writer holds goes on (R86, R95). -/
theorem checkLine_busy {u : State} (busy : u.tester.st ≠ .idle ∨ u.history.st ≠ .idle) : u.checkLine = u := by
  rw [checkLine_eq]
  exact lineChecked_busy busy

theorem teachWritten_next {u : State} {left : Nat} (teaching : u.tester.st = .teaching left) (more : 2 ≤ left) :
    u.teachWritten = { u with tester := { u.tester with st := .teaching (left - 1) } } := by
  unfold State.teachWritten
  rw [teaching]
  exact if_pos more

theorem teachWritten_done {u : State} {left : Nat} (teaching : u.tester.st = .teaching left) (last : left ≤ 1) :
    u.teachWritten = u.Taught := by
  unfold State.teachWritten
  rw [teaching]
  exact (if_neg (Nat.not_lt.mpr last)).trans (teachDone_eq u)

theorem rowWritten_next {h : History} {line : StoreLine} {left : Nat} (storing : h.st = .storing line left)
    (more : 2 ≤ left) : h.rowWritten = { h with st := .storing line (left - 1) } := by
  unfold History.rowWritten
  rw [storing]
  exact if_pos more

theorem rowWritten_files {h : History} {line : StoreLine} {left : Nat} (storing : h.st = .storing line left)
    (last : left ≤ 1) (none : h.result = none) : h.rowWritten = { h with st := .filing line } := by
  unfold History.rowWritten
  rw [storing]
  refine (if_neg (Nat.not_lt.mpr last)).trans ?_
  simp only [none]

theorem rowWritten_records {h : History} {line : StoreLine} {left : Nat} {r : TestResult}
    (storing : h.st = .storing line left) (last : left ≤ 1) (some : h.result = some r) :
    h.rowWritten = h.Recorded line r := by
  unfold History.rowWritten
  rw [storing]
  refine (if_neg (Nat.not_lt.mpr last)).trans ?_
  simp only [some]
  rfl

-- The whole step

/-- A completed access leaves all but the claimant's block as it was, but for the access itself (R3). -/
theorem accessComplete_background (s : State) (bank : Fin 4) (row : Nat) (c : Claim) (r : AccessResult) :
    ((((s.performed bank c).giveResult c.use r).decideAfter bank row).settleLink).background =
      (s.performed bank c).background := by
  rw [background_settleLink, background_decideAfter, background_giveResult]

/-- What a completed access leaves a state to go on with: the bank decides and the link settles (R4, R6). -/
theorem decideAfter_goesOn {g v : State} (bank : Fin 4) (row : Nat) (same : ∃ x, g = { v with link := { v.link with executor := x } }) :
    let t := (g.decideAfter bank row).settleLink
    t = { v with store := ((v.store.admitAccess.present bank).decideDone bank row).settleBanks, link := t.link } ∧
      Link.Settled v.link t.link := by
  obtain ⟨x, rfl⟩ := same
  intro t
  refine ⟨rfl, ?_⟩
  have settled := settled_settleLink (({ v with link := { v.link with executor := x } } : State).decideAfter bank row)
  unfold Link.Settled at settled ⊢
  rw [settled]
  rfl

/-- Settles O10, claimant by claimant. -/
theorem accessPerformsItsClaimAndNoMore : Obligations.AccessPerformsItsClaimAndNoMore := by
  intro s bank row c on opened granted inStore result
  let did := s.performed bank c
  let t := ((did.giveResult c.use result).decideAfter bank row).settleLink
  have background : t.background = did.background := accessComplete_background s bank row c result
  have mem : t.store.mem = (s.store.mem.perform s.store.coldEpoch c.row c.op).1 := congrArg (fun b => b.mem.1) background
  have epoch : t.store.coldEpoch = s.store.coldEpoch := congrArg (fun b => b.mem.2) background
  refine ⟨t, accessComplete_next on opened granted inStore, mem, fun a other => ?_, fun lanes read => ?_,
    congrArg (fun b => b.array.1) background, congrArg (fun b => b.array.2.2.1) background,
    congrArg (fun b => b.array.2.2.2.2.1) background, congrArg (fun b => b.array.2.2.2.1) background,
    congrArg (·.geometry) background, congrArg (·.modeCtl) background, congrArg (fun b => b.receiving.2.1) background,
    congrArg (fun b => b.receiving.2.2.1) background, congrArg (fun b => b.receiving.2.2.2.2) background,
    congrArg (fun b => b.started.1) background, congrArg (fun b => b.started.2.1) background,
    congrArg (fun b => b.started.2.2) background, congrArg (fun b => b.pins.2) background,
    congrArg (·.pending) background, ?_⟩
  · rw [epoch, mem]
    exact perform_other s.store.coldEpoch s.store.mem c.row c.op a other
  · rw [mem, read]
    rfl
  intro did' goesOn
  have gives : ∀ {v : State}, did.giveResult c.use result = v → goesOn v :=
    fun gave => decideAfter_goesOn bank row ⟨_, gave⟩
  have replies : ∀ {x : Transfer} {payload : List Byte}, did.giveResult c.use result = did.transferDone x payload →
      t.link.executor ≠ .executing ∧ goesOn { did with
        access := { s.access with st := .idle, selection := s.access.selection.map (Selection.moveTo x.cursor) }
        link := s.link.Filled x.ticket payload } := by
    intro x payload gave
    rw [transferDone_eq] at gave
    refine ⟨fun executing => ?_, decideAfter_goesOn bank row ⟨_, gave⟩⟩
    have going := (settleLink_executing _).mp executing
    rw [gave] at going
    cases going
  refine ⟨fun w use clear => ⟨fun more => gives ?_, fun q last hq => gives ?_⟩,
    fun x wide sofar use reading => ⟨fun k more claims => gives ?_, fun claims => replies ?_⟩,
    fun x sofar use writing => ⟨fun k more claims => gives ?_, fun claims => replies ?_⟩,
    fun claimant use => gives ?_, fun k w use line => ⟨fun deep => gives ?_, fun m one found => gives ?_⟩,
    fun w use line => gives ?_, fun u cs w m use line found => gives ?_,
    fun k lo up lo' up' left testing bound => ⟨fun more => gives ?_, fun w m last line mean => gives ?_⟩,
    fun left use teaching => ⟨fun more => gives ?_, fun last => gives ?_⟩,
    fun line left use storing => ⟨fun more => gives ?_, fun last none => gives ?_, fun r last some => gives ?_⟩⟩
  · rw [use]
    exact rowCleared_next (u := did) clear more
  · rw [use]
    exact rowCleared_done (u := did) clear last hq
  · rw [use]
    exact segmentRead_next (u := did) reading claims
  · rw [use]
    exact segmentRead_done (u := did) reading claims
  · rw [use]
    exact segmentWritten_next (u := did) writing claims
  · rw [use]
    exact segmentWritten_done (u := did) writing claims
  · rw [use]
    rfl
  · rw [use]
    exact (checkLine_eq _).trans (congrArg State.LineChecked (gainRead_deep (u := did) k result.values line deep))
  · rw [use]
    exact (checkLine_eq _).trans (congrArg State.LineChecked (gainRead_one (u := did) k result.values line one found))
  · rw [use]
    exact (checkLine_eq _).trans (congrArg State.LineChecked (accumulated_eq (u := did) line))
  · rw [use]
    exact (checkLine_eq _).trans (congrArg State.LineChecked (completeRead_eq (u := did) u cs result.values line found))
  · rw [boundRow_read (u := did) testing bound, boundsRead_next lo' up' more]
    exact checkLine_busy (.inl (fun x => nomatch x))
  · rw [boundRow_read (u := did) testing bound, boundsRead_done (u := did) lo' up' last line mean]
    exact checkLine_busy (.inl (fun x => nomatch x))
  · rw [use]
    show did.teachWritten.checkLine = _
    rw [teachWritten_next (u := did) teaching more]
    exact checkLine_busy (.inl (fun x => nomatch x))
  · rw [use]
    show did.teachWritten.checkLine = _
    rw [teachWritten_done (u := did) teaching last, checkLine_eq]
  · rw [use]
    show ({ did with history := s.history.rowWritten } : State).checkLine = _
    rw [rowWritten_next storing more]
    exact checkLine_busy (.inr (fun x => nomatch x))
  · rw [use]
    show ({ did with history := s.history.rowWritten } : State).checkLine = _
    rw [rowWritten_files storing last none]
    exact checkLine_busy (.inr (fun x => nomatch x))
  · rw [use]
    show ({ did with history := s.history.rowWritten } : State).checkLine = _
    rw [rowWritten_records storing last some, checkLine_eq]

end Sys2Proof.Machine
end

section
/-! SUPPORT. The steps of the tracker on one line (R129 to R141). -/

namespace Sys2Proof.Machine

-- Matches

theorem runMatches_iff (bridge : Nat) (r : LaneRun) (d : Defect) : runMatches bridge r d = true ↔
    r.polarity = d.polarity ∧ r.first ≤ d.tailMax + bridge ∧ d.tailMin ≤ r.last + bridge := decide_eq_true_iff

/-- Among records at given places, those that a run matches. -/
theorem filter_matches_nil {bridge : Nat} {r : LaneRun} {table : List Defect} (none : ∀ d ∈ table, runMatches bridge r d = false)
    (start : Nat) : (table.zipIdx start).filter (fun p => runMatches bridge r p.1) = [] := by
  rw [List.filter_eq_nil_iff]
  intro p hp
  rw [none p.1 (List.fst_mem_of_mem_zipIdx hp)]
  exact Bool.false_ne_true

/-- A run that matches no record (R131). -/
theorem matchedBy_nil {bridge : Nat} {r : LaneRun} {table : List Defect} (none : ∀ d ∈ table, runMatches bridge r d = false) :
    matchedBy bridge table r = [] := by
  unfold matchedBy
  rw [filter_matches_nil none]
  rfl

theorem zipIdx_around {α : Type} (before after : List α) (d : α) :
    (before ++ d :: after).zipIdx = before.zipIdx ++ (d, before.length) :: after.zipIdx (before.length + 1) := by
  rw [List.zipIdx_append, List.zipIdx_cons, Nat.zero_add]

/-- What picks one place alone of a table. -/
theorem filter_around {p : Defect × Nat → Bool} {before after : List Defect} {d : Defect}
    (low : ∀ q ∈ before.zipIdx, p q = false) (here : p (d, before.length) = true)
    (high : ∀ q ∈ after.zipIdx (before.length + 1), p q = false) :
    (before ++ d :: after).zipIdx.filter p = [(d, before.length)] := by
  rw [zipIdx_around, List.filter_append, List.filter_cons, if_pos here,
    List.filter_eq_nil_iff.mpr fun q hq => by rw [low q hq]; exact Bool.false_ne_true,
    List.filter_eq_nil_iff.mpr fun q hq => by rw [high q hq]; exact Bool.false_ne_true]
  rfl

/-- A run that matches one record alone (R131). -/
theorem matchedBy_one {bridge : Nat} {r : LaneRun} {before after : List Defect} {d : Defect}
    (here : runMatches bridge r d = true) (none : ∀ e ∈ before ++ after, runMatches bridge r e = false) :
    matchedBy bridge (before ++ d :: after) r = [before.length] := by
  unfold matchedBy
  rw [filter_around (fun q hq => none q.1 (List.mem_append_left _ (List.fst_mem_of_mem_zipIdx hq))) here
    (fun q hq => none q.1 (List.mem_append_right _ (List.fst_mem_of_mem_zipIdx hq)))]
  rfl

-- Steps 1 and 2

/-- The row of a record that no run has matched. -/
def LineRow.standing (d : Defect) : LineRow := ⟨d, true, false, false⟩

theorem stepTwoRow_nil (i : Word) (table : List Defect) (runs : List LaneRun) (d : Defect) (place : Nat) :
    stepTwoRow i table runs [] d place = [LineRow.standing d] := rfl

/-- Runs that match no record form no group (R132). -/
theorem groupsOf_nil {bridge : Nat} {table : List Defect} {runs : List LaneRun}
    (none : ∀ r ∈ runs, matchedBy bridge table r = []) : groupsOf bridge table runs = [] := by
  unfold groupsOf
  have stays : ∀ l : List (LaneRun × Nat), (∀ p ∈ l, matchedBy bridge table p.1 = []) →
      l.foldl (fun groups p => match matchedBy bridge table p.1 with
        | [] => groups
        | m :: ms => joinGroups groups p.2 (m :: ms)) [] = [] := by
    intro l hl
    induction l with
    | nil => rfl
    | cons p rest ih =>
      rw [List.foldl_cons, hl p List.mem_cons_self]
      exact ih fun q hq => hl q (List.mem_cons_of_mem _ hq)
  exact stays _ fun p hp => none p.1 (List.fst_mem_of_mem_zipIdx hp)

theorem flatMap_zipIdx_single {α β : Type} (f : α → β) (l : List α) (start : Nat) :
    (l.zipIdx start).flatMap (fun p => [f p.1]) = l.map f := by
  rw [← List.map_eq_flatMap]
  calc (l.zipIdx start).map (fun p => f p.1)
    _ = ((l.zipIdx start).map Prod.fst).map f := (List.map_map).symm
    _ = l.map f := by rw [List.zipIdx_map_fst]

/-- Where no run matches a record, every record stands (R132). -/
theorem stepTwo_nil {bridge : Nat} {table : List Defect} {runs : List LaneRun} (i : Word)
    (none : ∀ r ∈ runs, matchedBy bridge table r = []) : stepTwo bridge i table runs = table.map LineRow.standing := by
  unfold stepTwo
  rw [groupsOf_nil none]
  exact flatMap_zipIdx_single LineRow.standing table 0

/-- A single run forms a group with the records it matches (R132). -/
theorem groupsOf_single {bridge : Nat} {table : List Defect} {r : LaneRun} {m : Nat} {ms : List Nat}
    (matched : matchedBy bridge table r = m :: ms) : groupsOf bridge table [r] = [⟨m :: ms, [0]⟩] := by
  unfold groupsOf
  rw [List.zipIdx_cons, List.zipIdx_nil, List.foldl_cons, List.foldl_nil, matched]
  simp [joinGroups]

/-- A record outside the one group stands (R132). -/
theorem stepTwoRow_outside {i : Word} {table : List Defect} {runs : List LaneRun} {g : Group} {place : Nat} (d : Defect)
    (out : g.records.contains place = false) : stepTwoRow i table runs [g] d place = [LineRow.standing d] := by
  unfold stepTwoRow
  rw [List.find?_singleton, out]
  rfl

/-- The survivor of the one group is extended by its runs (R133, R134). -/
theorem stepTwoRow_survivor {i : Word} {table : List Defect} {r : LaneRun} {records : List Nat} {place : Nat} {d : Defect}
    {absorbed : List (Defect × Nat)} (member : records.contains place = true)
    (group : table.zipIdx.filter (fun p => records.contains p.2) = (d, place) :: absorbed) :
    stepTwoRow i table [r] [⟨records, [0]⟩] d place =
      [⟨(absorbed.foldl (fun s a => s.absorb a.1) d).extendBy i [r], true, true, false⟩] := by
  unfold stepTwoRow
  rw [List.find?_singleton]
  simp only [member, if_true, group]
  rfl

/-- An absorbed record leaves the table (R133). -/
theorem stepTwoRow_absorbed {i : Word} {table : List Defect} {runs : List LaneRun} {g : Group} {place : Nat} {d : Defect}
    {survivor : Defect × Nat} {absorbed : List (Defect × Nat)} (member : g.records.contains place = true)
    (group : table.zipIdx.filter (fun p => g.records.contains p.2) = survivor :: absorbed) (other : survivor.2 ≠ place) :
    stepTwoRow i table runs [g] d place = [] := by
  unfold stepTwoRow
  rw [List.find?_singleton]
  simp only [member, if_true, group, if_neg other]

theorem flatMap_standing {l : List (Defect × Nat)} {f : Defect × Nat → List LineRow}
    (stands : ∀ p ∈ l, f p = [LineRow.standing p.1]) : l.flatMap f = (l.map Prod.fst).map LineRow.standing := by
  rw [List.flatMap_congr stands, ← List.map_eq_flatMap, List.map_map]
  rfl

/-- A run that matches one record alone extends it, and the others stand (R131, R132, R134). -/
theorem stepTwo_one {bridge : Nat} {r : LaneRun} {before after : List Defect} {d : Defect} (i : Word)
    (here : runMatches bridge r d = true) (none : ∀ e ∈ before ++ after, runMatches bridge r e = false) :
    stepTwo bridge i (before ++ d :: after) [r] =
      before.map LineRow.standing ++ ⟨d.extendBy i [r], true, true, false⟩ :: after.map LineRow.standing := by
  have groups := groupsOf_single (matchedBy_one here none)
  have out : ∀ {place : Nat}, place ≠ before.length → [before.length].contains place = false := by
    intro place ne
    simpa using ne
  have low : ∀ p ∈ before.zipIdx, [before.length].contains p.2 = false := fun p hp =>
    out (Nat.ne_of_lt (by simpa using List.snd_lt_of_mem_zipIdx hp))
  have high : ∀ p ∈ after.zipIdx (before.length + 1), [before.length].contains p.2 = false := fun p hp =>
    out (Nat.ne_of_gt (List.le_snd_of_mem_zipIdx hp))
  have member : [before.length].contains before.length = true := by simp
  have group : (before ++ d :: after).zipIdx.filter (fun p => [before.length].contains p.2) = [(d, before.length)] :=
    filter_around low member high
  have survivor := stepTwoRow_survivor (i := i) (r := r) member group
  unfold stepTwo
  rw [groups, zipIdx_around, List.flatMap_append, List.flatMap_cons, survivor,
    flatMap_standing fun p hp => stepTwoRow_outside p.1 (low p hp),
    flatMap_standing fun p hp => stepTwoRow_outside p.1 (high p hp), List.zipIdx_map_fst, List.zipIdx_map_fst]
  rfl

end Sys2Proof.Machine
end

section
/-! SUPPORT. What a line makes of the defect table (R128 to R141). -/

namespace Sys2Proof.Machine

-- Step 3

/-- The record that a run opens (R128, R134, R135). -/
def Defect.opened (i : Word) (r : LaneRun) (id : Nat) (seq : Word) : Defect :=
  (Defect.fresh r.polarity r.first r.last r.first r.last DefectFlags.clear id seq).extendBy i [r]

/-- A new record is made where the table has room (R129, R135, R136). -/
theorem create_room {l : LineResult} (extended : Bool) (make : Nat → Word → Defect) (room : l.rows.length < 64) :
    l.create extended make = { l with
      rows := l.rows ++ [⟨make (freeId (l.rows.map (·.record.id)) l.rows.length l.nextId) l.created, false, extended, false⟩]
      nextId := idAfter (freeId (l.rows.map (·.record.id)) l.rows.length l.nextId)
      created := l.created + 1 } := if_pos room

theorem create_full {l : LineResult} (extended : Bool) (make : Nat → Word → Defect) (full : ¬l.rows.length < 64) :
    l.create extended make = { l with untracked := l.untracked + 1 } := if_neg full

/-- The row of a record that a run has opened on the line. -/
def LineRow.IsOpened (i : Word) (row : LineRow) : Prop := ∃ r id seq, row = ⟨Defect.opened i r id seq, false, true, false⟩

/-- The runs that match no record open records while there is room (R135, R139). -/
theorem openRuns_spec (i : Word) (runs : List LaneRun) : ∀ l : LineResult,
    let opened := min runs.length (64 - l.rows.length)
    let m := runs.foldl (LineResult.openRun i) l
    m.untracked = l.untracked + (runs.length - opened) ∧ m.created = l.created + BitVec.ofNat 32 opened ∧
      ∃ new, m.rows = l.rows ++ new ∧ (∀ row ∈ new, row.IsOpened i) ∧
        new.map (fun row => (row.record.polarity, row.record.laneMin, row.record.laneMax, row.record.first)) =
          (runs.take opened).map (fun r => (r.polarity, r.first, r.last, some i)) := by
  induction runs with
  | nil => exact fun l => ⟨by simp, by simp, [], by simp, by simp, by simp⟩
  | cons r rest ih =>
    intro l opened m
    by_cases room : l.rows.length < 64
    · have one : l.openRun i r = _ := create_room true (Defect.opened i r) room
      obtain ⟨untracked, created, new, rows, isOpened, fields⟩ := ih (l.openRun i r)
      have length : (l.openRun i r).rows.length = l.rows.length + 1 := by rw [one, List.length_append]; rfl
      have count : opened = min rest.length (64 - (l.openRun i r).rows.length) + 1 := by
        rw [length]
        simp only [opened, List.length_cons]
        omega
      let id := freeId (l.rows.map (·.record.id)) l.rows.length l.nextId
      refine ⟨?_, ?_, ⟨Defect.opened i r id l.created, false, true, false⟩ :: new, ?_, ?_, ?_⟩
      · rw [show m.untracked = _ from untracked, count, one, List.length_cons]
        simp only
        omega
      · rw [show m.created = _ from created, count, one, BitVec.ofNat_add, BitVec.add_comm (BitVec.ofNat 32 _),
          ← BitVec.add_assoc]
        rfl
      · rw [show m.rows = _ from rows, one, List.append_assoc]
        rfl
      · exact List.forall_mem_cons.mpr ⟨⟨r, _, _, rfl⟩, isOpened⟩
      · rw [count, List.take_succ_cons, List.map_cons, List.map_cons, fields]
        simp [Defect.opened, Defect.fresh, Defect.extendBy, Defect.takeRun]
    · have one : l.openRun i r = _ := create_full true (Defect.opened i r) room
      obtain ⟨untracked, created, new, rows, isOpened, fields⟩ := ih (l.openRun i r)
      have none : opened = 0 := by
        simp only [opened]
        omega
      have rest_none : min rest.length (64 - (l.openRun i r).rows.length) = 0 := by
        rw [one]
        simp only
        omega
      rw [rest_none] at untracked created fields
      rw [none]
      refine ⟨?_, ?_, new, ?_, isOpened, fields⟩
      · rw [show m.untracked = _ from untracked, one, List.length_cons]
        simp only
        omega
      · rw [show m.created = _ from created, one]
      · rw [show m.rows = _ from rows, one]

/-- Runs that all match a record open none (R135). -/
theorem stepThree_none {bridge : Nat} {table : List Defect} {runs : List LaneRun} (i : Word) (l : LineResult)
    (matched : ∀ r ∈ runs, matchedBy bridge table r ≠ []) : stepThree bridge i table runs l = l := by
  unfold stepThree
  rw [List.filter_eq_nil_iff.mpr fun r hr => by rw [List.isEmpty_iff]; exact matched r hr]
  rfl

/-- Runs that match no record are all runs to open (R135). -/
theorem stepThree_all {bridge : Nat} {table : List Defect} {runs : List LaneRun} (i : Word) (l : LineResult)
    (none : ∀ r ∈ runs, matchedBy bridge table r = []) :
    stepThree bridge i table runs l = runs.foldl (LineResult.openRun i) l := by
  unfold stepThree
  rw [List.filter_eq_self.mpr fun r hr => List.isEmpty_iff.mpr (none r hr)]

-- Step 4

/-- A line on which no record reaches the max span (R136). -/
theorem stepFour_none {i : Word} {maxSpan : Nat} {l : LineResult} (short : ∀ r ∈ l.rows, r.splits i maxSpan = false) :
    stepFour i maxSpan l = l := by
  have rows : l.rows.map (LineRow.split i maxSpan) = l.rows := by
    refine (List.map_congr_left fun r hr => ?_).trans (List.map_id _)
    unfold LineRow.split
    rw [short r hr]
    rfl
  unfold stepFour
  rw [List.filter_eq_nil_iff.mpr fun r hr => by rw [short r hr]; exact Bool.false_ne_true, rows]
  rfl

theorem standing_splits (i : Word) (maxSpan : Nat) (d : Defect) : (LineRow.standing d).splits i maxSpan = false := rfl

/-- A record that a line opens has a span of 1 on it (R136). -/
theorem opened_splits {i : Word} {maxSpan : Nat} {row : LineRow} (opened : row.IsOpened i) (long : 2 ≤ maxSpan) :
    row.splits i maxSpan = false := by
  obtain ⟨r, id, seq, rfl⟩ := opened
  have span : (Defect.opened i r id seq).span i = 1 := by
    show (i - i + 1).toNat = 1
    rw [BitVec.sub_self, BitVec.zero_add]
    rfl
  unfold LineRow.splits
  rw [span, decide_eq_false (by omega), Bool.and_false]

-- Step 5

/-- The records that a line's rows leave in the table, and those that close, once they have aged (R137, R138, R141). -/
def keptRows (gapLines : Nat) (rows : List LineRow) : List Defect :=
  ((rows.map (LineRow.age gapLines)).filter (fun r => !r.closed)).map (·.record)

def closedRows (gapLines : Nat) (rows : List LineRow) : List Defect :=
  ((rows.map (LineRow.age gapLines)).filter (·.closed)).map (·.record)

theorem rows_append (gapLines : Nat) (a b : List LineRow) :
    keptRows gapLines (a ++ b) = keptRows gapLines a ++ keptRows gapLines b ∧
      closedRows gapLines (a ++ b) = closedRows gapLines a ++ closedRows gapLines b := by
  unfold keptRows closedRows
  simp only [List.map_append, List.filter_append, and_self]

/-- A record that has aged by one line (R137). -/
def Defect.aged (d : Defect) : Defect := { d with idle := d.idle + 1 }

/-- The records that no run has matched age, and close beyond the gap lines (R137). -/
theorem rows_standing (gapLines : Nat) (ds : List Defect) :
    keptRows gapLines (ds.map LineRow.standing) = (ds.map Defect.aged).filter (fun d => d.idle ≤ gapLines) ∧
      closedRows gapLines (ds.map LineRow.standing) = (ds.map Defect.aged).filter (fun d => gapLines < d.idle) := by
  have stays : ∀ d : Defect, (!decide (gapLines < d.idle + 1)) = decide (d.idle + 1 ≤ gapLines) := fun d => by
    rw [← decide_not, decide_eq_decide, Nat.not_lt]
  unfold keptRows closedRows
  rw [List.map_map, List.filter_map, List.filter_map, List.filter_map, List.filter_map, List.map_map, List.map_map]
  exact ⟨congrArg (fun p => (ds.filter p).map Defect.aged) (funext stays), rfl⟩

/-- A record that was extended or opened on the line does not age (R137). -/
theorem rows_fresh {gapLines : Nat} {rows : List LineRow} (fresh : ∀ row ∈ rows, (row.old && !row.extended) = false)
    (stays : ∀ row ∈ rows, row.closed = false) :
    keptRows gapLines rows = rows.map (·.record) ∧ closedRows gapLines rows = [] := by
  have same : rows.map (LineRow.age gapLines) = rows := by
    refine (List.map_congr_left fun r hr => ?_).trans (List.map_id _)
    unfold LineRow.age
    rw [fresh r hr]
    rfl
  unfold keptRows closedRows
  rw [same, List.filter_eq_self.mpr fun r hr => by rw [stays r hr]; rfl,
    List.filter_eq_nil_iff.mpr fun r hr => by rw [stays r hr]; exact Bool.false_ne_true]
  exact ⟨rfl, rfl⟩

/-- A record that closed with a split (R136). -/
theorem rows_split (gapLines : Nat) (d : Defect) :
    keptRows gapLines [⟨d, true, true, true⟩] = [] ∧ closedRows gapLines [⟨d, true, true, true⟩] = [d] := ⟨rfl, rfl⟩

/-- The rows of a line without overflow after step 4 (R131 to R136). -/
def lineRows (c : Context) (i : Word) (runs : List LaneRun) (t : Tracker) : LineResult :=
  stepFour i c.maxSpan (stepThree c.gapBridge i t.table runs
    ⟨stepTwo c.gapBridge i t.table runs, t.nextId, t.created, 0⟩)

/-- A line's result, by its rows (R137, R138, R141). -/
theorem trackLine_zero (c : Context) (i : Word) (runs : List LaneRun) (t : Tracker) :
    (trackLine c i runs 0 t).table = keptRows c.gapLines (lineRows c i runs t).rows ∧
      (trackLine c i runs 0 t).closed = closedRows c.gapLines (lineRows c i runs t).rows ∧
      (trackLine c i runs 0 t).nextId = (lineRows c i runs t).nextId ∧
      (trackLine c i runs 0 t).created = (lineRows c i runs t).created ∧
      (trackLine c i runs 0 t).untracked = (lineRows c i runs t).untracked := by
  have unmarked : ∀ rows : List LineRow, rows.map (LineRow.markOverflow 0) = rows := List.map_id
  refine ⟨?_, ?_, rfl, rfl, rfl⟩
  · show (((_ : List LineRow).map (LineRow.markOverflow 0)).filter _).map _ = _
    rw [unmarked]
    rfl
  · show (((_ : List LineRow).map (LineRow.markOverflow 0)).filter _).map _ = _
    rw [unmarked]
    rfl

/-- Overflow marks every record that takes part in the line, and does nothing else (R140). -/
theorem trackLine_overflow (c : Context) (i : Word) (runs : List LaneRun) (overflow : Nat) (t : Tracker)
    (some : 0 < overflow) :
    let marked := List.map (fun d : Defect => { d with flags := { d.flags with overflowLine := true } })
    let plain := trackLine c i runs 0 t
    let l := trackLine c i runs overflow t
    l.table = marked plain.table ∧ l.closed = marked plain.closed ∧ l.nextId = plain.nextId ∧
      l.created = plain.created ∧ l.untracked = plain.untracked := by
  intro marked plain l
  obtain ⟨table, closed, -, -, -⟩ := trackLine_zero c i runs t
  have mark : ∀ row : LineRow, row.markOverflow overflow =
      { row with record := { row.record with flags := { row.record.flags with overflowLine := true } } } :=
    fun row => if_pos some
  refine ⟨?_, ?_, rfl, rfl, rfl⟩
  · rw [table]
    show ((((lineRows c i runs t).rows.map (LineRow.age c.gapLines)).map (LineRow.markOverflow overflow)).filter _).map _ = _
    rw [List.filter_map, List.map_map, funext mark]
    show _ = List.map _ (List.map _ _)
    rw [List.map_map]
    rfl
  · rw [closed]
    show ((((lineRows c i runs t).rows.map (LineRow.age c.gapLines)).map (LineRow.markOverflow overflow)).filter _).map _ = _
    rw [List.filter_map, List.map_map, funext mark]
    show _ = List.map _ (List.map _ _)
    rw [List.map_map]
    rfl

end Sys2Proof.Machine
end

section
/-! PROOFS. The defect table on lines with no run, with runs that match nothing, and with one run (O33). -/

namespace Sys2Proof.Machine

/-- Whether a run matches a record under a context's gap bridge (R131). -/
def Context.Matches (c : Context) (r : LaneRun) (d : Defect) : Prop :=
  r.polarity = d.polarity ∧ r.first ≤ d.tailMax + c.gapBridge ∧ d.tailMin ≤ r.last + c.gapBridge

theorem runMatches_true {c : Context} {r : LaneRun} {d : Defect} (is : c.Matches r d) :
    runMatches c.gapBridge r d = true := (runMatches_iff ..).mpr is

theorem runMatches_false {c : Context} {r : LaneRun} {d : Defect} (not : ¬c.Matches r d) :
    runMatches c.gapBridge r d = false := eq_false_of_ne_true fun is => not ((runMatches_iff ..).mp is)

-- Runs that match no record

/-- A line on which no run matches a record, before the max span is tested (R132, R135). -/
theorem lineRows_unmatched {c : Context} {runs : List LaneRun} {t : Tracker} (i : Word)
    (none : ∀ r ∈ runs, ∀ d ∈ t.table, ¬c.Matches r d) :
    lineRows c i runs t = stepFour i c.maxSpan
      (runs.foldl (LineResult.openRun i) ⟨t.table.map LineRow.standing, t.nextId, t.created, 0⟩) := by
  have unmatched : ∀ r ∈ runs, matchedBy c.gapBridge t.table r = [] := fun r hr =>
    matchedBy_nil fun d hd => runMatches_false (none r hr d hd)
  unfold lineRows
  rw [stepTwo_nil i unmatched, stepThree_all i _ unmatched]

theorem standing_short {i : Word} {maxSpan : Nat} {ds : List Defect} :
    ∀ row ∈ ds.map LineRow.standing, row.splits i maxSpan = false := by
  intro row hrow
  obtain ⟨d, -, rfl⟩ := List.mem_map.mp hrow
  rfl

/-- A line with no runs leaves the table to age (R137). -/
theorem lineRows_idle (c : Context) (i : Word) (t : Tracker) :
    lineRows c i [] t = ⟨t.table.map LineRow.standing, t.nextId, t.created, 0⟩ :=
  (lineRows_unmatched i fun r hr => nomatch (hr : r ∈ [])).trans (stepFour_none standing_short)

theorem trackLine_idle (c : Context) (i : Word) (t : Tracker) :
    (trackLine c i [] 0 t).table = (t.table.map Defect.aged).filter (fun d => d.idle ≤ c.gapLines) ∧
      (trackLine c i [] 0 t).closed = (t.table.map Defect.aged).filter (fun d => c.gapLines < d.idle) ∧
      (trackLine c i [] 0 t).nextId = t.nextId ∧ (trackLine c i [] 0 t).created = t.created ∧
      (trackLine c i [] 0 t).untracked = 0 := by
  obtain ⟨table, closed, nextId, created, untracked⟩ := trackLine_zero c i [] t
  obtain ⟨kept, gone⟩ := rows_standing c.gapLines t.table
  rw [lineRows_idle] at table closed nextId created untracked
  exact ⟨table.trans kept, closed.trans gone, nextId, created, untracked⟩

/-- A record that a line opens is kept as it is (R137). -/
theorem rows_opened {i : Word} {gapLines : Nat} {rows : List LineRow} (opened : ∀ row ∈ rows, row.IsOpened i) :
    keptRows gapLines rows = rows.map (·.record) ∧ closedRows gapLines rows = [] := by
  refine rows_fresh (fun row hrow => ?_) fun row hrow => ?_ <;>
    · obtain ⟨r, id, seq, rfl⟩ := opened row hrow
      rfl

/-- Runs that match no record open records while there is room (R135, R139). -/
theorem trackLine_opens {c : Context} {runs : List LaneRun} {t : Tracker} (i : Word) (long : 2 ≤ c.maxSpan)
    (none : ∀ r ∈ runs, ∀ d ∈ t.table, ¬c.Matches r d) :
    let opened := min runs.length (64 - t.table.length)
    let l := trackLine c i runs 0 t
    l.untracked = runs.length - opened ∧ l.created = t.created + BitVec.ofNat 32 opened ∧
      l.closed = (t.table.map Defect.aged).filter (fun d => c.gapLines < d.idle) ∧
      ∃ new, l.table = (t.table.map Defect.aged).filter (fun d => d.idle ≤ c.gapLines) ++ new ∧
        new.map (fun d => (d.polarity, d.laneMin, d.laneMax, d.first))
          = (runs.take opened).map (fun r => (r.polarity, r.first, r.last, some i)) := by
  intro opened l
  obtain ⟨table, closed, -, created, untracked⟩ := trackLine_zero c i runs t
  obtain ⟨none_left, count, new, rows, isOpened, fields⟩ :=
    openRuns_spec i runs ⟨t.table.map LineRow.standing, t.nextId, t.created, 0⟩
  have short : ∀ row ∈ t.table.map LineRow.standing ++ new, row.splits i c.maxSpan = false := fun row hrow =>
    (List.mem_append.mp hrow).elim (standing_short row) fun hnew => opened_splits (isOpened row hnew) long
  have result := (lineRows_unmatched i none).trans (stepFour_none fun row hrow => short row (rows ▸ hrow))
  obtain ⟨keptAll, closedAll⟩ := rows_append c.gapLines (t.table.map LineRow.standing) new
  obtain ⟨keptOld, closedOld⟩ := rows_standing c.gapLines t.table
  obtain ⟨keptNew, closedNew⟩ := rows_opened (gapLines := c.gapLines) isOpened
  rw [List.length_map] at none_left count fields
  rw [result] at table closed created untracked
  rw [rows, keptAll, keptOld, keptNew] at table
  rw [rows, closedAll, closedOld, closedNew, List.append_nil] at closed
  refine ⟨untracked.trans (none_left.trans (Nat.zero_add _)), created.trans count, closed, _, table, ?_⟩
  rw [List.map_map]
  exact fields

/-- On an empty table a single run opens a record with the run's lanes, area and peak (R128, R129, R134, R135). -/
theorem trackLine_first {c : Context} {r : LaneRun} {t : Tracker} (i : Word) (empty : t.table = []) (long : 2 ≤ c.maxSpan) :
    (trackLine c i [r] 0 t).table = [Defect.opened i r t.nextId t.created] ∧ (trackLine c i [r] 0 t).closed = [] ∧
      (trackLine c i [r] 0 t).created = t.created + 1 ∧ (trackLine c i [r] 0 t).nextId = idAfter t.nextId ∧
      (trackLine c i [r] 0 t).untracked = 0 := by
  have none : ∀ q ∈ [r], ∀ d ∈ t.table, ¬c.Matches q d := by
    rw [empty]
    exact fun _ _ _ hd => nomatch hd
  let row : LineRow := ⟨Defect.opened i r t.nextId t.created, false, true, false⟩
  have isOpened : ∀ q ∈ [row], q.IsOpened i := by
    intro q hq
    rw [List.mem_singleton.mp hq]
    exact ⟨r, _, _, rfl⟩
  have opens : [r].foldl (LineResult.openRun i) ⟨t.table.map LineRow.standing, t.nextId, t.created, 0⟩ =
      ⟨[row], idAfter t.nextId, t.created + 1, 0⟩ := by
    rw [empty]
    exact create_room true (Defect.opened i r) (l := ⟨[], t.nextId, t.created, 0⟩) (Nat.zero_lt_succ 63)
  have result := lineRows_unmatched i none
  rw [opens, stepFour_none fun q hq => opened_splits (isOpened q hq) long] at result
  obtain ⟨table, closed, nextId, created, untracked⟩ := trackLine_zero c i [r] t
  obtain ⟨kept, gone⟩ := rows_opened (gapLines := c.gapLines) isOpened
  rw [result] at table closed nextId created untracked
  exact ⟨table.trans kept, closed.trans gone, created, nextId, untracked⟩

theorem opened_eq {i : Word} {r : LaneRun} {id : Nat} {seq : Word} (peak : 1 ≤ r.peakDev) (count : r.count < 2 ^ 32) :
    Defect.opened i r id seq =
      { id := id, seq := seq, polarity := r.polarity, first := some i, last := some i, laneMin := r.first,
        laneMax := r.last, tailMin := r.first, tailMax := r.last, peakDev := r.peakDev, peakLane := some r.peakLane,
        peakLine := some i, area := r.count, merged := 0, idle := 0, empty := false,
        flags := ⟨false, false, false, false, false, false, false⟩ } := by
  have higher : 0 < r.peakDev := peak
  have area : satArea r.count = r.count := by
    unfold satArea
    omega
  simp [Defect.opened, Defect.fresh, Defect.extendBy, Defect.takeRun, DefectFlags.clear, higher, area]

-- A run that matches one record

theorem matchedBy_ne_nil {bridge : Nat} {r : LaneRun} {table : List Defect} {d : Defect} (mem : d ∈ table)
    (is : runMatches bridge r d = true) : matchedBy bridge table r ≠ [] := by
  intro none
  obtain ⟨p, hp, rfl⟩ := List.mem_map.mp ((List.zipIdx_map_fst 0 table).symm ▸ mem)
  exact List.filter_eq_nil_iff.mp (List.map_eq_nil_iff.mp none) p hp is

/-- A line whose one run matches some record, before the max span is tested (R132, R135). -/
theorem lineRows_matched {c : Context} {r : LaneRun} {t : Tracker} {d : Defect} (i : Word) (mem : d ∈ t.table)
    (is : c.Matches r d) :
    lineRows c i [r] t = stepFour i c.maxSpan ⟨stepTwo c.gapBridge i t.table [r], t.nextId, t.created, 0⟩ := by
  unfold lineRows
  rw [stepThree_none i _ fun q hq => by
    rw [List.mem_singleton.mp hq]
    exact matchedBy_ne_nil mem (runMatches_true is)]

/-- The row of a record that a run extends (R134). -/
def LineRow.extendedBy (i : Word) (r : LaneRun) (d : Defect) : LineRow := ⟨d.extendBy i [r], true, true, false⟩

theorem extendBy_first {i : Word} {r : LaneRun} {d : Defect} {f : Word} (first : d.first = some f) :
    (d.extendBy i [r]).first = some f := by
  show some (d.first.getD i) = some f
  rw [first]
  rfl

/-- An extended record splits when its span from its first line reaches the max span (R136). -/
theorem extendedBy_splits {i : Word} {r : LaneRun} {d : Defect} {f : Word} (maxSpan : Nat) (first : d.first = some f) :
    (LineRow.extendedBy i r d).splits i maxSpan = decide (maxSpan ≤ (i - f + 1).toNat) := by
  show (true && decide (maxSpan ≤ (d.extendBy i [r]).span i)) = _
  unfold Defect.span
  rw [extendBy_first first, Bool.true_and]

/-- A record with the flag SPLIT (R136). -/
def Defect.markSplit (d : Defect) : Defect := { d with flags := { d.flags with split := true } }

/-- The continuation of a record that a split closes (R136). -/
def Defect.continuation (d : Defect) : Nat → Word → Defect :=
  Defect.fresh d.polarity d.laneMin d.laneMax d.tailMin d.tailMax { DefectFlags.clear with continuation := true }

/-- A line on which one record reaches the max span (R136). -/
theorem stepFour_one {i : Word} {r : LaneRun} {d : Defect} {f : Word} {maxSpan : Nat} (before after : List Defect)
    (nextId : Nat) (created : Word) (first : d.first = some f) (reaches : maxSpan ≤ (i - f + 1).toNat) :
    stepFour i maxSpan
        ⟨before.map LineRow.standing ++ LineRow.extendedBy i r d :: after.map LineRow.standing, nextId, created, 0⟩ =
      LineResult.create false (d.extendBy i [r]).continuation
        ⟨before.map LineRow.standing ++ ⟨(d.extendBy i [r]).markSplit, true, true, true⟩ :: after.map LineRow.standing,
          nextId, created, 0⟩ := by
  have splits : (LineRow.extendedBy i r d).splits i maxSpan = true :=
    (extendedBy_splits maxSpan first).trans (decide_eq_true reaches)
  have row : (LineRow.extendedBy i r d).split i maxSpan = ⟨(d.extendBy i [r]).markSplit, true, true, true⟩ :=
    if_pos splits
  have standing : ∀ ds : List Defect, (ds.map LineRow.standing).filter (·.splits i maxSpan) = [] ∧
      (ds.map LineRow.standing).map (LineRow.split i maxSpan) = ds.map LineRow.standing := fun ds =>
    ⟨List.filter_eq_nil_iff.mpr fun q hq => by rw [standing_short q hq]; exact Bool.false_ne_true,
      List.map_map⟩
  obtain ⟨lowNone, lowSame⟩ := standing before
  obtain ⟨highNone, highSame⟩ := standing after
  unfold stepFour
  simp only [List.filter_append, lowNone, List.filter_cons, splits, highNone, List.map_append, lowSame, List.map_cons, row,
    highSame]
  rfl

/-- A single record that a run extends, short of the max span (R134, R137). -/
theorem trackLine_extends {c : Context} {i : Word} {t : Tracker} {row : LineRow} {r : LaneRun} {d : Defect}
    (mem : d ∈ t.table) (is : c.Matches r d) (one : stepTwo c.gapBridge i t.table [r] = [row])
    (extended : row.extended = true) (stays : row.closed = false) (short : row.splits i c.maxSpan = false) :
    (trackLine c i [r] 0 t).table = [row.record] ∧ (trackLine c i [r] 0 t).closed = [] ∧
      (trackLine c i [r] 0 t).created = t.created ∧ (trackLine c i [r] 0 t).untracked = 0 := by
  have result := lineRows_matched i mem is
  rw [one, stepFour_none fun q hq => List.mem_singleton.mp hq ▸ short] at result
  obtain ⟨table, closed, -, created, untracked⟩ := trackLine_zero c i [r] t
  obtain ⟨kept, gone⟩ := rows_fresh (gapLines := c.gapLines) (rows := [row])
    (fun q hq => by rw [List.mem_singleton.mp hq, extended]; exact Bool.and_false _)
    fun q hq => List.mem_singleton.mp hq ▸ stays
  rw [result] at table closed created untracked
  exact ⟨table.trans kept, closed.trans gone, created, untracked⟩

/-- The result of a line on which one record reaches the max span (R136). -/
theorem lineRows_split {c : Context} {i : Word} {t : Tracker} {r : LaneRun} {before after : List Defect} {d : Defect} {f : Word}
    (table : t.table = before ++ d :: after) (is : c.Matches r d) (others : ∀ e ∈ before ++ after, ¬c.Matches r e)
    (first : d.first = some f) (reaches : c.maxSpan ≤ (i - f + 1).toNat) :
    lineRows c i [r] t = LineResult.create false (d.extendBy i [r]).continuation
      ⟨before.map LineRow.standing ++ ⟨(d.extendBy i [r]).markSplit, true, true, true⟩ :: after.map LineRow.standing,
        t.nextId, t.created, 0⟩ := by
  have mem : d ∈ t.table := table ▸ List.mem_append_right _ List.mem_cons_self
  rw [lineRows_matched i mem is, table,
    stepTwo_one i (runMatches_true is) fun e he => runMatches_false (others e he)]
  exact stepFour_one before after t.nextId t.created first reaches

theorem idAfter_ne (n : Nat) : idAfter n ≠ n := by
  unfold idAfter
  split <;> omega

/-- A free id is none that a lone record holds (R129). -/
theorem freeId_ne (id n : Nat) : freeId [id] 1 n ≠ id := by
  by_cases held : n = id
  · subst held
    simp [freeId, idAfter_ne n]
  · simp [freeId, held]

/-- A split closes the record and its continuation takes its place (R136). -/
theorem trackLine_splits {c : Context} {i : Word} {t : Tracker} {r : LaneRun} {d : Defect} {f : Word}
    (table : t.table = [d]) (is : c.Matches r d) (first : d.first = some f) (reaches : c.maxSpan ≤ (i - f + 1).toNat) :
    (trackLine c i [r] 0 t).closed = [(d.extendBy i [r]).markSplit] ∧
      (trackLine c i [r] 0 t).created = t.created + 1 ∧ (trackLine c i [r] 0 t).untracked = 0 ∧
      (trackLine c i [r] 0 t).table = [(d.extendBy i [r]).continuation (freeId [d.id] 1 t.nextId) t.created] := by
  have result := lineRows_split (before := []) (after := []) table is (fun _ he => nomatch he) first reaches
  replace result := result.trans (create_room false _ (Nat.succ_lt_succ (Nat.zero_lt_succ 62)))
  obtain ⟨kept, closed, -, created, untracked⟩ := trackLine_zero c i [r] t
  rw [result] at kept closed created untracked
  exact ⟨closed, created, untracked, kept⟩

/-- A split that finds a full table makes no continuation (R136, R139). -/
theorem trackLine_splits_full {c : Context} {i : Word} {t : Tracker} {r : LaneRun} {before after : List Defect} {d : Defect}
    {f : Word} (table : t.table = before ++ d :: after) (full : t.table.length = 64) (is : c.Matches r d)
    (others : ∀ e ∈ before ++ after, ¬c.Matches r e) (first : d.first = some f) (reaches : c.maxSpan ≤ (i - f + 1).toNat) :
    (trackLine c i [r] 0 t).untracked = 1 ∧ (trackLine c i [r] 0 t).created = t.created ∧
      (trackLine c i [r] 0 t).nextId = t.nextId ∧
      (trackLine c i [r] 0 t).table = ((before ++ after).map Defect.aged).filter (fun e => e.idle ≤ c.gapLines) ∧
      (trackLine c i [r] 0 t).closed = (before.map Defect.aged).filter (fun e => c.gapLines < e.idle) ++
        (d.extendBy i [r]).markSplit :: (after.map Defect.aged).filter (fun e => c.gapLines < e.idle) := by
  have result := lineRows_split table is others first reaches
  have places : ¬(before.map LineRow.standing ++ ⟨(d.extendBy i [r]).markSplit, true, true, true⟩ ::
      after.map LineRow.standing).length < 64 := by
    rw [table] at full
    simp only [List.length_append, List.length_cons, List.length_map] at full ⊢
    omega
  rw [create_full false _ places] at result
  obtain ⟨kept, closed, nextId, created, untracked⟩ := trackLine_zero c i [r] t
  rw [result] at kept closed nextId created untracked
  obtain ⟨keptLow, closedLow⟩ := rows_standing c.gapLines before
  obtain ⟨keptHigh, closedHigh⟩ := rows_standing c.gapLines after
  obtain ⟨keptHere, closedHere⟩ := rows_split c.gapLines (d.extendBy i [r]).markSplit
  obtain ⟨keptTwo, closedTwo⟩ := rows_append c.gapLines [⟨(d.extendBy i [r]).markSplit, true, true, true⟩]
    (after.map LineRow.standing)
  obtain ⟨keptAll, closedAll⟩ := rows_append c.gapLines (before.map LineRow.standing)
    ([⟨(d.extendBy i [r]).markSplit, true, true, true⟩] ++ after.map LineRow.standing)
  rw [keptTwo, keptLow, keptHere, keptHigh, List.nil_append, ← List.filter_append, ← List.map_append] at keptAll
  rw [closedTwo, closedLow, closedHere, closedHigh] at closedAll
  exact ⟨untracked, created, nextId, kept.trans keptAll, closed.trans closedAll⟩

/-- What a run makes of a record that is not empty (R134). -/
theorem extendBy_eq {i : Word} {r : LaneRun} {d : Defect} {f : Word} (some_yet : d.empty = false) (first : d.first = some f) :
    d.extendBy i [r] = { d with
      last := some i
      laneMin := min d.laneMin r.first
      laneMax := max d.laneMax r.last
      tailMin := r.first
      tailMax := r.last
      peakDev := max d.peakDev r.peakDev
      peakLane := if d.peakDev < r.peakDev then some r.peakLane else d.peakLane
      peakLine := if d.peakDev < r.peakDev then some i else d.peakLine
      area := min (2 ^ 32 - 1) (d.area + r.count)
      idle := 0 } := by
  have e : d.extendBy i [r] = _ := rfl
  rw [e, max_def_lt d.peakDev]
  obtain ⟨⟩ := d
  subst some_yet first
  rfl

-- A run that matches two records

/-- Of two records that a run matches, the earlier absorbs the later (R132, R133). -/
theorem stepTwo_pair {bridge : Nat} {r : LaneRun} {a b : Defect} (i : Word) (first : runMatches bridge r a = true)
    (second : runMatches bridge r b = true) : stepTwo bridge i [a, b] [r] = [LineRow.extendedBy i r (a.absorb b)] := by
  have matched : matchedBy bridge [a, b] r = [0, 1] := by
    simp [matchedBy, List.zipIdx, first, second]
  have group : [a, b].zipIdx.filter (fun p => [0, 1].contains p.2) = [(a, 0), (b, 1)] := rfl
  have survivor := stepTwoRow_survivor (i := i) (r := r) (records := [0, 1]) rfl group
  have absorbed := stepTwoRow_absorbed (i := i) (runs := [r]) (g := ⟨[0, 1], [0]⟩) (place := 1) (d := b) rfl group
    Nat.zero_ne_one
  unfold stepTwo
  rw [groupsOf_single matched]
  show stepTwoRow _ _ _ _ a 0 ++ (stepTwoRow _ _ _ _ b 1 ++ []) = _
  rw [survivor, absorbed]
  rfl

/-- The first line of a record that has absorbed another is the earlier of the two (R133). -/
theorem absorb_first {a b : Defect} {f g : Word} (some_yet : b.empty = false) (one : a.first = some f)
    (two : b.first = some g) : (a.absorb b).first = some (if earlier g f then g else f) := by
  unfold Defect.absorb
  simp only [one, two, some_yet, Bool.not_false, Bool.true_and]
  split <;> rfl

theorem absorb_peakDev {a b : Defect} (some_yet : b.empty = false) : (a.absorb b).peakDev = max a.peakDev b.peakDev := by
  unfold Defect.absorb
  simp only [some_yet, Bool.not_false, Bool.true_and, decide_eq_true_iff, max_def_lt]

theorem absorb_area {a b : Defect} (some_yet : b.empty = false) :
    (a.absorb b).area = min (2 ^ 32 - 1) (a.area + b.area) := by
  unfold Defect.absorb satArea
  simp only [some_yet, Bool.false_eq_true, if_false]

/-- Two records that one run matches become one, short of the max span (R132, R133, R134). -/
theorem trackLine_joins {c : Context} {i : Word} {t : Tracker} {r : LaneRun} {a b : Defect} {f : Word}
    (table : t.table = [a, b]) (one : c.Matches r a) (two : c.Matches r b) (first : (a.absorb b).first = some f)
    (short : (i - f + 1).toNat < c.maxSpan) :
    (trackLine c i [r] 0 t).table = [(a.absorb b).extendBy i [r]] ∧ (trackLine c i [r] 0 t).closed = [] ∧
      (trackLine c i [r] 0 t).created = t.created ∧ (trackLine c i [r] 0 t).untracked = 0 := by
  have mem : a ∈ t.table := table ▸ List.mem_cons_self
  have pair := stepTwo_pair i (runMatches_true one) (runMatches_true two)
  rw [← table] at pair
  exact trackLine_extends mem one pair rfl rfl
    ((extendedBy_splits c.maxSpan first).trans (decide_eq_false (Nat.not_le.mpr short)))

/-- Settles O33, by the rows that each step makes of the records: those that stand and age, those that runs open, the one
that a run extends or splits, and two that a run joins. -/
theorem tableAgesAndARunOpensARecord : Obligations.TableAgesAndARunOpensARecord := by
  unfold Obligations.TableAgesAndARunOpensARecord
  refine ⟨fun c i t => trackLine_idle c i t, ?_, fun c i runs overflow t => trackLine_overflow c i runs overflow t, ?_⟩
  · intro c i r t empty long peak count
    obtain ⟨table, rest⟩ := trackLine_first i empty long
    exact ⟨opened_eq peak count ▸ table, rest⟩
  · intro c i matching
    refine ⟨fun runs t long _ none => trackLine_opens i long none, ?_, ?_, ?_⟩
    · intro r d f t table some_yet first is extended l
      have whole : d.extendBy i [r] = extended := extendBy_eq some_yet first
      have mem : d ∈ t.table := table ▸ List.mem_singleton_self d
      refine ⟨fun short => ?_, fun reaches => ?_⟩
      · have one := stepTwo_one (before := []) (after := []) i (runMatches_true is) fun _ he => nomatch he
        have row : (LineRow.extendedBy i r d).splits i c.maxSpan = false :=
          (extendedBy_splits c.maxSpan first).trans (decide_eq_false (Nat.not_le.mpr short))
        obtain ⟨kept, rest⟩ := trackLine_extends mem is (table ▸ one) rfl rfl row
        exact ⟨kept.trans (congrArg (fun e => [e]) whole), rest⟩
      · obtain ⟨closed, created, untracked, kept⟩ := trackLine_splits table is first reaches
        refine ⟨closed.trans (congrArg (fun e => [e.markSplit]) whole), created, untracked, _, kept, freeId_ne _ _, rfl, rfl,
          rfl, rfl, rfl, rfl, rfl, ?_, rfl⟩
        rw [whole]
        rfl
    · intro r before after d f t table full first is others reaches aged l
      obtain ⟨untracked, created, nextId, kept, closed⟩ := trackLine_splits_full table full is others first reaches
      exact ⟨untracked, created, nextId, kept, _, closed, rfl, rfl, rfl, rfl⟩
    · intro r a b f g t table some_a some_b first_a first_b is_a is_b from' short l
      have first := absorb_first some_b first_a first_b
      obtain ⟨kept, closed, created, untracked⟩ := trackLine_joins table is_a is_b first short
      have whole := extendBy_eq (i := i) (r := r) (d := a.absorb b) some_a first
      rw [whole] at kept
      refine ⟨closed, created, untracked, _, kept, rfl, rfl, rfl, first, rfl, rfl, rfl, rfl, rfl, ?_, ?_, rfl, rfl, rfl⟩
      · exact congrArg (max · r.peakDev) (absorb_peakDev some_b)
      · exact congrArg (fun n => min (2 ^ 32 - 1) (n + r.count)) (absorb_area some_b)

end Sys2Proof.Machine
end

section
/-! SUPPORT. What the scan of a line's lanes keeps (R112 to R115). -/

namespace Sys2Proof.Machine

-- Lanes

/-- The deviation of a lane of a class towards a polarity. -/
def LaneClass.deviation : Polarity → LaneClass → Option Nat
  | .above, .above d => some d
  | .below, .below d => some d
  | _, _ => none

/-- The deviation of a lane of a line towards a polarity. -/
def laneDeviation (classes : List LaneClass) (p : Polarity) (i : Nat) : Option Nat := classes[i]?.bind (LaneClass.deviation p)

/-- A lane is out of band with a polarity. -/
def OutAt (classes : List LaneClass) (p : Polarity) (i : Nat) : Prop := (laneDeviation classes p i).isSome = true

/-- The lanes from one to the one before another are IN_BAND. -/
def BandLanes (classes : List LaneClass) (low high : Nat) : Prop := ∀ i, low ≤ i → i < high → classes[i]? = some .inBand

theorem deviation_inBand {classes : List LaneClass} {i : Nat} (band : classes[i]? = some .inBand) (p : Polarity) :
    laneDeviation classes p i = none := by
  unfold laneDeviation
  rw [band]
  cases p <;> rfl

theorem not_outAt_inBand {classes : List LaneClass} {p : Polarity} {i : Nat} (out : OutAt classes p i) :
    classes[i]? ≠ some .inBand := by
  intro band
  unfold OutAt at out
  rw [deviation_inBand band p] at out
  exact absurd out Bool.false_ne_true

/-- An out-of-band lane has one class, and so one polarity. -/
theorem outAt_class {classes : List LaneClass} {p : Polarity} {i : Nat} {c : LaneClass} (out : OutAt classes p i)
    (is : classes[i]? = some c) : (c.deviation p).isSome = true := by
  unfold OutAt laneDeviation at out
  rwa [is] at out

theorem outAt_lt {classes : List LaneClass} {p : Polarity} {i : Nat} (out : OutAt classes p i) : i < classes.length := by
  by_contra far
  unfold OutAt laneDeviation at out
  rw [List.getElem?_eq_none (Nat.not_lt.mp far)] at out
  exact absurd out Bool.false_ne_true

-- Chains

/-- Out-of-band lanes of one polarity, each within the gap bridge of the one before, from lane j on (R112). -/
inductive Chain (classes : List LaneClass) (bridge : Nat) (p : Polarity) (j : Nat) : Nat → Prop
  | one (out : OutAt classes p j) : Chain classes bridge p j j
  | next {k n : Nat} (chain : Chain classes bridge p j k) (after : k < n) (near : n ≤ k + bridge + 1)
      (band : BandLanes classes (k + 1) n) (out : OutAt classes p n) : Chain classes bridge p j n

/-- A chain that a lane n of its polarity would lengthen. -/
def Live (classes : List LaneClass) (bridge : Nat) (p : Polarity) (j k n : Nat) : Prop :=
  Chain classes bridge p j k ∧ k < n ∧ n ≤ k + bridge + 1 ∧ BandLanes classes (k + 1) n

namespace Chain
variable {classes : List LaneClass} {bridge : Nat} {p : Polarity} {j k n : Nat}

theorem le (chain : Chain classes bridge p j k) : j ≤ k := by
  induction chain with
  | one => exact Nat.le_refl j
  | next _ after _ _ _ ih => omega

theorem out_first (chain : Chain classes bridge p j k) : OutAt classes p j := by
  induction chain with
  | one out => exact out
  | next _ _ _ _ _ ih => exact ih

theorem out_last (chain : Chain classes bridge p j k) : OutAt classes p k := by
  cases chain <;> assumption

/-- Between the ends of a chain lanes are of its polarity or IN_BAND. -/
theorem between (chain : Chain classes bridge p j k) :
    ∀ i, j ≤ i → i ≤ k → OutAt classes p i ∨ classes[i]? = some .inBand := by
  induction chain with
  | one out =>
    intro i low high
    exact Nat.le_antisymm low high ▸ .inl out
  | @next k n _ _ _ band out ih =>
    intro i low high
    rcases Nat.lt_trichotomy i n with before | rfl | beyond
    · by_cases inside : i ≤ k
      · exact ih i low inside
      · exact .inr (band i (by omega) before)
    · exact .inl out
    · omega

/-- From each lane of a chain the next of its polarity is within the gap bridge. -/
theorem gaps (chain : Chain classes bridge p j k) :
    ∀ i, j ≤ i → i < k → ∃ n, i < n ∧ n ≤ i + bridge + 1 ∧ n ≤ k ∧ OutAt classes p n := by
  induction chain with
  | one => exact fun i low high => absurd low (Nat.not_le.mpr high)
  | @next k n _ after near _ out ih =>
    intro i low high
    by_cases inside : i < k
    · obtain ⟨m, beyond, close, within, outM⟩ := ih i low inside
      exact ⟨m, beyond, close, by omega, outM⟩
    · exact ⟨n, high, by omega, Nat.le_refl n, out⟩

/-- A chain ends at its only lane, or lengthens a live one. -/
theorem last_cases (chain : Chain classes bridge p j n) : j = n ∨ ∃ k, Live classes bridge p j k n := by
  cases chain with
  | one => exact .inl rfl
  | next chain after near band _ => exact .inr ⟨_, chain, after, near, band⟩

/-- Lanes of one polarity with small gaps among them form a chain. -/
theorem of_gaps (first : OutAt classes p j) (least : j ≤ k) (last : OutAt classes p k)
    (between : ∀ i, j < i → i < k → OutAt classes p i ∨ classes[i]? = some .inBand)
    (gaps : ∀ i, j ≤ i → i < k → ∃ n, i < n ∧ n ≤ i + bridge + 1 ∧ n ≤ k ∧ OutAt classes p n) :
    Chain classes bridge p j k := by
  induction k using Nat.strong_induction_on with
  | _ k ih =>
    rcases Nat.eq_or_lt_of_le least with rfl | less
    · exact .one first
    · classical
      obtain ⟨before, lowB, out, greatest⟩ : ∃ b, (j ≤ b ∧ b < k) ∧ OutAt classes p b ∧
          ∀ i, b < i → i < k → ¬OutAt classes p i := by
        let has := fun b => OutAt classes p b
        have here := Nat.findGreatest_spec (P := has) (n := k - 1) (by omega : j ≤ k - 1) first
        have far := Nat.le_findGreatest (P := has) (by omega : j ≤ k - 1) first
        have near := Nat.findGreatest_le (P := has) (k - 1)
        exact ⟨_, ⟨far, by omega⟩, here, fun i low high =>
          Nat.findGreatest_is_greatest (P := has) low (by omega)⟩
      obtain ⟨low, high⟩ := lowB
      obtain ⟨m, beyond, close, within, outM⟩ := gaps before low high
      have top : m = k := by
        by_contra other
        exact greatest m beyond (by omega) outM
      subst top
      refine .next (ih before high low out (fun i a b => between i a (by omega)) fun i a b => ?_) high close
        (fun i a b => (between i (by omega) b).resolve_left (greatest i (by omega) b)) last
      obtain ⟨q, beyondQ, closeQ, withinQ, outQ⟩ := gaps i a (by omega)
      by_cases inside : q ≤ before
      · exact ⟨q, beyondQ, closeQ, inside, outQ⟩
      · exact ⟨before, b, by omega, Nat.le_refl _, out⟩

end Chain

section
variable {classes : List LaneClass} {bridge : Nat} {p : Polarity} {j k n : Nat}

/-- A live chain past lane n ends at it, or was live before it and n is IN_BAND. -/
theorem live_succ (live : Live classes bridge p j k (n + 1)) :
    (k = n ∧ Chain classes bridge p j n) ∨ (classes[n]? = some .inBand ∧ Live classes bridge p j k n) := by
  obtain ⟨chain, after, near, band⟩ := live
  rcases Nat.eq_or_lt_of_le (Nat.lt_succ_iff.mp after) with rfl | before
  · exact .inl ⟨rfl, chain⟩
  · exact .inr ⟨band n before (Nat.lt_succ_self n), chain, before, by omega,
      fun i low high => band i low (by omega)⟩

-- The number of out-of-band lanes

/-- How many lanes from one to the one before another are out of band with a polarity (R113). -/
def outCount (classes : List LaneClass) (p : Polarity) (first past : Nat) : Nat :=
  ((List.range past).filter (fun i => decide (first ≤ i) && (laneDeviation classes p i).isSome)).length

theorem outCount_out (within : j ≤ n) (out : OutAt classes p n) :
    outCount classes p j (n + 1) = outCount classes p j n + 1 := by
  have here : (decide (j ≤ n) && (laneDeviation classes p n).isSome) = true := by
    rw [decide_eq_true within, show (laneDeviation classes p n).isSome = true from out]
    rfl
  unfold outCount
  rw [List.range_succ, List.filter_append, List.filter_cons, if_pos here, List.length_append]
  rfl

theorem outCount_band (band : classes[n]? = some .inBand) : outCount classes p j (n + 1) = outCount classes p j n := by
  have here : ¬(decide (j ≤ n) && (laneDeviation classes p n).isSome) = true := by
    rw [deviation_inBand band p, Option.isSome_none, Bool.and_false]
    exact Bool.false_ne_true
  unfold outCount
  rw [List.range_succ, List.filter_append, List.filter_cons, if_neg here, List.filter_nil, List.append_nil]

theorem outCount_gap (within : k ≤ n) (band : BandLanes classes k n) :
    outCount classes p j n = outCount classes p j k := by
  induction n, within using Nat.le_induction with
  | base => rfl
  | succ n low ih =>
    rw [outCount_band (band n low (Nat.lt_succ_self n))]
    exact ih fun i a b => band i a (by omega)

theorem outCount_self : outCount classes p n n = 0 := by
  unfold outCount
  rw [List.length_eq_zero_iff, List.filter_eq_nil_iff]
  intro i hi
  rw [decide_eq_false (Nat.not_le.mpr (List.mem_range.mp hi)), Bool.false_and]
  exact Bool.false_ne_true

end

-- Runs

/-- A run says what stands in its lanes (R112, R113). -/
structure LaneRun.Tells (classes : List LaneClass) (bridge : Nat) (r : LaneRun) : Prop where
  chain : Chain classes bridge r.polarity r.first r.last
  count : r.count = outCount classes r.polarity r.first (r.last + 1)
  peakFrom : r.first ≤ r.peakLane
  peakTo : r.peakLane ≤ r.last
  peak : laneDeviation classes r.polarity r.peakLane = some r.peakDev
  highest : ∀ i d, r.first ≤ i → i ≤ r.last → laneDeviation classes r.polarity i = some d →
    d ≤ r.peakDev ∧ (i < r.peakLane → d < r.peakDev)

section
variable {classes : List LaneClass} {bridge : Nat} {p : Polarity} {n d : Nat}

theorem outAt_of_deviation (here : laneDeviation classes p n = some d) : OutAt classes p n := by
  unfold OutAt
  rw [here]
  rfl

theorem tells_openAt (here : laneDeviation classes p n = some d) :
    (LaneRun.openAt p n d).Tells classes bridge where
  chain := .one (outAt_of_deviation here)
  count := by
    show 1 = outCount classes p n (n + 1)
    rw [outCount_out (Nat.le_refl n) (outAt_of_deviation here), outCount_self]
  peakFrom := Nat.le_refl n
  peakTo := Nat.le_refl n
  peak := here
  highest := by
    intro i e low high is
    rw [Nat.le_antisymm high low] at is ⊢
    exact ⟨Nat.le_of_eq (Option.some.inj (is.symm.trans here)), fun less => absurd less (Nat.lt_irrefl n)⟩

theorem tells_extend {r : LaneRun} (tells : r.Tells classes bridge)
    (live : Live classes bridge r.polarity r.first r.last n) (here : laneDeviation classes r.polarity n = some d) :
    (r.extend n d).Tells classes bridge := by
  obtain ⟨chain, after, near, band⟩ := live
  have least := chain.le
  have out := outAt_of_deviation here
  have lanes : ∀ i e, r.first ≤ i → i ≤ n → laneDeviation classes r.polarity i = some e → i ≤ r.last ∨ (i = n ∧ e = d) := by
    intro i e low high is
    rcases Nat.lt_or_ge i n with less | same
    · by_contra beyond
      rw [not_or] at beyond
      exact not_outAt_inBand (outAt_of_deviation is) (band i (by omega) less)
    · have : i = n := Nat.le_antisymm high same
      subst this
      exact .inr ⟨rfl, Option.some.inj (is.symm.trans here)⟩
  refine ⟨.next chain after near band out, ?_, ?_, ?_, ?_, ?_⟩
  · show r.count + 1 = outCount classes r.polarity r.first (n + 1)
    rw [outCount_out (by omega) out, outCount_gap after band, tells.count]
  · show r.first ≤ if r.peakDev < d then n else r.peakLane
    split
    · omega
    · exact tells.peakFrom
  · show (if r.peakDev < d then n else r.peakLane) ≤ n
    have := tells.peakTo
    split <;> omega
  · show laneDeviation classes r.polarity (if r.peakDev < d then n else r.peakLane) =
      some (if r.peakDev < d then d else r.peakDev)
    split
    · exact here
    · exact tells.peak
  · intro i e low high is
    show e ≤ (if r.peakDev < d then d else r.peakDev) ∧
      (i < (if r.peakDev < d then n else r.peakLane) → e < if r.peakDev < d then d else r.peakDev)
    have peakTo := tells.peakTo
    rcases lanes i e low high is with inside | ⟨rfl, rfl⟩
    · obtain ⟨atMost, strict⟩ := tells.highest i e low inside is
      split
      · omega
      · exact ⟨atMost, strict⟩
    · split <;> omega

end

end Sys2Proof.Machine
end

section
/-! SUPPORT. The run list that the scan of a line's lanes builds (R112 to R115). -/

namespace Sys2Proof.Machine

-- The run list

/-- A run spans lanes j to k of a polarity. -/
def LaneRun.Spans (r : LaneRun) (p : Polarity) (j k : Nat) : Prop := r.polarity = p ∧ r.first ≤ j ∧ k ≤ r.last

/-- The run list holds a run over lanes j to k, or was full before lane j (R115). -/
def Scan.Covers (s : Scan) (p : Polarity) (j k : Nat) : Prop :=
  (∃ r ∈ s.runs, r.Spans p j k) ∨ (0 < s.overflow ∧ ∀ r ∈ s.runs, r.last < j)

/-- What holds of a scan's run list and overflow count (R112 to R115). -/
structure Scan.Lists (classes : List LaneClass) (bridge minRun : Nat) (s : Scan) : Prop where
  places : s.runs.length ≤ 128
  full : 0 < s.overflow → s.runs.length = 128
  order : s.runs.Pairwise (fun a b => a.last < b.first)
  tells : ∀ r ∈ s.runs, r.Tells classes bridge
  extent : ∀ r ∈ s.runs, minRun ≤ r.last - r.first + 1

section
variable {classes : List LaneClass} {bridge minRun : Nat} {r : LaneRun} {s : Scan}

/-- The three outcomes for a run that closes (R114, R115). -/
theorem keep_cases (minRun : Nat) (r : LaneRun) (s : Scan) :
    (r.last - r.first + 1 < minRun ∧ s.keep minRun r = s) ∨
      (minRun ≤ r.last - r.first + 1 ∧ s.runs.length < 128 ∧ s.keep minRun r = { s with runs := s.runs ++ [r] }) ∨
      (minRun ≤ r.last - r.first + 1 ∧ ¬s.runs.length < 128 ∧ s.keep minRun r = { s with overflow := s.overflow + 1 }) := by
  unfold Scan.keep
  by_cases short : r.last - r.first + 1 < minRun
  · exact .inl ⟨short, if_pos short⟩
  · rw [if_neg short]
    by_cases room : s.runs.length < 128
    · exact .inr (.inl ⟨Nat.not_lt.mp short, room, if_pos room⟩)
    · exact .inr (.inr ⟨Nat.not_lt.mp short, room, if_neg room⟩)

/-- A run that closes past the runs listed leaves the list in order (R114, R115). -/
theorem lists_keep (lists : s.Lists classes bridge minRun) (tells : r.Tells classes bridge)
    (past : ∀ q ∈ s.runs, q.last < r.first) : (s.keep minRun r).Lists classes bridge minRun := by
  rcases keep_cases minRun r s with ⟨-, e⟩ | ⟨long, room, e⟩ | ⟨-, none, e⟩ <;> rw [e]
  · exact lists
  · refine ⟨?_, fun dropped => absurd (lists.full dropped) (Nat.ne_of_lt room), ?_, ?_, ?_⟩
    · rw [List.length_append]
      exact room
    · exact List.pairwise_append.mpr ⟨lists.order, List.pairwise_singleton .., fun q hq x hx =>
        List.mem_singleton.mp hx ▸ past q hq⟩
    · exact List.forall_mem_append.mpr ⟨lists.tells, List.forall_mem_singleton.mpr tells⟩
    · exact List.forall_mem_append.mpr ⟨lists.extent, List.forall_mem_singleton.mpr long⟩
  · exact ⟨lists.places, fun _ => Nat.le_antisymm lists.places (Nat.not_lt.mp none), lists.order, lists.tells, lists.extent⟩

/-- Lanes that the list covers stay covered (R115). -/
theorem covers_keep {p : Polarity} {j k : Nat} (lists : s.Lists classes bridge minRun) (covers : s.Covers p j k) :
    (s.keep minRun r).Covers p j k := by
  rcases keep_cases minRun r s with ⟨-, e⟩ | ⟨-, room, e⟩ | ⟨-, -, e⟩ <;> rw [e]
  · exact covers
  · rcases covers with ⟨q, hq, spans⟩ | ⟨dropped, -⟩
    · exact .inl ⟨q, List.mem_append_left _ hq, spans⟩
    · exact absurd (lists.full dropped) (Nat.ne_of_lt room)
  · exact covers.imp_right fun ⟨dropped, before⟩ => ⟨Nat.succ_pos _, before⟩

/-- Lanes of a run that closes are covered if they are enough (R114, R115). -/
theorem covers_of_keep {p : Polarity} {j k : Nat} (past : ∀ q ∈ s.runs, q.last < r.first) (spans : r.Spans p j k)
    (enough : minRun ≤ k - j + 1) : (s.keep minRun r).Covers p j k := by
  obtain ⟨polarity, low, high⟩ := spans
  rcases keep_cases minRun r s with ⟨short, -⟩ | ⟨-, -, e⟩ | ⟨-, -, e⟩
  · omega
  · exact e ▸ .inl ⟨r, List.mem_append_right _ (List.mem_singleton_self r), polarity, low, high⟩
  · exact e ▸ .inr ⟨Nat.succ_pos _, fun q hq => Nat.lt_of_lt_of_le (past q hq) low⟩

theorem keep_mem {q : LaneRun} (mem : q ∈ (s.keep minRun r).runs) : q ∈ s.runs ∨ q = r := by
  rcases keep_cases minRun r s with ⟨-, e⟩ | ⟨-, -, e⟩ | ⟨-, -, e⟩ <;> rw [e] at mem
  · exact .inl mem
  · exact (List.mem_append.mp mem).imp_right List.mem_singleton.mp
  · exact .inl mem

end

-- The scan

/-- How many IN_BAND lanes follow the run in hand (R112). -/
def ScanPosition.gap : ScanPosition → Nat
  | .noRun => 0
  | .inRun _ => 0
  | .inGap _ k => k

/-- The scan after lanes 0 to n - 1, with a run in hand or without (R112 to R115). -/
structure Scan.Reached (classes : List LaneClass) (bridge minRun n : Nat) (s : Scan) : Prop where
  lists : s.Lists classes bridge minRun
  ends : ∀ r ∈ s.runs, r.last < n
  hand : ∀ r, s.position.run = some r → r.Tells classes bridge ∧ (∀ q ∈ s.runs, q.last < r.first) ∧
    n = r.last + 1 + s.position.gap ∧ s.position.gap ≤ bridge ∧ BandLanes classes (r.last + 1) n
  live : ∀ p j k, Live classes bridge p j k n → ∃ r, s.position.run = some r ∧ r.Spans p j k
  covers : ∀ p j k, Chain classes bridge p j k → k < n → minRun ≤ k - j + 1 →
    (∃ r, s.position.run = some r ∧ r.Spans p j k) ∨ s.Covers p j k

/-- The scan after lanes 0 to n - 1, its run in hand closed (R112 to R115). -/
structure Scan.Closed (classes : List LaneClass) (bridge minRun n : Nat) (s : Scan) : Prop where
  lists : s.Lists classes bridge minRun
  ends : ∀ r ∈ s.runs, r.last < n
  none : s.position.run = none
  covers : ∀ p j k, Chain classes bridge p j k → k < n → minRun ≤ k - j + 1 → s.Covers p j k

section
variable {classes : List LaneClass} {bridge minRun n : Nat} {s : Scan}

theorem close_none (none : s.position.run = none) : s.close minRun = s := by
  unfold Scan.close
  rw [none]

theorem close_some {r : LaneRun} (hand : s.position.run = some r) :
    s.close minRun = { s.keep minRun r with position := .noRun } := by
  unfold Scan.close
  rw [hand]

/-- The run in hand closes (R112). -/
theorem Scan.Reached.close (reached : s.Reached classes bridge minRun n) :
    (s.close minRun).Closed classes bridge minRun n := by
  cases e : s.position.run with
  | none =>
    rw [close_none e]
    refine ⟨reached.lists, reached.ends, e, fun p j k chain before enough =>
      (reached.covers p j k chain before enough).resolve_left ?_⟩
    rintro ⟨r, hand, -⟩
    exact nomatch e.symm.trans hand
  | some r =>
    rw [close_some e]
    obtain ⟨tells, past, place, -, -⟩ := reached.hand r e
    obtain ⟨places, full, order, all, extent⟩ := lists_keep reached.lists tells past
    refine ⟨⟨places, full, order, all, extent⟩, fun q hq => ?_, rfl, fun p j k chain before enough => ?_⟩
    · rcases keep_mem hq with old | rfl
      · exact reached.ends q old
      · omega
    · rcases reached.covers p j k chain before enough with ⟨q, hand, spans⟩ | covers
      · cases Option.some.inj (e.symm.trans hand)
        exact covers_of_keep past spans enough
      · exact covers_keep reached.lists covers

/-- A lane that is not out of band, and that lengthens no chain, leaves a closed scan closed (R112). -/
theorem Scan.Closed.quiet (closed : s.Closed classes bridge minRun n) (in_band : ∀ p, ¬OutAt classes p n)
    (none_live : ∀ p j k, ¬Live classes bridge p j k (n + 1)) : s.Reached classes bridge minRun (n + 1) where
  lists := closed.lists
  ends := fun r hr => Nat.lt_succ_of_lt (closed.ends r hr)
  hand := fun _ hand => nomatch closed.none.symm.trans hand
  live := fun p j k live => absurd live (none_live p j k)
  covers := by
    intro p j k chain before enough
    rcases Nat.eq_or_lt_of_le (Nat.lt_succ_iff.mp before) with rfl | earlier
    · exact absurd chain.out_last (in_band p)
    · exact .inr (closed.covers p j k chain earlier enough)

/-- A scan with a run in hand that ends at the last lane (R112). -/
theorem reached_inRun {r : LaneRun} {p : Polarity} (lists : s.Lists classes bridge minRun)
    (tells : r.Tells classes bridge) (last : r.last = n) (polarity : r.polarity = p) (out : ∀ q, OutAt classes q n → q = p)
    (past : ∀ q ∈ s.runs, q.last < r.first)
    (here : ∀ j, Chain classes bridge p j n → r.first ≤ j)
    (covers : ∀ q j k, Chain classes bridge q j k → k < n → minRun ≤ k - j + 1 → r.Spans q j k ∨ s.Covers q j k) :
    ({ s with position := .inRun r } : Scan).Reached classes bridge minRun (n + 1) := by
  have spans : ∀ q j, Chain classes bridge q j n → r.Spans q j n := by
    intro q j chain
    cases out q chain.out_last
    exact ⟨polarity, here j chain, Nat.le_of_eq last.symm⟩
  have start := tells.chain.le
  obtain ⟨places, full, order, all, extent⟩ := lists
  refine ⟨⟨places, full, order, all, extent⟩, fun q hq => ?_, ?_, ?_, ?_⟩
  · have := past q hq
    omega
  · intro q hand
    cases Option.some.inj hand
    exact ⟨tells, past, by rw [last]; rfl, Nat.zero_le _, fun i low high => absurd low (by omega)⟩
  · intro q j k live
    rcases live_succ live with ⟨rfl, chain⟩ | ⟨band, -⟩
    · exact ⟨r, rfl, spans q j chain⟩
    · exact absurd band (not_outAt_inBand (last ▸ tells.chain.out_last))
  · intro q j k chain before enough
    rcases Nat.eq_or_lt_of_le (Nat.lt_succ_iff.mp before) with rfl | earlier
    · exact .inl ⟨r, rfl, spans q j chain⟩
    · exact (covers q j k chain earlier enough).imp_left fun spans => ⟨r, rfl, spans⟩

/-- A run opens at a lane that lengthens no chain (R113). -/
theorem Scan.Closed.opens {p : Polarity} {d : Nat} (closed : s.Closed classes bridge minRun n)
    (dev : laneDeviation classes p n = some d) (out : ∀ q, OutAt classes q n → q = p)
    (none_live : ∀ j k, ¬Live classes bridge p j k n) :
    ({ s with position := .inRun (.openAt p n d) } : Scan).Reached classes bridge minRun (n + 1) := by
  refine reached_inRun closed.lists (tells_openAt dev) rfl rfl out closed.ends (fun j chain => ?_)
    fun q j k chain before enough => .inr (closed.covers q j k chain before enough)
  rcases chain.last_cases with rfl | ⟨k, live⟩
  · exact Nat.le_refl j
  · exact absurd live (none_live j k)

/-- A lane of its polarity extends the run in hand (R113). -/
theorem Scan.Reached.extends {r : LaneRun} {d : Nat} (reached : s.Reached classes bridge minRun n)
    (hand : s.position.run = some r) (dev : laneDeviation classes r.polarity n = some d)
    (out : ∀ q, OutAt classes q n → q = r.polarity) :
    ({ s with position := .inRun (r.extend n d) } : Scan).Reached classes bridge minRun (n + 1) := by
  obtain ⟨tells, past, place, short, band⟩ := reached.hand r hand
  have live : Live classes bridge r.polarity r.first r.last n := ⟨tells.chain, by omega, by omega, band⟩
  have least := tells.chain.le
  refine reached_inRun reached.lists (tells_extend tells live dev) rfl rfl out past (fun j chain => ?_) ?_
  · show r.first ≤ j
    rcases chain.last_cases with rfl | ⟨k, live⟩
    · omega
    · obtain ⟨q, same, -, low, -⟩ := reached.live r.polarity j k live
      cases Option.some.inj (hand.symm.trans same)
      exact low
  · intro q j k chain before enough
    refine (reached.covers q j k chain before enough).imp_left ?_
    rintro ⟨x, same, polarity, low, -⟩
    cases Option.some.inj (hand.symm.trans same)
    exact ⟨polarity, low, Nat.le_of_lt before⟩

/-- An IN_BAND lane within the gap bridge keeps the run in hand (R112). -/
theorem Scan.Reached.waits {r : LaneRun} (reached : s.Reached classes bridge minRun n) (hand : s.position.run = some r)
    (band : classes[n]? = some .inBand) (bridged : s.position.gap + 1 ≤ bridge) :
    ({ s with position := .inGap r (s.position.gap + 1) } : Scan).Reached classes bridge minRun (n + 1) := by
  obtain ⟨tells, past, place, -, lanes⟩ := reached.hand r hand
  obtain ⟨places, full, order, all, extent⟩ := reached.lists
  have held : ∀ q j k, (∃ x, s.position.run = some x ∧ x.Spans q j k) → ∃ x, some r = some x ∧ x.Spans q j k :=
    fun q j k ⟨x, same, spans⟩ => ⟨x, hand.symm.trans same, spans⟩
  refine ⟨⟨places, full, order, all, extent⟩, fun q hq => Nat.lt_succ_of_lt (reached.ends q hq), ?_, ?_, ?_⟩
  · intro x same
    cases Option.some.inj same
    refine ⟨tells, past, by show n + 1 = r.last + 1 + (s.position.gap + 1); omega, bridged, fun i low high => ?_⟩
    rcases Nat.eq_or_lt_of_le (Nat.lt_succ_iff.mp high) with rfl | earlier
    · exact band
    · exact lanes i low earlier
  · intro q j k live
    rcases live_succ live with ⟨rfl, chain⟩ | ⟨-, live⟩
    · exact absurd band (not_outAt_inBand chain.out_last)
    · exact held q j k (reached.live q j k live)
  · intro q j k chain before enough
    rcases Nat.eq_or_lt_of_le (Nat.lt_succ_iff.mp before) with rfl | earlier
    · exact absurd band (not_outAt_inBand chain.out_last)
    · exact (reached.covers q j k chain earlier enough).imp_left (held q j k)

theorem bandLane_none (none : s.position.run = none) : s.bandLane minRun bridge = s.close minRun := by
  rw [close_none none]
  unfold Scan.bandLane
  cases e : s.position with
  | noRun => rfl
  | inRun _ => rw [e] at none; exact nomatch none
  | inGap _ _ => rw [e] at none; exact nomatch none

/-- An IN_BAND lane with a run in hand (R112). -/
theorem bandLane_some {r : LaneRun} (hand : s.position.run = some r) : s.bandLane minRun bridge =
    if s.position.gap + 1 ≤ bridge then { s with position := .inGap r (s.position.gap + 1) } else s.close minRun := by
  unfold Scan.bandLane
  cases e : s.position with
  | noRun => rw [e] at hand; exact nomatch hand
  | inRun _ =>
    rw [e] at hand
    exact Option.some.inj hand ▸ rfl
  | inGap _ _ =>
    rw [e] at hand
    exact Option.some.inj hand ▸ rfl

theorem reached_bandLane (reached : s.Reached classes bridge minRun n) (band : classes[n]? = some .inBand) :
    (s.bandLane minRun bridge).Reached classes bridge minRun (n + 1) := by
  have inside : ∀ p, ¬OutAt classes p n := fun p out => not_outAt_inBand out band
  have closes (free : ∀ p j k, ¬Live classes bridge p j k (n + 1)) :
      (s.close minRun).Reached classes bridge minRun (n + 1) := reached.close.quiet inside free
  have before : ∀ p j k, Live classes bridge p j k (n + 1) → Live classes bridge p j k n := fun p j k live =>
    (live_succ live).elim (fun ⟨_, chain⟩ => absurd chain.out_last (inside p)) And.right
  cases hand : s.position.run with
  | none =>
    rw [bandLane_none hand]
    refine closes fun p j k live => ?_
    obtain ⟨r, same, -⟩ := reached.live p j k (before p j k live)
    exact nomatch hand.symm.trans same
  | some r =>
    rw [bandLane_some hand]
    by_cases bridged : s.position.gap + 1 ≤ bridge
    · rw [if_pos bridged]
      exact reached.waits hand band bridged
    · rw [if_neg bridged]
      refine closes fun p j k live => ?_
      obtain ⟨x, same, -, -, high⟩ := reached.live p j k (before p j k live)
      obtain ⟨-, -, place, -, -⟩ := reached.hand x same
      obtain ⟨-, -, near, -⟩ := live
      omega

theorem reached_outOfBand {p : Polarity} {d : Nat} (reached : s.Reached classes bridge minRun n)
    (dev : laneDeviation classes p n = some d) (out : ∀ q, OutAt classes q n → q = p) :
    (s.outOfBand minRun p n d).Reached classes bridge minRun (n + 1) := by
  unfold Scan.outOfBand
  cases hand : s.position.run with
  | none =>
    have closed := reached.close
    rw [close_none hand] at closed
    refine closed.opens dev out fun j k live => ?_
    obtain ⟨r, same, -⟩ := reached.live p j k live
    exact nomatch hand.symm.trans same
  | some r =>
    by_cases polarity : r.polarity = p
    · subst polarity
      simp only [if_true]
      exact reached.extends hand dev out
    · simp only [if_neg polarity]
      refine reached.close.opens dev out fun j k live => ?_
      obtain ⟨x, same, is, -⟩ := reached.live p j k live
      cases Option.some.inj (hand.symm.trans same)
      exact polarity is

theorem reached_excluded (reached : s.Reached classes bridge minRun n) (is : classes[n]? = some .excluded) :
    (s.close minRun).Reached classes bridge minRun (n + 1) := by
  have inside : ∀ p, ¬OutAt classes p n := fun p out => by
    have := outAt_class out is
    cases p <;> exact absurd this Bool.false_ne_true
  refine reached.close.quiet inside fun p j k live => ?_
  rcases live_succ live with ⟨-, chain⟩ | ⟨band, -⟩
  · exact inside p chain.out_last
  · exact nomatch is.symm.trans band

/-- One lane of the scan (R112). -/
theorem reached_lane {c : LaneClass} (reached : s.Reached classes bridge minRun n) (is : classes[n]? = some c) :
    (s.lane minRun bridge n c).Reached classes bridge minRun (n + 1) := by
  cases c with
  | excluded => exact reached_excluded reached is
  | inBand => exact reached_bandLane reached is
  | above d =>
    have dev : laneDeviation classes .above n = some d := by rw [laneDeviation, is]; rfl
    refine reached_outOfBand reached dev fun q out => ?_
    have := outAt_class out is
    cases q with
    | above => rfl
    | below => exact absurd this Bool.false_ne_true
  | below d =>
    have dev : laneDeviation classes .below n = some d := by rw [laneDeviation, is]; rfl
    refine reached_outOfBand reached dev fun q out => ?_
    have := outAt_class out is
    cases q with
    | above => exact absurd this Bool.false_ne_true
    | below => rfl

/-- The scan from a lane to the end of the line (R112). -/
theorem closed_lanes (rest : List LaneClass) : ∀ {n : Nat} {s : Scan}, s.Reached classes bridge minRun n →
    rest = classes.drop n → ∃ m, classes.length ≤ m ∧ (Scan.lanes minRun bridge n rest s).Closed classes bridge minRun m := by
  induction rest with
  | nil => exact fun {n s} reached ends => ⟨n, List.drop_eq_nil_iff.mp ends.symm, reached.close⟩
  | cons c rest ih =>
    intro n s reached starts
    have here : classes[n]? = some c := by
      have := congrArg (·[0]?) starts
      simpa using this.symm
    have follows : rest = classes.drop (n + 1) := by
      have := congrArg List.tail starts
      rwa [List.tail_drop] at this
    exact ih (reached_lane reached here) follows

end

/-- At the start of a line nothing is listed or in hand (R112). -/
theorem reached_start (classes : List LaneClass) (bridge minRun : Nat) :
    (⟨.noRun, [], 0⟩ : Scan).Reached classes bridge minRun 0 where
  lists := ⟨Nat.zero_le _, fun dropped => absurd dropped (Nat.lt_irrefl 0), .nil, (fun _ hr => nomatch hr), (fun _ hr => nomatch hr)⟩
  ends := fun _ hr => nomatch hr
  hand := fun _ hand => nomatch hand
  live := fun _ _ _ ⟨_, before, _⟩ => absurd before (Nat.not_lt_zero _)
  covers := fun _ _ _ _ before => absurd before (Nat.not_lt_zero _)

end Sys2Proof.Machine
end

section
/-! PROOFS. The run list of a line and the teach claims (O31). -/

namespace Sys2Proof.Machine

-- The run list

theorem classifyLine_length (ranges : List (Nat × Nat)) : ∀ (lane : Nat) (means lower upper : List Half),
    (classifyLine ranges lane means lower upper).length ≤ means.length
  | lane, _ :: means, _ :: lower, _ :: upper => Nat.succ_le_succ (classifyLine_length ranges (lane + 1) means lower upper)
  | _, [], _, _ | _, _ :: _, [], _ | _, _ :: _, _ :: _, [] => Nat.zero_le _

/-- The scan of a line ends with its last run closed (R112). -/
theorem extractRuns_closed (c : Context) (means lower upper : List Half) :
    ∃ m, (classifyLine c.excluded 0 means lower upper).length ≤ m ∧
      (extractRuns c means lower upper).Closed (classifyLine c.excluded 0 means lower upper) c.gapBridge c.minRun m :=
  closed_lanes _ (reached_start _ c.gapBridge c.minRun) List.drop_zero.symm

-- Teach values

theorem upperTeach_toNat (margin : Nat) (m : Half) : (upperTeach margin m).toNat = min 65535 (m.toNat + margin) := by
  unfold upperTeach
  rw [BitVec.toNat_ofNat]
  omega

theorem lowerTeach_toNat (margin : Nat) (m : Half) : (lowerTeach margin m).toNat = m.toNat - margin := by
  unfold lowerTeach
  rw [BitVec.toNat_ofNat]
  have := m.isLt
  omega

/-- A write of one lane (R17). -/
theorem lane_perform_single (epoch row lane : Nat) (mem : Memory) (cond : WriteCond) (v : Half) :
    Memory.lane epoch (mem.perform epoch row (.write cond [(lane, v)])).1 (laneAddr row lane) =
      if cond.holds (Memory.lane epoch mem (laneAddr row lane)) v = true then v
      else Memory.lane epoch mem (laneAddr row lane) :=
  (writeLanes_spec epoch row cond [(lane, v)] (List.nodup_singleton lane) mem).1 lane v (List.mem_singleton_self _)

/-- A write of greater values leaves the greater value (R17, R117). -/
theorem lane_perform_greater (epoch row lane : Nat) (mem : Memory) (v : Half) :
    (Memory.lane epoch (mem.perform epoch row (.write .ifGreater [(lane, v)])).1 (laneAddr row lane)).toNat =
      max (Memory.lane epoch mem (laneAddr row lane)).toNat v.toNat := by
  rw [lane_perform_single, apply_ite BitVec.toNat, max_def_lt]
  simp only [WriteCond.holds, decide_eq_true_iff]

/-- A write of lesser values leaves the lesser value (R17, R117). -/
theorem lane_perform_less (epoch row lane : Nat) (mem : Memory) (v : Half) :
    (Memory.lane epoch (mem.perform epoch row (.write .ifLess [(lane, v)])).1 (laneAddr row lane)).toNat =
      min (Memory.lane epoch mem (laneAddr row lane)).toNat v.toNat := by
  rw [lane_perform_single, apply_ite BitVec.toNat, min_comm, min_def_lt]
  simp only [WriteCond.holds, decide_eq_true_iff]

-- Teach claims

/-- The claims that teach one bound of a line, a claim for each row (R118). -/
def State.teachRows (bound : Plane) (cond : WriteCond) (teach : Half → Half) (means : List Half) (s : State) : List Claim :=
  (List.range s.slot).map fun t =>
    ⟨s.profileRow s.lineContext bound + t, .write cond (teachChunk s.lineContext.excluded teach means t), .teach⟩

theorem mem_teachClaims {s : State} {means : List Half} {k : Claim} : k ∈ s.teachClaims means ↔
    (k ∈ s.teachRows .upper .ifGreater (upperTeach s.lineContext.marginAbove) means ∨
      k ∈ s.teachRows .lower .ifLess (lowerTeach s.lineContext.marginBelow) means) ∧ k.op.lanes ≠ [] := by
  unfold State.teachClaims State.teachRows
  rw [List.mem_filter, List.mem_append, Bool.not_eq_true', List.isEmpty_eq_false_iff]

/-- A lane that is not excluded is named with its teach value (R118). -/
theorem teachRows_names {s : State} {means : List Half} {t l : Nat} {m : Half} (bound : Plane) (cond : WriteCond)
    (teach : Half → Half) (row : t < s.slot) (lane : l < 512) (mean : means[512 * t + l]? = some m)
    (taught : excludedLane s.lineContext.excluded (512 * t + l) = false) :
    let k : Claim := ⟨s.profileRow s.lineContext bound + t, .write cond (teachChunk s.lineContext.excluded teach means t), .teach⟩
    k ∈ s.teachRows bound cond teach means ∧ k.op.lanes ≠ [] ∧
      (l, teach m) ∈ teachChunk s.lineContext.excluded teach means t := by
  intro k
  have named : (l, teach m) ∈ teachChunk s.lineContext.excluded teach means t :=
    (mem_teachChunk ..).mpr ⟨m, rfl, lane, mean, taught⟩
  have op : l ∈ k.op.lanes := List.mem_map_of_mem named
  exact ⟨List.mem_map_of_mem (List.mem_range.mpr row), List.ne_nil_of_mem op, named⟩

/-- A teach claim is for one row, and names lanes of the line that are not excluded (R118). -/
theorem teachRows_only {s : State} {means : List Half} {k : Claim} {bound : Plane} {cond : WriteCond} {teach : Half → Half}
    (mem : k ∈ s.teachRows bound cond teach means) : k.use = .teach ∧ ∃ t < s.slot,
      (∀ l ∈ k.op.lanes, l < 512 ∧ 512 * t + l < means.length ∧ excludedLane s.lineContext.excluded (512 * t + l) = false) ∧
      k.row = s.profileRow s.lineContext bound + t ∧ ∃ values, k.op = .write cond values := by
  obtain ⟨t, ht, rfl⟩ := List.mem_map.mp mem
  refine ⟨rfl, t, List.mem_range.mp ht, fun l hl => ?_, rfl, _, rfl⟩
  obtain ⟨⟨l, v⟩, named, rfl⟩ := List.mem_map.mp hl
  obtain ⟨m, -, lane, mean, taught⟩ := (mem_teachChunk ..).mp named
  exact ⟨lane, (List.getElem?_eq_some_iff.mp mean).1, taught⟩

/-- Settles O31: the run list by what the scan keeps lane by lane, a teach update by what a conditional write of one lane
leaves, and the teach claims by the lanes that their rows name. -/
theorem runListsAreFilteredAndTeachingWidens : Obligations.RunListsAreFilteredAndTeachingWidens := by
  unfold Obligations.RunListsAreFilteredAndTeachingWidens
  refine ⟨?_, ?_, ?_⟩
  · intro c means lower upper scan lane deviation out
    have same : deviation = laneDeviation (classifyLine c.excluded 0 means lower upper) := by
      funext p i
      simp only [deviation, lane, laneDeviation]
      cases (classifyLine c.excluded 0 means lower upper)[i]? with
      | none => cases p <;> rfl
      | some k => cases p <;> cases k <;> rfl
    clear_value deviation
    subst same
    obtain ⟨m, all, closed⟩ := extractRuns_closed c means lower upper
    obtain ⟨places, full, order, tells, extent⟩ := closed.lists
    have length := classifyLine_length c.excluded 0 means lower upper
    refine ⟨places, full, order, fun r hr => ?_, fun p j k least first last enough between gaps => ?_⟩
    · obtain ⟨chain, count, peakFrom, peakTo, peak, highest⟩ := tells r hr
      exact ⟨chain.le, extent r hr, Nat.lt_of_lt_of_le (outAt_lt chain.out_last) length, chain.out_first, chain.out_last,
        chain.between, chain.gaps, count, peakFrom, peakTo, peak, highest⟩
    · have chain := Chain.of_gaps first least last between gaps
      exact closed.covers p j k chain (Nat.lt_of_lt_of_le (outAt_lt last) all) (by omega)
  · intro epoch row lane margin mem m old
    rw [lane_perform_greater, lane_perform_less, upperTeach_toNat, lowerTeach_toNat]
    exact ⟨rfl, rfl⟩
  · intro s means c
    refine ⟨fun t l m row lane mean taught => ⟨?_, ?_⟩, fun k hk => ?_⟩
    · obtain ⟨claim, names, value⟩ := teachRows_names .upper .ifGreater (upperTeach c.marginAbove) row lane mean taught
      exact ⟨_, mem_teachClaims.mpr ⟨.inl claim, names⟩, value⟩
    · obtain ⟨claim, names, value⟩ := teachRows_names .lower .ifLess (lowerTeach c.marginBelow) row lane mean taught
      exact ⟨_, mem_teachClaims.mpr ⟨.inr claim, names⟩, value⟩
    · obtain ⟨claim | claim, names⟩ := mem_teachClaims.mp hk
      · obtain ⟨use, t, ht, lanes, row, op⟩ := teachRows_only claim
        exact ⟨use, names, t, ht, lanes, .inl ⟨row, op⟩⟩
      · obtain ⟨use, t, ht, lanes, row, op⟩ := teachRows_only claim
        exact ⟨use, names, t, ht, lanes, .inr ⟨row, op⟩⟩

end Sys2Proof.Machine
end
